-- ==== Sys2Proof/Word.lean ====
section
/-! DEFINITION. The widths of the machine: words, bytes, register numbers. A reorder-buffer index
(`RobIdx` of 10_state.md R22, an integer in 0 .. ROB_CAP-1) is a `Nat`. -/

namespace Sys2Proof

/-- A 32-bit value: registers, addresses, instruction words (00_scope.md R8 `XLEN`, R9). -/
abbrev Word := BitVec 32

/-- One byte of memory (10_state.md R24). -/
abbrev Byte := BitVec 8

/-- A general register's number, 0 to 31 (10_state.md R20). -/
abbrev RegIdx := BitVec 5

end Sys2Proof
end

