-- ==== Sys2Proof/Config.lean ====
section
/-! DEFINITION. The implementation parameters of 00_scope.md R8 as plain data, the reference
configurations REF and REF3, and the predictor parameter of 41_issue_unit.md R166. -/

namespace Sys2Proof

/-- The predictor's state `PState`, coded as a natural number (DESIGN CHOICE, log 3). -/
abbrev PState := Nat

/-- Which predictor the machine has (41_issue_unit.md R166): `NT` and `T` of the spec's vectors, and
any other one, of which nothing is known. -/
inductive PredictorKind where
  | notTaken
  | taken
  | external
  deriving DecidableEq, Repr

/-- `Predict` of an arbitrary predictor: uninterpreted, so what is proved holds for every predictor
(41_issue_unit.md R166; log 3). -/
opaque Config.externalPredict : PState → Word → Bool

/-- `Feedback` of an arbitrary predictor: uninterpreted (41_issue_unit.md R166; log 3). -/
opaque Config.externalFeedback : PState → Word → Bool → PState

/-- The initial state of an arbitrary predictor: uninterpreted (41_issue_unit.md R166; log 3). -/
opaque Config.externalInit : PState

/-- The predictor's initial state `p0` (41_issue_unit.md R166). `NT` and `T` have no state: the one
value 0 stands for it (DESIGN CHOICE, log 3). -/
def PredictorKind.init : PredictorKind → PState
  | .notTaken => 0
  | .taken => 0
  | .external => Config.externalInit

/-- The five reservation-station banks (42_reservation_stations.md R200). -/
inductive Bank where
  | add
  | cmp
  | log
  | shf
  | ls
  deriving DecidableEq, Repr

/-- The parameters of 00_scope.md R8. `XLEN` and `NREG` are fixed at 32 and are not listed. -/
structure Config where
  iqCap : Nat
  robCap : Nat
  rsCapAdd : Nat
  rsCapCmp : Nat
  rsCapLog : Nat
  rsCapShf : Nat
  rsCapLs : Nat
  lqCap : Nat
  sqCap : Nat
  busCap : Nat
  latAdd : Nat
  latCmp : Nat
  latLog : Nat
  latShf : Nat
  latLoad : Nat
  latStore : Nat
  memSize : Nat
  predictor : PredictorKind
  deriving DecidableEq, Repr

/-- `RS_CAP[b]` (00_scope.md R8). -/
def Config.rsCap (c : Config) : Bank → Nat
  | .add => c.rsCapAdd
  | .cmp => c.rsCapCmp
  | .log => c.rsCapLog
  | .shf => c.rsCapShf
  | .ls => c.rsCapLs

/-- The constraints of the table of 00_scope.md R8. -/
abbrev Config.wf (c : Config) : Prop :=
  1 ≤ c.iqCap ∧ 1 ≤ c.robCap ∧
  (1 ≤ c.rsCapAdd ∧ 1 ≤ c.rsCapCmp ∧ 1 ≤ c.rsCapLog ∧ 1 ≤ c.rsCapShf ∧ 1 ≤ c.rsCapLs) ∧
  1 ≤ c.lqCap ∧ 1 ≤ c.sqCap ∧ 9 ≤ c.busCap ∧
  (1 ≤ c.latAdd ∧ 1 ≤ c.latCmp ∧ 1 ≤ c.latLog ∧ 1 ≤ c.latShf) ∧
  1 ≤ c.latLoad ∧ 1 ≤ c.latStore ∧ 8 ≤ c.memSize ∧ c.memSize ≤ 2 ^ 32

/-- The reference configuration REF of 00_scope.md R8. -/
def Config.ref : Config where
  iqCap := 4
  robCap := 8
  rsCapAdd := 4
  rsCapCmp := 4
  rsCapLog := 4
  rsCapShf := 4
  rsCapLs := 4
  lqCap := 4
  sqCap := 4
  busCap := 16
  latAdd := 1
  latCmp := 1
  latLog := 1
  latShf := 1
  latLoad := 1
  latStore := 1
  memSize := 65536
  predictor := .notTaken

/-- The second configuration REF3 of 00_scope.md R8: REF with `LAT_LOAD = LAT_STORE = 3`. -/
def Config.ref3 : Config := { Config.ref with latLoad := 3, latStore := 3 }

end Sys2Proof
end

