-- ==== Sys2Proof/Decode.lean ====
section
/-! DEFINITION. The decoder and the encoder (30_encoding.md R100 to R118): fields, immediates, the
opcode map, the INVALID words by the reason R118 gives, the decoded record of R100 and R105, and the
word of an instruction. The bit-level facts are the spec's own, taken there from the RV32I base. -/

namespace Sys2Proof

/-- The halt sentinel word (43_addsub.md R243). -/
def haltWord : Word := 0x0FF00513#32

/-- Why a word is INVALID: the cases of 30_encoding.md R118. -/
inductive DecodeError where
  /-- Fewer than four bytes were given (R101: every instruction is four bytes). -/
  | truncated
  /-- R118(a): `w[1:0]` is not 0b11. -/
  | notWordForm
  /-- R118(b): the major opcode is none of the nine in use. -/
  | majorOpcode
  /-- R118(c): opcode 0x67 with funct3 not 0. -/
  | jalrFunct3
  /-- R118(d): opcode 0x63 with funct3 2 or 3. -/
  | branchFunct3
  /-- R118(e): opcode 0x03 with funct3 3, 6 or 7. -/
  | loadFunct3
  /-- R118(f): opcode 0x23 with funct3 above 2. -/
  | storeFunct3
  /-- R118(g): a shift-immediate word with another funct7. -/
  | shiftFunct7
  /-- R118(h): opcode 0x33 with a (funct3, funct7) pair of no row. -/
  | registerFunct7
  deriving DecidableEq, Repr

/-! ## Fields and immediates -/

/-- `w[6:0]` (R102). -/
def opcodeOf (w : Word) : BitVec 7 := w.extractLsb' 0 7

/-- `w[11:7]` (R102). -/
def rdOf (w : Word) : RegIdx := w.extractLsb' 7 5

/-- `w[14:12]` (R102). -/
def funct3Of (w : Word) : BitVec 3 := w.extractLsb' 12 3

/-- `w[19:15]` (R102). -/
def rs1Of (w : Word) : RegIdx := w.extractLsb' 15 5

/-- `w[24:20]` (R102). -/
def rs2Of (w : Word) : RegIdx := w.extractLsb' 20 5

/-- `w[31:25]` (R102). -/
def funct7Of (w : Word) : BitVec 7 := w.extractLsb' 25 7

/-- The I immediate's field `w[31:20]` (R103, R104). -/
def immIOf (w : Word) : BitVec 12 := w.extractLsb' 20 12

/-- The S immediate's field `w[31:25] ++ w[11:7]` (R103, R104). -/
def immSOf (w : Word) : BitVec 12 := w.extractLsb' 25 7 ++ w.extractLsb' 7 5

/-- The B offset `w[31] ++ w[7] ++ w[30:25] ++ w[11:8] ++ 0b0` (R103, R104). -/
def offBOf (w : Word) : BitVec 13 :=
  w.extractLsb' 31 1 ++ w.extractLsb' 7 1 ++ w.extractLsb' 25 6 ++ w.extractLsb' 8 4 ++ 0#1

/-- The U immediate's 20 bits `w[31:12]` (R103, R104). -/
def immUOf (w : Word) : BitVec 20 := w.extractLsb' 12 20

/-- The J offset `w[31] ++ w[19:12] ++ w[20] ++ w[30:21] ++ 0b0` (R103, R104). -/
def offJOf (w : Word) : BitVec 21 :=
  w.extractLsb' 31 1 ++ w.extractLsb' 12 8 ++ w.extractLsb' 20 1 ++ w.extractLsb' 21 10 ++ 0#1

/-- `sext_12` (R104). -/
def sext12 (v : BitVec 12) : Word := v.signExtend 32

/-- `sext_13` (R104). -/
def sext13 (v : BitVec 13) : Word := v.signExtend 32

/-- `sext_21` (R104). -/
def sext21 (v : BitVec 21) : Word := v.signExtend 32

/-- The U immediate as a Word: the 20 bits and twelve zeros (R104). -/
def uImm (v : BitVec 20) : Word := v ++ 0#12

/-- `zext_5` of a shift amount (R104). -/
def zext5 (v : BitVec 5) : Word := v.setWidth 32

/-! ## The opcode map -/

/-- Rows of R112 with opcode 0x33. -/
def decodeRegister (w : Word) : Except DecodeError Instr :=
  match funct3Of w, funct7Of w with
  | 0#3, 0#7 => .ok (.add (rdOf w) (rs1Of w) (rs2Of w))
  | 0#3, 32#7 => .ok (.sub (rdOf w) (rs1Of w) (rs2Of w))
  | 1#3, 0#7 => .ok (.sll (rdOf w) (rs1Of w) (rs2Of w))
  | 2#3, 0#7 => .ok (.slt (rdOf w) (rs1Of w) (rs2Of w))
  | 3#3, 0#7 => .ok (.sltu (rdOf w) (rs1Of w) (rs2Of w))
  | 4#3, 0#7 => .ok (.xor (rdOf w) (rs1Of w) (rs2Of w))
  | 5#3, 0#7 => .ok (.srl (rdOf w) (rs1Of w) (rs2Of w))
  | 5#3, 32#7 => .ok (.sra (rdOf w) (rs1Of w) (rs2Of w))
  | 6#3, 0#7 => .ok (.or (rdOf w) (rs1Of w) (rs2Of w))
  | 7#3, 0#7 => .ok (.and (rdOf w) (rs1Of w) (rs2Of w))
  | _, _ => .error .registerFunct7

/-- Rows of R112 with opcode 0x13. -/
def decodeImmediate (w : Word) : Except DecodeError Instr :=
  match funct3Of w with
  | 0#3 => .ok (.addi (rdOf w) (rs1Of w) (immIOf w))
  | 2#3 => .ok (.slti (rdOf w) (rs1Of w) (immIOf w))
  | 3#3 => .ok (.sltiu (rdOf w) (rs1Of w) (immIOf w))
  | 4#3 => .ok (.xori (rdOf w) (rs1Of w) (immIOf w))
  | 6#3 => .ok (.ori (rdOf w) (rs1Of w) (immIOf w))
  | 7#3 => .ok (.andi (rdOf w) (rs1Of w) (immIOf w))
  | 1#3 =>
    match funct7Of w with
    | 0#7 => .ok (.slli (rdOf w) (rs1Of w) (rs2Of w))
    | _ => .error .shiftFunct7
  | _ =>
    match funct7Of w with
    | 0#7 => .ok (.srli (rdOf w) (rs1Of w) (rs2Of w))
    | 32#7 => .ok (.srai (rdOf w) (rs1Of w) (rs2Of w))
    | _ => .error .shiftFunct7

/-- Rows of R112 with opcode 0x63. -/
def decodeBranch (w : Word) : Except DecodeError Instr :=
  match funct3Of w with
  | 0#3 => .ok (.beq (rs1Of w) (rs2Of w) (offBOf w))
  | 1#3 => .ok (.bne (rs1Of w) (rs2Of w) (offBOf w))
  | 4#3 => .ok (.blt (rs1Of w) (rs2Of w) (offBOf w))
  | 5#3 => .ok (.bge (rs1Of w) (rs2Of w) (offBOf w))
  | 6#3 => .ok (.bltu (rs1Of w) (rs2Of w) (offBOf w))
  | 7#3 => .ok (.bgeu (rs1Of w) (rs2Of w) (offBOf w))
  | _ => .error .branchFunct3

/-- Rows of R112 with opcode 0x03. -/
def decodeLoad (w : Word) : Except DecodeError Instr :=
  match funct3Of w with
  | 0#3 => .ok (.lb (rdOf w) (rs1Of w) (immIOf w))
  | 1#3 => .ok (.lh (rdOf w) (rs1Of w) (immIOf w))
  | 2#3 => .ok (.lw (rdOf w) (rs1Of w) (immIOf w))
  | 4#3 => .ok (.lbu (rdOf w) (rs1Of w) (immIOf w))
  | 5#3 => .ok (.lhu (rdOf w) (rs1Of w) (immIOf w))
  | _ => .error .loadFunct3

/-- Rows of R112 with opcode 0x23. -/
def decodeStore (w : Word) : Except DecodeError Instr :=
  match funct3Of w with
  | 0#3 => .ok (.sb (rs2Of w) (rs1Of w) (immSOf w))
  | 1#3 => .ok (.sh (rs2Of w) (rs1Of w) (immSOf w))
  | 2#3 => .ok (.sw (rs2Of w) (rs1Of w) (immSOf w))
  | _ => .error .storeFunct3

/-- The row of R112 with opcode 0x67. -/
def decodeJalr (w : Word) : Except DecodeError Instr :=
  match funct3Of w with
  | 0#3 => .ok (.jalr (rdOf w) (rs1Of w) (immIOf w))
  | _ => .error .jalrFunct3

/-- The decoder, total on all words, INVALID words rejected by name (R100, R111, R112, R118). The
sentinel row is tested before the ADDI row (opcode_table.json row HALT; R163 first row; log 9). -/
def decode (w : Word) : Except DecodeError Instr :=
  if w = haltWord then .ok .halt
  else if w.extractLsb' 0 2 ≠ 3#2 then .error .notWordForm
  else
    match opcodeOf w with
    | 0x37#7 => .ok (.lui (rdOf w) (immUOf w))
    | 0x17#7 => .ok (.auipc (rdOf w) (immUOf w))
    | 0x6F#7 => .ok (.jal (rdOf w) (offJOf w))
    | 0x67#7 => decodeJalr w
    | 0x63#7 => decodeBranch w
    | 0x03#7 => decodeLoad w
    | 0x23#7 => decodeStore w
    | 0x13#7 => decodeImmediate w
    | 0x33#7 => decodeRegister w
    | _ => .error .majorOpcode

/-- Four bytes as a word, the first one the least significant (20_memory.md R71, R101). -/
def wordOfBytes (b0 b1 b2 b3 : Byte) : Word := b3 ++ b2 ++ b1 ++ b0

/-- The bytes of a word in address order (20_memory.md R71). -/
def bytesOfWord (w : Word) : List Byte :=
  [w.extractLsb' 0 8, w.extractLsb' 8 8, w.extractLsb' 16 8, w.extractLsb' 24 8]

/-- Decoding from a byte stream: the instruction and the bytes after it (R101). -/
def decodeBytes : List Byte → Except DecodeError (Instr × List Byte)
  | b0 :: b1 :: b2 :: b3 :: rest =>
    match decode (wordOfBytes b0 b1 b2 b3) with
    | .ok i => .ok (i, rest)
    | .error e => .error e
  | _ => .error .truncated

/-- The instruction the decoder reads from an opcode-table row's `nbits` bits `w`, stored in the byte
order of R71. -/
def decodeTableWord (nbits w : Nat) : Option Instr :=
  match decodeBytes (bytesOfWord (BitVec.ofNat 32 (w % 2 ^ nbits))) with
  | .ok (i, _) => some i
  | .error _ => none

/-! ## The encoder -/

/-- The R format, and I-shift with the shift amount in the rs2 field (R103). -/
def encodeR (funct7 : BitVec 7) (rs2 rs1 : BitVec 5) (funct3 : BitVec 3) (rd : BitVec 5)
    (opcode : BitVec 7) : Word :=
  funct7 ++ rs2 ++ rs1 ++ funct3 ++ rd ++ opcode

/-- The I format (R103). -/
def encodeI (imm : BitVec 12) (rs1 : BitVec 5) (funct3 : BitVec 3) (rd : BitVec 5)
    (opcode : BitVec 7) : Word :=
  imm ++ rs1 ++ funct3 ++ rd ++ opcode

/-- The S format (R103). -/
def encodeS (imm : BitVec 12) (rs2 rs1 : BitVec 5) (funct3 : BitVec 3) (opcode : BitVec 7) : Word :=
  imm.extractLsb' 5 7 ++ rs2 ++ rs1 ++ funct3 ++ imm.extractLsb' 0 5 ++ opcode

/-- The B format (R103). -/
def encodeB (off : BitVec 13) (rs2 rs1 : BitVec 5) (funct3 : BitVec 3) (opcode : BitVec 7) : Word :=
  off.extractLsb' 12 1 ++ off.extractLsb' 5 6 ++ rs2 ++ rs1 ++ funct3 ++ off.extractLsb' 1 4 ++
    off.extractLsb' 11 1 ++ opcode

/-- The U format (R103). -/
def encodeU (imm : BitVec 20) (rd : BitVec 5) (opcode : BitVec 7) : Word :=
  imm ++ rd ++ opcode

/-- The J format (R103). -/
def encodeJ (off : BitVec 21) (rd : BitVec 5) (opcode : BitVec 7) : Word :=
  off.extractLsb' 20 1 ++ off.extractLsb' 1 10 ++ off.extractLsb' 11 1 ++ off.extractLsb' 12 8 ++
    rd ++ opcode

/-- The word of an instruction, by the rows of R112. -/
def encode : Instr → Word
  | .halt => haltWord
  | .lui rd imm => encodeU imm rd 0x37#7
  | .auipc rd imm => encodeU imm rd 0x17#7
  | .jal rd off => encodeJ off rd 0x6F#7
  | .jalr rd rs1 imm => encodeI imm rs1 0#3 rd 0x67#7
  | .beq rs1 rs2 off => encodeB off rs2 rs1 0#3 0x63#7
  | .bne rs1 rs2 off => encodeB off rs2 rs1 1#3 0x63#7
  | .blt rs1 rs2 off => encodeB off rs2 rs1 4#3 0x63#7
  | .bge rs1 rs2 off => encodeB off rs2 rs1 5#3 0x63#7
  | .bltu rs1 rs2 off => encodeB off rs2 rs1 6#3 0x63#7
  | .bgeu rs1 rs2 off => encodeB off rs2 rs1 7#3 0x63#7
  | .lb rd rs1 imm => encodeI imm rs1 0#3 rd 0x03#7
  | .lh rd rs1 imm => encodeI imm rs1 1#3 rd 0x03#7
  | .lw rd rs1 imm => encodeI imm rs1 2#3 rd 0x03#7
  | .lbu rd rs1 imm => encodeI imm rs1 4#3 rd 0x03#7
  | .lhu rd rs1 imm => encodeI imm rs1 5#3 rd 0x03#7
  | .sb rs2 rs1 imm => encodeS imm rs2 rs1 0#3 0x23#7
  | .sh rs2 rs1 imm => encodeS imm rs2 rs1 1#3 0x23#7
  | .sw rs2 rs1 imm => encodeS imm rs2 rs1 2#3 0x23#7
  | .addi rd rs1 imm => encodeI imm rs1 0#3 rd 0x13#7
  | .slti rd rs1 imm => encodeI imm rs1 2#3 rd 0x13#7
  | .sltiu rd rs1 imm => encodeI imm rs1 3#3 rd 0x13#7
  | .xori rd rs1 imm => encodeI imm rs1 4#3 rd 0x13#7
  | .ori rd rs1 imm => encodeI imm rs1 6#3 rd 0x13#7
  | .andi rd rs1 imm => encodeI imm rs1 7#3 rd 0x13#7
  | .slli rd rs1 shamt => encodeR 0#7 shamt rs1 1#3 rd 0x13#7
  | .srli rd rs1 shamt => encodeR 0#7 shamt rs1 5#3 rd 0x13#7
  | .srai rd rs1 shamt => encodeR 32#7 shamt rs1 5#3 rd 0x13#7
  | .add rd rs1 rs2 => encodeR 0#7 rs2 rs1 0#3 rd 0x33#7
  | .sub rd rs1 rs2 => encodeR 32#7 rs2 rs1 0#3 rd 0x33#7
  | .sll rd rs1 rs2 => encodeR 0#7 rs2 rs1 1#3 rd 0x33#7
  | .slt rd rs1 rs2 => encodeR 0#7 rs2 rs1 2#3 rd 0x33#7
  | .sltu rd rs1 rs2 => encodeR 0#7 rs2 rs1 3#3 rd 0x33#7
  | .xor rd rs1 rs2 => encodeR 0#7 rs2 rs1 4#3 rd 0x33#7
  | .srl rd rs1 rs2 => encodeR 0#7 rs2 rs1 5#3 rd 0x33#7
  | .sra rd rs1 rs2 => encodeR 32#7 rs2 rs1 5#3 rd 0x33#7
  | .or rd rs1 rs2 => encodeR 0#7 rs2 rs1 6#3 rd 0x33#7
  | .and rd rs1 rs2 => encodeR 0#7 rs2 rs1 7#3 rd 0x33#7

/-! ## The decoded record -/

/-- The record `DRec` the decoder contract returns (R100). Register indices are 0 .. 31 or none. -/
structure DRec where
  mn : Mnemonic
  cls : OpClass
  rd : Option RegIdx
  rs1 : Option RegIdx
  rs2 : Option RegIdx
  imm : Word
  deriving DecidableEq, Repr

/-- The operands the decoder returns, by class (R105). The sentinel word is ADDI to the decoder
(R111). -/
def Instr.drec : Instr → DRec
  | .halt => ⟨.addi, .arithImm, some 10, some 0, none, sext12 255⟩
  | .lui rd imm => ⟨.lui, .other, some rd, none, none, uImm imm⟩
  | .auipc rd imm => ⟨.auipc, .other, some rd, none, none, uImm imm⟩
  | .jal rd off => ⟨.jal, .other, some rd, none, none, sext21 off⟩
  | .jalr rd rs1 imm => ⟨.jalr, .other, some rd, some rs1, none, sext12 imm⟩
  | .beq rs1 rs2 off => ⟨.beq, .branch, none, some rs1, some rs2, sext13 off⟩
  | .bne rs1 rs2 off => ⟨.bne, .branch, none, some rs1, some rs2, sext13 off⟩
  | .blt rs1 rs2 off => ⟨.blt, .branch, none, some rs1, some rs2, sext13 off⟩
  | .bge rs1 rs2 off => ⟨.bge, .branch, none, some rs1, some rs2, sext13 off⟩
  | .bltu rs1 rs2 off => ⟨.bltu, .branch, none, some rs1, some rs2, sext13 off⟩
  | .bgeu rs1 rs2 off => ⟨.bgeu, .branch, none, some rs1, some rs2, sext13 off⟩
  | .lb rd rs1 imm => ⟨.lb, .load, some rd, some rs1, none, sext12 imm⟩
  | .lh rd rs1 imm => ⟨.lh, .load, some rd, some rs1, none, sext12 imm⟩
  | .lw rd rs1 imm => ⟨.lw, .load, some rd, some rs1, none, sext12 imm⟩
  | .lbu rd rs1 imm => ⟨.lbu, .load, some rd, some rs1, none, sext12 imm⟩
  | .lhu rd rs1 imm => ⟨.lhu, .load, some rd, some rs1, none, sext12 imm⟩
  | .sb rs2 rs1 imm => ⟨.sb, .store, none, some rs1, some rs2, sext12 imm⟩
  | .sh rs2 rs1 imm => ⟨.sh, .store, none, some rs1, some rs2, sext12 imm⟩
  | .sw rs2 rs1 imm => ⟨.sw, .store, none, some rs1, some rs2, sext12 imm⟩
  | .addi rd rs1 imm => ⟨.addi, .arithImm, some rd, some rs1, none, sext12 imm⟩
  | .slti rd rs1 imm => ⟨.slti, .arithImm, some rd, some rs1, none, sext12 imm⟩
  | .sltiu rd rs1 imm => ⟨.sltiu, .arithImm, some rd, some rs1, none, sext12 imm⟩
  | .xori rd rs1 imm => ⟨.xori, .arithImm, some rd, some rs1, none, sext12 imm⟩
  | .ori rd rs1 imm => ⟨.ori, .arithImm, some rd, some rs1, none, sext12 imm⟩
  | .andi rd rs1 imm => ⟨.andi, .arithImm, some rd, some rs1, none, sext12 imm⟩
  | .slli rd rs1 shamt => ⟨.slli, .arithImm, some rd, some rs1, none, zext5 shamt⟩
  | .srli rd rs1 shamt => ⟨.srli, .arithImm, some rd, some rs1, none, zext5 shamt⟩
  | .srai rd rs1 shamt => ⟨.srai, .arithImm, some rd, some rs1, none, zext5 shamt⟩
  | .add rd rs1 rs2 => ⟨.add, .arithReg, some rd, some rs1, some rs2, 0⟩
  | .sub rd rs1 rs2 => ⟨.sub, .arithReg, some rd, some rs1, some rs2, 0⟩
  | .sll rd rs1 rs2 => ⟨.sll, .arithReg, some rd, some rs1, some rs2, 0⟩
  | .slt rd rs1 rs2 => ⟨.slt, .arithReg, some rd, some rs1, some rs2, 0⟩
  | .sltu rd rs1 rs2 => ⟨.sltu, .arithReg, some rd, some rs1, some rs2, 0⟩
  | .xor rd rs1 rs2 => ⟨.xor, .arithReg, some rd, some rs1, some rs2, 0⟩
  | .srl rd rs1 rs2 => ⟨.srl, .arithReg, some rd, some rs1, some rs2, 0⟩
  | .sra rd rs1 rs2 => ⟨.sra, .arithReg, some rd, some rs1, some rs2, 0⟩
  | .or rd rs1 rs2 => ⟨.or, .arithReg, some rd, some rs1, some rs2, 0⟩
  | .and rd rs1 rs2 => ⟨.and, .arithReg, some rd, some rs1, some rs2, 0⟩

/-- `Decode(w)` of R100 as a total function to records: a word of no row gives the INVALID record. -/
def decodeRecord (w : Word) : DRec :=
  match decode w with
  | .ok i => i.drec
  | .error _ => ⟨.invalid, .other, none, none, none, 0⟩

end Sys2Proof
end

