-- ==== Sys2Proof/Machine/State.lean ====
section
/-! DEFINITION. The whole machine state at a tick boundary (10_state.md R20 to R42), as plain data; the
faults and refusals a step can end in; the state after reset (R45). -/

namespace Sys2Proof.Machine

/-! ## Operations by unit (10_state.md R29, 42_reservation_stations.md R200; log 7) -/

/-- Operations of bank ADD. -/
inductive AddOp where
  | add | sub | jalr
  deriving DecidableEq, Repr

/-- Operations of bank CMP. -/
inductive CmpOp where
  | slt | sltu | beq | bne | blt | bge | bltu | bgeu
  deriving DecidableEq, Repr

/-- Operations of bank LOG. -/
inductive LogOp where
  | and | or | xor
  deriving DecidableEq, Repr

/-- Operations of bank SHF. -/
inductive ShfOp where
  | sll | srl | sra
  deriving DecidableEq, Repr

/-- Loads. -/
inductive LoadOp where
  | lb | lh | lw | lbu | lhu
  deriving DecidableEq, Repr

/-- Stores. -/
inductive StoreOp where
  | sb | sh | sw
  deriving DecidableEq, Repr

/-- Operations of bank LS. -/
inductive LsOp where
  | load (o : LoadOp)
  | store (o : StoreOp)
  deriving DecidableEq, Repr

/-- The operation the pipeline performs, `op` of R29 without INVALID (which is the absent operation). -/
inductive Op where
  | add (o : AddOp)
  | cmp (o : CmpOp)
  | log (o : LogOp)
  | shf (o : ShfOp)
  | ls (o : LsOp)
  deriving DecidableEq, Repr

/-! ## The instruction record -/

/-- A source operand after canonicalisation: a register to be read at issue, or a value known at fetch
(R29, 41_issue_unit.md R163). -/
inductive Source where
  | reg (r : RegIdx)
  | val (v : Word)
  deriving DecidableEq, Repr

/-- The canonical instruction record `IRec` (R29). -/
structure IRec where
  word : Word
  pc : Word
  mn : Mnemonic
  cls : OpClass
  /-- `none` is INVALID. -/
  op : Option Op
  rd : Option RegIdx
  src1 : Source
  src2 : Source
  imm : Word
  pred : Option Bool
  isHalt : Bool
  deriving DecidableEq, Repr

/-! ## Reservation stations and arithmetic stages -/

/-- An operand slot: resolved to a value, or pending on a producer tag (R32; log 6). -/
inductive Operand where
  | value (v : Word)
  | pending (q : Nat)
  deriving DecidableEq, Repr

/-- A reservation-station entry (R32). -/
structure RSEntry (α : Type) where
  op : α
  dest : Nat
  j : Operand
  k : Operand
  imm : Word
  deriving DecidableEq, Repr

/-- The five banks; a slot is free (`none`) or holds one entry (R33). -/
structure Banks where
  add : List (Option (RSEntry AddOp))
  cmp : List (Option (RSEntry CmpOp))
  log : List (Option (RSEntry LogOp))
  shf : List (Option (RSEntry ShfOp))
  ls : List (Option (RSEntry LsOp))
  deriving DecidableEq, Repr

/-- An arithmetic stage (R34). -/
inductive Stage (α : Type) where
  | idle
  | busy (rem : Nat) (op : α) (a b : Word) (dest : Nat)
  deriving DecidableEq, Repr

/-- The four arithmetic stages (R34). -/
structure Stages where
  add : Stage AddOp
  cmp : Stage CmpOp
  log : Stage LogOp
  shf : Stage ShfOp
  deriving DecidableEq, Repr

/-! ## Load/store buffer -/

/-- A load-queue entry (R35). -/
structure LoadEntry where
  op : LoadOp
  dest : Nat
  addr : Word
  ready : Bool
  ts : Nat
  deriving DecidableEq, Repr

/-- A store-queue entry (R35). -/
structure StoreEntry where
  op : StoreOp
  dest : Nat
  addr : Word
  ready : Bool
  ts : Nat
  committed : Bool
  data : Word
  deriving DecidableEq, Repr

/-- The load stage `LDST` (R36). -/
inductive LoadStage where
  | idle
  | busy (rem : Nat) (entry : LoadEntry)
  deriving DecidableEq, Repr

/-- The store stage `STST`; while busy it works on the head of `SQ` (R36). -/
inductive StoreStage where
  | idle
  | busy (rem : Nat)
  deriving DecidableEq, Repr

/-! ## Reorder buffer -/

/-- The commit state of a reorder-buffer entry (R37, 48_reorder_commit.md R382); `exec` is declared by
the document and never entered. -/
inductive RobState where
  | issue
  | exec
  | write
  | waitSt
  deriving DecidableEq, Repr

/-- A reorder-buffer entry (R37). -/
structure RobEntry where
  instr : IRec
  state : RobState
  rd : Option RegIdx
  value : Word
  deriving DecidableEq, Repr

/-- The reorder buffer: `head` and the live entries in program order, so that entry number `k` has the
index `head + k` modulo ROB_CAP and `count` is their number (R38; log 5). -/
structure Rob where
  head : Nat
  entries : List RobEntry
  deriving DecidableEq, Repr

/-! ## Issue latch and bus -/

/-- The load/store-buffer entry of the issue latch (R31). -/
inductive LsbEntry where
  | load (e : LoadEntry)
  | store (e : StoreEntry)
  deriving DecidableEq, Repr

/-- What Issue hands to the next Flush (R31). -/
structure Latch where
  idx : Nat
  robEntry : RobEntry
  rsEntry : RSEntry Op
  lsbEntry : Option LsbEntry
  deriving DecidableEq, Repr

/-- The five kinds of bus message (R39). -/
inductive MsgKind where
  | writeBack
  | getAddr
  | commitReg
  | commitMem
  | storeSuccess
  deriving DecidableEq, Repr

/-- A bus message (R39). -/
structure Msg where
  kind : MsgKind
  idx : Nat
  data : Word
  deriving DecidableEq, Repr

/-- The full flags (R40). -/
structure FullFlags where
  rob : Bool
  add : Bool
  cmp : Bool
  log : Bool
  shf : Bool
  ls : Bool
  lq : Bool
  sq : Bool
  deriving DecidableEq, Repr

/-! ## Fatal aborts and run status -/

/-- The structures an insert can overflow (60_exceptions.md R422). -/
inductive Overflowing where
  | reservationBank (b : Bank)
  | reorderBuffer
  | loadQueue
  | storeQueue
  | bus
  deriving DecidableEq, Repr

/-- The unit that made an access (R424). -/
inductive MemUnit where
  | fetch
  | load
  | store
  deriving DecidableEq, Repr

/-- The consistency checks between units (R425), with the message that failed. The last one is the
model's own: a busy store stage with no store queued, which no run reaches (log 11). -/
inductive Protocol where
  | writeBackDead (i : Nat) (v : Word)
  | storeSuccessMismatch (i : Nat)
  | getAddrWithoutEntry (i : Nat) (a : Word)
  | commitMemMismatch (i : Nat) (v : Word)
  | storeStageWithoutHead
  deriving DecidableEq, Repr

/-- A fatal abort with its kind and recorded information (R420, R422 to R427). -/
inductive Abort where
  | structuralOverflow (what : Overflowing) (cycle : Nat)
  | unclassifiable (word pc : Word) (cycle : Nat)
  | memoryOutOfRange (addr : Word) (n : Nat) (unit : MemUnit) (cycle : Nat)
  | protocolViolation (what : Protocol) (cycle : Nat)
  | unreachable (head : Nat) (cycle : Nat)
  deriving DecidableEq, Repr

/-- The run status (R42). -/
inductive Status where
  | running
  | halted (code : BitVec 8)
  | aborted (a : Abort)
  deriving DecidableEq, Repr

/-! ## The state -/

/-- Memory as (address, byte) pairs in one canonical form: addresses strictly rising, no byte 0x00
listed, since an unlisted address reads as 0x00 (R45; 70_reset_and_hazards.md R456(a); log 4). -/
abbrev Memory := List Host.Cell

/-- The machine state Σ at a tick boundary (10_state.md). -/
structure State where
  /-- The parameters of 00_scope.md R8; no step changes them (R43; log 2). -/
  cfg : Config
  /-- Register values (R20, R22); entry 0 is never read. -/
  x : Vector Word 32
  /-- Producer tags (R22); entry 0 is never read. -/
  tag : Vector (Option Nat) 32
  /-- The fetch program counter (R23). -/
  pc : Word
  /-- Memory (R24). -/
  mem : Memory
  /-- Fetch-stall flag (R27). -/
  stall : Bool
  /-- Squash signal (R27). -/
  clear : Bool
  /-- Halt flag (R27). -/
  halt : Bool
  /-- Completed ticks (R28). -/
  cycle : Nat
  /-- Instruction queue, head first (R30). -/
  iq : List IRec
  /-- Issue latch (R31). -/
  latch : Option Latch
  /-- Reservation stations (R33). -/
  rs : Banks
  /-- Arithmetic stages (R34). -/
  fu : Stages
  /-- Load queue, head first (R36). -/
  lq : List LoadEntry
  /-- Store queue, head first (R36). -/
  sq : List StoreEntry
  /-- Load stage (R36). -/
  ldst : LoadStage
  /-- Store stage (R36). -/
  stst : StoreStage
  /-- Reorder buffer (R38). -/
  rob : Rob
  /-- Messages emitted by the last Execute (R39). -/
  bus : List Msg
  /-- Full flags of the last Flush (R40; log 14). -/
  full : FullFlags
  /-- Predictor state (R41). -/
  pred : PState
  /-- Run status (R42). -/
  status : Status
  deriving DecidableEq, Repr

/-- Why a step has no outcome state: no tick is defined from a state that is not Running (R42). -/
inductive Fault where
  /-- Raised by a step (or exec) from a halted state (R42). Safe: the hardware takes no tick there. -/
  | halted (code : BitVec 8)
  /-- Raised by a step (or exec) from an aborted state (R42, 60_exceptions.md R420). Safe: the hardware
  takes no tick there. -/
  | aborted (a : Abort)
  deriving DecidableEq, Repr

/-- Why the model gives an instruction no meaning. -/
inductive Refusal where
  /-- Raised only by an arm of `exec` for an instruction that has no meaning yet; no arm raises it. Safe. -/
  | notModelled (mnemonic : String)
  deriving DecidableEq, Repr

/-! ## Reset -/

/-- Every slot of every bank free, at the configured sizes (R33, R45). -/
def Banks.empty (c : Config) : Banks where
  add := List.replicate c.rsCapAdd none
  cmp := List.replicate c.rsCapCmp none
  log := List.replicate c.rsCapLog none
  shf := List.replicate c.rsCapShf none
  ls := List.replicate c.rsCapLs none

/-- Every stage idle (R45). -/
def Stages.allIdle : Stages := ⟨.idle, .idle, .idle, .idle⟩

/-- Every full flag false (R45). -/
def FullFlags.none : FullFlags := ⟨false, false, false, false, false, false, false, false⟩

/-- The state the host builds for a run: configuration and memory image given, everything else at its
reset value (10_state.md R45; 70_reset_and_hazards.md R450). -/
def State.resetWith (c : Config) (m : Memory) : State where
  cfg := c
  x := Vector.replicate 32 0
  tag := Vector.replicate 32 none
  pc := 0
  mem := m
  stall := false
  clear := false
  halt := false
  cycle := 0
  iq := []
  latch := none
  rs := Banks.empty c
  fu := Stages.allIdle
  lq := []
  sq := []
  ldst := .idle
  stst := .idle
  rob := ⟨0, []⟩
  bus := []
  full := FullFlags.none
  pred := c.predictor.init
  status := .running

/-- The machine right after reset, under REF, with no image placed (R45; log 2, log 10). -/
def State.reset : State := State.resetWith Config.ref []

end Sys2Proof.Machine
end

