-- ==== Sys2Proof/Machine/Ops.lean ====
section
/-! DEFINITION. The named operations over memory, registers, the reorder buffer, the bus and the
predictor, and the one fault mechanism, the fatal abort. -/

namespace Sys2Proof.Machine

/-! ## Memory (20_memory.md) -/

/-- The canonical form: addresses strictly rising, no listed byte 0x00 (log 4). -/
abbrev Memory.wf (m : Memory) : Prop :=
  m.Pairwise (fun c d => c.1 < d.1) ∧ ∀ c ∈ m, c.2 ≠ 0

/-- The byte at an address; an unlisted address reads as 0x00 (R45; 70_reset_and_hazards.md R456(a)). -/
def Memory.read : Memory → Nat → Byte
  | [], _ => 0
  | (a, b) :: rest, at' => if at' = a then b else Memory.read rest at'

/-- Writes one byte, keeping the canonical form. -/
def Memory.write : Memory → Nat → Byte → Memory
  | [], at', v => if v = 0 then [] else [(at', v)]
  | (a, b) :: rest, at', v =>
    if at' < a then
      if v = 0 then (a, b) :: rest else (at', v) :: (a, b) :: rest
    else if at' = a then
      if v = 0 then rest else (a, v) :: rest
    else (a, b) :: Memory.write rest at' v

/-- `sum over i in 0..n-1 of Mem[addr + i] * 256^i` (R73). -/
def Memory.readNat (m : Memory) (addr : Nat) : Nat → Nat
  | 0 => 0
  | n + 1 => (m.read addr).toNat + 256 * Memory.readNat m (addr + 1) n

/-- `Mem[addr + i] <- (v >> 8i) & 0xFF` for i in 0..n-1 (R74). -/
def Memory.writeBytes (m : Memory) (addr : Nat) : Nat → Word → Memory
  | 0, _ => m
  | n + 1, v => Memory.writeBytes (m.write addr (v.setWidth 8)) (addr + 1) n (v >>> 8)

/-- The condition of `MemRead` and `MemWrite`, in unbounded integers (R73). -/
abbrev inRange (size : Nat) (addr : Word) (n : Nat) : Prop :=
  addr.toNat + n ≤ size

/-- `MemRead(addr, n)` (R73); `none` where the access is out of range (R75). -/
def memRead (m : Memory) (size : Nat) (addr : Word) (n : Nat) : Option Word :=
  if inRange size addr n then some (BitVec.ofNat 32 (m.readNat addr.toNat n)) else none

/-- `MemWrite(addr, n, v)` (R74); `none` where the access is out of range (R75). -/
def memWrite (m : Memory) (size : Nat) (addr : Word) (n : Nat) (v : Word) : Option Memory :=
  if inRange size addr n then some (m.writeBytes addr.toNat n v) else none

/-! ## Registers (10_state.md R20 to R22) -/

/-- `x[r]`; x0 reads 0 (R21). -/
def State.reg (s : State) (r : RegIdx) : Word :=
  if r = 0 then 0 else s.x[r.toNat]

/-- `tag[r]`; x0 carries none (R21). -/
def State.tagOf (s : State) (r : RegIdx) : Option Nat :=
  if r = 0 then none else s.tag[r.toNat]

/-- `x[r] <- v`; no effect for x0 (R10, R21). -/
def writeValue (x : Vector Word 32) (r : RegIdx) (v : Word) : Vector Word 32 :=
  if r = 0 then x else x.set r.toNat v

/-- `tag[r] <- t`; no effect for x0 (R21). -/
def writeTag (tag : Vector (Option Nat) 32) (r : RegIdx) (t : Option Nat) :
    Vector (Option Nat) 32 :=
  if r = 0 then tag else tag.set r.toNat t

/-- The low byte of the return-value register x10 (40_clock_and_bus.md R134). -/
def State.exitCode (s : State) : BitVec 8 := (s.reg 10).setWidth 8

/-! ## The fatal abort (60_exceptions.md R420)

The one fault mechanism. There is no trap entry, no handler and no return (R421, R431, R432), so the
only operation is this one, and nothing stands beside it. -/

/-- The state an abort leaves: that at the start of the phase, plus `status` (R420). -/
def State.abort (s : State) (a : Abort) : State := { s with status := .aborted a }

/-! ## Reorder buffer (48_reorder_commit.md) -/

/-- `(i - head) mod ROB_CAP` (R38). -/
def State.robOffset (s : State) (i : Nat) : Nat :=
  (i + s.cfg.robCap - s.rob.head) % s.cfg.robCap

/-- The live entry at an index, none where the index is not live (R38; log 16). -/
def State.robAt (s : State) (i : Nat) : Option RobEntry :=
  if i < s.cfg.robCap then s.rob.entries[s.robOffset i]? else none

/-- `tail = (head + count) mod ROB_CAP` (R38). -/
def State.robTail (s : State) : Nat :=
  (s.rob.head + s.rob.entries.length) % s.cfg.robCap

/-- Changes the live entry at an index. -/
def State.robModify (s : State) (i : Nat) (f : RobEntry → RobEntry) : State :=
  { s with rob := { s.rob with entries := s.rob.entries.modify (s.robOffset i) f } }

/-- Retire the head (R393). -/
def Rob.retire (r : Rob) (cap : Nat) : Rob :=
  ⟨(r.head + 1) % cap, r.entries.tail⟩

/-- `Lookup(q)` (R394): the value of a live entry in state Write. -/
def State.lookup (s : State) (q : Nat) : Option Word :=
  match s.robAt q with
  | some e => if e.state = .write then some e.value else none
  | none => none

/-! ## Bus (40_clock_and_bus.md) -/

/-- The value a WriteBack or CommitReg message carries for an index (42_reservation_stations.md R205). -/
def busValue : List Msg → Nat → Option Word
  | [], _ => none
  | m :: ms, q =>
    if (m.kind = .writeBack ∨ m.kind = .commitReg) ∧ m.idx = q then some m.data else busValue ms q

/-- A unit's reaction to one message after another; the first abort ends it. -/
def absorbAll (f : State → Msg → Except Abort State) : State → List Msg → Except Abort State
  | s, [] => .ok s
  | s, m :: ms =>
    match f s m with
    | .ok s' => absorbAll f s' ms
    | .error a => .error a

/-! ## Predictor port (41_issue_unit.md R166) -/

/-- `Predict(P, address)`. -/
def predict (k : PredictorKind) (p : PState) (addr : Word) : Bool :=
  match k with
  | .notTaken => false
  | .taken => true
  | .external => Config.externalPredict p addr

/-- `Feedback(P, address, taken)`. -/
def feedback (k : PredictorKind) (p : PState) (addr : Word) (taken : Bool) : PState :=
  match k with
  | .notTaken => p
  | .taken => p
  | .external => Config.externalFeedback p addr taken

/-! ## Fetching and placing an instruction word -/

/-- The fetch read, four bytes at `pc` (20_memory.md R70(a), 41_issue_unit.md R161). -/
def State.fetchWord (s : State) : Option Word := memRead s.mem s.cfg.memSize s.pc 4

/-- The state with a word stored in byte order where the fetch unit reads next; unchanged where that
address is outside memory (20_memory.md R71, R74). -/
def State.placeWord (s : State) (w : Word) : State :=
  match memWrite s.mem s.cfg.memSize s.pc 4 w with
  | some m => { s with mem := m }
  | none => s

end Sys2Proof.Machine
end

