-- ==== Sys2Proof/Machine/Flags.lean ====
section
/-! DEFINITION. The machine has no condition flags (10_state.md R25): a comparison yields 0 or 1. This
file holds the comparison relations, and the full flags every Flush recomputes. -/

namespace Sys2Proof.Machine

/-- The relation a compare-stage operation decides (44_compare_branch.md R261). -/
def CmpOp.relation : CmpOp → Word → Word → Bool
  | .slt, a, b => a.slt b
  | .sltu, a, b => a.ult b
  | .beq, a, b => a == b
  | .bne, a, b => a != b
  | .blt, a, b => a.slt b
  | .bge, a, b => !a.slt b
  | .bltu, a, b => a.ult b
  | .bgeu, a, b => !a.ult b

/-- The Word 1 or 0 of an outcome (R261). -/
def boolWord (b : Bool) : Word := if b then 1 else 0

/-- The six conditional branches among the compare operations (42_reservation_stations.md R200). -/
def CmpOp.isBranch : CmpOp → Bool
  | .slt => false
  | .sltu => false
  | .beq => true
  | .bne => true
  | .blt => true
  | .bge => true
  | .bltu => true
  | .bgeu => true

/-- No slot of a bank is free (42_reservation_stations.md R212). -/
def bankFull {α : Type} (bank : List (Option α)) : Bool := bank.all Option.isSome

/-- The full flags as Flush step F8 computes them (40_clock_and_bus.md R137). -/
def fullFlags (s : State) : FullFlags where
  rob := s.rob.entries.length == s.cfg.robCap
  add := bankFull s.rs.add
  cmp := bankFull s.rs.cmp
  log := bankFull s.rs.log
  shf := bankFull s.rs.shf
  ls := bankFull s.rs.ls
  lq := s.lq.length == s.cfg.lqCap
  sq := s.sq.length == s.cfg.sqCap

/-- Flush step F8. -/
def setFull (s : State) : State := { s with full := fullFlags s }

/-- `rs_full[b]` (R40). -/
def FullFlags.bank (f : FullFlags) : Bank → Bool
  | .add => f.add
  | .cmp => f.cmp
  | .log => f.log
  | .shf => f.shf
  | .ls => f.ls

end Sys2Proof.Machine
end

