-- ==== Sys2Proof/Machine/Results.lean ====
section
/-! DEFINITION. The result functions of the four arithmetic stages and of the load stage, and the widths of
stores (43_addsub.md R232, 44_compare_branch.md R261, 45_logic.md R291, 46_shift.md R311,
47_load_store.md R341, R345). -/

namespace Sys2Proof.Machine

/-- R232. -/
def addResult : AddOp → Word → Word → Word
  | .add, a, b => a + b
  | .sub, a, b => a - b
  | .jalr, a, b => (a + b) &&& 0xFFFFFFFE#32

/-- R261. -/
def cmpResult (o : CmpOp) (a b : Word) : Word := boolWord (o.relation a b)

/-- R291. -/
def logResult : LogOp → Word → Word → Word
  | .and, a, b => a &&& b
  | .or, a, b => a ||| b
  | .xor, a, b => a ^^^ b

/-- The five low bits of the second operand (R311). -/
def shiftAmount (b : Word) : Nat := (b.setWidth 5).toNat

/-- R311. -/
def shfResult : ShfOp → Word → Word → Word
  | .sll, a, b => a <<< shiftAmount b
  | .srl, a, b => a >>> shiftAmount b
  | .sra, a, b => a.sshiftRight (shiftAmount b)

/-- How many bytes a load reads (20_memory.md R77). -/
def LoadOp.width : LoadOp → Nat
  | .lb => 1
  | .lh => 2
  | .lw => 4
  | .lbu => 1
  | .lhu => 2

/-- The extension of R341 applied to the value read. -/
def LoadOp.extend : LoadOp → Word → Word
  | .lb, v => (v.setWidth 8).signExtend 32
  | .lh, v => (v.setWidth 16).signExtend 32
  | .lw, v => v
  | .lbu, v => v
  | .lhu, v => v

/-- `LoadValue(op, a)` (R341); `none` where the read is out of range. -/
def loadValue (m : Memory) (size : Nat) (o : LoadOp) (a : Word) : Option Word :=
  (memRead m size a o.width).map o.extend

/-- How many bytes a store writes (R345; 20_memory.md R77). -/
def StoreOp.width : StoreOp → Nat
  | .sb => 1
  | .sh => 2
  | .sw => 4

/-- The bank of an operation (42_reservation_stations.md R200). -/
def Op.bank : Op → Bank
  | .add _ => .add
  | .cmp _ => .cmp
  | .log _ => .log
  | .shf _ => .shf
  | .ls _ => .ls

end Sys2Proof.Machine
end

