-- ==== Sys2Proof/Machine/Operands.lean ====
section
/-! DEFINITION. Operand forms: the canonical records of 41_issue_unit.md R163, operand read at issue
(R173), wakeup from the bus and through the lookup ports (42_reservation_stations.md R205, R206). -/

namespace Sys2Proof.Machine

/-! ## Canonical records (R163)

Each takes the flushed state, whose `pc` and predictor the record captures. The record's `word` is the
encoding of the instruction, which is the fetched word (log 13). -/

/-- `rd*`: the destination, none for x0 (R163; 10_state.md R21). -/
def destOf (rd : RegIdx) : Option RegIdx := if rd = 0 then none else some rd

/-- The row of the register-register instructions. -/
def registerRecord (i : Instr) (mn : Mnemonic) (op : Op) (rd rs1 rs2 : RegIdx) (s : State) : IRec where
  word := encode i
  pc := s.pc
  mn := mn
  cls := .arithReg
  op := some op
  rd := destOf rd
  src1 := .reg rs1
  src2 := .reg rs2
  imm := 0
  pred := none
  isHalt := false

/-- The rows with a base or source register and an immediate: register-immediate arithmetic, shifts by
an immediate, loads and JALR. -/
def immediateRecord (i : Instr) (mn : Mnemonic) (cls : OpClass) (op : Op) (rd rs1 : RegIdx) (imm : Word)
    (s : State) : IRec where
  word := encode i
  pc := s.pc
  mn := mn
  cls := cls
  op := some op
  rd := destOf rd
  src1 := .reg rs1
  src2 := .val imm
  imm := imm
  pred := none
  isHalt := false

/-- The rows that become an addition of two values known at fetch or of x0: LUI, AUIPC, JAL. -/
def adderRecord (i : Instr) (mn : Mnemonic) (rd : RegIdx) (src1 : Source) (src2 imm : Word)
    (s : State) : IRec where
  word := encode i
  pc := s.pc
  mn := mn
  cls := .other
  op := some (.add .add)
  rd := destOf rd
  src1 := src1
  src2 := .val src2
  imm := imm
  pred := none
  isHalt := false

/-- The row of the conditional branches; the guess is made here, once (R164). -/
def branchRecord (i : Instr) (mn : Mnemonic) (op : CmpOp) (rs1 rs2 : RegIdx) (off : Word)
    (s : State) : IRec where
  word := encode i
  pc := s.pc
  mn := mn
  cls := .branch
  op := some (.cmp op)
  rd := none
  src1 := .reg rs1
  src2 := .reg rs2
  imm := off
  pred := some (predict s.cfg.predictor s.pred s.pc)
  isHalt := false

/-- The row of the stores: base, data register, and the offset in `imm`. -/
def storeRecord (i : Instr) (mn : Mnemonic) (op : StoreOp) (rs2 rs1 : RegIdx) (imm : Word)
    (s : State) : IRec where
  word := encode i
  pc := s.pc
  mn := mn
  cls := .store
  op := some (.ls (.store op))
  rd := none
  src1 := .reg rs1
  src2 := .reg rs2
  imm := imm
  pred := none
  isHalt := false

/-- The first row: the halt sentinel (43_addsub.md R243). Its `mn` and `cls` are the decoder's. -/
def haltRecord (s : State) : IRec where
  word := haltWord
  pc := s.pc
  mn := .addi
  cls := .arithImm
  op := some (.add .add)
  rd := some 10
  src1 := .reg 0
  src2 := .val 255
  imm := 255
  pred := none
  isHalt := true

/-- The last row: an undecodable word (30_encoding.md R118). -/
def invalidRecord (w : Word) (s : State) : IRec where
  word := w
  pc := s.pc
  mn := .invalid
  cls := .other
  op := none
  rd := none
  src1 := .val 0
  src2 := .val 0
  imm := 0
  pred := none
  isHalt := false

/-! ## Operand read at issue (R173) -/

/-- One source of the record read in the flushed state. -/
def readSource (s : State) : Source → Operand
  | .val v => .value v
  | .reg r =>
    match s.tagOf r with
    | none => .value (s.reg r)
    | some q => .pending q

/-! ## Wakeup (42_reservation_stations.md R205, R206) -/

/-- R205 for one operand. -/
def wakeOperand (bus : List Msg) : Operand → Operand
  | .value v => .value v
  | .pending q =>
    match busValue bus q with
    | some v => .value v
    | none => .pending q

/-- R205 for one entry: both operands can wake in the same Flush. -/
def RSEntry.wake {α : Type} (bus : List Msg) (e : RSEntry α) : RSEntry α :=
  { e with j := wakeOperand bus e.j, k := wakeOperand bus e.k }

/-- R205 for every busy slot of a bank. -/
def wakeBank {α : Type} (bus : List Msg) (bank : List (Option (RSEntry α))) :
    List (Option (RSEntry α)) :=
  bank.map (Option.map (RSEntry.wake bus))

/-- R206 for one operand: what the lookup port answers. -/
def portOperand (s : State) : Operand → Operand
  | .value v => .value v
  | .pending q =>
    match s.lookup q with
    | some v => .value v
    | none => .pending q

/-- R206: the two ports, for the two operands of the entry being inserted. -/
def RSEntry.port {α : Type} (s : State) (e : RSEntry α) : RSEntry α :=
  { e with j := portOperand s e.j, k := portOperand s e.k }

/-- A ready entry with its operand values (R207). -/
structure Ready (α : Type) where
  op : α
  dest : Nat
  a : Word
  b : Word
  imm : Word
  deriving DecidableEq, Repr

/-- An entry is ready when both operands are resolved (10_state.md R32). -/
def RSEntry.ready {α : Type} (e : RSEntry α) : Option (Ready α) :=
  match e.j, e.k with
  | .value a, .value b => some ⟨e.op, e.dest, a, b, e.imm⟩
  | _, _ => none

/-- An entry with its operation replaced (classifying by op, R203). -/
def RSEntry.withOp {α β : Type} (e : RSEntry α) (op : β) : RSEntry β :=
  ⟨op, e.dest, e.j, e.k, e.imm⟩

end Sys2Proof.Machine
end

