-- ==== Sys2Proof/Machine/Flush.lean ====
section
/-! DEFINITION. The Flush phase, steps F1 to F8 of 40_clock_and_bus.md R131 (the halt check F0 is in
Machine/Tick.lean). An abort abandons the phase. -/

namespace Sys2Proof.Machine

/-! ## F1 squash (48_reorder_commit.md R395) -/

/-- The field-by-field effect of R395; `x`, `pc`, `mem`, `pred`, `cycle`, `status`, `halt` stay. -/
def squash (s : State) : State :=
  { s with
    bus := []
    latch := none
    stall := false
    clear := false
    iq := []
    rs := Banks.empty s.cfg
    fu := Stages.allIdle
    lq := []
    sq := []
    ldst := .idle
    stst := .idle
    rob := ⟨0, []⟩
    tag := Vector.replicate 32 none }

/-! ## F2 the reorder buffer absorbs the bus -/

/-- WriteBack absorb (R383). -/
def onWriteBack (s : State) (m : Msg) : Except Abort State :=
  match m.kind with
  | .writeBack =>
    match s.robAt m.idx with
    | some _ => .ok (s.robModify m.idx fun e => { e with state := .write, value := m.data })
    | none => .error (.protocolViolation (.writeBackDead m.idx m.data) s.cycle)
  | .getAddr => .ok s
  | .commitReg => .ok s
  | .commitMem => .ok s
  | .storeSuccess => .ok s

/-- The head of the reorder buffer has this index and waits for its store (the requirement of R384). -/
def headAwaitsStore (s : State) (i : Nat) : Bool :=
  match s.rob.entries with
  | [] => false
  | e :: _ => i == s.rob.head && e.state == .waitSt

/-- StoreSuccess absorb (R384): the head retires. -/
def onStoreSuccess (s : State) (m : Msg) : Except Abort State :=
  match m.kind with
  | .storeSuccess =>
    if headAwaitsStore s m.idx then .ok { s with rob := s.rob.retire s.cfg.robCap }
    else .error (.protocolViolation (.storeSuccessMismatch m.idx) s.cycle)
  | .writeBack => .ok s
  | .getAddr => .ok s
  | .commitReg => .ok s
  | .commitMem => .ok s

/-! ## F3 insertion into the reorder buffer (R381) -/

/-- R381. The entry goes to the tail, whose index is the one chosen at issue (R172). -/
def insertRob (s : State) : Except Abort State :=
  match s.latch with
  | none => .ok s
  | some l =>
    if s.rob.entries.length < s.cfg.robCap then
      .ok { s with rob := { s.rob with entries := s.rob.entries ++ [l.robEntry] } }
    else .error (.structuralOverflow .reorderBuffer s.cycle)

/-! ## F4 the load/store buffer (47_load_store.md) -/

/-- Insertion with the timestamp (R332, R333). -/
def insertLsb (s : State) : Except Abort State :=
  match s.latch with
  | none => .ok s
  | some l =>
    match l.lsbEntry with
    | none => .ok s
    | some (.load e) =>
      if s.lq.length < s.cfg.lqCap then
        .ok { s with lq := s.lq ++ [{ e with ts := s.cycle, ready := false }] }
      else .error (.structuralOverflow .loadQueue s.cycle)
    | some (.store e) =>
      if s.sq.length < s.cfg.sqCap then
        .ok { s with sq := s.sq ++ [{ e with ts := s.cycle, ready := false, committed := false }] }
      else .error (.structuralOverflow .storeQueue s.cycle)

/-- How many entries of `LQ ++ SQ` have a destination index (R334). -/
def lsbMatches (s : State) (i : Nat) : Nat :=
  (s.lq.filter fun e => e.dest == i).length + (s.sq.filter fun e => e.dest == i).length

/-- The address of a queued load becomes known (R334). -/
def LoadEntry.resolve (i : Nat) (a : Word) (e : LoadEntry) : LoadEntry :=
  if e.dest = i then { e with addr := a, ready := true } else e

/-- The address of a queued store becomes known (R334). -/
def StoreEntry.resolve (i : Nat) (a : Word) (e : StoreEntry) : StoreEntry :=
  if e.dest = i then { e with addr := a, ready := true } else e

/-- GetAddr absorb (R334). -/
def onGetAddr (s : State) (m : Msg) : Except Abort State :=
  match m.kind with
  | .getAddr =>
    if lsbMatches s m.idx = 1 then
      .ok { s with
        lq := s.lq.map (LoadEntry.resolve m.idx m.data)
        sq := s.sq.map (StoreEntry.resolve m.idx m.data) }
    else .error (.protocolViolation (.getAddrWithoutEntry m.idx m.data) s.cycle)
  | .writeBack => .ok s
  | .commitReg => .ok s
  | .commitMem => .ok s
  | .storeSuccess => .ok s

/-- CommitMem absorb (R335). -/
def onCommitMem (s : State) (m : Msg) : Except Abort State :=
  match m.kind with
  | .commitMem =>
    match s.sq with
    | e :: rest =>
      if e.dest = m.idx ∧ e.ready = true then
        .ok { s with sq := { e with committed := true, data := m.data } :: rest }
      else .error (.protocolViolation (.commitMemMismatch m.idx m.data) s.cycle)
    | [] => .error (.protocolViolation (.commitMemMismatch m.idx m.data) s.cycle)
  | .writeBack => .ok s
  | .getAddr => .ok s
  | .commitReg => .ok s
  | .storeSuccess => .ok s

/-! ## F5, F6 the reservation stations (42_reservation_stations.md) -/

/-- Placing an entry in the free slot with the lowest index (R203). -/
def insertFree {α : Type} (e : α) : List (Option α) → Option (List (Option α))
  | [] => none
  | none :: rest => some (some e :: rest)
  | some x :: rest => (insertFree e rest).map (some x :: ·)

/-- The latched entry on its way into its bank: woken by the bus, then by the two lookup ports (R205,
R206). The other slots are woken by `wakeAll`; no slot's wakeup depends on another's (log 24). -/
def arriving (s : State) (e : RSEntry Op) : RSEntry Op := (e.wake s.bus).port s

/-- Insertion classifies by op (R203). -/
def insertRs (s : State) : Except Abort State :=
  match s.latch with
  | none => .ok s
  | some l =>
    match l.rsEntry.op with
    | .add o =>
      match insertFree ((arriving s l.rsEntry).withOp o) s.rs.add with
      | some b => .ok { s with rs := { s.rs with add := b } }
      | none => .error (.structuralOverflow (.reservationBank .add) s.cycle)
    | .cmp o =>
      match insertFree ((arriving s l.rsEntry).withOp o) s.rs.cmp with
      | some b => .ok { s with rs := { s.rs with cmp := b } }
      | none => .error (.structuralOverflow (.reservationBank .cmp) s.cycle)
    | .log o =>
      match insertFree ((arriving s l.rsEntry).withOp o) s.rs.log with
      | some b => .ok { s with rs := { s.rs with log := b } }
      | none => .error (.structuralOverflow (.reservationBank .log) s.cycle)
    | .shf o =>
      match insertFree ((arriving s l.rsEntry).withOp o) s.rs.shf with
      | some b => .ok { s with rs := { s.rs with shf := b } }
      | none => .error (.structuralOverflow (.reservationBank .shf) s.cycle)
    | .ls o =>
      match insertFree ((arriving s l.rsEntry).withOp o) s.rs.ls with
      | some b => .ok { s with rs := { s.rs with ls := b } }
      | none => .error (.structuralOverflow (.reservationBank .ls) s.cycle)

/-- Every busy slot of every bank snoops the bus (R205). -/
def wakeAll (s : State) : State :=
  { s with rs := {
      add := wakeBank s.bus s.rs.add
      cmp := wakeBank s.bus s.rs.cmp
      log := wakeBank s.bus s.rs.log
      shf := wakeBank s.bus s.rs.shf
      ls := wakeBank s.bus s.rs.ls } }

/-! ## The phase -/

/-- F7: the latch and the bus are cleared (R131). -/
def clearLatchAndBus (s : State) : State := { s with latch := none, bus := [] }

/-- F2 to F7 (R131). -/
def flushUnits (s : State) : Except Abort State := do
  let s1 ← absorbAll onWriteBack s s.bus
  let s2 ← absorbAll onStoreSuccess s1 s.bus
  let s3 ← insertRob s2
  let s4 ← insertLsb s3
  let s5 ← absorbAll onGetAddr s4 s.bus
  let s6 ← absorbAll onCommitMem s5 s.bus
  let s7 ← insertRs s6
  return clearLatchAndBus (wakeAll s7)

/-- The Flush of a state that does not halt: F1 or F2 to F7, then F8 (R131). -/
def flush (s : State) : Except Abort State :=
  if s.clear then .ok (setFull (squash s))
  else do
    let s' ← flushUnits s
    return setFull s'

end Sys2Proof.Machine
end

