-- ==== Sys2Proof/Machine/Execute.lean ====
section
/-! DEFINITION. The Execute phase, units E1 to E7 of 40_clock_and_bus.md R132: each computes its part
from the flushed state alone; `execute` merges the parts by R133. -/

namespace Sys2Proof.Machine

/-! ## E1 commit (48_reorder_commit.md R385 to R393) -/

/-- What commit contributes to the next state. -/
structure Commit where
  /-- The register write `(rd, v, h)` of R391. -/
  write : Option (RegIdx × Word × Nat)
  /-- The pc redirect of R388 and R389. -/
  redirect : Option Word
  clearStall : Bool
  setClear : Bool
  setHalt : Bool
  pred : PState
  rob : Rob
  msgs : List Msg
  deriving DecidableEq, Repr

/-- Commit does nothing (R385). -/
def Commit.nothing (f : State) : Commit where
  write := none
  redirect := none
  clearStall := false
  setClear := false
  setHalt := false
  pred := f.pred
  rob := f.rob
  msgs := []

/-- The register write of an entry's result (R391). -/
def commitWrite (f : State) (e : RobEntry) (v : Word) : Option (RegIdx × Word × Nat) :=
  e.rd.map fun rd => (rd, v, f.rob.head)

/-- R386: the halt sentinel raises the halt flag; nothing else. -/
def commitHalt (f : State) : Commit := { Commit.nothing f with setHalt := true }

/-- R387: an arithmetic or load result. -/
def commitResult (f : State) (e : RobEntry) : Commit :=
  { Commit.nothing f with
    write := commitWrite f e e.value
    rob := f.rob.retire f.cfg.robCap
    msgs := [⟨.commitReg, f.rob.head, e.value⟩] }

/-- R388: JALR. -/
def commitJalr (f : State) (e : RobEntry) : Commit :=
  { Commit.nothing f with
    write := commitWrite f e (e.instr.pc + 4)
    redirect := some e.value
    clearStall := true
    rob := f.rob.retire f.cfg.robCap
    msgs := [⟨.commitReg, f.rob.head, e.instr.pc + 4⟩] }

/-- The actual outcome of a branch entry (R389). -/
def RobEntry.outcome (e : RobEntry) : Bool := e.value != 0

/-- The address a branch continues at, given its outcome (44_compare_branch.md R272). -/
def branchTarget (i : IRec) (taken : Bool) : Word := if taken then i.pc + i.imm else i.pc + 4

/-- R389: a conditional branch. -/
def commitBranch (f : State) (e : RobEntry) : Commit :=
  let mispredicted := decide (e.instr.pred ≠ some e.outcome)
  { Commit.nothing f with
    redirect := if mispredicted then some (branchTarget e.instr e.outcome) else none
    setClear := mispredicted
    pred := feedback f.cfg.predictor f.pred e.instr.pc e.outcome
    rob := f.rob.retire f.cfg.robCap }

/-- R390: the first commit of a store; the entry stays at the head. -/
def commitStore (f : State) (e : RobEntry) : Commit :=
  { Commit.nothing f with
    rob := { f.rob with entries := { e with state := .waitSt } :: f.rob.entries.tail }
    msgs := [⟨.commitMem, f.rob.head, e.value⟩] }

/-- The head is in state Write: exactly one of R386 to R390 (R385). -/
def commitHead (f : State) (e : RobEntry) : Commit :=
  if e.instr.isHalt then commitHalt f
  else
    match e.instr.op with
    | some (.add .jalr) => commitJalr f e
    | some (.cmp o) => if o.isBranch then commitBranch f e else commitResult f e
    | some (.ls (.store _)) => commitStore f e
    | _ => commitResult f e

/-- The entry is a store. -/
def RobEntry.isStore (e : RobEntry) : Bool :=
  match e.instr.op with
  | some (.ls (.store _)) => true
  | _ => false

/-- The commit gate (R385) and the unreachable combinations (R392). -/
def commit (f : State) : Except Abort Commit :=
  match f.rob.entries with
  | [] => .ok (Commit.nothing f)
  | e :: _ =>
    match e.state with
    | .issue => .ok (Commit.nothing f)
    | .exec => .error (.unreachable f.rob.head f.cycle)
    | .write => .ok (commitHead f e)
    | .waitSt =>
      if e.isStore then .ok (Commit.nothing f) else .error (.unreachable f.rob.head f.cycle)

/-! ## E2 arithmetic stages and E5 dispatch into them -/

/-- The ready entry with the lowest slot index, and the bank with that slot freed
(42_reservation_stations.md R207, R209). -/
def takeReady {α : Type} : List (Option (RSEntry α)) → Option (Ready α × List (Option (RSEntry α)))
  | [] => none
  | none :: rest => (takeReady rest).map fun p => (p.1, none :: p.2)
  | some e :: rest =>
    match e.ready with
    | some r => some (r, none :: rest)
    | none => (takeReady rest).map fun p => (p.1, some e :: p.2)

/-- What an arithmetic stage and its bank contribute. -/
structure UnitOut (α : Type) where
  stage : Stage α
  bank : List (Option (RSEntry α))
  msgs : List Msg
  deriving DecidableEq, Repr

/-- Stage step (43_addsub.md R231) and dispatch from its bank (42_reservation_stations.md R207): a
stage busy in the flushed state counts or finishes and takes nothing (R208); an idle one takes the
first ready entry. -/
def unitStep {α : Type} (result : α → Word → Word → Word) (lat : Nat) (st : Stage α)
    (bank : List (Option (RSEntry α))) : UnitOut α :=
  match st with
  | .busy rem op a b dest =>
    if 1 < rem then ⟨.busy (rem - 1) op a b dest, bank, []⟩
    else ⟨.idle, bank, [⟨.writeBack, dest, result op a b⟩]⟩
  | .idle =>
    match takeReady bank with
    | none => ⟨.idle, bank, []⟩
    | some (r, bank') => ⟨.busy lat r.op r.a r.b r.dest, bank', []⟩

/-- Stage ADD and its bank. -/
def stepAdd (f : State) : UnitOut AddOp := unitStep addResult f.cfg.latAdd f.fu.add f.rs.add

/-- Stage CMP and its bank. -/
def stepCmp (f : State) : UnitOut CmpOp := unitStep cmpResult f.cfg.latCmp f.fu.cmp f.rs.cmp

/-- Stage LOG and its bank. -/
def stepLog (f : State) : UnitOut LogOp := unitStep logResult f.cfg.latLog f.fu.log f.rs.log

/-- Stage SHF and its bank. -/
def stepShf (f : State) : UnitOut ShfOp := unitStep shfResult f.cfg.latShf f.fu.shf f.rs.shf

/-! ## E5 dispatch from the LS bank (42_reservation_stations.md R210, 47_load_store.md R331) -/

/-- The effective address of a dispatched entry (R331). -/
def effectiveAddress (r : Ready LsOp) : Word :=
  match r.op with
  | .load _ => r.a + r.b
  | .store _ => r.a + r.imm

/-- The messages of a dispatched entry (R331). -/
def dispatchMsgs (r : Ready LsOp) : List Msg :=
  match r.op with
  | .load _ => [⟨.getAddr, r.dest, effectiveAddress r⟩]
  | .store _ => [⟨.getAddr, r.dest, effectiveAddress r⟩, ⟨.writeBack, r.dest, r.b⟩]

/-- The LS bank's dispatch: never blocked by a stage (R210). -/
def dispatchLs (f : State) : List (Option (RSEntry LsOp)) × List Msg :=
  match takeReady f.rs.ls with
  | none => (f.rs.ls, [])
  | some (r, bank) => (bank, dispatchMsgs r)

/-! ## E3 the load stage (47_load_store.md R338 to R341) -/

/-- What the load stage contributes. -/
structure LoadOut where
  ldst : LoadStage
  lq : List LoadEntry
  msgs : List Msg
  deriving DecidableEq, Repr

/-- No older store is queued: `SQ` is empty or the load's timestamp is not later than its head's (R338). -/
def noOlderStore (f : State) (e : LoadEntry) : Bool :=
  match f.sq with
  | [] => true
  | t :: _ => e.ts ≤ t.ts

/-- Load start, counting, completion (R338, R339, R340). -/
def loadStage (f : State) : Except Abort LoadOut :=
  match f.ldst with
  | .busy rem e =>
    if 1 < rem then .ok ⟨.busy (rem - 1) e, f.lq, []⟩
    else
      match loadValue f.mem f.cfg.memSize e.op e.addr with
      | some v => .ok ⟨.idle, f.lq, [⟨.writeBack, e.dest, v⟩]⟩
      | none => .error (.memoryOutOfRange e.addr e.op.width .load f.cycle)
  | .idle =>
    match f.lq with
    | [] => .ok ⟨.idle, [], []⟩
    | e :: rest =>
      if e.ready && noOlderStore f e then .ok ⟨.busy f.cfg.latLoad e, rest, []⟩
      else .ok ⟨.idle, e :: rest, []⟩

/-! ## E4 the store stage (47_load_store.md R344, R345) -/

/-- What the store stage contributes. -/
structure StoreOut where
  stst : StoreStage
  sq : List StoreEntry
  mem : Memory
  msgs : List Msg
  deriving DecidableEq, Repr

/-- Store start, counting, completion (R344, R345). A busy stage with an empty queue, which no run
reaches, aborts (log 11). -/
def storeStage (f : State) : Except Abort StoreOut :=
  match f.stst with
  | .busy rem =>
    if 1 < rem then .ok ⟨.busy (rem - 1), f.sq, f.mem, []⟩
    else
      match f.sq with
      | [] => .error (.protocolViolation .storeStageWithoutHead f.cycle)
      | e :: rest =>
        match memWrite f.mem f.cfg.memSize e.addr e.op.width e.data with
        | some m => .ok ⟨.idle, rest, m, [⟨.storeSuccess, e.dest, 0⟩]⟩
        | none => .error (.memoryOutOfRange e.addr e.op.width .store f.cycle)
  | .idle =>
    match f.sq with
    | [] => .ok ⟨.idle, [], f.mem, []⟩
    | e :: rest =>
      if e.committed then .ok ⟨.busy f.cfg.latStore, e :: rest, f.mem, []⟩
      else .ok ⟨.idle, e :: rest, f.mem, []⟩

/-! ## E6 issue (41_issue_unit.md R170 to R177) -/

/-- What issue contributes. -/
structure IssueOut where
  iq : List IRec
  latch : Option Latch
  /-- The rename of R176: register and new tag. -/
  rename : Option (RegIdx × Nat)
  deriving DecidableEq, Repr

/-- The issue gate of R170 for a classified head, by the full flags of this tick's Flush. -/
def issueGate (f : State) (op : Op) : Bool :=
  !f.full.rob && !f.full.bank op.bank &&
    match op with
    | .ls (.load _) => !f.full.lq
    | .ls (.store _) => !f.full.sq
    | _ => true

/-- The load/store-buffer entry built at issue (R175). `ts` is unset there and stamped at insertion; it is written
as 0 (DESIGN CHOICE, log 28). -/
def lsbEntryOf (op : Op) (n : Nat) : Option LsbEntry :=
  match op with
  | .ls (.load o) => some (.load ⟨o, n, 0, false, 0⟩)
  | .ls (.store o) => some (.store ⟨o, n, 0, false, 0, false, 0⟩)
  | _ => none

/-- The entries handed over (R172 to R175, R177). -/
def latchOf (f : State) (i : IRec) (op : Op) : Latch where
  idx := f.robTail
  robEntry := ⟨i, .issue, i.rd, 0⟩
  rsEntry := ⟨op, f.robTail, readSource f i.src1, readSource f i.src2, i.imm⟩
  lsbEntry := lsbEntryOf op f.robTail

/-- Issue: the unclassifiable head aborts before the gate is looked at (R171); otherwise the gate of
R170 decides. -/
def issue (f : State) : Except Abort IssueOut :=
  match f.iq with
  | [] => .ok ⟨[], none, none⟩
  | i :: rest =>
    match i.op with
    | none => .error (.unclassifiable i.word i.pc f.cycle)
    | some op =>
      if issueGate f op then
        .ok ⟨rest, some (latchOf f i op), i.rd.map fun d => (d, f.robTail)⟩
      else .ok ⟨i :: rest, none, none⟩

/-! ## E7 fetch (41_issue_unit.md R160 to R165) -/

/-- What the fetch port gives a flushed state: the canonical record of the word at `pc`, or the abort of
an out-of-range read. -/
abbrev FetchPort := State → Except Abort IRec

/-- The fetch gate (R160). -/
def fetchGate (f : State) : Bool := !f.stall && decide (f.iq.length < f.cfg.iqCap)

/-- The next pc fetch chooses (R162). -/
def fetchNextPc (i : IRec) : Word :=
  if i.mn = .jal ∨ i.pred = some true then i.pc + i.imm else i.pc + 4

/-- Whether the fetched instruction sets the fetch stall (R165). -/
def fetchStalls (i : IRec) : Bool := i.op == some (.add .jalr) || i.isHalt

/-- Fetch: the record, if the gate is open (R160, R161). -/
def fetch (port : FetchPort) (f : State) : Except Abort (Option IRec) :=
  if fetchGate f then
    match port f with
    | .ok i => .ok (some i)
    | .error a => .error a
  else .ok none

/-! ## Merging (R133, R138, R139, R141) -/

/-- `x'` (R139). -/
def nextValues (f : State) (c : Commit) : Vector Word 32 :=
  match c.write with
  | some (rd, v, _) => writeValue f.x rd v
  | none => f.x

/-- The tags after commit's conditional clear (R139, R391). -/
def clearedTags (f : State) (c : Commit) : Vector (Option Nat) 32 :=
  match c.write with
  | some (rd, _, h) => if f.tagOf rd = some h then writeTag f.tag rd none else f.tag
  | none => f.tag

/-- `tag'`: issue's rename wins over commit's clear (R139). -/
def nextTags (f : State) (c : Commit) (i : IssueOut) : Vector (Option Nat) 32 :=
  match i.rename with
  | some (d, n) => writeTag (clearedTags f c) d (some n)
  | none => clearedTags f c

/-- `pc'`: the redirect, else fetch's next pc, else unchanged (R138). -/
def nextPc (f : State) (c : Commit) (r : Option IRec) : Word :=
  match c.redirect, r with
  | some t, _ => t
  | none, some i => fetchNextPc i
  | none, none => f.pc

/-- `stall'` (R133): fetch sets, JALR's commit clears (log 18 where both would). -/
def nextStall (f : State) (c : Commit) (r : Option IRec) : Bool :=
  match r with
  | some i => if fetchStalls i then true else f.stall && !c.clearStall
  | none => f.stall && !c.clearStall

/-- `IQ'` (R133). -/
def nextIq (i : IssueOut) (r : Option IRec) : List IRec :=
  match r with
  | some rec => i.iq ++ [rec]
  | none => i.iq

/-- The next state, from the units' contributions (R133). -/
def merge (f : State) (c : Commit) (l : LoadOut) (st : StoreOut) (i : IssueOut) (r : Option IRec)
    (msgs : List Msg) : State where
  cfg := f.cfg
  x := nextValues f c
  tag := nextTags f c i
  pc := nextPc f c r
  mem := st.mem
  stall := nextStall f c r
  clear := f.clear || c.setClear
  halt := f.halt || c.setHalt
  cycle := f.cycle + 1
  iq := nextIq i r
  latch := i.latch
  rs := ⟨(stepAdd f).bank, (stepCmp f).bank, (stepLog f).bank, (stepShf f).bank, (dispatchLs f).1⟩
  fu := ⟨(stepAdd f).stage, (stepCmp f).stage, (stepLog f).stage, (stepShf f).stage⟩
  lq := l.lq
  sq := st.sq
  ldst := l.ldst
  stst := st.stst
  rob := c.rob
  bus := msgs
  full := f.full
  pred := c.pred
  status := f.status

/-- The messages of one Execute, in the unit order E1 to E5 (R149). -/
def emitted (f : State) (c : Commit) (l : LoadOut) (st : StoreOut) : List Msg :=
  c.msgs ++ (stepAdd f).msgs ++ (stepCmp f).msgs ++ (stepLog f).msgs ++ (stepShf f).msgs ++
    l.msgs ++ st.msgs ++ (dispatchLs f).2

/-- The Execute phase: the aborts in unit order, the bus overflow last (60_exceptions.md R428). -/
def execute (port : FetchPort) (f : State) : Except Abort State := do
  let c ← commit f
  let l ← loadStage f
  let st ← storeStage f
  let i ← issue f
  let r ← fetch port f
  let msgs := emitted f c l st
  if f.cfg.busCap < msgs.length then throw (.structuralOverflow .bus f.cycle)
  return merge f c l st i r msgs

end Sys2Proof.Machine
end

