-- ==== Sys2Proof/Machine/Tick.lean ====
section
/-! DEFINITION. The tick (40_clock_and_bus.md R130, R134, R136) and how an instruction enters it. -/

namespace Sys2Proof.Machine

/-- The halted state (R134): the status alone changes. -/
def haltedState (s : State) : State := { s with status := .halted s.exitCode }

/-- One tick from a Running state: F0, Flush, Execute. An abort leaves the state at the start of its
phase, plus the status (60_exceptions.md R420). -/
def tick (port : FetchPort) (s : State) : State :=
  if s.halt then haltedState s
  else
    match flush s with
    | .error a => s.abort a
    | .ok f =>
      match execute port f with
      | .error a => f.abort a
      | .ok t => t

/-- The tick as an outcome: none is defined from a state that is not Running (10_state.md R42; log 8). -/
def tickOutcome (port : FetchPort) (s : State) : Host.Outcome State Fault Refusal :=
  match s.status with
  | .running => .next (tick port s)
  | .halted code => .fault (.halted code)
  | .aborted a => .fault (.aborted a)

/-- The tick whose fetch port delivers one given canonical record (log 1): if the fetch gate is open in
the flushed state the record enters the instruction queue, else the port is not read (41_issue_unit.md
R160). -/
def enter (record : State → IRec) (s : State) : Host.Outcome State Fault Refusal :=
  tickOutcome (fun f => .ok (record f)) s

/-- The tick whose fetch port delivers an undecodable word (30_encoding.md R118). -/
def enterInvalid (w : Word) (s : State) : Host.Outcome State Fault Refusal :=
  enter (invalidRecord w) s

/-- The tick whose fetch read is out of range (20_memory.md R75). -/
def enterOutOfRange (s : State) : Host.Outcome State Fault Refusal :=
  tickOutcome (fun f => .error (.memoryOutOfRange f.pc 4 .fetch f.cycle)) s

end Sys2Proof.Machine
end

