-- ==== Sys2Proof/Machine/AddSub.lean ====
section
/-! DEFINITION. Meanings of the add/sub family (43_addsub.md R234 to R243): LUI, AUIPC, JAL, JALR, ADD, SUB, ADDI and the
halt sentinel. Each is the tick that fetches the instruction (log 1): its canonical record of
41_issue_unit.md R163 enters the pipeline, where the rules of the units carry it. -/

namespace Sys2Proof.Machine

/-- HALT, the sentinel word (R243): enters as `ADD 10, Reg 0, Val 255` with `is_halt`, and stalls fetch. -/
def execHalt (s : State) : Host.Outcome State Fault Refusal :=
  enter haltRecord s

/-- LUI rd, imm20 (R234): enters as `ADD rd, Reg 0, Val imm`. -/
def execLui (rd : RegIdx) (imm : BitVec 20) (s : State) : Host.Outcome State Fault Refusal :=
  enter (adderRecord (.lui rd imm) .lui rd (.reg 0) (uImm imm) (uImm imm)) s

/-- AUIPC rd, imm20 (R235): enters as `ADD rd, Val pc, Val imm`, the fetch pc captured. -/
def execAuipc (rd : RegIdx) (imm : BitVec 20) (s : State) : Host.Outcome State Fault Refusal :=
  enter (fun f => adderRecord (.auipc rd imm) .auipc rd (.val f.pc) (uImm imm) (uImm imm) f) s

/-- JAL rd, offset (R236): enters as `ADD rd, Val pc, Val 4`, and the next pc is `pc + offset` (R162). -/
def execJal (rd : RegIdx) (off : BitVec 21) (s : State) : Host.Outcome State Fault Refusal :=
  enter (fun f => adderRecord (.jal rd off) .jal rd (.val f.pc) 4 (sext21 off) f) s

/-- JALR rd, rs1, imm (R237): enters as `JALR rd, Reg rs1, Val imm`, which computes the target; fetch stalls until it commits. -/
def execJalr (rd rs1 : RegIdx) (imm : BitVec 12) (s : State) : Host.Outcome State Fault Refusal :=
  enter (immediateRecord (.jalr rd rs1 imm) .jalr .other (.add .jalr) rd rs1 (sext12 imm)) s

/-- ADD rd, rs1, rs2 (R238): enters as `ADD rd, Reg rs1, Reg rs2`, which computes the sum modulo 2^32. -/
def execAdd (rd rs1 rs2 : RegIdx) (s : State) : Host.Outcome State Fault Refusal :=
  enter (registerRecord (.add rd rs1 rs2) .add (.add .add) rd rs1 rs2) s

/-- SUB rd, rs1, rs2 (R239): enters as `SUB rd, Reg rs1, Reg rs2`, which computes the difference modulo 2^32. -/
def execSub (rd rs1 rs2 : RegIdx) (s : State) : Host.Outcome State Fault Refusal :=
  enter (registerRecord (.sub rd rs1 rs2) .sub (.add .sub) rd rs1 rs2) s

/-- ADDI rd, rs1, imm (R240): enters as `ADD rd, Reg rs1, Val imm`, which adds the sign-extended immediate. -/
def execAddi (rd rs1 : RegIdx) (imm : BitVec 12) (s : State) : Host.Outcome State Fault Refusal :=
  enter (immediateRecord (.addi rd rs1 imm) .addi .arithImm (.add .add) rd rs1 (sext12 imm)) s

end Sys2Proof.Machine
end

