-- ==== Sys2Proof/Machine/CompareBranch.lean ====
section
/-! DEFINITION. Meanings of the compare/branch family (44_compare_branch.md R262 to R272): SLT, SLTU, SLTI, SLTIU
and the six conditional branches. Each is the tick that fetches the instruction (log 1). -/

namespace Sys2Proof.Machine

/-- SLT rd, rs1, rs2 (R262): enters as `SLT rd, Reg rs1, Reg rs2`, which computes 1 or 0 by the signed order. -/
def execSlt (rd rs1 rs2 : RegIdx) (s : State) : Host.Outcome State Fault Refusal :=
  enter (registerRecord (.slt rd rs1 rs2) .slt (.cmp .slt) rd rs1 rs2) s

/-- SLTU rd, rs1, rs2 (R263): enters as `SLTU rd, Reg rs1, Reg rs2`, which computes 1 or 0 by the unsigned order. -/
def execSltu (rd rs1 rs2 : RegIdx) (s : State) : Host.Outcome State Fault Refusal :=
  enter (registerRecord (.sltu rd rs1 rs2) .sltu (.cmp .sltu) rd rs1 rs2) s

/-- SLTI rd, rs1, imm (R264): enters as `SLT rd, Reg rs1, Val imm`, which compares signed with the sign-extended immediate. -/
def execSlti (rd rs1 : RegIdx) (imm : BitVec 12) (s : State) : Host.Outcome State Fault Refusal :=
  enter (immediateRecord (.slti rd rs1 imm) .slti .arithImm (.cmp .slt) rd rs1 (sext12 imm)) s

/-- SLTIU rd, rs1, imm (R265): enters as `SLTU rd, Reg rs1, Val imm`, which compares unsigned with the sign-extended immediate. -/
def execSltiu (rd rs1 : RegIdx) (imm : BitVec 12) (s : State) : Host.Outcome State Fault Refusal :=
  enter (immediateRecord (.sltiu rd rs1 imm) .sltiu .arithImm (.cmp .sltu) rd rs1 (sext12 imm)) s

/-- BEQ rs1, rs2, offset (R266, R272): enters with its prediction; the next pc follows the guess. -/
def execBeq (rs1 rs2 : RegIdx) (off : BitVec 13) (s : State) : Host.Outcome State Fault Refusal :=
  enter (branchRecord (.beq rs1 rs2 off) .beq .beq rs1 rs2 (sext13 off)) s

/-- BNE rs1, rs2, offset (R267, R272): enters with its prediction; the next pc follows the guess. -/
def execBne (rs1 rs2 : RegIdx) (off : BitVec 13) (s : State) : Host.Outcome State Fault Refusal :=
  enter (branchRecord (.bne rs1 rs2 off) .bne .bne rs1 rs2 (sext13 off)) s

/-- BLT rs1, rs2, offset (R268, R272): enters with its prediction; the next pc follows the guess. -/
def execBlt (rs1 rs2 : RegIdx) (off : BitVec 13) (s : State) : Host.Outcome State Fault Refusal :=
  enter (branchRecord (.blt rs1 rs2 off) .blt .blt rs1 rs2 (sext13 off)) s

/-- BGE rs1, rs2, offset (R269, R272): enters with its prediction; the next pc follows the guess. -/
def execBge (rs1 rs2 : RegIdx) (off : BitVec 13) (s : State) : Host.Outcome State Fault Refusal :=
  enter (branchRecord (.bge rs1 rs2 off) .bge .bge rs1 rs2 (sext13 off)) s

/-- BLTU rs1, rs2, offset (R270, R272): enters with its prediction; the next pc follows the guess. -/
def execBltu (rs1 rs2 : RegIdx) (off : BitVec 13) (s : State) : Host.Outcome State Fault Refusal :=
  enter (branchRecord (.bltu rs1 rs2 off) .bltu .bltu rs1 rs2 (sext13 off)) s

/-- BGEU rs1, rs2, offset (R271, R272): enters with its prediction; the next pc follows the guess. -/
def execBgeu (rs1 rs2 : RegIdx) (off : BitVec 13) (s : State) : Host.Outcome State Fault Refusal :=
  enter (branchRecord (.bgeu rs1 rs2 off) .bgeu .bgeu rs1 rs2 (sext13 off)) s

end Sys2Proof.Machine
end

