-- ==== Sys2Proof/Machine/LoadStore.lean ====
section
/-! DEFINITION. Meanings of the load/store family (47_load_store.md R350 to R357): LB, LH, LW, LBU, LHU, SB, SH, SW.
Each is the tick that fetches the instruction (log 1). -/

namespace Sys2Proof.Machine

/-- LB rd, imm(rs1) (R350): enters as `LB rd, Reg rs1, Val imm`, which loads one byte, sign-extended. -/
def execLb (rd rs1 : RegIdx) (imm : BitVec 12) (s : State) : Host.Outcome State Fault Refusal :=
  enter (immediateRecord (.lb rd rs1 imm) .lb .load (.ls (.load .lb)) rd rs1 (sext12 imm)) s

/-- LH rd, imm(rs1) (R351): enters as `LH rd, Reg rs1, Val imm`, which loads two bytes, sign-extended. -/
def execLh (rd rs1 : RegIdx) (imm : BitVec 12) (s : State) : Host.Outcome State Fault Refusal :=
  enter (immediateRecord (.lh rd rs1 imm) .lh .load (.ls (.load .lh)) rd rs1 (sext12 imm)) s

/-- LW rd, imm(rs1) (R352): enters as `LW rd, Reg rs1, Val imm`, which loads four bytes. -/
def execLw (rd rs1 : RegIdx) (imm : BitVec 12) (s : State) : Host.Outcome State Fault Refusal :=
  enter (immediateRecord (.lw rd rs1 imm) .lw .load (.ls (.load .lw)) rd rs1 (sext12 imm)) s

/-- LBU rd, imm(rs1) (R353): enters as `LBU rd, Reg rs1, Val imm`, which loads one byte, zero-extended. -/
def execLbu (rd rs1 : RegIdx) (imm : BitVec 12) (s : State) : Host.Outcome State Fault Refusal :=
  enter (immediateRecord (.lbu rd rs1 imm) .lbu .load (.ls (.load .lbu)) rd rs1 (sext12 imm)) s

/-- LHU rd, imm(rs1) (R354): enters as `LHU rd, Reg rs1, Val imm`, which loads two bytes, zero-extended. -/
def execLhu (rd rs1 : RegIdx) (imm : BitVec 12) (s : State) : Host.Outcome State Fault Refusal :=
  enter (immediateRecord (.lhu rd rs1 imm) .lhu .load (.ls (.load .lhu)) rd rs1 (sext12 imm)) s

/-- SB rs2, imm(rs1) (R355): enters as `SB none, Reg rs1, Reg rs2`; the low 8 bits of the data register are
written after its commit. -/
def execSb (rs2 rs1 : RegIdx) (imm : BitVec 12) (s : State) : Host.Outcome State Fault Refusal :=
  enter (storeRecord (.sb rs2 rs1 imm) .sb .sb rs2 rs1 (sext12 imm)) s

/-- SH rs2, imm(rs1) (R356): enters as `SH none, Reg rs1, Reg rs2`; the low 16 bits of the data register are
written after its commit. -/
def execSh (rs2 rs1 : RegIdx) (imm : BitVec 12) (s : State) : Host.Outcome State Fault Refusal :=
  enter (storeRecord (.sh rs2 rs1 imm) .sh .sh rs2 rs1 (sext12 imm)) s

/-- SW rs2, imm(rs1) (R357): enters as `SW none, Reg rs1, Reg rs2`; the 32 bits of the data register are
written after its commit. -/
def execSw (rs2 rs1 : RegIdx) (imm : BitVec 12) (s : State) : Host.Outcome State Fault Refusal :=
  enter (storeRecord (.sw rs2 rs1 imm) .sw .sw rs2 rs1 (sext12 imm)) s

end Sys2Proof.Machine
end

