-- ==== Sys2Proof/Machine/Logic.lean ====
section
/-! DEFINITION. Meanings of the logic family (45_logic.md R292 to R297): AND, OR, XOR, ANDI, ORI, XORI. Each is the
tick that fetches the instruction (log 1). -/

namespace Sys2Proof.Machine

/-- AND rd, rs1, rs2 (R292): enters as `AND rd, Reg rs1, Reg rs2`, which computes the bitwise result. -/
def execAnd (rd rs1 rs2 : RegIdx) (s : State) : Host.Outcome State Fault Refusal :=
  enter (registerRecord (.and rd rs1 rs2) .and (.log .and) rd rs1 rs2) s

/-- OR rd, rs1, rs2 (R293): enters as `OR rd, Reg rs1, Reg rs2`, which computes the bitwise result. -/
def execOr (rd rs1 rs2 : RegIdx) (s : State) : Host.Outcome State Fault Refusal :=
  enter (registerRecord (.or rd rs1 rs2) .or (.log .or) rd rs1 rs2) s

/-- XOR rd, rs1, rs2 (R294): enters as `XOR rd, Reg rs1, Reg rs2`, which computes the bitwise result. -/
def execXor (rd rs1 rs2 : RegIdx) (s : State) : Host.Outcome State Fault Refusal :=
  enter (registerRecord (.xor rd rs1 rs2) .xor (.log .xor) rd rs1 rs2) s

/-- ANDI rd, rs1, imm (R295): enters as `AND rd, Reg rs1, Val imm`, which combines with the sign-extended immediate. -/
def execAndi (rd rs1 : RegIdx) (imm : BitVec 12) (s : State) : Host.Outcome State Fault Refusal :=
  enter (immediateRecord (.andi rd rs1 imm) .andi .arithImm (.log .and) rd rs1 (sext12 imm)) s

/-- ORI rd, rs1, imm (R296): enters as `OR rd, Reg rs1, Val imm`, which combines with the sign-extended immediate. -/
def execOri (rd rs1 : RegIdx) (imm : BitVec 12) (s : State) : Host.Outcome State Fault Refusal :=
  enter (immediateRecord (.ori rd rs1 imm) .ori .arithImm (.log .or) rd rs1 (sext12 imm)) s

/-- XORI rd, rs1, imm (R297): enters as `XOR rd, Reg rs1, Val imm`, which combines with the sign-extended immediate. -/
def execXori (rd rs1 : RegIdx) (imm : BitVec 12) (s : State) : Host.Outcome State Fault Refusal :=
  enter (immediateRecord (.xori rd rs1 imm) .xori .arithImm (.log .xor) rd rs1 (sext12 imm)) s

end Sys2Proof.Machine
end

