-- ==== Sys2Proof/Machine/Shift.lean ====
section
/-! DEFINITION. Meanings of the shift family (46_shift.md R312 to R317): SLL, SRL, SRA, SLLI, SRLI, SRAI. Each is the
tick that fetches the instruction (log 1). -/

namespace Sys2Proof.Machine

/-- SLL rd, rs1, rs2 (R312): enters as `SLL rd, Reg rs1, Reg rs2`, which computes the shift by the low five bits of the second operand. -/
def execSll (rd rs1 rs2 : RegIdx) (s : State) : Host.Outcome State Fault Refusal :=
  enter (registerRecord (.sll rd rs1 rs2) .sll (.shf .sll) rd rs1 rs2) s

/-- SRL rd, rs1, rs2 (R313): enters as `SRL rd, Reg rs1, Reg rs2`, which computes the shift by the low five bits of the second operand. -/
def execSrl (rd rs1 rs2 : RegIdx) (s : State) : Host.Outcome State Fault Refusal :=
  enter (registerRecord (.srl rd rs1 rs2) .srl (.shf .srl) rd rs1 rs2) s

/-- SRA rd, rs1, rs2 (R314): enters as `SRA rd, Reg rs1, Reg rs2`, which computes the shift by the low five bits of the second operand. -/
def execSra (rd rs1 rs2 : RegIdx) (s : State) : Host.Outcome State Fault Refusal :=
  enter (registerRecord (.sra rd rs1 rs2) .sra (.shf .sra) rd rs1 rs2) s

/-- SLLI rd, rs1, shamt (R315): enters as `SLL rd, Reg rs1, Val shamt`, which shifts by the 5-bit amount. -/
def execSlli (rd rs1 : RegIdx) (shamt : BitVec 5) (s : State) : Host.Outcome State Fault Refusal :=
  enter (immediateRecord (.slli rd rs1 shamt) .slli .arithImm (.shf .sll) rd rs1 (zext5 shamt)) s

/-- SRLI rd, rs1, shamt (R316): enters as `SRL rd, Reg rs1, Val shamt`, which shifts by the 5-bit amount. -/
def execSrli (rd rs1 : RegIdx) (shamt : BitVec 5) (s : State) : Host.Outcome State Fault Refusal :=
  enter (immediateRecord (.srli rd rs1 shamt) .srli .arithImm (.shf .srl) rd rs1 (zext5 shamt)) s

/-- SRAI rd, rs1, shamt (R317): enters as `SRA rd, Reg rs1, Val shamt`, which shifts by the 5-bit amount. -/
def execSrai (rd rs1 : RegIdx) (shamt : BitVec 5) (s : State) : Host.Outcome State Fault Refusal :=
  enter (immediateRecord (.srai rd rs1 shamt) .srai .arithImm (.shf .sra) rd rs1 (zext5 shamt)) s

end Sys2Proof.Machine
end

