-- ==== Sys2Proof/Machine/Step.lean ====
section
/-! DEFINITION. The step of the machine: one tick, whose fetch port delivers the word at `pc`. -/

namespace Sys2Proof.Machine

/-- One tick (00_scope.md R13; 40_clock_and_bus.md R130). Where the word at `pc` decodes to an
instruction, the tick is `exec` of it. -/
def step (s : State) : Host.Outcome State Fault Refusal :=
  match s.fetchWord with
  | none => enterOutOfRange s
  | some w =>
    match decode w with
    | .ok i => exec i s
    | .error _ => enterInvalid w s

/-- `s` with the instruction whose table bits are `w` stored in byte order at `pc`, where the next tick's
fetch reads (log 10). -/
def State.withFetchWord (s : State) (nbits w : Nat) : State :=
  s.placeWord (BitVec.ofNat 32 (w % 2 ^ nbits))

end Sys2Proof.Machine
end

