-- ==== Sys2Proof/Machine/Assembly.lean ====
section
/-! DEFINITION. The assembler text of instructions and the pseudo-instructions of 30_encoding.md R122 and
R123, with the register names of 10_state.md R20. No part of the machine reads it. -/

namespace Sys2Proof.Machine

/-- `x0` to `x31` (10_state.md R20). -/
def regName (r : RegIdx) : String := "x" ++ toString r.toNat

/-- The ABI names (10_state.md R20). -/
def abiNames : List String :=
  ["zero", "ra", "sp", "gp", "tp", "t0", "t1", "t2", "s0", "s1", "a0", "a1", "a2", "a3", "a4", "a5"] ++
  ["a6", "a7", "s2", "s3", "s4", "s5", "s6", "s7", "s8", "s9", "s10", "s11", "t3", "t4", "t5", "t6"]

/-- The register an ABI name stands for; `fp` is `s0` (10_state.md R20). -/
def regOfAbi (n : String) : Option RegIdx :=
  if n = "fp" then some 8
  else if abiNames.idxOf n < 32 then some (BitVec.ofNat 5 (abiNames.idxOf n)) else none

/-- `op rd, rs1, rs2`. -/
def asm3 (op : String) (a b c : String) : String := op ++ " " ++ a ++ ", " ++ b ++ ", " ++ c

/-- `op r, imm(base)`. -/
def asmMem (op : String) (r : String) (imm : Int) (base : String) : String :=
  op ++ " " ++ r ++ ", " ++ toString imm ++ "(" ++ base ++ ")"

/-- The text of an instruction, destination first, stores data register first (R122). -/
def asmText : Instr → String
  | .halt => "halt"
  | .lui rd imm => "lui " ++ regName rd ++ ", " ++ toString imm.toNat
  | .auipc rd imm => "auipc " ++ regName rd ++ ", " ++ toString imm.toNat
  | .jal rd off => "jal " ++ regName rd ++ ", " ++ toString off.toInt
  | .jalr rd rs1 imm => asm3 "jalr" (regName rd) (regName rs1) (toString imm.toInt)
  | .beq rs1 rs2 off => asm3 "beq" (regName rs1) (regName rs2) (toString off.toInt)
  | .bne rs1 rs2 off => asm3 "bne" (regName rs1) (regName rs2) (toString off.toInt)
  | .blt rs1 rs2 off => asm3 "blt" (regName rs1) (regName rs2) (toString off.toInt)
  | .bge rs1 rs2 off => asm3 "bge" (regName rs1) (regName rs2) (toString off.toInt)
  | .bltu rs1 rs2 off => asm3 "bltu" (regName rs1) (regName rs2) (toString off.toInt)
  | .bgeu rs1 rs2 off => asm3 "bgeu" (regName rs1) (regName rs2) (toString off.toInt)
  | .lb rd rs1 imm => asmMem "lb" (regName rd) imm.toInt (regName rs1)
  | .lh rd rs1 imm => asmMem "lh" (regName rd) imm.toInt (regName rs1)
  | .lw rd rs1 imm => asmMem "lw" (regName rd) imm.toInt (regName rs1)
  | .lbu rd rs1 imm => asmMem "lbu" (regName rd) imm.toInt (regName rs1)
  | .lhu rd rs1 imm => asmMem "lhu" (regName rd) imm.toInt (regName rs1)
  | .sb rs2 rs1 imm => asmMem "sb" (regName rs2) imm.toInt (regName rs1)
  | .sh rs2 rs1 imm => asmMem "sh" (regName rs2) imm.toInt (regName rs1)
  | .sw rs2 rs1 imm => asmMem "sw" (regName rs2) imm.toInt (regName rs1)
  | .addi rd rs1 imm => asm3 "addi" (regName rd) (regName rs1) (toString imm.toInt)
  | .slti rd rs1 imm => asm3 "slti" (regName rd) (regName rs1) (toString imm.toInt)
  | .sltiu rd rs1 imm => asm3 "sltiu" (regName rd) (regName rs1) (toString imm.toInt)
  | .xori rd rs1 imm => asm3 "xori" (regName rd) (regName rs1) (toString imm.toInt)
  | .ori rd rs1 imm => asm3 "ori" (regName rd) (regName rs1) (toString imm.toInt)
  | .andi rd rs1 imm => asm3 "andi" (regName rd) (regName rs1) (toString imm.toInt)
  | .slli rd rs1 shamt => asm3 "slli" (regName rd) (regName rs1) (toString shamt.toNat)
  | .srli rd rs1 shamt => asm3 "srli" (regName rd) (regName rs1) (toString shamt.toNat)
  | .srai rd rs1 shamt => asm3 "srai" (regName rd) (regName rs1) (toString shamt.toNat)
  | .add rd rs1 rs2 => asm3 "add" (regName rd) (regName rs1) (regName rs2)
  | .sub rd rs1 rs2 => asm3 "sub" (regName rd) (regName rs1) (regName rs2)
  | .sll rd rs1 rs2 => asm3 "sll" (regName rd) (regName rs1) (regName rs2)
  | .slt rd rs1 rs2 => asm3 "slt" (regName rd) (regName rs1) (regName rs2)
  | .sltu rd rs1 rs2 => asm3 "sltu" (regName rd) (regName rs1) (regName rs2)
  | .xor rd rs1 rs2 => asm3 "xor" (regName rd) (regName rs1) (regName rs2)
  | .srl rd rs1 rs2 => asm3 "srl" (regName rd) (regName rs1) (regName rs2)
  | .sra rd rs1 rs2 => asm3 "sra" (regName rd) (regName rs1) (regName rs2)
  | .or rd rs1 rs2 => asm3 "or" (regName rd) (regName rs1) (regName rs2)
  | .and rd rs1 rs2 => asm3 "and" (regName rd) (regName rs1) (regName rs2)

/-- The pseudo-instructions of R123. -/
inductive Pseudo where
  | nop
  | li (rd : RegIdx) (imm : Word)
  | mv (rd rs : RegIdx)
  | not (rd rs : RegIdx)
  | neg (rd rs : RegIdx)
  | seqz (rd rs : RegIdx)
  | snez (rd rs : RegIdx)
  | j (off : BitVec 21)
  | jal (off : BitVec 21)
  | jr (rs : RegIdx)
  | ret
  | call (off : BitVec 21)
  | beqz (rs : RegIdx) (off : BitVec 13)
  | bnez (rs : RegIdx) (off : BitVec 13)
  | bgt (rs rt : RegIdx) (off : BitVec 13)
  | ble (rs rt : RegIdx) (off : BitVec 13)
  | bgtu (rs rt : RegIdx) (off : BitVec 13)
  | bleu (rs rt : RegIdx) (off : BitVec 13)
  | halt
  deriving DecidableEq, Repr

/-- The `lo12` of R123. -/
def lo12 (imm : Word) : BitVec 12 := imm.extractLsb' 0 12

/-- The `hi20` of R123: bits 31:12 of `imm - sext(lo12)`. -/
def hi20 (imm : Word) : BitVec 20 := (imm - sext12 (lo12 imm)).extractLsb' 12 20

/-- The expansion of R123, as instruction terms. -/
def Pseudo.expand : Pseudo → List Instr
  | .nop => [.addi 0 0 0]
  | .li rd imm =>
    if -2048 ≤ imm.toInt ∧ imm.toInt ≤ 2047 then [.addi rd 0 (lo12 imm)]
    else [.lui rd (hi20 imm), .addi rd rd (lo12 imm)]
  | .mv rd rs => [.addi rd rs 0]
  | .not rd rs => [.xori rd rs (-1)]
  | .neg rd rs => [.sub rd 0 rs]
  | .seqz rd rs => [.sltiu rd rs 1]
  | .snez rd rs => [.sltu rd 0 rs]
  | .j off => [.jal 0 off]
  | .jal off => [.jal 1 off]
  | .jr rs => [.jalr 0 rs 0]
  | .ret => [.jalr 0 1 0]
  | .call off => [.jal 1 off]
  | .beqz rs off => [.beq rs 0 off]
  | .bnez rs off => [.bne rs 0 off]
  | .bgt rs rt off => [.blt rt rs off]
  | .ble rs rt off => [.bge rt rs off]
  | .bgtu rs rt off => [.bltu rt rs off]
  | .bleu rs rt off => [.bgeu rt rs off]
  | .halt => [.halt]

/-- The words an assembler produces; `li a0, 255` gives the sentinel word (R123). -/
def Pseudo.words (p : Pseudo) : List Word := p.expand.map encode

end Sys2Proof.Machine
end

