-- ==== Sys2Proof/Machine/Loader.lean ====
section
/-! DEFINITION. The host's image loader (70_reset_and_hazards.md R455, R456): a text of tokens to the
memory a run starts from, or a rejection. It acts before the first tick and is no part of the tick. -/

namespace Sys2Proof.Machine

/-- A hexadecimal digit, upper or lower case (R455). -/
def hexDigit (c : Char) : Option Nat :=
  if '0'.toNat ≤ c.toNat ∧ c.toNat ≤ '9'.toNat then some (c.toNat - '0'.toNat)
  else if 'A'.toNat ≤ c.toNat ∧ c.toNat ≤ 'F'.toNat then some (c.toNat - 'A'.toNat + 10)
  else if 'a'.toNat ≤ c.toNat ∧ c.toNat ≤ 'f'.toNat then some (c.toNat - 'a'.toNat + 10)
  else none

/-- The value of hexadecimal digits, most significant first. -/
def hexValue : Nat → List Char → Option Nat
  | acc, [] => some acc
  | acc, c :: cs =>
    match hexDigit c with
    | some d => hexValue (16 * acc + d) cs
    | none => none

/-- A token of an image (R455). -/
inductive Token where
  | address (a : Nat)
  | byte (b : Byte)
  deriving DecidableEq, Repr

/-- One token: `@` and exactly eight digits, or exactly two digits; anything else is malformed (R455,
R456(c)). -/
def parseToken (cs : List Char) : Option Token :=
  match cs with
  | '@' :: ds => if ds.length = 8 then (hexValue 0 ds).map .address else none
  | _ => if cs.length = 2 then (hexValue 0 cs).map fun v => .byte (BitVec.ofNat 8 v) else none

/-- White space between tokens: space, tab, line feed, carriage return (DESIGN CHOICE, log 21). -/
def isSpace (c : Char) : Bool :=
  c.toNat == 32 || c.toNat == 9 || c.toNat == 10 || c.toNat == 13

/-- The white-space-separated words of a text; `acc` is the word being read, reversed. -/
def splitWords : List Char → List Char → List (List Char)
  | acc, [] => if acc.isEmpty then [] else [acc.reverse]
  | acc, c :: cs =>
    if isSpace c then
      if acc.isEmpty then splitWords [] cs else acc.reverse :: splitWords [] cs
    else splitWords (c :: acc) cs

/-- The loader over the words of a text, from load address `a` (R455, R456). -/
def loadWords (size : Nat) : Nat → Memory → List (List Char) → Option Memory
  | _, m, [] => some m
  | a, m, t :: ts =>
    match parseToken t with
    | some (.address a') => loadWords size a' m ts
    | some (.byte b) => if a < size then loadWords size (a + 1) (m.write a b) ts else none
    | none => none

/-- The memory an image text gives, none where the host rejects it (R455, R456). -/
def loadImage (size : Nat) (text : List Char) : Option Memory := loadWords size 0 [] (splitWords [] text)

/-- The host's start of a run: image load and reset (R450); none where the image is rejected and no run
starts (R456(c)). -/
def hostStart (c : Config) (text : List Char) : Option State :=
  (loadImage c.memSize text).map (State.resetWith c)

end Sys2Proof.Machine
end

