-- ==== Sys2Proof/Machine/Sequential.lean ====
section
/-! DEFINITION. The architectural effect of every instruction (the "Architectural effect" lines of
43_addsub.md to 47_load_store.md) and the sequential interpreter of 70_reset_and_hazards.md R470. This is
the first of the two levels of 00_scope.md R11: the law the pipeline is held against, not the pipeline. -/

namespace Sys2Proof.Machine

/-- The state of the sequential interpreter (R470). -/
structure ArchState where
  pc : Word
  x : Vector Word 32
  mem : Memory
  deriving DecidableEq, Repr

/-- The architectural part of a machine state. -/
def State.arch (s : State) : ArchState := ⟨s.pc, s.x, s.mem⟩

/-- `x[r]` (00_scope.md R10). -/
def ArchState.reg (a : ArchState) (r : RegIdx) : Word := if r = 0 then 0 else a.x[r.toNat]

/-- `x[rd] <- v; pc <- pc + 4`. -/
def ArchState.result (a : ArchState) (rd : RegIdx) (v : Word) : ArchState :=
  { a with x := writeValue a.x rd v, pc := a.pc + 4 }

/-- `x[rd] <- pc + 4; pc <- t`. -/
def ArchState.link (a : ArchState) (rd : RegIdx) (t : Word) : ArchState :=
  { a with x := writeValue a.x rd (a.pc + 4), pc := t }

/-- `pc <- cond ? pc + imm : pc + 4` (44_compare_branch.md R272). -/
def ArchState.branch (a : ArchState) (cond : Bool) (imm : Word) : ArchState :=
  { a with pc := if cond then a.pc + imm else a.pc + 4 }

/-- A load's effect; none where it reads outside memory (47_load_store.md R341, R350 to R354). -/
def ArchState.load (a : ArchState) (size : Nat) (o : LoadOp) (rd rs1 : RegIdx) (imm : Word) :
    Option ArchState :=
  (loadValue a.mem size o (a.reg rs1 + imm)).map (a.result rd)

/-- A store's effect; none where it writes outside memory (47_load_store.md R355 to R357). -/
def ArchState.store (a : ArchState) (size : Nat) (o : StoreOp) (rs2 rs1 : RegIdx) (imm : Word) :
    Option ArchState :=
  (memWrite a.mem size (a.reg rs1 + imm) o.width (a.reg rs2)).map fun m =>
    { a with mem := m, pc := a.pc + 4 }

/-- The architectural effect of an instruction; none where it accesses an address outside memory. The
sentinel changes nothing (R243). -/
def seqExec (size : Nat) (i : Instr) (a : ArchState) : Option ArchState :=
  match i with
  | .halt => some a
  | .lui rd imm => some (a.result rd (uImm imm))
  | .auipc rd imm => some (a.result rd (a.pc + uImm imm))
  | .jal rd off => some (a.link rd (a.pc + sext21 off))
  | .jalr rd rs1 imm => some (a.link rd ((a.reg rs1 + sext12 imm) &&& 0xFFFFFFFE#32))
  | .beq rs1 rs2 off => some (a.branch (a.reg rs1 == a.reg rs2) (sext13 off))
  | .bne rs1 rs2 off => some (a.branch (a.reg rs1 != a.reg rs2) (sext13 off))
  | .blt rs1 rs2 off => some (a.branch ((a.reg rs1).slt (a.reg rs2)) (sext13 off))
  | .bge rs1 rs2 off => some (a.branch ((a.reg rs2).sle (a.reg rs1)) (sext13 off))
  | .bltu rs1 rs2 off => some (a.branch ((a.reg rs1).ult (a.reg rs2)) (sext13 off))
  | .bgeu rs1 rs2 off => some (a.branch ((a.reg rs2).ule (a.reg rs1)) (sext13 off))
  | .lb rd rs1 imm => a.load size .lb rd rs1 (sext12 imm)
  | .lh rd rs1 imm => a.load size .lh rd rs1 (sext12 imm)
  | .lw rd rs1 imm => a.load size .lw rd rs1 (sext12 imm)
  | .lbu rd rs1 imm => a.load size .lbu rd rs1 (sext12 imm)
  | .lhu rd rs1 imm => a.load size .lhu rd rs1 (sext12 imm)
  | .sb rs2 rs1 imm => a.store size .sb rs2 rs1 (sext12 imm)
  | .sh rs2 rs1 imm => a.store size .sh rs2 rs1 (sext12 imm)
  | .sw rs2 rs1 imm => a.store size .sw rs2 rs1 (sext12 imm)
  | .addi rd rs1 imm => some (a.result rd (a.reg rs1 + sext12 imm))
  | .slti rd rs1 imm => some (a.result rd (boolWord ((a.reg rs1).slt (sext12 imm))))
  | .sltiu rd rs1 imm => some (a.result rd (boolWord ((a.reg rs1).ult (sext12 imm))))
  | .xori rd rs1 imm => some (a.result rd (a.reg rs1 ^^^ sext12 imm))
  | .ori rd rs1 imm => some (a.result rd (a.reg rs1 ||| sext12 imm))
  | .andi rd rs1 imm => some (a.result rd (a.reg rs1 &&& sext12 imm))
  | .slli rd rs1 shamt => some (a.result rd (a.reg rs1 <<< shamt.toNat))
  | .srli rd rs1 shamt => some (a.result rd (a.reg rs1 >>> shamt.toNat))
  | .srai rd rs1 shamt => some (a.result rd ((a.reg rs1).sshiftRight shamt.toNat))
  | .add rd rs1 rs2 => some (a.result rd (a.reg rs1 + a.reg rs2))
  | .sub rd rs1 rs2 => some (a.result rd (a.reg rs1 - a.reg rs2))
  | .sll rd rs1 rs2 => some (a.result rd (a.reg rs1 <<< ((a.reg rs2).toNat % 32)))
  | .slt rd rs1 rs2 => some (a.result rd (boolWord ((a.reg rs1).slt (a.reg rs2))))
  | .sltu rd rs1 rs2 => some (a.result rd (boolWord ((a.reg rs1).ult (a.reg rs2))))
  | .xor rd rs1 rs2 => some (a.result rd (a.reg rs1 ^^^ a.reg rs2))
  | .srl rd rs1 rs2 => some (a.result rd (a.reg rs1 >>> ((a.reg rs2).toNat % 32)))
  | .sra rd rs1 rs2 => some (a.result rd ((a.reg rs1).sshiftRight ((a.reg rs2).toNat % 32)))
  | .or rd rs1 rs2 => some (a.result rd (a.reg rs1 ||| a.reg rs2))
  | .and rd rs1 rs2 => some (a.result rd (a.reg rs1 &&& a.reg rs2))

/-- One observation of a trace (48_reorder_commit.md R396). -/
structure Observation where
  pc : Word
  word : Word
  x : Vector Word 32
  deriving DecidableEq, Repr

/-- The outcome of one step of the interpreter (R470); `stuck` where the fetch or an access is outside
memory or the word is INVALID, so that the image is not a valid one. -/
inductive SeqOutcome where
  | next (a : ArchState) (o : Observation)
  | halted (code : BitVec 8) (o : Observation)
  | stuck
  deriving DecidableEq, Repr

/-- One step of the interpreter (R470). -/
def seqStep (size : Nat) (a : ArchState) : SeqOutcome :=
  match memRead a.mem size a.pc 4 with
  | none => .stuck
  | some w =>
    if w = haltWord then .halted ((a.reg 10).setWidth 8) ⟨a.pc, w, a.x⟩
    else
      match decode w with
      | .error _ => .stuck
      | .ok i =>
        match seqExec size i a with
        | none => .stuck
        | some a' => .next a' ⟨a.pc, w, a'.x⟩

/-- The interpreter's trace and exit code over at most `n` steps; no exit code where it has not halted
(R470). -/
def seqRun (size : Nat) : Nat → ArchState → List Observation × Option (BitVec 8)
  | 0, _ => ([], none)
  | n + 1, a =>
    match seqStep size a with
    | .next a' o => (o :: (seqRun size n a').1, (seqRun size n a').2)
    | .halted code o => ([o], some code)
    | .stuck => ([], none)

end Sys2Proof.Machine
end

