-- ==== Sys2Proof/Machine/Observe.lean ====
section
/-! DEFINITION. What the host and a test bench read of a run (70_reset_and_hazards.md R458): the commit
observation and the commit trace (48_reorder_commit.md R396), the end of a run. Nothing here is read by
the machine. -/

namespace Sys2Proof.Machine

/-- The head of the reorder buffer, if it is in state Write. -/
def headInWrite (f : State) : Option RobEntry :=
  match f.rob.entries with
  | e :: _ => if e.state = .write then some e else none
  | [] => none

/-- The observation of the tick from `s` to `t`: one for each Execute, not abandoned, whose flushed
state has its head in state Write (R396). -/
def observe (s t : State) : Option Observation :=
  if s.halt then none
  else
    match flush s, t.status with
    | .ok f, .running => (headInWrite f).map fun e => ⟨e.instr.pc, e.instr.word, t.x⟩
    | _, _ => none

/-- The commit trace of the first `n` ticks from a state (R396). -/
def commitTrace : Nat → State → List Observation
  | 0, _ => []
  | n + 1, s =>
    match step s with
    | .next t => (observe s t).toList ++ commitTrace n t
    | .fault _ => []
    | .refused _ => []

/-- The exit code the host reads (R458; 40_clock_and_bus.md R134). -/
def State.exitStatus (s : State) : Option (BitVec 8) :=
  match s.status with
  | .halted code => some code
  | .running => none
  | .aborted _ => none

end Sys2Proof.Machine
end

