-- ==== Sys2Proof/Safety.lean ====
section
/-! DEFINITION. The terms claims are stated in: the drained machine, the reference-shaped configuration,
the canonicalisation of 41_issue_unit.md R163 as a function of the decoded record, and the invariants of
10_state.md R44 and of the capacity rules. -/

namespace Sys2Proof.Machine

/-! ## States -/

/-- Nothing is in flight: the pipeline part is as after reset or a squash, whatever `x`, `pc`, `mem`,
`cycle`, the predictor state and the reorder buffer's head are (10_state.md R45; 48_reorder_commit.md
R395). -/
structure Drained (s : State) : Prop where
  status : s.status = .running
  stall : s.stall = false
  clear : s.clear = false
  halt : s.halt = false
  iq : s.iq = []
  latch : s.latch = none
  rs : s.rs = Banks.empty s.cfg
  fu : s.fu = Stages.allIdle
  lq : s.lq = []
  sq : s.sq = []
  ldst : s.ldst = .idle
  stst : s.stst = .idle
  rob : s.rob.entries = []
  head : s.rob.head < s.cfg.robCap
  bus : s.bus = []
  tag : s.tag = Vector.replicate 32 none

/-- The configuration is REF of 00_scope.md R8 with any predictor. -/
def RefTiming (s : State) : Prop :=
  ∃ k, s.cfg = { Config.ref with predictor := k }

/-- The fetch port would deliver the halt sentinel at an address: the fetch unit stops there
(43_addsub.md R243). -/
def SentinelAt (s : State) (addr : Word) : Prop :=
  memRead s.mem s.cfg.memSize addr 4 = some haltWord

/-- `n` further steps reach a state. -/
def Reaches (n : Nat) (s t : State) : Prop :=
  Sys2Proof.core.run n s = .next t

/-! ## Canonicalisation (41_issue_unit.md R163)

The table of R163, read from the decoded record. The meanings of the instructions build the same records
from their operands; that the two agree is an obligation. -/

/-- The operation a mnemonic becomes, none for INVALID. -/
def opOf : Mnemonic → Option Op
  | .lui => some (.add .add)
  | .auipc => some (.add .add)
  | .jal => some (.add .add)
  | .jalr => some (.add .jalr)
  | .beq => some (.cmp .beq)
  | .bne => some (.cmp .bne)
  | .blt => some (.cmp .blt)
  | .bge => some (.cmp .bge)
  | .bltu => some (.cmp .bltu)
  | .bgeu => some (.cmp .bgeu)
  | .lb => some (.ls (.load .lb))
  | .lh => some (.ls (.load .lh))
  | .lw => some (.ls (.load .lw))
  | .lbu => some (.ls (.load .lbu))
  | .lhu => some (.ls (.load .lhu))
  | .sb => some (.ls (.store .sb))
  | .sh => some (.ls (.store .sh))
  | .sw => some (.ls (.store .sw))
  | .addi => some (.add .add)
  | .slti => some (.cmp .slt)
  | .sltiu => some (.cmp .sltu)
  | .xori => some (.log .xor)
  | .ori => some (.log .or)
  | .andi => some (.log .and)
  | .slli => some (.shf .sll)
  | .srli => some (.shf .srl)
  | .srai => some (.shf .sra)
  | .add => some (.add .add)
  | .sub => some (.add .sub)
  | .sll => some (.shf .sll)
  | .slt => some (.cmp .slt)
  | .sltu => some (.cmp .sltu)
  | .xor => some (.log .xor)
  | .srl => some (.shf .srl)
  | .sra => some (.shf .sra)
  | .or => some (.log .or)
  | .and => some (.log .and)
  | .invalid => none

/-- A register operand as a source; an absent one is never used. -/
def regSource (r : Option RegIdx) : Source :=
  match r with
  | some r => .reg r
  | none => .val 0

/-- The first source of a record, by mnemonic. -/
def canonSrc1 (d : DRec) (pc : Word) : Source :=
  match d.mn with
  | .lui => .reg 0
  | .auipc => .val pc
  | .jal => .val pc
  | _ => regSource d.rs1

/-- The second source of a record, by mnemonic and class. -/
def canonSrc2 (d : DRec) : Source :=
  match d.mn, d.cls with
  | .jal, _ => .val 4
  | .invalid, _ => .val 0
  | _, .branch => regSource d.rs2
  | _, .store => regSource d.rs2
  | _, .arithReg => regSource d.rs2
  | _, _ => .val d.imm

/-- `rd*` of R163. -/
def canonRd (d : DRec) : Option RegIdx :=
  match d.rd with
  | some rd => if rd = 0 then none else some rd
  | none => none

/-- `Canon(D, w, pc, P)` of R163, `p` being the predictor's guess for `pc`. -/
def canon (d : DRec) (w pc : Word) (p : Bool) : IRec :=
  if w = haltWord then
    ⟨w, pc, d.mn, d.cls, some (.add .add), some 10, .reg 0, .val 255, 255, none, true⟩
  else
    ⟨w, pc, d.mn, d.cls, opOf d.mn, canonRd d, canonSrc1 d pc, canonSrc2 d, d.imm,
      if d.cls = .branch then some p else none, false⟩

/-! ## The opcode table (30_encoding.md R112) -/

/-- A decoder row: the words with `w &&& mask = pattern` are the mnemonic's. -/
structure OpcodeRow where
  mn : Mnemonic
  mask : Word
  pattern : Word
  deriving DecidableEq, Repr

/-- The 37 decoder rows of R112, in the table's order; its last row is the sentinel's, no decoder row. -/
def opcodeRows : List OpcodeRow :=
  [⟨.lui, 0x0000007F#32, 0x00000037#32⟩, ⟨.auipc, 0x0000007F#32, 0x00000017#32⟩,
    ⟨.jal, 0x0000007F#32, 0x0000006F#32⟩, ⟨.jalr, 0x0000707F#32, 0x00000067#32⟩,
    ⟨.beq, 0x0000707F#32, 0x00000063#32⟩, ⟨.bne, 0x0000707F#32, 0x00001063#32⟩,
    ⟨.blt, 0x0000707F#32, 0x00004063#32⟩, ⟨.bge, 0x0000707F#32, 0x00005063#32⟩,
    ⟨.bltu, 0x0000707F#32, 0x00006063#32⟩, ⟨.bgeu, 0x0000707F#32, 0x00007063#32⟩] ++
  [⟨.lb, 0x0000707F#32, 0x00000003#32⟩, ⟨.lh, 0x0000707F#32, 0x00001003#32⟩,
    ⟨.lw, 0x0000707F#32, 0x00002003#32⟩, ⟨.lbu, 0x0000707F#32, 0x00004003#32⟩,
    ⟨.lhu, 0x0000707F#32, 0x00005003#32⟩, ⟨.sb, 0x0000707F#32, 0x00000023#32⟩,
    ⟨.sh, 0x0000707F#32, 0x00001023#32⟩, ⟨.sw, 0x0000707F#32, 0x00002023#32⟩] ++
  [⟨.addi, 0x0000707F#32, 0x00000013#32⟩, ⟨.slti, 0x0000707F#32, 0x00002013#32⟩,
    ⟨.sltiu, 0x0000707F#32, 0x00003013#32⟩, ⟨.xori, 0x0000707F#32, 0x00004013#32⟩,
    ⟨.ori, 0x0000707F#32, 0x00006013#32⟩, ⟨.andi, 0x0000707F#32, 0x00007013#32⟩,
    ⟨.slli, 0xFE00707F#32, 0x00001013#32⟩, ⟨.srli, 0xFE00707F#32, 0x00005013#32⟩,
    ⟨.srai, 0xFE00707F#32, 0x40005013#32⟩] ++
  [⟨.add, 0xFE00707F#32, 0x00000033#32⟩, ⟨.sub, 0xFE00707F#32, 0x40000033#32⟩,
    ⟨.sll, 0xFE00707F#32, 0x00001033#32⟩, ⟨.slt, 0xFE00707F#32, 0x00002033#32⟩,
    ⟨.sltu, 0xFE00707F#32, 0x00003033#32⟩, ⟨.xor, 0xFE00707F#32, 0x00004033#32⟩,
    ⟨.srl, 0xFE00707F#32, 0x00005033#32⟩, ⟨.sra, 0xFE00707F#32, 0x40005033#32⟩,
    ⟨.or, 0xFE00707F#32, 0x00006033#32⟩, ⟨.and, 0xFE00707F#32, 0x00007033#32⟩]

/-! ## Image tokens (70_reset_and_hazards.md R455) -/

/-- The hexadecimal digits, upper and lower case, with their values. -/
def hexDigits : List (Char × Nat) :=
  [('0', 0), ('1', 1), ('2', 2), ('3', 3), ('4', 4), ('5', 5), ('6', 6), ('7', 7), ('8', 8), ('9', 9)] ++
  [('A', 10), ('B', 11), ('C', 12), ('D', 13), ('E', 14), ('F', 15)] ++
  [('a', 10), ('b', 11), ('c', 12), ('d', 13), ('e', 14), ('f', 15)]

/-- Hexadecimal digits with their values, one by one. -/
def Digits (cs : List Char) (ds : List Nat) : Prop := List.Forall₂ (fun c d => (c, d) ∈ hexDigits) cs ds

/-- A byte token: exactly two digits. -/
def ByteToken (t : List Char) (b : Byte) : Prop :=
  ∃ hi lo, Digits t [hi, lo] ∧ b = BitVec.ofNat 8 (16 * hi + lo)

/-- An address token: `@` and exactly eight digits, most significant first. -/
def AddressToken (t : List Char) (a : Nat) : Prop :=
  ∃ cs ds, t = '@' :: cs ∧ Digits cs ds ∧ ds.length = 8 ∧ a = ds.foldl (fun v d => 16 * v + d) 0

/-! ## Room -/

/-- The bank an operation goes to has a free slot. -/
def bankHasRoom (rs : Banks) : Bank → Prop
  | .add => none ∈ rs.add
  | .cmp => none ∈ rs.cmp
  | .log => none ∈ rs.log
  | .shf => none ∈ rs.shf
  | .ls => none ∈ rs.ls

/-! ## Ticks -/

/-- A tick leads from `s` to `t`: a step, whatever the word at `pc` is, or `exec` of an instruction. -/
def TickTo (s t : State) : Prop := step s = .next t ∨ ∃ i, exec i s = .next t

/-- A completed tick of a running machine: `f` is the flushed state of `s`, and the tick leads to the running
state `t` (40_clock_and_bus.md R130). -/
structure Ticks (s f t : State) : Prop where
  running : s.status = .running
  noHalt : s.halt = false
  flushed : flush s = .ok f
  next : TickTo s t
  goes : t.status = .running

/-- Every tick from `s` leads to `t`, whatever its fetch port would deliver. -/
def EveryTickTo (s t : State) : Prop := step s = .next t ∧ ∀ i, exec i s = .next t

/-- The tick from `s` to `t` is one whose fetch port delivers the word `w`, decoded as `d`: a step where `w`
stands at `pc`, which may be INVALID, or `exec` of a well-formed instruction (41_issue_unit.md R161). -/
def Delivers (d : DRec) (w : Word) (s t : State) : Prop :=
  (s.fetchWord = some w ∧ d = decodeRecord w ∧ step s = .next t) ∨
    ∃ i : Instr, i.wellFormed = true ∧ d = i.drec ∧ w = encode i ∧ exec i s = .next t

/-- `e` is the head of the flushed reorder buffer, in state Write, with `rest` behind it (R385). -/
def HeadCommits (f : State) (e : RobEntry) (rest : List RobEntry) : Prop :=
  f.rob.entries = e :: rest ∧ e.state = .write

/-! ## Fetch and issue, declaratively (41_issue_unit.md) -/

/-- The fetch gate (R160). -/
abbrev FetchOpen (f : State) : Prop := f.stall = false ∧ f.iq.length < f.cfg.iqCap

/-- The record fetch appends for an instruction (R161, R163, R164). -/
def fetchedRecord (i : Instr) (f : State) : IRec :=
  canon i.drec (encode i) f.pc (predict f.cfg.predictor f.pred f.pc)

/-- The next pc fetch chooses, by the table of R162. -/
def tableNextPc (d : DRec) (pc : Word) (guess : Bool) : Word :=
  if d.mn = .jal ∨ (d.cls = .branch ∧ guess = true) then pc + d.imm else pc + 4

/-- JALR and the halt sentinel stall fetch (R165). -/
def stallsFetch : Instr → Bool
  | .jalr _ _ _ => true
  | .halt => true
  | _ => false

/-- The conditions of the issue gate for a classified head, read in the structures themselves (R170). -/
def CanIssue (f : State) (op : Op) : Prop :=
  f.rob.entries.length ≠ f.cfg.robCap ∧ bankHasRoom f.rs op.bank ∧
    match op with
    | .ls (.load _) => f.lq.length ≠ f.cfg.lqCap
    | .ls (.store _) => f.sq.length ≠ f.cfg.sqCap
    | _ => True

/-- What an operand of the reservation-station entry is at issue (R173). -/
structure OperandRead (f : State) (src : Source) (o : Operand) : Prop where
  value : ∀ v, src = .val v → o = .value v
  zero : src = .reg 0 → o = .value 0
  register : ∀ r, r ≠ 0 → src = .reg r → f.tagOf r = none → o = .value (f.reg r)
  pending : ∀ r q, r ≠ 0 → src = .reg r → f.tagOf r = some q → o = .pending q

/-- The load/store-buffer entry of an operation, whatever its timestamp, which is unset at issue (R175). -/
def lsbEntryFor (op : Op) (n ts : Nat) : Option LsbEntry :=
  match op with
  | .ls (.load o) => some (.load ⟨o, n, 0, false, ts⟩)
  | .ls (.store o) => some (.store ⟨o, n, 0, false, ts, false, 0⟩)
  | _ => none

/-! ## Commit, declaratively (48_reorder_commit.md) -/

/-- The operations whose result commits by R387. -/
def Op.isResult : Op → Bool
  | .add .jalr => false
  | .add _ => true
  | .cmp o => !o.isBranch
  | .log _ => true
  | .shf _ => true
  | .ls (.load _) => true
  | .ls (.store _) => false

/-- A branch entry whose stored guess is not its outcome (R389). -/
def Mispredicted (e : RobEntry) : Prop := e.instr.pred ≠ some (e.value != 0)

/-- The address after a branch, by its outcome (R389). -/
def correctedTarget (e : RobEntry) : Word :=
  if e.value != 0 then e.instr.pc + e.instr.imm else e.instr.pc + 4

/-- The redirect commit produces (40_clock_and_bus.md R138; R388, R389): a JALR's target, or the corrected
target of a mispredicted branch. -/
def redirectOf (f : State) : Option Word :=
  match f.rob.entries with
  | [] => none
  | e :: _ =>
    if e.state = .write ∧ e.instr.isHalt = false then
      match e.instr.op with
      | some (.add .jalr) => some e.value
      | some (.cmp o) =>
        if o.isBranch = true ∧ e.instr.pred ≠ some (e.value != 0) then some (correctedTarget e) else none
      | _ => none
    else none

/-- The commit messages of a bus; only commit emits these kinds (40_clock_and_bus.md R144, R145). -/
def commitMsgs (bus : List Msg) : List Msg :=
  bus.filter fun m => m.kind == .commitReg || m.kind == .commitMem

/-- A register's tag once commit's write `(c, v, h)` has cleared its own (R391). -/
def clearedTagOf (f : State) (w : Option (RegIdx × Word × Nat)) (r : RegIdx) : Option Nat :=
  match w with
  | some (c, _, h) => if r = c ∧ f.tagOf r = some h then none else f.tagOf r
  | none => f.tagOf r

/-- The register file of the next state (40_clock_and_bus.md R139): values from commit's write, tags from
the entry issue leaves in the latch, else from commit's clear. -/
def RegisterFileNext (f t : State) (w : Option (RegIdx × Word × Nat)) : Prop :=
  ∀ r : RegIdx, r ≠ 0 →
    (t.reg r =
      match w with
      | some (c, v, _) => if r = c then v else f.reg r
      | none => f.reg r) ∧
    (t.tagOf r =
      match t.latch with
      | some l => if l.robEntry.rd = some r then some l.idx else clearedTagOf f w r
      | none => clearedTagOf f w r)

/-! ## Banks and stages, declaratively (42_reservation_stations.md, 43_addsub.md) -/

/-- A bank's slots with the operations under their common type. -/
def Banks.view (rs : Banks) : Bank → List (Option (RSEntry Op))
  | .add => rs.add.map (Option.map fun e => e.withOp (.add e.op))
  | .cmp => rs.cmp.map (Option.map fun e => e.withOp (.cmp e.op))
  | .log => rs.log.map (Option.map fun e => e.withOp (.log e.op))
  | .shf => rs.shf.map (Option.map fun e => e.withOp (.shf e.op))
  | .ls => rs.ls.map (Option.map fun e => e.withOp (.ls e.op))

/-- Both operands are resolved (10_state.md R32). -/
def RSEntry.isReady {α : Type} (e : RSEntry α) : Prop := (∃ a, e.j = .value a) ∧ ∃ b, e.k = .value b

/-- Slot `k` holds the ready entry with the lowest slot index (R207, R209). -/
def FirstReady {α : Type} (bank : List (Option (RSEntry α))) (k : Nat) (e : RSEntry α) : Prop :=
  bank[k]? = some (some e) ∧ e.isReady ∧ ∀ j < k, ∀ e', bank[j]? = some (some e') → ¬ e'.isReady

/-- No entry of a bank is ready. -/
def NoneReady {α : Type} (bank : List (Option (RSEntry α))) : Prop := ∀ e, some e ∈ bank → ¬ e.isReady

/-- Slot `k` is the free slot with the lowest index (R203). -/
def FirstFree {α : Type} (bank : List (Option α)) (k : Nat) : Prop :=
  bank[k]? = some none ∧ ∀ j < k, bank[j]? ≠ some none

/-- One Execute of an arithmetic stage and its bank (43_addsub.md R231; R207, R208). -/
structure StageRule {α : Type} (result : α → Word → Word → Word) (lat : Nat) (st : Stage α)
    (bank : List (Option (RSEntry α))) (st' : Stage α) (bank' : List (Option (RSEntry α)))
    (out : List Msg) : Prop where
  counts : ∀ rem op a b d, st = .busy rem op a b d → 1 < rem →
    st' = .busy (rem - 1) op a b d ∧ bank' = bank ∧ out = []
  finishes : ∀ op a b d, st = .busy 1 op a b d →
    st' = .idle ∧ bank' = bank ∧ out = [⟨.writeBack, d, result op a b⟩]
  waits : st = .idle → NoneReady bank → st' = .idle ∧ bank' = bank ∧ out = []
  takes : st = .idle → ∀ k e a b, FirstReady bank k e → e.j = .value a → e.k = .value b →
    st' = .busy lat e.op a b e.dest ∧ bank' = bank.set k none ∧ out = []

/-- The value of an index is on the bus: a WriteBack or a CommitReg carries it, and no other value (R205). -/
def Announced (bus : List Msg) (q : Nat) (v : Word) : Prop :=
  ((⟨.writeBack, q, v⟩ : Msg) ∈ bus ∨ (⟨.commitReg, q, v⟩ : Msg) ∈ bus) ∧
    ∀ m ∈ bus, (m.kind = .writeBack ∨ m.kind = .commitReg) → m.idx = q → m.data = v

/-- No WriteBack and no CommitReg carries the index. -/
def Unannounced (bus : List Msg) (q : Nat) : Prop :=
  ∀ m ∈ bus, (m.kind = .writeBack ∨ m.kind = .commitReg) → m.idx ≠ q

/-- What a pending or resolved operand is after the bus was snooped (R205). -/
structure WakesFrom (bus : List Msg) (o o' : Operand) : Prop where
  resolved : ∀ v, o = .value v → o' = .value v
  woken : ∀ q v, o = .pending q → Announced bus q v → o' = .value v
  asleep : ∀ q, o = .pending q → Unannounced bus q → o' = .pending q

/-! ## The load/store buffer through a Flush, declaratively (47_load_store.md) -/

/-- `LQ` with the latched load inserted behind (R332, R333). -/
def loadsInserted (s : State) : List LoadEntry :=
  s.lq ++
    match s.latch with
    | some ⟨_, _, _, some (.load e)⟩ => [{ e with ts := s.cycle, ready := false }]
    | _ => []

/-- `SQ` with the latched store inserted behind (R332, R333). -/
def storesInserted (s : State) : List StoreEntry :=
  s.sq ++
    match s.latch with
    | some ⟨_, _, _, some (.store e)⟩ => [{ e with ts := s.cycle, ready := false, committed := false }]
    | _ => []

/-- How many entries of the two queues have a destination index (R334). -/
def queuedUnder (lq : List LoadEntry) (sq : List StoreEntry) (i : Nat) : Nat :=
  (lq.map LoadEntry.dest ++ sq.map StoreEntry.dest).count i

/-- What the GetAddr messages of a bus make of the address of a queued entry, known or not (R334). -/
structure AddressFrom (bus : List Msg) (dest : Nat) (a : Word) (known : Bool) (a' : Word) (known' : Bool) : Prop where
  untouched : (∀ m ∈ bus, m.kind = .getAddr → m.idx ≠ dest) → a' = a ∧ known' = known
  resolved : ∀ v, (⟨.getAddr, dest, v⟩ : Msg) ∈ bus → (∀ w, (⟨.getAddr, dest, w⟩ : Msg) ∈ bus → w = v) →
    a' = v ∧ known' = true

/-! ## What one instruction does from a drained machine -/

/-- `exec i s` answers a next state `t1`, fetch goes on at `next`, and `n` ticks later the instruction has
committed: register `rd` holds `v` (nothing is written if `rd` is x0), every other register, all of memory
and the predictor's state are as before, nothing is left in the load/store buffer, no squash and no halt is
raised, and no register but x10, which the sentinel behind the instruction renames, carries a tag. -/
def RetiresWith (i : Instr) (s : State) (n : Nat) (next : Word) (rd : RegIdx) (v : Word) : Prop :=
  ∃ t1 t, exec i s = .next t1 ∧ t1.pc = next ∧ Reaches n t1 t ∧ t.status = .running ∧
    (∀ r, t.reg r = if r = rd ∧ r ≠ 0 then v else s.reg r) ∧ t.mem = s.mem ∧ t.pred = s.pred ∧
    t.cfg = s.cfg ∧ t.cycle = s.cycle + (n + 1) ∧ t.clear = false ∧ t.halt = false ∧
    t.lq = [] ∧ t.sq = [] ∧ t.ldst = .idle ∧ t.stst = .idle ∧ ∀ r, r ≠ 10 → t.tagOf r = none

/-- `exec i s` answers a next state, and `n` ticks later the machine has aborted with `a`: registers, memory
and the predictor's state are as before (60_exceptions.md R420). -/
def AbortsWith (i : Instr) (s : State) (n : Nat) (a : Abort) : Prop :=
  ∃ t1 t, exec i s = .next t1 ∧ Reaches n t1 t ∧ t.status = .aborted a ∧ (∀ r, t.reg r = s.reg r) ∧
    t.mem = s.mem ∧ t.pred = s.pred ∧ t.cycle = s.cycle + n

/-- `exec i s` answers a next state and five ticks later the store has been performed: exactly the `n` bytes at
`ea` hold the low bytes of `v`, every other byte, every register and the predictor's state are as before. -/
def StoresOnly (i : Instr) (s : State) (ea : Word) (n : Nat) (v : Word) : Prop :=
  ∃ t1 t, exec i s = .next t1 ∧ t1.pc = s.pc + 4 ∧ Reaches 5 t1 t ∧ t.status = .running ∧
    (∀ k < n, t.mem.read (ea.toNat + k) = (v >>> (8 * k)).setWidth 8) ∧
    (∀ b, (∀ k < n, b ≠ ea.toNat + k) → t.mem.read b = s.mem.read b) ∧ t.mem.wf ∧
    (∀ r, t.reg r = s.reg r) ∧ t.pred = s.pred ∧ t.cfg = s.cfg ∧ t.cycle = s.cycle + 6 ∧
    t.clear = false ∧ t.halt = false ∧ t.lq = [] ∧ t.sq = [] ∧ t.ldst = .idle ∧ t.stst = .idle ∧
    ∀ r, r ≠ 10 → t.tagOf r = none

/-- `exec i s` answers a next state, fetch goes on by the predictor's guess, and four ticks later the branch
has committed: the predictor is told the outcome; on a wrong guess the squash is raised and `pc` is the
corrected target; no register and no memory changes (44_compare_branch.md R272). -/
def Branches (i : Instr) (s : State) (off : Word) (taken : Bool) : Prop :=
  ∃ t1 t, exec i s = .next t1 ∧
    t1.pc = (if predict s.cfg.predictor s.pred s.pc then s.pc + off else s.pc + 4) ∧
    Reaches 4 t1 t ∧ t.status = .running ∧ (∀ r, t.reg r = s.reg r) ∧ t.mem = s.mem ∧
    t.pred = feedback s.cfg.predictor s.pred s.pc taken ∧ t.cfg = s.cfg ∧ t.cycle = s.cycle + 5 ∧
    t.halt = false ∧ t.lq = [] ∧ t.sq = [] ∧ t.ldst = .idle ∧ t.stst = .idle ∧
    (∀ r, r ≠ 10 → t.tagOf r = none) ∧
    (predict s.cfg.predictor s.pred s.pc = taken → t.clear = false ∧ t.pc = t1.pc + 4) ∧
    (predict s.cfg.predictor s.pred s.pc ≠ taken →
      t.clear = true ∧ t.pc = if taken then s.pc + off else s.pc + 4)

/-! ## What is in flight (10_state.md R38, R44) -/

/-- Entries numbered from an index on, in the ring of `cap` indices. -/
def liveFrom (cap : Nat) : Nat → List RobEntry → List (Nat × RobEntry)
  | _, [] => []
  | i, e :: es => (i, e) :: liveFrom cap ((i + 1) % cap) es

/-- The live reorder-buffer entries with their indices, in program order (R38). -/
def State.live (s : State) : List (Nat × RobEntry) := liveFrom s.cfg.robCap s.rob.head s.rob.entries

/-- The instructions in flight, in program order: the live entries, and the one in the latch. -/
def State.inFlight (s : State) : List (Nat × RobEntry) :=
  s.live ++
    match s.latch with
    | some l => [(l.idx, l.robEntry)]
    | none => []

/-- The index of the youngest of some instructions whose destination is a register. -/
def youngestIn (r : RegIdx) : List (Nat × RobEntry) → Option Nat
  | [] => none
  | (i, e) :: rest =>
    match youngestIn r rest with
    | some j => some j
    | none => if e.rd = some r then some i else none

/-- The entries in the busy slots of a bank. -/
def busy {α : Type} (bank : List (Option (RSEntry α))) : List (RSEntry α) := bank.filterMap id

/-- The entries in the busy slots of all banks. -/
def Banks.entries (rs : Banks) : List (RSEntry Op) :=
  busy (rs.view .add) ++ busy (rs.view .cmp) ++ busy (rs.view .log) ++ busy (rs.view .shf) ++ busy (rs.view .ls)

/-- What a stage works on: destination index and operation. -/
def Stage.work {α : Type} (toOp : α → Op) : Stage α → List (Nat × Op)
  | .idle => []
  | .busy _ op _ _ dest => [(dest, toOp op)]

/-- What the four arithmetic stages work on. -/
def Stages.work (fu : Stages) : List (Nat × Op) :=
  fu.add.work .add ++ fu.cmp.work .cmp ++ fu.log.work .log ++ fu.shf.work .shf

/-- The work that waits in a bank or is being done in an arithmetic stage. -/
def State.work (s : State) : List (Nat × Op) := s.rs.entries.map (fun e => (e.dest, e.op)) ++ s.fu.work

/-- The load the load stage performs. -/
def LoadStage.entries : LoadStage → List LoadEntry
  | .idle => []
  | .busy _ e => [e]

/-- The loads in the load/store buffer, oldest first: the one being performed and the queued ones. -/
def State.loadEntries (s : State) : List LoadEntry := s.ldst.entries ++ s.lq

/-- The indices that the messages of one kind carry. -/
def sent (bus : List Msg) (k : MsgKind) : List Nat := (bus.filter fun m => m.kind == k).map Msg.idx

/-- The entry is a load. -/
def RobEntry.isLoad (e : RobEntry) : Bool :=
  match e.instr.op with
  | some (.ls (.load _)) => true
  | _ => false

/-- The live loads that have not yet left the load/store buffer: their value is not announced (R44(e)). -/
def loadsHeld (s : State) : List Nat :=
  (s.live.filter fun p => p.2.isLoad && p.2.state == .issue && !(sent s.bus .writeBack).contains p.1).map Prod.fst

/-- The live stores that have not yet left the load/store buffer: they are not yet performed (R44(e)). -/
def storesHeld (s : State) : List Nat :=
  (s.live.filter fun p => p.2.isStore && !(sent s.bus .storeSuccess).contains p.1).map Prod.fst

/-- What 10_state.md R44 says of every reachable running state. -/
structure R44 (s : State) : Prop where
  /-- (a): a producer tag names the youngest instruction in flight with that destination. -/
  tags : ∀ r q, s.tagOf r = some q → ∃ older e younger, s.inFlight = older ++ (q, e) :: younger ∧
    e.rd = some r ∧ ∀ p ∈ younger, p.2.rd ≠ some r
  /-- (b): the destinations of busy slots, of busy stages and of queued memory instructions are in flight. -/
  slotDests : ∀ b : Bank, ∀ e, some e ∈ s.rs.view b → ∃ p ∈ s.inFlight, p.1 = e.dest
  stageDests : ∀ w ∈ s.fu.work, ∃ p ∈ s.inFlight, p.1 = w.1
  loadDests : ∀ e ∈ s.loadEntries, ∃ p ∈ s.inFlight, p.1 = e.dest
  storeDests : ∀ e ∈ s.sq, ∃ p ∈ s.inFlight, p.1 = e.dest
  /-- (c): a pending operand of a busy slot waits for an instruction in flight that has a destination. (The entry
  in the latch fills a slot at the next Flush; until then it may wait for an instruction that committed in the tick
  that issued it, whose value is on the bus: 41_issue_unit.md R173.) -/
  operands : ∀ b : Bank, ∀ e, some e ∈ s.rs.view b → ∀ q, (e.j = .pending q ∨ e.k = .pending q) →
    ∃ p ∈ s.inFlight, p.1 = q ∧ p.2.rd ≠ none
  /-- (d): each queue is sorted by strictly increasing timestamp. -/
  loadOrder : s.lq.Pairwise fun a b => a.ts < b.ts
  storeOrder : s.sq.Pairwise fun a b => a.ts < b.ts
  /-- (e): the queues hold as many entries as there are live loads and stores that have not left them. -/
  loadCount : (loadsHeld s).length = s.loadEntries.length
  storeCount : (storesHeld s).length = s.sq.length
  /-- (f): the bus keeps its capacity, no two messages share kind and index, and no index has both a WriteBack
  and a CommitReg. -/
  busBound : s.bus.length ≤ s.cfg.busCap
  busOnce : s.bus.Pairwise fun m n => ¬ (m.kind = n.kind ∧ m.idx = n.idx)
  busOneValue : ∀ m ∈ s.bus, ∀ n ∈ s.bus, m.kind = .writeBack → n.kind = .commitReg → m.idx ≠ n.idx

/-! ## Invariants of a running state (10_state.md R44) -/

/-- A stage's counter is in 1 .. LAT (R34). -/
def Stage.countOk {α : Type} (lat : Nat) : Stage α → Prop
  | .idle => True
  | .busy rem _ _ _ _ => 1 ≤ rem ∧ rem ≤ lat

/-- The load stage's counter is in 1 .. LAT_LOAD. -/
def LoadStage.countOk (lat : Nat) : LoadStage → Prop
  | .idle => True
  | .busy rem _ => 1 ≤ rem ∧ rem ≤ lat

/-- The store stage's counter is in 1 .. LAT_STORE, and it works on a committed head of `SQ` (R36). -/
def storeStageOk (s : State) : Prop :=
  match s.stst with
  | .idle => True
  | .busy rem => 1 ≤ rem ∧ rem ≤ s.cfg.latStore ∧ ∃ e rest, s.sq = e :: rest ∧ e.committed = true

/-- The queue of a latched memory instruction has room. -/
def queueHasRoom (s : State) : Option LsbEntry → Prop
  | none => True
  | some (.load _) => s.lq.length < s.cfg.lqCap
  | some (.store _) => s.sq.length < s.cfg.sqCap

/-- Everything the latch needs for its insertion is free (40_clock_and_bus.md R137). -/
def latchFits (s : State) : Prop :=
  match s.latch with
  | none => True
  | some l =>
    s.rob.entries.length < s.cfg.robCap ∧ bankHasRoom s.rs l.rsEntry.op.bank ∧
      queueHasRoom s l.lsbEntry

/-- The capacities of 00_scope.md R8 are respected. -/
structure CapacityInv (s : State) : Prop where
  cfg : s.cfg.wf
  iq : s.iq.length ≤ s.cfg.iqCap
  head : s.rob.head < s.cfg.robCap
  rob : s.rob.entries.length ≤ s.cfg.robCap
  add : s.rs.add.length = s.cfg.rsCapAdd
  cmp : s.rs.cmp.length = s.cfg.rsCapCmp
  log : s.rs.log.length = s.cfg.rsCapLog
  shf : s.rs.shf.length = s.cfg.rsCapShf
  ls : s.rs.ls.length = s.cfg.rsCapLs
  lq : s.lq.length ≤ s.cfg.lqCap
  sq : s.sq.length ≤ s.cfg.sqCap
  bus : s.bus.length ≤ s.cfg.busCap
  latch : latchFits s

/-- Stage counters are in range, the store stage has its head (R34, R36). -/
structure StageInv (s : State) : Prop where
  add : s.fu.add.countOk s.cfg.latAdd
  cmp : s.fu.cmp.countOk s.cfg.latCmp
  log : s.fu.log.countOk s.cfg.latLog
  shf : s.fu.shf.countOk s.cfg.latShf
  ldst : s.ldst.countOk s.cfg.latLoad
  stst : storeStageOk s

/-- `LQ` and `SQ` are each sorted by strictly increasing timestamp, and every timestamp is of an earlier
tick (R44(d); 47_load_store.md R333). -/
structure QueueOrderInv (s : State) : Prop where
  lq : s.lq.Pairwise (fun a b => a.ts < b.ts)
  sq : s.sq.Pairwise (fun a b => a.ts < b.ts)
  lqOld : ∀ e ∈ s.lq, e.ts < s.cycle
  sqOld : ∀ e ∈ s.sq, e.ts < s.cycle

/-- A record's destination is never x0, and a branch, a store or an INVALID record has none (R21, R29,
41_issue_unit.md R163). -/
def IRec.destOk (i : IRec) : Prop :=
  i.rd ≠ some 0 ∧
    match i.op with
    | some (.cmp o) => o.isBranch = true → i.rd = none
    | some (.ls (.store _)) => i.rd = none
    | none => i.rd = none
    | _ => True

/-- A reorder-buffer entry copies its record's destination; it waits for its store only if it is one
(R37, 48_reorder_commit.md R390). -/
def RobEntry.entryOk (e : RobEntry) : Prop :=
  e.instr.destOk ∧ e.rd = e.instr.rd ∧ e.state ≠ .exec ∧ (e.state = .waitSt → e.isStore = true)

/-- Records and entries in flight are as canonicalisation makes them. -/
structure RecordInv (s : State) : Prop where
  iq : ∀ i ∈ s.iq, i.destOk
  rob : ∀ e ∈ s.rob.entries, e.entryOk
  latch : ∀ l, s.latch = some l →
    l.robEntry.entryOk ∧ l.robEntry.state = .issue ∧ l.idx = s.robTail

/-- A producer tag names an instruction in flight with that destination: a live reorder-buffer entry, or
the one in the latch (R44(a), first half). -/
def TagInv (s : State) : Prop :=
  ∀ r q, s.tagOf r = some q →
    (∃ e, s.robAt q = some e ∧ e.rd = some r) ∨
    (∃ l, s.latch = some l ∧ l.idx = q ∧ l.robEntry.rd = some r)

/-- x0's fields hold zero and no tag (R21). -/
structure ZeroInv (s : State) : Prop where
  x : s.x[0] = 0
  tag : s.tag[0] = none

/-- Memory is in canonical form and lists only addresses that exist (R24, log 4). -/
structure MemInv (s : State) : Prop where
  wf : Memory.wf s.mem
  inside : ∀ c ∈ s.mem, c.1 < s.cfg.memSize

/-- `halt` and `clear` are never both set (40_clock_and_bus.md R135). -/
def FlagInv (s : State) : Prop := ¬ (s.halt = true ∧ s.clear = true)

/-- The invariant of a running state. -/
structure Inv (s : State) : Prop where
  capacity : CapacityInv s
  stages : StageInv s
  queues : QueueOrderInv s
  records : RecordInv s
  tags : TagInv s
  zero : ZeroInv s
  memory : MemInv s
  flags : FlagInv s

/-! ### Where an instruction in flight is

`Inv` bounds every structure by itself. `InFlightInv` ties them together by the reorder-buffer index: an
instruction's work is in one place, its memory entry in another, its messages on the bus. Both together imply R44. -/

/-- The head of the reorder buffer has this index and waits for its store (48_reorder_commit.md R390). -/
def HeadWaits (s : State) (i : Nat) : Prop :=
  ∃ e rest, s.rob.entries = e :: rest ∧ i = s.rob.head ∧ e.state = .waitSt

/-- The entries of the latch belong to one instruction, whose pending operands wait for a live entry with a
destination, or for one that has just committed and is on the bus (41_issue_unit.md R172 to R175). -/
structure LatchInv (s : State) (l : Latch) : Prop where
  dest : l.rsEntry.dest = l.idx
  op : l.robEntry.instr.op = some l.rsEntry.op
  lsb : ∃ ts, l.lsbEntry = lsbEntryFor l.rsEntry.op l.idx ts
  operands : ∀ q, (l.rsEntry.j = .pending q ∨ l.rsEntry.k = .pending q) →
    (∃ p, (q, p) ∈ s.live ∧ p.rd ≠ none) ∨ q ∈ sent s.bus .commitReg

/-- The queued memory instructions whose address is not known yet. -/
def addressUnknown (s : State) : List Nat :=
  (s.lq.filter fun e => !e.ready).map LoadEntry.dest ++ (s.sq.filter fun e => !e.ready).map StoreEntry.dest

/-- The structures agree on what is in flight. -/
structure InFlightInv (s : State) : Prop where
  latch : ∀ l, s.latch = some l → LatchInv s l
  /-- Work waits or is done for a live entry in state Issue, by its own operation. -/
  work : ∀ w ∈ s.work, ∃ e, (w.1, e) ∈ s.live ∧ e.state = .issue ∧ e.instr.op = some w.2
  /-- A busy slot waits for live entries in state Issue that have a destination. -/
  waits : ∀ e ∈ s.rs.entries, ∀ q, (e.j = .pending q ∨ e.k = .pending q) →
    ∃ p, (q, p) ∈ s.live ∧ p.state = .issue ∧ p.rd ≠ none
  /-- A WriteBack is for a live entry in state Issue; a store's comes with its GetAddr. -/
  results : ∀ q ∈ sent s.bus .writeBack, ∃ e, (q, e) ∈ s.live ∧ e.state = .issue ∧
    (e.isStore = true → q ∈ sent s.bus .getAddr)
  /-- An instruction's work is in one place and announced once. -/
  once : (s.work.map Prod.fst ++ sent s.bus .writeBack).Nodup
  /-- The loads in the load/store buffer are the live ones that have no value yet, in program order. -/
  loads : s.loadEntries.map LoadEntry.dest = loadsHeld s
  /-- The store queue holds the live stores that are not performed yet, in program order. -/
  stores : s.sq.map StoreEntry.dest = storesHeld s
  /-- An unknown address is still to be computed, or on the bus. -/
  addresses : ((busy s.rs.ls).map RSEntry.dest ++ sent s.bus .getAddr).Perm (addressUnknown s)
  /-- A queued store that has left state Issue has its address. -/
  ready : ∀ e ∈ s.sq, ∀ r, (e.dest, r) ∈ s.live → r.state ≠ .issue → e.ready = true
  /-- The four messages of commit and of the store stage, and the store they release, concern the head. -/
  committed : ∀ e ∈ s.sq, e.committed = true → HeadWaits s e.dest
  released : ∀ i ∈ sent s.bus .commitMem, HeadWaits s i ∧ sent s.bus .storeSuccess = []
  performed : sent s.bus .storeSuccess = [] ∨ ∃ i, sent s.bus .storeSuccess = [i] ∧ HeadWaits s i
  retired : ∀ i ∈ sent s.bus .commitReg, ∀ p ∈ s.live, p.1 ≠ i
  oneCommit : (sent s.bus .commitReg ++ sent s.bus .commitMem).length ≤ 1
  /-- A producer tag is the youngest instruction in flight with that destination. -/
  tags : ∀ r, s.tagOf r = youngestIn r s.inFlight

end Sys2Proof.Machine
end

