-- ==== Sys2Proof/Certificates/Slice0/Obligations.lean ====
section
/-! DEFINITION. The statements for the provers, in the order of OBLIGATIONS.json. A next-state clause speaks of `f`,
the flushed state of the tick (`Ticks`), as the rules of spec/ do. -/

open Sys2Proof Sys2Proof.Machine

/-! ## Encoding -/

/-- Decoding the word of a well-formed instruction gives it back (30_encoding.md R103, R112). -/
def Obligations.DecodeOfEncode : Prop :=
  ∀ i : Instr, i.wellFormed = true → decode (encode i) = .ok i

/-- A word that decodes is the word of what it decodes to, which is well formed: no two words share an
instruction (30_encoding.md R100, R103). -/
def Obligations.EncodeOfDecode : Prop :=
  ∀ (w : Word) (i : Instr), decode w = .ok i → encode i = w ∧ i.wellFormed = true

/-- The decoder follows the table of 30_encoding.md R112: a word decodes to a mnemonic exactly where the
mnemonic's row matches it, no two rows match one word, and a word no row matches is INVALID (R111, R118). The
sentinel word is ADDI to the decoder (R111). -/
def Obligations.DecoderFollowsOpcodeTable : Prop :=
  (∀ row ∈ opcodeRows, ∀ w : Word, (decodeRecord w).mn = row.mn ↔ w &&& row.mask = row.pattern) ∧
  (∀ w : Word, (decodeRecord w).mn = .invalid ↔ ∀ row ∈ opcodeRows, w &&& row.mask ≠ row.pattern) ∧
  (∀ r1 ∈ opcodeRows, ∀ r2 ∈ opcodeRows, ∀ w : Word, w &&& r1.mask = r1.pattern →
    w &&& r2.mask = r2.pattern → r1 = r2) ∧
  (decodeRecord 0x0FF00513#32).mn = .addi

/-- The operands the decoder returns, by the class of the instruction, bit by bit (30_encoding.md R102,
R104, R105). -/
def Obligations.DecodedOperandsByClass : Prop :=
  ∀ w : Word,
    let d := decodeRecord w
    let rd : RegIdx := w.extractLsb' 7 5
    let rs1 : RegIdx := w.extractLsb' 15 5
    let rs2 : RegIdx := w.extractLsb' 20 5
    match d.cls with
    | .arithReg => d.rd = some rd ∧ d.rs1 = some rs1 ∧ d.rs2 = some rs2 ∧ d.imm = 0
    | .arithImm =>
      d.rd = some rd ∧ d.rs1 = some rs1 ∧ d.rs2 = none ∧
        if d.mn = .slli ∨ d.mn = .srli ∨ d.mn = .srai then d.imm = (w.extractLsb' 20 5).setWidth 32
        else d.imm = (w.extractLsb' 20 12).signExtend 32
    | .load =>
      d.rd = some rd ∧ d.rs1 = some rs1 ∧ d.rs2 = none ∧ d.imm = (w.extractLsb' 20 12).signExtend 32
    | .store =>
      d.rd = none ∧ d.rs1 = some rs1 ∧ d.rs2 = some rs2 ∧
        d.imm = (w.extractLsb' 25 7 ++ w.extractLsb' 7 5).signExtend 32
    | .branch =>
      d.rd = none ∧ d.rs1 = some rs1 ∧ d.rs2 = some rs2 ∧
        d.imm = (w.extractLsb' 31 1 ++ w.extractLsb' 7 1 ++ w.extractLsb' 25 6 ++ w.extractLsb' 8 4 ++
          0#1).signExtend 32
    | .other =>
      (d.mn = .lui ∨ d.mn = .auipc) ∧ d.rd = some rd ∧ d.rs1 = none ∧ d.rs2 = none ∧
          d.imm = w.extractLsb' 12 20 ++ 0#12 ∨
      d.mn = .jal ∧ d.rd = some rd ∧ d.rs1 = none ∧ d.rs2 = none ∧
          d.imm = (w.extractLsb' 31 1 ++ w.extractLsb' 12 8 ++ w.extractLsb' 20 1 ++ w.extractLsb' 21 10 ++
            0#1).signExtend 32 ∨
      d.mn = .jalr ∧ d.rd = some rd ∧ d.rs1 = some rs1 ∧ d.rs2 = none ∧
          d.imm = (w.extractLsb' 20 12).signExtend 32 ∨
      d.mn = .invalid ∧ d.rd = none ∧ d.rs1 = none ∧ d.rs2 = none ∧ d.imm = 0

/-- Words of the spec's examples, one for each family, decode to the instructions they stand for
(43_addsub.md R234 to R243, 44_compare_branch.md R262, R266, 45_logic.md R292, 46_shift.md R317,
47_load_store.md R350, R357). -/
def Obligations.ExampleWordsDecode : Prop :=
  decode 0x123452B7#32 = .ok (.lui 5 0x12345) ∧ decode 0x00C000EF#32 = .ok (.jal 1 12) ∧
  decode 0x003280E7#32 = .ok (.jalr 1 5 3) ∧ decode 0xFFF30293#32 = .ok (.addi 5 6 (-1)) ∧
  decode 0x0FF00513#32 = .ok .halt ∧ decode 0x0020A1B3#32 = .ok (.slt 3 1 2) ∧
  decode 0x00208463#32 = .ok (.beq 1 2 8) ∧ decode 0x0020F1B3#32 = .ok (.and 3 1 2) ∧
  decode 0x41F0D193#32 = .ok (.srai 3 1 31) ∧ decode 0xFFF08283#32 = .ok (.lb 5 1 (-1)) ∧
  decode 0x0050A423#32 = .ok (.sw 5 1 8) ∧ decode 0#32 = .error .notWordForm

/-! ## Steps -/

/-- A step runs the decoded instruction: where the four bytes at `pc` decode to `i`, the step is `exec i`
(41_issue_unit.md R161; log 1). -/
def Obligations.StepRunsDecodedInstruction : Prop :=
  ∀ (s : State) (w : Word) (i : Instr), s.fetchWord = some w → decode w = .ok i → step s = exec i s

/-- A well-formed instruction stored where fetch reads next is the one the next step runs, if the four
bytes there exist (20_memory.md R71, R90; log 10). -/
def Obligations.PlacedInstructionIsRun : Prop :=
  ∀ (s : State) (i : Instr), s.mem.wf → s.pc.toNat + 4 ≤ s.cfg.memSize → i.wellFormed = true →
    step (s.withFetchWord 32 (encode i).toNat) = exec i (s.withFetchWord 32 (encode i).toNat) ∧
    ∀ a, (∀ k < 4, a ≠ s.pc.toNat + k) →
      (s.withFetchWord 32 (encode i).toNat).mem.read a = s.mem.read a

/-- From a running state every step and every `exec` answers a next state; from a halted or aborted one
none does: both are absorbing (10_state.md R42, 60_exceptions.md R420; that the missing tick is a named fault is log 8). -/
def Obligations.RunningTicksAndTerminalStops : Prop :=
  ∀ s : State,
    (s.status = .running → (∀ i, ∃ t, exec i s = .next t) ∧ ∃ t, step s = .next t) ∧
    (∀ code, s.status = .halted code →
      (∀ i, exec i s = .fault (.halted code)) ∧ step s = .fault (.halted code)) ∧
    (∀ a, s.status = .aborted a → (∀ i, exec i s = .fault (.aborted a)) ∧ step s = .fault (.aborted a))

/-- The halt is detected at step F0 of the Flush: the status becomes Halted with the low byte of the value
field of x10, whatever its tag, and no other field changes (40_clock_and_bus.md R134). -/
def Obligations.HaltIsDetectedAtFlush : Prop :=
  ∀ s : State, s.status = .running → s.halt = true →
    (∀ i, exec i s = .next { s with status := .halted (s.x[10].setWidth 8) }) ∧
    step s = .next { s with status := .halted (s.x[10].setWidth 8) }

/-- What an abort leaves, in every tick, also one that would fetch an INVALID word or fetches outside memory: the state
at the start of the phase that raised it, plus the status; in Flush only a StructuralOverflow or a ProtocolViolation
can be raised (60_exceptions.md R420, R427). -/
def Obligations.AbortLeavesPhaseStart : Prop :=
  ∀ (s t : State) (a : Abort), s.status = .running → TickTo s t → t.status = .aborted a →
    s.halt = false ∧
    ((flush s = .error a ∧ t = { s with status := .aborted a } ∧
        ((∃ o, a = .structuralOverflow o s.cycle) ∨ ∃ p, a = .protocolViolation p s.cycle)) ∨
     ∃ f, flush s = .ok f ∧ t = { f with status := .aborted a } ∧ f.x = s.x ∧ f.pc = s.pc ∧ f.mem = s.mem ∧
        f.cycle = s.cycle)

/-- Reset: the values of 10_state.md R45, for every configuration, predictor and image. -/
def Obligations.ResetValues : Prop :=
  ∀ (c : Config) (m : Memory),
    let s := State.resetWith c m
    s.pc = 0 ∧ (∀ r, s.reg r = 0) ∧ (∀ r, s.tagOf r = none) ∧ s.mem = m ∧ s.stall = false ∧ s.clear = false ∧
    s.halt = false ∧ s.cycle = 0 ∧ s.iq = [] ∧ s.latch = none ∧
    (∀ b : Bank, (s.rs.view b).length = c.rsCap b ∧ ∀ e, e ∈ s.rs.view b → e = none) ∧
    s.fu = ⟨.idle, .idle, .idle, .idle⟩ ∧ s.ldst = .idle ∧ s.stst = .idle ∧ s.lq = [] ∧ s.sq = [] ∧
    s.rob.head = 0 ∧ s.rob.entries = [] ∧ s.bus = [] ∧
    s.full = ⟨false, false, false, false, false, false, false, false⟩ ∧ s.pred = c.predictor.init ∧
    s.status = .running

/-! ## Entering the pipeline -/

/-- Every instruction enters the drained machine, whatever its capacities and latencies: the next state has
its canonical record alone in the instruction queue, the next pc by R162, the fetch stall by R165, one more
tick counted and every full flag clear; every other field is as before (41_issue_unit.md R160 to R165). -/
def Obligations.ExecEntersDrainedPipeline : Prop :=
  ∀ (i : Instr) (s : State), i.wellFormed = true → Drained s → s.cfg.wf →
    exec i s = .next { s with
      iq := [fetchedRecord i s]
      pc := tableNextPc i.drec s.pc (predict s.cfg.predictor s.pred s.pc)
      stall := stallsFetch i
      cycle := s.cycle + 1
      full := ⟨false, false, false, false, false, false, false, false⟩ }

/-- Fetch in any tick: it happens exactly where `stall` is false and the queue of the flushed state has room;
then the canonical record of the word delivered, which may be INVALID, is appended behind what issue leaves, and JALR
and the sentinel set the stall; where it does not happen, the queue's tail is unchanged and the stall is not
set (41_issue_unit.md R160, R161, R163, R165; 40_clock_and_bus.md R133). -/
def Obligations.FetchAppendsCanonicalRecord : Prop :=
  ∀ s f t : State, Ticks s f t →
    let left := if t.latch = none then f.iq else f.iq.tail
    (FetchOpen f → ∀ d w, Delivers d w s t →
      t.iq = left ++ [canon d w f.pc (predict f.cfg.predictor f.pred f.pc)] ∧
      t.stall = decide (d.mn = .jalr ∨ w = haltWord)) ∧
    (¬ FetchOpen f → t.iq = left ∧ (t.stall = true → f.stall = true))

/-- The next pc: commit's redirect, else the fetch unit's choice by R162 where it fetched, for an INVALID word the next
word, else unchanged (40_clock_and_bus.md R138; 41_issue_unit.md R162). -/
def Obligations.NextPcByPriority : Prop :=
  ∀ s f t : State, Ticks s f t →
    (∀ target, redirectOf f = some target → t.pc = target) ∧
    (redirectOf f = none →
      (FetchOpen f → ∀ d w, Delivers d w s t →
        t.pc = tableNextPc d f.pc (predict f.cfg.predictor f.pred f.pc)) ∧
      (¬ FetchOpen f → t.pc = f.pc))

/-- An INVALID word runs into the abort: from a drained machine it enters the queue, and the next tick aborts
with UnclassifiableOperation, before its own fetch is looked at, leaving registers and memory
(30_encoding.md R118; 60_exceptions.md R423, R428). -/
def Obligations.InvalidWordAborts : Prop :=
  ∀ (s : State) (w : Word) (e : DecodeError), Drained s → s.cfg.wf → s.fetchWord = some w →
    decode w = .error e →
    ∃ t1 t, step s = .next t1 ∧ t1.status = .running ∧ t1.pc = s.pc + 4 ∧ step t1 = .next t ∧
      t.status = .aborted (.unclassifiable w s.pc (s.cycle + 1)) ∧ t.x = s.x ∧ t.mem = s.mem

/-! ## Results of the instructions

Each statement takes a drained machine of the reference timing, with any predictor, and, so that nothing behind the
instruction disturbs the observation, the halt sentinel at the address fetched next. -/

/-- Register-register instructions of the four arithmetic stages (43_addsub.md R238, R239;
44_compare_branch.md R262, R263; 45_logic.md R292 to R294; 46_shift.md R312 to R314). -/
def Obligations.RegisterRegisterResults : Prop :=
  ∀ (s : State) (rd rs1 rs2 : RegIdx), Drained s → RefTiming s → SentinelAt s (s.pc + 4) →
    let a := s.reg rs1
    let b := s.reg rs2
    RetiresWith (.add rd rs1 rs2) s 4 (s.pc + 4) rd (a + b) ∧
    RetiresWith (.sub rd rs1 rs2) s 4 (s.pc + 4) rd (a - b) ∧
    RetiresWith (.slt rd rs1 rs2) s 4 (s.pc + 4) rd (if a.toInt < b.toInt then 1 else 0) ∧
    RetiresWith (.sltu rd rs1 rs2) s 4 (s.pc + 4) rd (if a.toNat < b.toNat then 1 else 0) ∧
    RetiresWith (.and rd rs1 rs2) s 4 (s.pc + 4) rd (a &&& b) ∧
    RetiresWith (.or rd rs1 rs2) s 4 (s.pc + 4) rd (a ||| b) ∧
    RetiresWith (.xor rd rs1 rs2) s 4 (s.pc + 4) rd (a ^^^ b) ∧
    RetiresWith (.sll rd rs1 rs2) s 4 (s.pc + 4) rd (a <<< (b.toNat % 32)) ∧
    RetiresWith (.srl rd rs1 rs2) s 4 (s.pc + 4) rd (a >>> (b.toNat % 32)) ∧
    RetiresWith (.sra rd rs1 rs2) s 4 (s.pc + 4) rd (a.sshiftRight (b.toNat % 32))

/-- Register-immediate instructions: the 12-bit immediate is sign-extended, also for SLTIU, whose comparison is
unsigned (43_addsub.md R240; 44_compare_branch.md R264, R265; 45_logic.md R295 to R297). -/
def Obligations.RegisterImmediateResults : Prop :=
  ∀ (s : State) (rd rs1 : RegIdx) (imm : BitVec 12), Drained s → RefTiming s →
    SentinelAt s (s.pc + 4) →
    let a := s.reg rs1
    let b : Word := imm.signExtend 32
    (¬ (rd = 10 ∧ rs1 = 0 ∧ imm = 255) → RetiresWith (.addi rd rs1 imm) s 4 (s.pc + 4) rd (a + b)) ∧
    RetiresWith (.slti rd rs1 imm) s 4 (s.pc + 4) rd (if a.toInt < b.toInt then 1 else 0) ∧
    RetiresWith (.sltiu rd rs1 imm) s 4 (s.pc + 4) rd (if a.toNat < b.toNat then 1 else 0) ∧
    RetiresWith (.andi rd rs1 imm) s 4 (s.pc + 4) rd (a &&& b) ∧
    RetiresWith (.ori rd rs1 imm) s 4 (s.pc + 4) rd (a ||| b) ∧
    RetiresWith (.xori rd rs1 imm) s 4 (s.pc + 4) rd (a ^^^ b)

/-- Shifts by an immediate and the two upper-immediate instructions (46_shift.md R315 to R317;
43_addsub.md R234, R235). -/
def Obligations.ShiftImmediateAndUpperResults : Prop :=
  ∀ (s : State) (rd rs1 : RegIdx) (shamt : BitVec 5) (imm : BitVec 20), Drained s → RefTiming s →
    SentinelAt s (s.pc + 4) →
    RetiresWith (.slli rd rs1 shamt) s 4 (s.pc + 4) rd (s.reg rs1 <<< shamt.toNat) ∧
    RetiresWith (.srli rd rs1 shamt) s 4 (s.pc + 4) rd (s.reg rs1 >>> shamt.toNat) ∧
    RetiresWith (.srai rd rs1 shamt) s 4 (s.pc + 4) rd ((s.reg rs1).sshiftRight shamt.toNat) ∧
    RetiresWith (.lui rd imm) s 4 (s.pc + 4) rd (imm ++ 0#12) ∧
    RetiresWith (.auipc rd imm) s 4 (s.pc + 4) rd (s.pc + (imm ++ 0#12))

/-- JAL: the link register gets `pc + 4`, and fetch goes on at `pc + offset` at once (43_addsub.md R236). -/
def Obligations.JalLinksAndJumps : Prop :=
  ∀ (s : State) (rd : RegIdx) (off : BitVec 21), Drained s → RefTiming s →
    SentinelAt s (s.pc + off.signExtend 32) → off.getLsbD 0 = false →
    RetiresWith (.jal rd off) s 4 (s.pc + off.signExtend 32) rd (s.pc + 4)

/-- JALR: fetch stalls; the base is read before the link register is written; at its commit the link register
gets `pc + 4`, fetch is redirected to the sum with bit 0 clear, and the stall ends (43_addsub.md R237;
48_reorder_commit.md R388). Nothing is fetched behind it, so no sentinel is needed. -/
def Obligations.JalrLinksAndJumps : Prop :=
  ∀ (s : State) (rd rs1 : RegIdx) (imm : BitVec 12), Drained s → RefTiming s →
    ∃ t1 t, exec (.jalr rd rs1 imm) s = .next t1 ∧ t1.stall = true ∧ Reaches 4 t1 t ∧
      t.status = .running ∧ t.pc = ((s.reg rs1 + imm.signExtend 32) &&& 0xFFFFFFFE#32) ∧
      t.stall = false ∧ (∀ r, t.reg r = if r = rd ∧ r ≠ 0 then s.pc + 4 else s.reg r) ∧ t.mem = s.mem ∧
      t.pred = s.pred ∧ t.cfg = s.cfg ∧ t.cycle = s.cycle + 5 ∧ t.clear = false ∧ t.halt = false ∧
      t.iq = [] ∧ t.latch = none ∧ t.rob.entries = [] ∧ t.lq = [] ∧ t.sq = [] ∧ t.ldst = .idle ∧
      t.stst = .idle ∧ ∀ r, t.tagOf r = none

/-- The six conditional branches, each by its own relation (44_compare_branch.md R261, R266 to R272). -/
def Obligations.BranchesFollowTheirRelations : Prop :=
  ∀ (s : State) (rs1 rs2 : RegIdx) (off : BitVec 13), Drained s → RefTiming s → off.getLsbD 0 = false →
    SentinelAt s (if predict s.cfg.predictor s.pred s.pc then s.pc + off.signExtend 32 else s.pc + 4) →
    let a := s.reg rs1
    let b := s.reg rs2
    Branches (.beq rs1 rs2 off) s (off.signExtend 32) (decide (a = b)) ∧
    Branches (.bne rs1 rs2 off) s (off.signExtend 32) (decide (a ≠ b)) ∧
    Branches (.blt rs1 rs2 off) s (off.signExtend 32) (decide (a.toInt < b.toInt)) ∧
    Branches (.bge rs1 rs2 off) s (off.signExtend 32) (decide (b.toInt ≤ a.toInt)) ∧
    Branches (.bltu rs1 rs2 off) s (off.signExtend 32) (decide (a.toNat < b.toNat)) ∧
    Branches (.bgeu rs1 rs2 off) s (off.signExtend 32) (decide (b.toNat ≤ a.toNat))

/-- Loads inside memory: width, byte order and extension (47_load_store.md R341, R350 to R354; 20_memory.md
R73, R76). -/
def Obligations.LoadResults : Prop :=
  ∀ (s : State) (rd rs1 : RegIdx) (imm : BitVec 12), Drained s → RefTiming s →
    SentinelAt s (s.pc + 4) →
    let ea := (s.reg rs1 + imm.signExtend 32).toNat
    let m := s.mem.read
    (ea + 1 ≤ s.cfg.memSize →
      RetiresWith (.lb rd rs1 imm) s 5 (s.pc + 4) rd ((m ea).signExtend 32) ∧
      RetiresWith (.lbu rd rs1 imm) s 5 (s.pc + 4) rd ((m ea).setWidth 32)) ∧
    (ea + 2 ≤ s.cfg.memSize →
      RetiresWith (.lh rd rs1 imm) s 5 (s.pc + 4) rd ((m (ea + 1) ++ m ea).signExtend 32) ∧
      RetiresWith (.lhu rd rs1 imm) s 5 (s.pc + 4) rd ((m (ea + 1) ++ m ea).setWidth 32)) ∧
    (ea + 4 ≤ s.cfg.memSize →
      RetiresWith (.lw rd rs1 imm) s 5 (s.pc + 4) rd (m (ea + 3) ++ m (ea + 2) ++ m (ea + 1) ++ m ea))

/-- Stores inside memory: the low bytes of the data register at the effective address, nothing else
(47_load_store.md R355 to R357; 20_memory.md R74). -/
def Obligations.StoreResults : Prop :=
  ∀ (s : State) (rs2 rs1 : RegIdx) (imm : BitVec 12), Drained s → RefTiming s → s.mem.wf →
    SentinelAt s (s.pc + 4) →
    let ea := s.reg rs1 + imm.signExtend 32
    (ea.toNat + 1 ≤ s.cfg.memSize → StoresOnly (.sb rs2 rs1 imm) s ea 1 (s.reg rs2)) ∧
    (ea.toNat + 2 ≤ s.cfg.memSize → StoresOnly (.sh rs2 rs1 imm) s ea 2 (s.reg rs2)) ∧
    (ea.toNat + 4 ≤ s.cfg.memSize → StoresOnly (.sw rs2 rs1 imm) s ea 4 (s.reg rs2))

/-- Accesses outside memory abort when they are performed, not earlier: a fetch in its own tick, which answers the
flushed state with MemoryOutOfRange, a load four ticks on, a store five, with no register and no byte written
(20_memory.md R75; 60_exceptions.md R424). The fetch of a drained machine is at any timing. -/
def Obligations.AccessOutOfRangeAborts : Prop :=
  (∀ s : State, Drained s → s.cfg.wf → ¬ s.pc.toNat + 4 ≤ s.cfg.memSize →
    step s = .next { s with
      full := ⟨false, false, false, false, false, false, false, false⟩
      status := .aborted (.memoryOutOfRange s.pc 4 .fetch s.cycle) }) ∧
  ∀ (s : State) (r rs1 : RegIdx) (imm : BitVec 12), Drained s → RefTiming s →
    SentinelAt s (s.pc + 4) →
    let ea := s.reg rs1 + imm.signExtend 32
    let load (i : Instr) (n : Nat) := AbortsWith i s 4 (.memoryOutOfRange ea n .load (s.cycle + 4))
    let store (i : Instr) (n : Nat) := AbortsWith i s 5 (.memoryOutOfRange ea n .store (s.cycle + 5))
    (¬ ea.toNat + 1 ≤ s.cfg.memSize →
      load (.lb r rs1 imm) 1 ∧ load (.lbu r rs1 imm) 1 ∧ store (.sb r rs1 imm) 1) ∧
    (¬ ea.toNat + 2 ≤ s.cfg.memSize →
      load (.lh r rs1 imm) 2 ∧ load (.lhu r rs1 imm) 2 ∧ store (.sh r rs1 imm) 2) ∧
    (¬ ea.toNat + 4 ≤ s.cfg.memSize → load (.lw r rs1 imm) 4 ∧ store (.sw r rs1 imm) 4)

/-- HALT: fetch stalls for good, four ticks later the sentinel has committed, which raises the halt flag and
writes no register, and the tick after that ends the run with the low byte x10 had before
(43_addsub.md R243; 40_clock_and_bus.md R134). -/
def Obligations.SentinelHaltsTheRun : Prop :=
  ∀ s : State, Drained s → RefTiming s →
    ∃ t1 t u, exec .halt s = .next t1 ∧ t1.stall = true ∧ Reaches 4 t1 t ∧ t.status = .running ∧
      t.halt = true ∧ t.clear = false ∧ step t = .next u ∧
      u.status = .halted ((s.reg 10).setWidth 8) ∧ u.x = s.x ∧ u.mem = s.mem ∧ u.pred = s.pred ∧
      u.cfg = s.cfg ∧ u.pc = s.pc + 4 ∧ u.cycle = s.cycle + 5 ∧ u.lq = [] ∧ u.sq = [] ∧
      ∀ r, r ≠ 10 → u.tagOf r = none

/-- One instruction and the sentinel: from a drained machine, the pipeline halts with the commit trace, the exit code,
the registers and the memory of the sequential interpreter, whatever the predictor guesses
(70_reset_and_hazards.md R470, for this shape of program; 48_reorder_commit.md R396). The hypotheses say
that the interpreter halts at its second step, and that the address fetch goes to first holds the sentinel too. -/
def Obligations.OneInstructionMatchesInterpreter : Prop :=
  ∀ (s : State) (i : Instr) (a' : ArchState) (o : Observation), Drained s → RefTiming s →
    i.wellFormed = true → i ≠ .halt → s.fetchWord = some (encode i) →
    seqStep s.cfg.memSize s.arch = .next a' o →
    memRead a'.mem s.cfg.memSize a'.pc 4 = some haltWord → SentinelAt s a'.pc →
    SentinelAt s (tableNextPc i.drec s.pc (predict s.cfg.predictor s.pred s.pc)) →
    ∃ n t, Reaches n s t ∧ t.exitStatus = (seqRun s.cfg.memSize 2 s.arch).2 ∧ t.exitStatus ≠ none ∧
      commitTrace n s = (seqRun s.cfg.memSize 2 s.arch).1 ∧ t.mem = a'.mem ∧ ∀ r, t.reg r = a'.reg r

/-! ## Memory -/

/-- `MemRead(addr, n)`: inside memory the little-endian sum of the bytes, outside no value
(20_memory.md R73). -/
def Obligations.MemReadIsLittleEndianSum : Prop :=
  ∀ (m : Memory) (size : Nat) (addr : Word) (n : Nat), n = 1 ∨ n = 2 ∨ n = 4 →
    (addr.toNat + n ≤ size → ∃ v, memRead m size addr n = some v ∧
      v.toNat = ∑ k ∈ Finset.range n, (m.read (addr.toNat + k)).toNat * 256 ^ k) ∧
    (¬ addr.toNat + n ≤ size → memRead m size addr n = none)

/-- `MemWrite(addr, n, v)`: inside memory, byte `k` of the value at `addr + k` for every `k < n`, and no other
byte changes; outside, no memory (20_memory.md R74). That the canonical form is kept is about the model's
own choice of form (log 4, DESIGN CHOICE). -/
def Obligations.MemWriteSetsExactlyItsBytes : Prop :=
  ∀ (m : Memory) (size : Nat) (addr : Word) (n : Nat) (v : Word), m.wf → n = 1 ∨ n = 2 ∨ n = 4 →
    (addr.toNat + n ≤ size → ∃ m', memWrite m size addr n v = some m' ∧ m'.wf ∧
      (∀ k < n, (m'.read (addr.toNat + k)).toNat = v.toNat / 256 ^ k % 256) ∧
      ∀ b, (∀ k < n, b ≠ addr.toNat + k) → m'.read b = m.read b) ∧
    (¬ addr.toNat + n ≤ size → memWrite m size addr n v = none)

/-! ## Results of the stages -/

/-- The add/sub stage, in unbounded integers (43_addsub.md R232). -/
def Obligations.AddSubResultFunction : Prop :=
  ∀ a b : Word,
    (addResult .add a b).toNat = (a.toNat + b.toNat) % 2 ^ 32 ∧
    ((addResult .sub a b).toNat : Int) = ((a.toNat : Int) - b.toNat) % 2 ^ 32 ∧
    (addResult .jalr a b).toNat = (a.toNat + b.toNat) % 2 ^ 32 / 2 * 2

/-- The compare stage, by the table of 44_compare_branch.md R261. -/
def Obligations.CompareResultFunction : Prop :=
  ∀ a b : Word,
    (∀ o, o = CmpOp.slt ∨ o = .blt → cmpResult o a b = if a.toInt < b.toInt then 1 else 0) ∧
    (∀ o, o = CmpOp.sltu ∨ o = .bltu → cmpResult o a b = if a.toNat < b.toNat then 1 else 0) ∧
    cmpResult .bge a b = (if a.toInt ≥ b.toInt then 1 else 0) ∧
    cmpResult .bgeu a b = (if a.toNat ≥ b.toNat then 1 else 0) ∧
    cmpResult .beq a b = (if a = b then 1 else 0) ∧ cmpResult .bne a b = (if a ≠ b then 1 else 0)

/-- The shift stage, by the arithmetic of 46_shift.md R311: only the low five bits of the amount count. -/
def Obligations.ShiftResultFunction : Prop :=
  ∀ a b : Word,
    (shfResult .sll a b).toNat = a.toNat * 2 ^ (b.toNat % 32) % 2 ^ 32 ∧
    (shfResult .srl a b).toNat = a.toNat / 2 ^ (b.toNat % 32) ∧
    (shfResult .sra a b).toInt = a.toInt / 2 ^ (b.toNat % 32)

/-- `LoadValue`: the extension of each load (47_load_store.md R341). -/
def Obligations.LoadValueExtends : Prop :=
  ∀ (m : Memory) (size : Nat) (a : Word),
    (∀ v, memRead m size a 1 = some v →
      loadValue m size .lbu a = some v ∧
      loadValue m size .lb a = some (if v.toNat < 0x80 then v else v + 0xFFFFFF00#32)) ∧
    (∀ v, memRead m size a 2 = some v →
      loadValue m size .lhu a = some v ∧
      loadValue m size .lh a = some (if v.toNat < 0x8000 then v else v + 0xFFFF0000#32)) ∧
    loadValue m size .lw a = memRead m size a 4

/-! ## Flush -/

/-- The full flags of the flushed state are those of its structures (40_clock_and_bus.md R137;
42_reservation_stations.md R212; 47_load_store.md R336; 48_reorder_commit.md R397). -/
def Obligations.FullFlagsAreOfFlushedState : Prop :=
  ∀ s f : State, flush s = .ok f →
    (f.full.rob = true ↔ f.rob.entries.length = f.cfg.robCap) ∧
    (∀ b : Bank, f.full.bank b = true ↔ none ∉ f.rs.view b) ∧
    (f.full.lq = true ↔ f.lq.length = f.cfg.lqCap) ∧ (f.full.sq = true ↔ f.sq.length = f.cfg.sqCap)

/-- The squash, field by field (48_reorder_commit.md R395). -/
def Obligations.SquashFieldByField : Prop :=
  ∀ s : State, s.clear = true → s.cfg.wf → ∃ f, flush s = .ok f ∧
    f.bus = [] ∧ f.latch = none ∧ f.stall = false ∧ f.clear = false ∧ f.halt = s.halt ∧ f.iq = [] ∧
    (∀ b : Bank, (f.rs.view b).length = s.cfg.rsCap b ∧ ∀ e ∈ f.rs.view b, e = none) ∧
    f.fu = ⟨.idle, .idle, .idle, .idle⟩ ∧ f.lq = [] ∧ f.sq = [] ∧ f.ldst = .idle ∧ f.stst = .idle ∧
    f.rob = ⟨0, []⟩ ∧ (∀ r, f.tagOf r = none) ∧ f.x = s.x ∧ f.pc = s.pc ∧ f.mem = s.mem ∧ f.pred = s.pred ∧
    f.cycle = s.cycle ∧ f.status = s.status ∧ f.cfg = s.cfg ∧
    f.full = ⟨false, false, false, false, false, false, false, false⟩

/-- WriteBack absorb: a live entry that one WriteBack names, and no StoreSuccess, is Write with its value in the flushed
state; a live entry that neither names is unchanged; a WriteBack for an index that is not live aborts
(48_reorder_commit.md R383). -/
def Obligations.WriteBackReachesReorderBuffer : Prop :=
  ∀ s : State, s.clear = false → s.rob.head < s.cfg.robCap → s.rob.entries.length ≤ s.cfg.robCap →
    (∀ f q e, flush s = .ok f → s.robAt q = some e →
      (∀ m ∈ s.bus, m.kind = .storeSuccess → m.idx ≠ q) →
      (∀ v, (⟨.writeBack, q, v⟩ : Msg) ∈ s.bus → (∀ w, (⟨.writeBack, q, w⟩ : Msg) ∈ s.bus → w = v) →
        f.robAt q = some { e with state := .write, value := v }) ∧
      ((∀ m ∈ s.bus, m.kind = .writeBack → m.idx ≠ q) → f.robAt q = some e)) ∧
    (∀ q v, (⟨.writeBack, q, v⟩ : Msg) ∈ s.bus → s.robAt q = none →
      ∃ q' v', (⟨.writeBack, q', v'⟩ : Msg) ∈ s.bus ∧ s.robAt q' = none ∧
        flush s = .error (.protocolViolation (.writeBackDead q' v') s.cycle))

/-- The messages that the load/store buffer and the reorder buffer check, each with its effect where it matches, and the
abort where it does not: StoreSuccess retires the head of the reorder buffer where it has the message's index and waits
for its store; CommitMem releases the data of the head store where it has the message's index and its address; GetAddr
gives its address to the one queued entry with its index (48_reorder_commit.md R384, R393; 47_load_store.md R334, R335). -/
def Obligations.LoadStoreMessagesAbsorbed : Prop :=
  ∀ (s : State) (i : Nat) (v : Word),
    (∀ e rest, s.rob.entries = e :: rest → i = s.rob.head → e.state = .waitSt →
      onStoreSuccess s ⟨.storeSuccess, i, v⟩ =
        .ok { s with rob := ⟨(s.rob.head + 1) % s.cfg.robCap, rest⟩ }) ∧
    ((∀ e rest, s.rob.entries = e :: rest → i = s.rob.head → e.state ≠ .waitSt) →
      onStoreSuccess s ⟨.storeSuccess, i, v⟩ =
        .error (.protocolViolation (.storeSuccessMismatch i) s.cycle)) ∧
    (∀ e rest, s.sq = e :: rest → e.dest = i → e.ready = true →
      onCommitMem s ⟨.commitMem, i, v⟩ = .ok { s with sq := { e with committed := true, data := v } :: rest }) ∧
    ((∀ e rest, s.sq = e :: rest → e.dest = i → e.ready = false) →
      onCommitMem s ⟨.commitMem, i, v⟩ = .error (.protocolViolation (.commitMemMismatch i v) s.cycle)) ∧
    (queuedUnder s.lq s.sq i = 1 →
      onGetAddr s ⟨.getAddr, i, v⟩ = .ok { s with
        lq := s.lq.map fun e => if e.dest = i then { e with addr := v, ready := true } else e
        sq := s.sq.map fun e => if e.dest = i then { e with addr := v, ready := true } else e }) ∧
    (queuedUnder s.lq s.sq i ≠ 1 →
      onGetAddr s ⟨.getAddr, i, v⟩ = .error (.protocolViolation (.getAddrWithoutEntry i v) s.cycle))

/-- The issued entry is inserted at the tail, in state Issue, at the index chosen at its issue
(48_reorder_commit.md R381; 41_issue_unit.md R172). -/
def Obligations.IssuedEntryIsInsertedAtItsIndex : Prop :=
  ∀ (s f : State) (l : Latch), Inv s → s.clear = false → s.latch = some l → flush s = .ok f →
    f.robAt l.idx = some l.robEntry ∧ l.robEntry.state = .issue ∧ f.robTail = (l.idx + 1) % s.cfg.robCap

/-- The load and the store queue through a Flush that completes: the latched memory instruction joins its queue at the
tail with the tick's number as its timestamp, not ready, not committed; a GetAddr names exactly one entry, which gets
its address; a CommitMem names the head store, which is released with its data; everything else in the entries is
unchanged, and the order is kept (47_load_store.md R332, R333, R334, R335). -/
def Obligations.LoadStoreQueuesThroughFlush : Prop :=
  ∀ s f : State, s.clear = false → flush s = .ok f →
    f.lq.length = (loadsInserted s).length ∧ f.sq.length = (storesInserted s).length ∧
    (∀ m ∈ s.bus, m.kind = .getAddr → queuedUnder (loadsInserted s) (storesInserted s) m.idx = 1) ∧
    (∀ m ∈ s.bus, m.kind = .commitMem → ∃ e rest, storesInserted s = e :: rest ∧ e.dest = m.idx) ∧
    (∀ (k : Nat) (e : LoadEntry), (loadsInserted s)[k]? = some e → ∃ e' : LoadEntry, f.lq[k]? = some e' ∧
      e'.op = e.op ∧ e'.dest = e.dest ∧ e'.ts = e.ts ∧ AddressFrom s.bus e.dest e.addr e.ready e'.addr e'.ready) ∧
    ∀ (k : Nat) (e : StoreEntry), (storesInserted s)[k]? = some e → ∃ e' : StoreEntry, f.sq[k]? = some e' ∧
      e'.op = e.op ∧ e'.dest = e.dest ∧ e'.ts = e.ts ∧ AddressFrom s.bus e.dest e.addr e.ready e'.addr e'.ready ∧
      ((k ≠ 0 ∨ ∀ m ∈ s.bus, m.kind ≠ .commitMem) → e'.committed = e.committed ∧ e'.data = e.data) ∧
      ∀ v, k = 0 → (⟨.commitMem, e.dest, v⟩ : Msg) ∈ s.bus →
        (∀ w, (⟨.commitMem, e.dest, w⟩ : Msg) ∈ s.bus → w = v) → e'.ready = true ∧ e'.committed = true ∧ e'.data = v

/-- Wakeup from the bus: in every bank, every entry present before the Flush is still in its slot, its operation,
destination and immediate unchanged, each operand woken by a WriteBack or CommitReg that carries its tag and
by nothing else (42_reservation_stations.md R205). -/
def Obligations.EveryBusySlotSnoopsTheBus : Prop :=
  ∀ (s f : State) (b : Bank) (k : Nat) (e : RSEntry Op), s.clear = false → flush s = .ok f →
    (s.rs.view b)[k]? = some (some e) →
    ∃ e', (f.rs.view b)[k]? = some (some e') ∧ e'.op = e.op ∧ e'.dest = e.dest ∧ e'.imm = e.imm ∧
      WakesFrom s.bus e.j e'.j ∧ WakesFrom s.bus e.k e'.k

/-- The arriving entry: it takes the free slot with the lowest index of the bank of its operation; each operand is woken
by the bus, else by the lookup port, which sees this Flush's reorder buffer, else it stays pending; with no
free slot the Flush aborts (42_reservation_stations.md R203, R205, R206; 48_reorder_commit.md R394). -/
def Obligations.ArrivingEntryTakesLowestFreeSlot : Prop :=
  ∀ (s f : State) (l : Latch), s.clear = false → s.latch = some l → flush s = .ok f →
    ∃ k e', FirstFree (s.rs.view l.rsEntry.op.bank) k ∧
      (f.rs.view l.rsEntry.op.bank)[k]? = some (some e') ∧
      e'.op = l.rsEntry.op ∧ e'.dest = l.rsEntry.dest ∧ e'.imm = l.rsEntry.imm ∧
      (∀ o o', (o = l.rsEntry.j ∧ o' = e'.j) ∨ (o = l.rsEntry.k ∧ o' = e'.k) →
        (∀ v, o = .value v → o' = .value v) ∧
        (∀ q, o = .pending q →
          (∀ v, Announced s.bus q v → o' = .value v) ∧
          (Unannounced s.bus q → ∀ e, f.robAt q = some e → e.state = .write → o' = .value e.value) ∧
          (Unannounced s.bus q → (∀ e, f.robAt q = some e → e.state ≠ .write) → o' = .pending q)))

/-! ## Execute -/

/-- The four arithmetic stages and their banks (43_addsub.md R231; 42_reservation_stations.md R207, R208, R209). -/
def Obligations.ArithmeticStagesStep : Prop :=
  ∀ s f t : State, Ticks s f t →
    ∃ oa oc ol os : List Msg,
      StageRule addResult f.cfg.latAdd f.fu.add f.rs.add t.fu.add t.rs.add oa ∧
      StageRule cmpResult f.cfg.latCmp f.fu.cmp f.rs.cmp t.fu.cmp t.rs.cmp oc ∧
      StageRule logResult f.cfg.latLog f.fu.log f.rs.log t.fu.log t.rs.log ol ∧
      StageRule shfResult f.cfg.latShf f.fu.shf f.rs.shf t.fu.shf t.rs.shf os ∧
      (oa ++ oc ++ ol ++ os) <:+: t.bus

/-- The LS bank: the ready entry with the lowest slot index, whatever the stages do, leaves its slot and announces its
effective address, a store its data as well (42_reservation_stations.md R210; 47_load_store.md R331). -/
def Obligations.LoadStoreBankDispatch : Prop :=
  ∀ s f t : State, Ticks s f t →
    (NoneReady f.rs.ls → t.rs.ls = f.rs.ls ∧ ∀ m ∈ t.bus, m.kind ≠ .getAddr) ∧
    ∀ k e a b, FirstReady f.rs.ls k e → e.j = .value a → e.k = .value b →
      t.rs.ls = f.rs.ls.set k none ∧
      (∀ o, e.op = .load o → [⟨.getAddr, e.dest, a + b⟩] <:+ t.bus) ∧
      (∀ o, e.op = .store o → [⟨.getAddr, e.dest, a + e.imm⟩, ⟨.writeBack, e.dest, b⟩] <:+ t.bus)

/-- The load stage: start of the head load only when its address is known and no older store is queued, counting,
and the read of the flushed memory at completion (47_load_store.md R338, R339, R340; 20_memory.md R80). -/
def Obligations.LoadStageStep : Prop :=
  ∀ s f t : State, Ticks s f t →
    (∀ e rest, f.ldst = .idle → f.lq = e :: rest → e.ready = true →
      (∀ u us, f.sq = u :: us → e.ts ≤ u.ts) → t.ldst = .busy f.cfg.latLoad e ∧ t.lq = rest) ∧
    (f.ldst = .idle → (∀ e rest, f.lq = e :: rest →
        e.ready = false ∨ ∃ u us, f.sq = u :: us ∧ u.ts < e.ts) → t.ldst = .idle ∧ t.lq = f.lq) ∧
    (∀ rem e, f.ldst = .busy rem e → 1 < rem → t.ldst = .busy (rem - 1) e ∧ t.lq = f.lq) ∧
    (∀ e, f.ldst = .busy 1 e → t.ldst = .idle ∧ t.lq = f.lq ∧
      ∃ v, loadValue f.mem f.cfg.memSize e.op e.addr = some v ∧ ⟨.writeBack, e.dest, v⟩ ∈ t.bus)

/-- The store stage: start of the committed head store only, counting, and the write, which lands in the next
state with its StoreSuccess; memory changes in no other way (47_load_store.md R344, R345; 20_memory.md R70,
R80, R82). -/
def Obligations.StoreStageStep : Prop :=
  ∀ s f t : State, Ticks s f t →
    (∀ e rest, f.stst = .idle → f.sq = e :: rest → e.committed = true →
      t.stst = .busy f.cfg.latStore ∧ t.sq = f.sq ∧ t.mem = f.mem) ∧
    (f.stst = .idle → (∀ e rest, f.sq = e :: rest → e.committed = false) →
      t.stst = .idle ∧ t.sq = f.sq ∧ t.mem = f.mem) ∧
    (∀ rem, f.stst = .busy rem → 1 < rem → t.stst = .busy (rem - 1) ∧ t.sq = f.sq ∧ t.mem = f.mem) ∧
    (∀ e rest, f.stst = .busy 1 → f.sq = e :: rest →
      t.stst = .idle ∧ t.sq = rest ∧ ⟨.storeSuccess, e.dest, 0⟩ ∈ t.bus ∧
      memWrite f.mem f.cfg.memSize e.addr e.op.width e.data = some t.mem)

/-- The issue gate and the hand-over: the head of the queue issues exactly where the reorder buffer, the bank of its
operation and, for a memory instruction, its queue have room; then the latch holds its entries under the next
circular index, the queue loses its head and its destination is renamed; else the latch is empty and the queue keeps its
head. The latched load/store entry is as R175 has it: no address, not ready, and a timestamp it leaves unset
(41_issue_unit.md R170, R172 to R177). -/
def Obligations.IssueHandsOverTheHead : Prop :=
  ∀ s f t : State, Ticks s f t →
    (f.iq = [] → t.latch = none) ∧
    ∀ I rest op, f.iq = I :: rest → I.op = some op →
      (CanIssue f op →
        let n := (f.rob.head + f.rob.entries.length) % f.cfg.robCap
        (∃ j k ts, OperandRead f I.src1 j ∧ OperandRead f I.src2 k ∧
          t.latch = some ⟨n, ⟨I, .issue, I.rd, 0⟩, ⟨op, n, j, k, I.imm⟩, lsbEntryFor op n ts⟩) ∧
        (t.iq = rest ∨ ∃ x, t.iq = rest ++ [x]) ∧ ∀ d, d ≠ 0 → I.rd = some d → t.tagOf d = some n) ∧
      (¬ CanIssue f op → t.latch = none ∧ (t.iq = I :: rest ∨ ∃ x, t.iq = I :: rest ++ [x]))

/-- An INVALID head aborts at issue, even where the reorder buffer is full, unless commit, the load stage or the store
stage aborts first (41_issue_unit.md R171; 60_exceptions.md R423, R428). -/
def Obligations.InvalidHeadAborts : Prop :=
  ∀ (s f : State) (I : IRec) (rest : List IRec), s.status = .running → s.halt = false →
    flush s = .ok f → f.iq = I :: rest → I.op = none →
    (∃ c, commit f = .ok c) → (∃ l, loadStage f = .ok l) → (∃ o, storeStage f = .ok o) →
    EveryTickTo s { f with status := .aborted (.unclassifiable I.word I.pc f.cycle) }

/-- No commit: an empty buffer, a head in state Issue, or a store waiting for its StoreSuccess changes nothing commit owns; and
the combinations the rules leave over abort (48_reorder_commit.md R385, R392). -/
def Obligations.CommitGate : Prop :=
  (∀ s f t : State, Ticks s f t →
    (f.rob.entries = [] ∨ ∃ e rest, f.rob.entries = e :: rest ∧
      (e.state = .issue ∨ e.state = .waitSt ∧ e.isStore = true)) →
    t.rob = f.rob ∧ RegisterFileNext f t none ∧ commitMsgs t.bus = [] ∧ t.halt = false ∧ t.clear = false ∧
      t.pred = f.pred) ∧
  (∀ (s f : State) (e : RobEntry) (rest : List RobEntry), s.status = .running → s.halt = false →
    flush s = .ok f → f.rob.entries = e :: rest →
    (e.state = .exec ∨ e.state = .waitSt ∧ e.isStore = false) →
    EveryTickTo s { f with status := .aborted (.unreachable f.rob.head f.cycle) })

/-- Commit of the sentinel: the halt flag and no further state change; the next tick ends the run
(48_reorder_commit.md R386). -/
def Obligations.SentinelCommit : Prop :=
  ∀ (s f t : State) (e : RobEntry) (rest : List RobEntry), Ticks s f t →
    HeadCommits f e rest → e.instr.isHalt = true →
    t.halt = true ∧ t.rob = f.rob ∧ RegisterFileNext f t none ∧ commitMsgs t.bus = [] ∧
      (f.stall = true → t.stall = true) ∧ t.clear = false ∧ t.pred = f.pred ∧
      EveryTickTo t { t with status := .halted t.exitCode }

/-- Commit of an arithmetic or load result: the register write of R391, a CommitReg, also without a
destination, and the retirement of the head (48_reorder_commit.md R387, R391, R393). -/
def Obligations.ResultCommit : Prop :=
  ∀ (s f t : State) (e : RobEntry) (rest : List RobEntry) (op : Op), Ticks s f t →
    HeadCommits f e rest → e.instr.isHalt = false → e.instr.op = some op → op.isResult = true →
    RegisterFileNext f t (e.rd.map fun rd => (rd, e.value, f.rob.head)) ∧
      commitMsgs t.bus = [⟨.commitReg, f.rob.head, e.value⟩] ∧
      t.rob = ⟨(f.rob.head + 1) % f.cfg.robCap, rest⟩ ∧ t.halt = false ∧ t.clear = false ∧ t.pred = f.pred

/-- Commit of JALR: the return address to the destination and on the bus, the redirect to the computed target, the end of
the fetch stall, the retirement (48_reorder_commit.md R388). -/
def Obligations.JalrCommit : Prop :=
  ∀ (s f t : State) (e : RobEntry) (rest : List RobEntry), Ticks s f t →
    HeadCommits f e rest → e.instr.isHalt = false → e.instr.op = some (.add .jalr) → f.stall = true →
    RegisterFileNext f t (e.rd.map fun rd => (rd, e.instr.pc + 4, f.rob.head)) ∧
      commitMsgs t.bus = [⟨.commitReg, f.rob.head, e.instr.pc + 4⟩] ∧ t.pc = e.value ∧ t.stall = false ∧
      t.rob = ⟨(f.rob.head + 1) % f.cfg.robCap, rest⟩ ∧ t.halt = false ∧ t.clear = false ∧ t.pred = f.pred

/-- Commit of a conditional branch: the predictor is told the outcome; on a mismatch the squash is raised and `pc`
corrected; the head retires either way, no register is written and no message emitted
(48_reorder_commit.md R389). -/
def Obligations.BranchCommit : Prop :=
  ∀ (s f t : State) (e : RobEntry) (rest : List RobEntry) (o : CmpOp), Ticks s f t →
    HeadCommits f e rest → e.instr.isHalt = false → e.instr.op = some (.cmp o) → o.isBranch = true →
    t.pred = feedback f.cfg.predictor f.pred e.instr.pc (e.value != 0) ∧
      (Mispredicted e → t.clear = true ∧ t.pc = correctedTarget e) ∧
      (¬ Mispredicted e → t.clear = false ∧
        (FetchOpen f → ∀ d w, Delivers d w s t →
          t.pc = tableNextPc d f.pc (predict f.cfg.predictor f.pred f.pc)) ∧
        (¬ FetchOpen f → t.pc = f.pc)) ∧
      t.rob = ⟨(f.rob.head + 1) % f.cfg.robCap, rest⟩ ∧ RegisterFileNext f t none ∧
      commitMsgs t.bus = [] ∧ t.halt = false

/-- First commit of a store: the entry becomes WaitSt and stays at the head, its data is released to the load/store
buffer, no register is written (48_reorder_commit.md R390). -/
def Obligations.StoreCommit : Prop :=
  ∀ (s f t : State) (e : RobEntry) (rest : List RobEntry) (o : StoreOp), Ticks s f t →
    HeadCommits f e rest → e.instr.isHalt = false → e.instr.op = some (.ls (.store o)) →
    t.rob = ⟨f.rob.head, { e with state := .waitSt } :: rest⟩ ∧
      commitMsgs t.bus = [⟨.commitMem, f.rob.head, e.value⟩] ∧ RegisterFileNext f t none ∧
      t.halt = false ∧ t.clear = false ∧ t.pred = f.pred

/-- The bounds of Execute: it copies the fields that no unit writes (capacities, latencies, full flags, status), counts
one cycle, and its bus holds at most nine messages, of each kind no more than its producers emit. What each unit
writes is in the statements about that unit (40_clock_and_bus.md R132, R133, R146). -/
def Obligations.ExecuteBoundsAndFrame : Prop :=
  ∀ s f t : State, Ticks s f t →
    t.cfg = f.cfg ∧ t.full = f.full ∧ t.status = f.status ∧ t.cycle = f.cycle + 1 ∧ t.bus.length ≤ 9 ∧
    (t.bus.filter fun m => m.kind == .writeBack).length ≤ 6 ∧
    (t.bus.filter fun m => m.kind == .getAddr).length ≤ 1 ∧ (commitMsgs t.bus).length ≤ 1 ∧
    (t.bus.filter fun m => m.kind == .storeSuccess).length ≤ 1

/-- Program order: without a squash, Flush drops one entry from the front of the reorder buffer for each
StoreSuccess on the bus and adds the latched one behind, and Execute drops at most one; no entry overtakes another
(48_reorder_commit.md R380, R381, R393; 70_reset_and_hazards.md R471). -/
def Obligations.ReorderBufferIsFifo : Prop :=
  ∀ s f t : State, Ticks s f t → s.clear = false →
    f.rob.entries.map RobEntry.instr =
      (s.rob.entries.map RobEntry.instr).drop (s.bus.filter fun m => m.kind == .storeSuccess).length ++
        (match s.latch with | some l => [l.robEntry.instr] | none => []) ∧
    ∃ b ≤ 1, t.rob.entries.map RobEntry.instr = (f.rob.entries.map RobEntry.instr).drop b

/-! ## Invariants -/

/-- Both invariants hold after reset, for every configuration the parameter table admits and every memory in canonical form
inside it (10_state.md R44, R45). -/
def Obligations.ResetSatisfiesInvariant : Prop :=
  (Inv State.reset ∧ InFlightInv State.reset) ∧
  ∀ (c : Config) (m : Memory), c.wf → m.wf → (∀ x ∈ m, x.1 < c.memSize) →
    Inv (State.resetWith c m) ∧ InFlightInv (State.resetWith c m)

/-- Every step from a running state of the invariant to a running state keeps it, and so does every `exec`: capacities, stage
counters, queue order, records, producer tags, x0, memory's form and the flags (10_state.md R21, R34, R36, R38,
R44; 40_clock_and_bus.md R135, R137). -/
def Obligations.EveryStepKeepsInvariant : Prop :=
  ∀ s t : State, Inv s → t.status = .running →
    (step s = .next t → Inv t) ∧ ∀ i, exec i s = .next t → Inv t

/-- Every step, and every `exec`, from a running state of both invariants to a running state keeps the agreement of the
structures on what is in flight: one place for each instruction's work, queues in step with the reorder buffer, tags on
the youngest writer, messages for live entries only (10_state.md R22, R38, R44; 41_issue_unit.md R172, R176;
47_load_store.md R334, R335; 48_reorder_commit.md R383, R384). -/
def Obligations.EveryStepKeepsInFlight : Prop :=
  ∀ s t : State, Inv s → InFlightInv s → t.status = .running → TickTo s t → InFlightInv t

/-- The aborts that check the units' consistency are never raised: under the invariant no StructuralOverflow and no
Unreachable, nor a store stage without its head (the model's own, log 11); under both invariants no ProtocolViolation.
What remains is what programs reach (60_exceptions.md R422, R425, R426; 40_clock_and_bus.md R137). -/
def Obligations.ConsistencyAbortsNeverRaised : Prop :=
  ∀ (s t : State) (a : Abort), Inv s → s.status = .running → TickTo s t → t.status = .aborted a →
    (∀ o c, a ≠ .structuralOverflow o c) ∧ (∀ h c, a ≠ .unreachable h c) ∧
      (∀ c, a ≠ .protocolViolation .storeStageWithoutHead c) ∧
      (InFlightInv s → ∀ p c, a ≠ .protocolViolation p c)

/-- What R44 says of every reachable running state, (a) to (f): it follows from the two invariants, and so holds in
every running state that steps reach from a reset with a canonical image, where x0 moreover has no tag and reads 0
(10_state.md R21, R22, R44; 70_reset_and_hazards.md R472). -/
def Obligations.ReachableStatesSatisfyR44 : Prop :=
  (∀ s : State, Inv s → InFlightInv s → R44 s) ∧
  ∀ (c : Config) (m : Memory) (n : Nat) (s : State), c.wf → m.wf → (∀ x ∈ m, x.1 < c.memSize) →
    Reaches n (State.resetWith c m) s → s.status = .running → R44 s ∧ s.x[0] = 0 ∧ s.tag[0] = none

/-! ## The host -/

/-- The loader: byte tokens, of digits in either case, fill consecutive addresses from the load address, and what follows
them is read from there; an address token sets it; a byte at or beyond MEM_SIZE rejects the image, and so does every token
that is neither form of R455 (70_reset_and_hazards.md R455, R456). That the canonical form is kept is about the
model's own choice of form (log 4, DESIGN CHOICE). -/
def Obligations.LoaderFillsConsecutiveBytes : Prop :=
  ∀ (size a : Nat) (m : Memory), m.wf →
    (∀ ts bs, List.Forall₂ ByteToken ts bs → a + bs.length ≤ size → ∃ m' : Memory, m'.wf ∧
      (∀ k, m'.read k = if a ≤ k then bs.getD (k - a) (m.read k) else m.read k) ∧
      ∀ rest, loadWords size a m (ts ++ rest) = loadWords size (a + bs.length) m' rest) ∧
    (∀ p, loadWords size p m [] = some m) ∧
    (∀ t b rest, ByteToken t b → size ≤ a → loadWords size a m (t :: rest) = none) ∧
    (∀ t p rest, AddressToken t p → loadWords size a m (t :: rest) = loadWords size p m rest) ∧
    (∀ t rest, (∀ b, ¬ ByteToken t b) → (∀ p, ¬ AddressToken t p) → loadWords size a m (t :: rest) = none)
end

