-- ==== Sys2Proof/Laws/Decode.lean ====
section
/-! SUPPORT. The fields of an encoded word, format by format (30_encoding.md R102, R103, R104). -/

namespace Sys2Proof

/-! ## Format R -/

@[simp] theorem opcodeOf_encodeR (f7 : BitVec 7) (rs2 rs1 : BitVec 5) (f3 : BitVec 3) (rd : BitVec 5) (op : BitVec 7) :
    opcodeOf (encodeR f7 rs2 rs1 f3 rd op) = op := by
  unfold opcodeOf encodeR
  ext i hi
  simp only [BitVec.getElem_extractLsb', BitVec.getLsbD_append]
  interval_cases i <;> simp_all

@[simp] theorem rdOf_encodeR (f7 : BitVec 7) (rs2 rs1 : BitVec 5) (f3 : BitVec 3) (rd : BitVec 5) (op : BitVec 7) :
    rdOf (encodeR f7 rs2 rs1 f3 rd op) = rd := by
  unfold rdOf encodeR
  ext i hi
  simp only [BitVec.getElem_extractLsb', BitVec.getLsbD_append]
  interval_cases i <;> simp_all

@[simp] theorem funct3Of_encodeR (f7 : BitVec 7) (rs2 rs1 : BitVec 5) (f3 : BitVec 3) (rd : BitVec 5) (op : BitVec 7) :
    funct3Of (encodeR f7 rs2 rs1 f3 rd op) = f3 := by
  unfold funct3Of encodeR
  ext i hi
  simp only [BitVec.getElem_extractLsb', BitVec.getLsbD_append]
  interval_cases i <;> simp_all

@[simp] theorem rs1Of_encodeR (f7 : BitVec 7) (rs2 rs1 : BitVec 5) (f3 : BitVec 3) (rd : BitVec 5) (op : BitVec 7) :
    rs1Of (encodeR f7 rs2 rs1 f3 rd op) = rs1 := by
  unfold rs1Of encodeR
  ext i hi
  simp only [BitVec.getElem_extractLsb', BitVec.getLsbD_append]
  interval_cases i <;> simp_all

@[simp] theorem rs2Of_encodeR (f7 : BitVec 7) (rs2 rs1 : BitVec 5) (f3 : BitVec 3) (rd : BitVec 5) (op : BitVec 7) :
    rs2Of (encodeR f7 rs2 rs1 f3 rd op) = rs2 := by
  unfold rs2Of encodeR
  ext i hi
  simp only [BitVec.getElem_extractLsb', BitVec.getLsbD_append]
  interval_cases i <;> simp_all

@[simp] theorem funct7Of_encodeR (f7 : BitVec 7) (rs2 rs1 : BitVec 5) (f3 : BitVec 3) (rd : BitVec 5) (op : BitVec 7) :
    funct7Of (encodeR f7 rs2 rs1 f3 rd op) = f7 := by
  unfold funct7Of encodeR
  ext i hi
  simp only [BitVec.getElem_extractLsb', BitVec.getLsbD_append]
  interval_cases i <;> simp_all

/-- The low two bits are the opcode's. -/
theorem low_encodeR (f7 : BitVec 7) (rs2 rs1 : BitVec 5) (f3 : BitVec 3) (rd : BitVec 5) (op : BitVec 7) :
    (encodeR f7 rs2 rs1 f3 rd op).extractLsb' 0 2 = op.extractLsb' 0 2 := by
  unfold encodeR
  ext i hi
  simp only [BitVec.getElem_extractLsb', BitVec.getLsbD_append]
  interval_cases i <;> simp_all

/-! ## Format I -/

@[simp] theorem opcodeOf_encodeI (imm : BitVec 12) (rs1 : BitVec 5) (f3 : BitVec 3) (rd : BitVec 5) (op : BitVec 7) :
    opcodeOf (encodeI imm rs1 f3 rd op) = op := by
  unfold opcodeOf encodeI
  ext i hi
  simp only [BitVec.getElem_extractLsb', BitVec.getLsbD_append]
  interval_cases i <;> simp_all

@[simp] theorem rdOf_encodeI (imm : BitVec 12) (rs1 : BitVec 5) (f3 : BitVec 3) (rd : BitVec 5) (op : BitVec 7) :
    rdOf (encodeI imm rs1 f3 rd op) = rd := by
  unfold rdOf encodeI
  ext i hi
  simp only [BitVec.getElem_extractLsb', BitVec.getLsbD_append]
  interval_cases i <;> simp_all

@[simp] theorem funct3Of_encodeI (imm : BitVec 12) (rs1 : BitVec 5) (f3 : BitVec 3) (rd : BitVec 5) (op : BitVec 7) :
    funct3Of (encodeI imm rs1 f3 rd op) = f3 := by
  unfold funct3Of encodeI
  ext i hi
  simp only [BitVec.getElem_extractLsb', BitVec.getLsbD_append]
  interval_cases i <;> simp_all

@[simp] theorem rs1Of_encodeI (imm : BitVec 12) (rs1 : BitVec 5) (f3 : BitVec 3) (rd : BitVec 5) (op : BitVec 7) :
    rs1Of (encodeI imm rs1 f3 rd op) = rs1 := by
  unfold rs1Of encodeI
  ext i hi
  simp only [BitVec.getElem_extractLsb', BitVec.getLsbD_append]
  interval_cases i <;> simp_all

@[simp] theorem immIOf_encodeI (imm : BitVec 12) (rs1 : BitVec 5) (f3 : BitVec 3) (rd : BitVec 5) (op : BitVec 7) :
    immIOf (encodeI imm rs1 f3 rd op) = imm := by
  unfold immIOf encodeI
  ext i hi
  simp only [BitVec.getElem_extractLsb', BitVec.getLsbD_append]
  interval_cases i <;> simp_all

/-- The low two bits are the opcode's. -/
theorem low_encodeI (imm : BitVec 12) (rs1 : BitVec 5) (f3 : BitVec 3) (rd : BitVec 5) (op : BitVec 7) :
    (encodeI imm rs1 f3 rd op).extractLsb' 0 2 = op.extractLsb' 0 2 := by
  unfold encodeI
  ext i hi
  simp only [BitVec.getElem_extractLsb', BitVec.getLsbD_append]
  interval_cases i <;> simp_all

/-! ## Format S -/

@[simp] theorem opcodeOf_encodeS (imm : BitVec 12) (rs2 rs1 : BitVec 5) (f3 : BitVec 3) (op : BitVec 7) :
    opcodeOf (encodeS imm rs2 rs1 f3 op) = op := by
  unfold opcodeOf encodeS
  ext i hi
  simp only [BitVec.getElem_extractLsb', BitVec.getLsbD_append]
  interval_cases i <;> simp_all

@[simp] theorem funct3Of_encodeS (imm : BitVec 12) (rs2 rs1 : BitVec 5) (f3 : BitVec 3) (op : BitVec 7) :
    funct3Of (encodeS imm rs2 rs1 f3 op) = f3 := by
  unfold funct3Of encodeS
  ext i hi
  simp only [BitVec.getElem_extractLsb', BitVec.getLsbD_append]
  interval_cases i <;> simp_all

@[simp] theorem rs1Of_encodeS (imm : BitVec 12) (rs2 rs1 : BitVec 5) (f3 : BitVec 3) (op : BitVec 7) :
    rs1Of (encodeS imm rs2 rs1 f3 op) = rs1 := by
  unfold rs1Of encodeS
  ext i hi
  simp only [BitVec.getElem_extractLsb', BitVec.getLsbD_append]
  interval_cases i <;> simp_all

@[simp] theorem rs2Of_encodeS (imm : BitVec 12) (rs2 rs1 : BitVec 5) (f3 : BitVec 3) (op : BitVec 7) :
    rs2Of (encodeS imm rs2 rs1 f3 op) = rs2 := by
  unfold rs2Of encodeS
  ext i hi
  simp only [BitVec.getElem_extractLsb', BitVec.getLsbD_append]
  interval_cases i <;> simp_all

@[simp] theorem immSOf_encodeS (imm : BitVec 12) (rs2 rs1 : BitVec 5) (f3 : BitVec 3) (op : BitVec 7) :
    immSOf (encodeS imm rs2 rs1 f3 op) = imm := by
  unfold immSOf encodeS
  ext i hi
  simp only [BitVec.getElem_append, BitVec.getElem_extractLsb', BitVec.getLsbD_append,
    BitVec.getLsbD_extractLsb']
  interval_cases i <;> simp_all

/-- The low two bits are the opcode's. -/
theorem low_encodeS (imm : BitVec 12) (rs2 rs1 : BitVec 5) (f3 : BitVec 3) (op : BitVec 7) :
    (encodeS imm rs2 rs1 f3 op).extractLsb' 0 2 = op.extractLsb' 0 2 := by
  unfold encodeS
  ext i hi
  simp only [BitVec.getElem_extractLsb', BitVec.getLsbD_append]
  interval_cases i <;> simp_all

/-! ## Format B -/

@[simp] theorem opcodeOf_encodeB (off : BitVec 13) (rs2 rs1 : BitVec 5) (f3 : BitVec 3) (op : BitVec 7) :
    opcodeOf (encodeB off rs2 rs1 f3 op) = op := by
  unfold opcodeOf encodeB
  ext i hi
  simp only [BitVec.getElem_extractLsb', BitVec.getLsbD_append]
  interval_cases i <;> simp_all

@[simp] theorem funct3Of_encodeB (off : BitVec 13) (rs2 rs1 : BitVec 5) (f3 : BitVec 3) (op : BitVec 7) :
    funct3Of (encodeB off rs2 rs1 f3 op) = f3 := by
  unfold funct3Of encodeB
  ext i hi
  simp only [BitVec.getElem_extractLsb', BitVec.getLsbD_append]
  interval_cases i <;> simp_all

@[simp] theorem rs1Of_encodeB (off : BitVec 13) (rs2 rs1 : BitVec 5) (f3 : BitVec 3) (op : BitVec 7) :
    rs1Of (encodeB off rs2 rs1 f3 op) = rs1 := by
  unfold rs1Of encodeB
  ext i hi
  simp only [BitVec.getElem_extractLsb', BitVec.getLsbD_append]
  interval_cases i <;> simp_all

@[simp] theorem rs2Of_encodeB (off : BitVec 13) (rs2 rs1 : BitVec 5) (f3 : BitVec 3) (op : BitVec 7) :
    rs2Of (encodeB off rs2 rs1 f3 op) = rs2 := by
  unfold rs2Of encodeB
  ext i hi
  simp only [BitVec.getElem_extractLsb', BitVec.getLsbD_append]
  interval_cases i <;> simp_all

@[simp] theorem offBOf_encodeB (off : BitVec 13) (rs2 rs1 : BitVec 5) (f3 : BitVec 3) (op : BitVec 7) (h : off.getLsbD 0 = false) :
    offBOf (encodeB off rs2 rs1 f3 op) = off := by
  unfold offBOf encodeB
  ext i hi
  simp only [BitVec.getElem_append, BitVec.getElem_extractLsb', BitVec.getLsbD_append,
    BitVec.getLsbD_extractLsb']
  interval_cases i <;> simp_all

/-- The low two bits are the opcode's. -/
theorem low_encodeB (off : BitVec 13) (rs2 rs1 : BitVec 5) (f3 : BitVec 3) (op : BitVec 7) :
    (encodeB off rs2 rs1 f3 op).extractLsb' 0 2 = op.extractLsb' 0 2 := by
  unfold encodeB
  ext i hi
  simp only [BitVec.getElem_extractLsb', BitVec.getLsbD_append]
  interval_cases i <;> simp_all

/-! ## Format U -/

@[simp] theorem opcodeOf_encodeU (imm : BitVec 20) (rd : BitVec 5) (op : BitVec 7) :
    opcodeOf (encodeU imm rd op) = op := by
  unfold opcodeOf encodeU
  ext i hi
  simp only [BitVec.getElem_extractLsb', BitVec.getLsbD_append]
  interval_cases i <;> simp_all

@[simp] theorem rdOf_encodeU (imm : BitVec 20) (rd : BitVec 5) (op : BitVec 7) :
    rdOf (encodeU imm rd op) = rd := by
  unfold rdOf encodeU
  ext i hi
  simp only [BitVec.getElem_extractLsb', BitVec.getLsbD_append]
  interval_cases i <;> simp_all

@[simp] theorem immUOf_encodeU (imm : BitVec 20) (rd : BitVec 5) (op : BitVec 7) :
    immUOf (encodeU imm rd op) = imm := by
  unfold immUOf encodeU
  ext i hi
  simp only [BitVec.getElem_extractLsb', BitVec.getLsbD_append]
  interval_cases i <;> simp_all

/-- The low two bits are the opcode's. -/
theorem low_encodeU (imm : BitVec 20) (rd : BitVec 5) (op : BitVec 7) :
    (encodeU imm rd op).extractLsb' 0 2 = op.extractLsb' 0 2 := by
  unfold encodeU
  ext i hi
  simp only [BitVec.getElem_extractLsb', BitVec.getLsbD_append]
  interval_cases i <;> simp_all

/-! ## Format J -/

@[simp] theorem opcodeOf_encodeJ (off : BitVec 21) (rd : BitVec 5) (op : BitVec 7) :
    opcodeOf (encodeJ off rd op) = op := by
  unfold opcodeOf encodeJ
  ext i hi
  simp only [BitVec.getElem_extractLsb', BitVec.getLsbD_append]
  interval_cases i <;> simp_all

@[simp] theorem rdOf_encodeJ (off : BitVec 21) (rd : BitVec 5) (op : BitVec 7) :
    rdOf (encodeJ off rd op) = rd := by
  unfold rdOf encodeJ
  ext i hi
  simp only [BitVec.getElem_extractLsb', BitVec.getLsbD_append]
  interval_cases i <;> simp_all

@[simp] theorem offJOf_encodeJ (off : BitVec 21) (rd : BitVec 5) (op : BitVec 7) (h : off.getLsbD 0 = false) :
    offJOf (encodeJ off rd op) = off := by
  unfold offJOf encodeJ
  ext i hi
  simp only [BitVec.getElem_append, BitVec.getElem_extractLsb', BitVec.getLsbD_append,
    BitVec.getLsbD_extractLsb']
  interval_cases i <;> simp_all

/-- The low two bits are the opcode's. -/
theorem low_encodeJ (off : BitVec 21) (rd : BitVec 5) (op : BitVec 7) :
    (encodeJ off rd op).extractLsb' 0 2 = op.extractLsb' 0 2 := by
  unfold encodeJ
  ext i hi
  simp only [BitVec.getElem_extractLsb', BitVec.getLsbD_append]
  interval_cases i <;> simp_all

end Sys2Proof
end

