-- ==== Sys2Proof/Laws/State.lean ====
section
/-! SUPPORT. What each whole-state update of the machine does to each field of the state: one lemma per field per
update, true by rfl. -/

namespace Sys2Proof.Machine

/-! ## An abort (60_exceptions.md R420) -/

@[simp] theorem State.abort_cfg (s : State) (a : Abort) : (s.abort a).cfg = s.cfg := rfl
@[simp] theorem State.abort_x (s : State) (a : Abort) : (s.abort a).x = s.x := rfl
@[simp] theorem State.abort_tag (s : State) (a : Abort) : (s.abort a).tag = s.tag := rfl
@[simp] theorem State.abort_pc (s : State) (a : Abort) : (s.abort a).pc = s.pc := rfl
@[simp] theorem State.abort_mem (s : State) (a : Abort) : (s.abort a).mem = s.mem := rfl
@[simp] theorem State.abort_stall (s : State) (a : Abort) : (s.abort a).stall = s.stall := rfl
@[simp] theorem State.abort_clear (s : State) (a : Abort) : (s.abort a).clear = s.clear := rfl
@[simp] theorem State.abort_halt (s : State) (a : Abort) : (s.abort a).halt = s.halt := rfl
@[simp] theorem State.abort_cycle (s : State) (a : Abort) : (s.abort a).cycle = s.cycle := rfl
@[simp] theorem State.abort_iq (s : State) (a : Abort) : (s.abort a).iq = s.iq := rfl
@[simp] theorem State.abort_latch (s : State) (a : Abort) : (s.abort a).latch = s.latch := rfl
@[simp] theorem State.abort_rs (s : State) (a : Abort) : (s.abort a).rs = s.rs := rfl
@[simp] theorem State.abort_fu (s : State) (a : Abort) : (s.abort a).fu = s.fu := rfl
@[simp] theorem State.abort_lq (s : State) (a : Abort) : (s.abort a).lq = s.lq := rfl
@[simp] theorem State.abort_sq (s : State) (a : Abort) : (s.abort a).sq = s.sq := rfl
@[simp] theorem State.abort_ldst (s : State) (a : Abort) : (s.abort a).ldst = s.ldst := rfl
@[simp] theorem State.abort_stst (s : State) (a : Abort) : (s.abort a).stst = s.stst := rfl
@[simp] theorem State.abort_rob (s : State) (a : Abort) : (s.abort a).rob = s.rob := rfl
@[simp] theorem State.abort_bus (s : State) (a : Abort) : (s.abort a).bus = s.bus := rfl
@[simp] theorem State.abort_full (s : State) (a : Abort) : (s.abort a).full = s.full := rfl
@[simp] theorem State.abort_pred (s : State) (a : Abort) : (s.abort a).pred = s.pred := rfl
@[simp] theorem State.abort_status (s : State) (a : Abort) : (s.abort a).status = .aborted a := rfl

/-! ## The halt (40_clock_and_bus.md R134) -/

@[simp] theorem haltedState_cfg (s : State) : (haltedState s).cfg = s.cfg := rfl
@[simp] theorem haltedState_x (s : State) : (haltedState s).x = s.x := rfl
@[simp] theorem haltedState_tag (s : State) : (haltedState s).tag = s.tag := rfl
@[simp] theorem haltedState_pc (s : State) : (haltedState s).pc = s.pc := rfl
@[simp] theorem haltedState_mem (s : State) : (haltedState s).mem = s.mem := rfl
@[simp] theorem haltedState_stall (s : State) : (haltedState s).stall = s.stall := rfl
@[simp] theorem haltedState_clear (s : State) : (haltedState s).clear = s.clear := rfl
@[simp] theorem haltedState_halt (s : State) : (haltedState s).halt = s.halt := rfl
@[simp] theorem haltedState_cycle (s : State) : (haltedState s).cycle = s.cycle := rfl
@[simp] theorem haltedState_iq (s : State) : (haltedState s).iq = s.iq := rfl
@[simp] theorem haltedState_latch (s : State) : (haltedState s).latch = s.latch := rfl
@[simp] theorem haltedState_rs (s : State) : (haltedState s).rs = s.rs := rfl
@[simp] theorem haltedState_fu (s : State) : (haltedState s).fu = s.fu := rfl
@[simp] theorem haltedState_lq (s : State) : (haltedState s).lq = s.lq := rfl
@[simp] theorem haltedState_sq (s : State) : (haltedState s).sq = s.sq := rfl
@[simp] theorem haltedState_ldst (s : State) : (haltedState s).ldst = s.ldst := rfl
@[simp] theorem haltedState_stst (s : State) : (haltedState s).stst = s.stst := rfl
@[simp] theorem haltedState_rob (s : State) : (haltedState s).rob = s.rob := rfl
@[simp] theorem haltedState_bus (s : State) : (haltedState s).bus = s.bus := rfl
@[simp] theorem haltedState_full (s : State) : (haltedState s).full = s.full := rfl
@[simp] theorem haltedState_pred (s : State) : (haltedState s).pred = s.pred := rfl
@[simp] theorem haltedState_status (s : State) : (haltedState s).status = .halted s.exitCode := rfl

/-! ## The full flags (R137) -/

@[simp] theorem setFull_cfg (s : State) : (setFull s).cfg = s.cfg := rfl
@[simp] theorem setFull_x (s : State) : (setFull s).x = s.x := rfl
@[simp] theorem setFull_tag (s : State) : (setFull s).tag = s.tag := rfl
@[simp] theorem setFull_pc (s : State) : (setFull s).pc = s.pc := rfl
@[simp] theorem setFull_mem (s : State) : (setFull s).mem = s.mem := rfl
@[simp] theorem setFull_stall (s : State) : (setFull s).stall = s.stall := rfl
@[simp] theorem setFull_clear (s : State) : (setFull s).clear = s.clear := rfl
@[simp] theorem setFull_halt (s : State) : (setFull s).halt = s.halt := rfl
@[simp] theorem setFull_cycle (s : State) : (setFull s).cycle = s.cycle := rfl
@[simp] theorem setFull_iq (s : State) : (setFull s).iq = s.iq := rfl
@[simp] theorem setFull_latch (s : State) : (setFull s).latch = s.latch := rfl
@[simp] theorem setFull_rs (s : State) : (setFull s).rs = s.rs := rfl
@[simp] theorem setFull_fu (s : State) : (setFull s).fu = s.fu := rfl
@[simp] theorem setFull_lq (s : State) : (setFull s).lq = s.lq := rfl
@[simp] theorem setFull_sq (s : State) : (setFull s).sq = s.sq := rfl
@[simp] theorem setFull_ldst (s : State) : (setFull s).ldst = s.ldst := rfl
@[simp] theorem setFull_stst (s : State) : (setFull s).stst = s.stst := rfl
@[simp] theorem setFull_rob (s : State) : (setFull s).rob = s.rob := rfl
@[simp] theorem setFull_bus (s : State) : (setFull s).bus = s.bus := rfl
@[simp] theorem setFull_full (s : State) : (setFull s).full = fullFlags s := rfl
@[simp] theorem setFull_pred (s : State) : (setFull s).pred = s.pred := rfl
@[simp] theorem setFull_status (s : State) : (setFull s).status = s.status := rfl

/-! ## F7 -/

@[simp] theorem clearLatchAndBus_cfg (s : State) : (clearLatchAndBus s).cfg = s.cfg := rfl
@[simp] theorem clearLatchAndBus_x (s : State) : (clearLatchAndBus s).x = s.x := rfl
@[simp] theorem clearLatchAndBus_tag (s : State) : (clearLatchAndBus s).tag = s.tag := rfl
@[simp] theorem clearLatchAndBus_pc (s : State) : (clearLatchAndBus s).pc = s.pc := rfl
@[simp] theorem clearLatchAndBus_mem (s : State) : (clearLatchAndBus s).mem = s.mem := rfl
@[simp] theorem clearLatchAndBus_stall (s : State) : (clearLatchAndBus s).stall = s.stall := rfl
@[simp] theorem clearLatchAndBus_clear (s : State) : (clearLatchAndBus s).clear = s.clear := rfl
@[simp] theorem clearLatchAndBus_halt (s : State) : (clearLatchAndBus s).halt = s.halt := rfl
@[simp] theorem clearLatchAndBus_cycle (s : State) : (clearLatchAndBus s).cycle = s.cycle := rfl
@[simp] theorem clearLatchAndBus_iq (s : State) : (clearLatchAndBus s).iq = s.iq := rfl
@[simp] theorem clearLatchAndBus_latch (s : State) : (clearLatchAndBus s).latch = none := rfl
@[simp] theorem clearLatchAndBus_rs (s : State) : (clearLatchAndBus s).rs = s.rs := rfl
@[simp] theorem clearLatchAndBus_fu (s : State) : (clearLatchAndBus s).fu = s.fu := rfl
@[simp] theorem clearLatchAndBus_lq (s : State) : (clearLatchAndBus s).lq = s.lq := rfl
@[simp] theorem clearLatchAndBus_sq (s : State) : (clearLatchAndBus s).sq = s.sq := rfl
@[simp] theorem clearLatchAndBus_ldst (s : State) : (clearLatchAndBus s).ldst = s.ldst := rfl
@[simp] theorem clearLatchAndBus_stst (s : State) : (clearLatchAndBus s).stst = s.stst := rfl
@[simp] theorem clearLatchAndBus_rob (s : State) : (clearLatchAndBus s).rob = s.rob := rfl
@[simp] theorem clearLatchAndBus_bus (s : State) : (clearLatchAndBus s).bus = [] := rfl
@[simp] theorem clearLatchAndBus_full (s : State) : (clearLatchAndBus s).full = s.full := rfl
@[simp] theorem clearLatchAndBus_pred (s : State) : (clearLatchAndBus s).pred = s.pred := rfl
@[simp] theorem clearLatchAndBus_status (s : State) : (clearLatchAndBus s).status = s.status := rfl

/-! ## Wakeup (42_reservation_stations.md R205) -/

@[simp] theorem wakeAll_cfg (s : State) : (wakeAll s).cfg = s.cfg := rfl
@[simp] theorem wakeAll_x (s : State) : (wakeAll s).x = s.x := rfl
@[simp] theorem wakeAll_tag (s : State) : (wakeAll s).tag = s.tag := rfl
@[simp] theorem wakeAll_pc (s : State) : (wakeAll s).pc = s.pc := rfl
@[simp] theorem wakeAll_mem (s : State) : (wakeAll s).mem = s.mem := rfl
@[simp] theorem wakeAll_stall (s : State) : (wakeAll s).stall = s.stall := rfl
@[simp] theorem wakeAll_clear (s : State) : (wakeAll s).clear = s.clear := rfl
@[simp] theorem wakeAll_halt (s : State) : (wakeAll s).halt = s.halt := rfl
@[simp] theorem wakeAll_cycle (s : State) : (wakeAll s).cycle = s.cycle := rfl
@[simp] theorem wakeAll_iq (s : State) : (wakeAll s).iq = s.iq := rfl
@[simp] theorem wakeAll_latch (s : State) : (wakeAll s).latch = s.latch := rfl
@[simp] theorem wakeAll_rs (s : State) : (wakeAll s).rs = ⟨wakeBank s.bus s.rs.add, wakeBank s.bus s.rs.cmp, wakeBank s.bus s.rs.log, wakeBank s.bus s.rs.shf,
      wakeBank s.bus s.rs.ls⟩ := rfl
@[simp] theorem wakeAll_fu (s : State) : (wakeAll s).fu = s.fu := rfl
@[simp] theorem wakeAll_lq (s : State) : (wakeAll s).lq = s.lq := rfl
@[simp] theorem wakeAll_sq (s : State) : (wakeAll s).sq = s.sq := rfl
@[simp] theorem wakeAll_ldst (s : State) : (wakeAll s).ldst = s.ldst := rfl
@[simp] theorem wakeAll_stst (s : State) : (wakeAll s).stst = s.stst := rfl
@[simp] theorem wakeAll_rob (s : State) : (wakeAll s).rob = s.rob := rfl
@[simp] theorem wakeAll_bus (s : State) : (wakeAll s).bus = s.bus := rfl
@[simp] theorem wakeAll_full (s : State) : (wakeAll s).full = s.full := rfl
@[simp] theorem wakeAll_pred (s : State) : (wakeAll s).pred = s.pred := rfl
@[simp] theorem wakeAll_status (s : State) : (wakeAll s).status = s.status := rfl

/-! ## A change of one reorder-buffer entry -/

@[simp] theorem State.robModify_cfg (s : State) (i : Nat) (g : RobEntry → RobEntry) : (s.robModify i g).cfg = s.cfg := rfl
@[simp] theorem State.robModify_x (s : State) (i : Nat) (g : RobEntry → RobEntry) : (s.robModify i g).x = s.x := rfl
@[simp] theorem State.robModify_tag (s : State) (i : Nat) (g : RobEntry → RobEntry) : (s.robModify i g).tag = s.tag := rfl
@[simp] theorem State.robModify_pc (s : State) (i : Nat) (g : RobEntry → RobEntry) : (s.robModify i g).pc = s.pc := rfl
@[simp] theorem State.robModify_mem (s : State) (i : Nat) (g : RobEntry → RobEntry) : (s.robModify i g).mem = s.mem := rfl
@[simp] theorem State.robModify_stall (s : State) (i : Nat) (g : RobEntry → RobEntry) : (s.robModify i g).stall = s.stall := rfl
@[simp] theorem State.robModify_clear (s : State) (i : Nat) (g : RobEntry → RobEntry) : (s.robModify i g).clear = s.clear := rfl
@[simp] theorem State.robModify_halt (s : State) (i : Nat) (g : RobEntry → RobEntry) : (s.robModify i g).halt = s.halt := rfl
@[simp] theorem State.robModify_cycle (s : State) (i : Nat) (g : RobEntry → RobEntry) : (s.robModify i g).cycle = s.cycle := rfl
@[simp] theorem State.robModify_iq (s : State) (i : Nat) (g : RobEntry → RobEntry) : (s.robModify i g).iq = s.iq := rfl
@[simp] theorem State.robModify_latch (s : State) (i : Nat) (g : RobEntry → RobEntry) : (s.robModify i g).latch = s.latch := rfl
@[simp] theorem State.robModify_rs (s : State) (i : Nat) (g : RobEntry → RobEntry) : (s.robModify i g).rs = s.rs := rfl
@[simp] theorem State.robModify_fu (s : State) (i : Nat) (g : RobEntry → RobEntry) : (s.robModify i g).fu = s.fu := rfl
@[simp] theorem State.robModify_lq (s : State) (i : Nat) (g : RobEntry → RobEntry) : (s.robModify i g).lq = s.lq := rfl
@[simp] theorem State.robModify_sq (s : State) (i : Nat) (g : RobEntry → RobEntry) : (s.robModify i g).sq = s.sq := rfl
@[simp] theorem State.robModify_ldst (s : State) (i : Nat) (g : RobEntry → RobEntry) : (s.robModify i g).ldst = s.ldst := rfl
@[simp] theorem State.robModify_stst (s : State) (i : Nat) (g : RobEntry → RobEntry) : (s.robModify i g).stst = s.stst := rfl
@[simp] theorem State.robModify_rob (s : State) (i : Nat) (g : RobEntry → RobEntry) : (s.robModify i g).rob = ⟨s.rob.head, s.rob.entries.modify (s.robOffset i) g⟩ := rfl
@[simp] theorem State.robModify_bus (s : State) (i : Nat) (g : RobEntry → RobEntry) : (s.robModify i g).bus = s.bus := rfl
@[simp] theorem State.robModify_full (s : State) (i : Nat) (g : RobEntry → RobEntry) : (s.robModify i g).full = s.full := rfl
@[simp] theorem State.robModify_pred (s : State) (i : Nat) (g : RobEntry → RobEntry) : (s.robModify i g).pred = s.pred := rfl
@[simp] theorem State.robModify_status (s : State) (i : Nat) (g : RobEntry → RobEntry) : (s.robModify i g).status = s.status := rfl

/-! ## The squash (48_reorder_commit.md R395) -/

@[simp] theorem squash_cfg (s : State) : (squash s).cfg = s.cfg := rfl
@[simp] theorem squash_x (s : State) : (squash s).x = s.x := rfl
@[simp] theorem squash_tag (s : State) : (squash s).tag = Vector.replicate 32 none := rfl
@[simp] theorem squash_pc (s : State) : (squash s).pc = s.pc := rfl
@[simp] theorem squash_mem (s : State) : (squash s).mem = s.mem := rfl
@[simp] theorem squash_stall (s : State) : (squash s).stall = false := rfl
@[simp] theorem squash_clear (s : State) : (squash s).clear = false := rfl
@[simp] theorem squash_halt (s : State) : (squash s).halt = s.halt := rfl
@[simp] theorem squash_cycle (s : State) : (squash s).cycle = s.cycle := rfl
@[simp] theorem squash_iq (s : State) : (squash s).iq = [] := rfl
@[simp] theorem squash_latch (s : State) : (squash s).latch = none := rfl
@[simp] theorem squash_rs (s : State) : (squash s).rs = Banks.empty s.cfg := rfl
@[simp] theorem squash_fu (s : State) : (squash s).fu = Stages.allIdle := rfl
@[simp] theorem squash_lq (s : State) : (squash s).lq = [] := rfl
@[simp] theorem squash_sq (s : State) : (squash s).sq = [] := rfl
@[simp] theorem squash_ldst (s : State) : (squash s).ldst = .idle := rfl
@[simp] theorem squash_stst (s : State) : (squash s).stst = .idle := rfl
@[simp] theorem squash_rob (s : State) : (squash s).rob = ⟨0, []⟩ := rfl
@[simp] theorem squash_bus (s : State) : (squash s).bus = [] := rfl
@[simp] theorem squash_full (s : State) : (squash s).full = s.full := rfl
@[simp] theorem squash_pred (s : State) : (squash s).pred = s.pred := rfl
@[simp] theorem squash_status (s : State) : (squash s).status = s.status := rfl

/-! ## The merge of Execute (40_clock_and_bus.md R133) -/

@[simp] theorem merge_cfg (s : State) (c : Commit) (l : LoadOut) (st : StoreOut)
    (i : IssueOut) (r : Option IRec) (msgs : List Msg) : (merge s c l st i r msgs).cfg = s.cfg := rfl
@[simp] theorem merge_x (s : State) (c : Commit) (l : LoadOut) (st : StoreOut)
    (i : IssueOut) (r : Option IRec) (msgs : List Msg) : (merge s c l st i r msgs).x = nextValues s c := rfl
@[simp] theorem merge_tag (s : State) (c : Commit) (l : LoadOut) (st : StoreOut)
    (i : IssueOut) (r : Option IRec) (msgs : List Msg) : (merge s c l st i r msgs).tag = nextTags s c i := rfl
@[simp] theorem merge_pc (s : State) (c : Commit) (l : LoadOut) (st : StoreOut)
    (i : IssueOut) (r : Option IRec) (msgs : List Msg) : (merge s c l st i r msgs).pc = nextPc s c r := rfl
@[simp] theorem merge_mem (s : State) (c : Commit) (l : LoadOut) (st : StoreOut)
    (i : IssueOut) (r : Option IRec) (msgs : List Msg) : (merge s c l st i r msgs).mem = st.mem := rfl
@[simp] theorem merge_stall (s : State) (c : Commit) (l : LoadOut) (st : StoreOut)
    (i : IssueOut) (r : Option IRec) (msgs : List Msg) : (merge s c l st i r msgs).stall = nextStall s c r := rfl
@[simp] theorem merge_clear (s : State) (c : Commit) (l : LoadOut) (st : StoreOut)
    (i : IssueOut) (r : Option IRec) (msgs : List Msg) : (merge s c l st i r msgs).clear = (s.clear || c.setClear) := rfl
@[simp] theorem merge_halt (s : State) (c : Commit) (l : LoadOut) (st : StoreOut)
    (i : IssueOut) (r : Option IRec) (msgs : List Msg) : (merge s c l st i r msgs).halt = (s.halt || c.setHalt) := rfl
@[simp] theorem merge_cycle (s : State) (c : Commit) (l : LoadOut) (st : StoreOut)
    (i : IssueOut) (r : Option IRec) (msgs : List Msg) : (merge s c l st i r msgs).cycle = s.cycle + 1 := rfl
@[simp] theorem merge_iq (s : State) (c : Commit) (l : LoadOut) (st : StoreOut)
    (i : IssueOut) (r : Option IRec) (msgs : List Msg) : (merge s c l st i r msgs).iq = nextIq i r := rfl
@[simp] theorem merge_latch (s : State) (c : Commit) (l : LoadOut) (st : StoreOut)
    (i : IssueOut) (r : Option IRec) (msgs : List Msg) : (merge s c l st i r msgs).latch = i.latch := rfl
@[simp] theorem merge_rs (s : State) (c : Commit) (l : LoadOut) (st : StoreOut)
    (i : IssueOut) (r : Option IRec) (msgs : List Msg) : (merge s c l st i r msgs).rs = 
      ⟨(stepAdd s).bank, (stepCmp s).bank, (stepLog s).bank, (stepShf s).bank, (dispatchLs s).1⟩ := rfl
@[simp] theorem merge_fu (s : State) (c : Commit) (l : LoadOut) (st : StoreOut)
    (i : IssueOut) (r : Option IRec) (msgs : List Msg) : (merge s c l st i r msgs).fu = 
      ⟨(stepAdd s).stage, (stepCmp s).stage, (stepLog s).stage, (stepShf s).stage⟩ := rfl
@[simp] theorem merge_lq (s : State) (c : Commit) (l : LoadOut) (st : StoreOut)
    (i : IssueOut) (r : Option IRec) (msgs : List Msg) : (merge s c l st i r msgs).lq = l.lq := rfl
@[simp] theorem merge_sq (s : State) (c : Commit) (l : LoadOut) (st : StoreOut)
    (i : IssueOut) (r : Option IRec) (msgs : List Msg) : (merge s c l st i r msgs).sq = st.sq := rfl
@[simp] theorem merge_ldst (s : State) (c : Commit) (l : LoadOut) (st : StoreOut)
    (i : IssueOut) (r : Option IRec) (msgs : List Msg) : (merge s c l st i r msgs).ldst = l.ldst := rfl
@[simp] theorem merge_stst (s : State) (c : Commit) (l : LoadOut) (st : StoreOut)
    (i : IssueOut) (r : Option IRec) (msgs : List Msg) : (merge s c l st i r msgs).stst = st.stst := rfl
@[simp] theorem merge_rob (s : State) (c : Commit) (l : LoadOut) (st : StoreOut)
    (i : IssueOut) (r : Option IRec) (msgs : List Msg) : (merge s c l st i r msgs).rob = c.rob := rfl
@[simp] theorem merge_bus (s : State) (c : Commit) (l : LoadOut) (st : StoreOut)
    (i : IssueOut) (r : Option IRec) (msgs : List Msg) : (merge s c l st i r msgs).bus = msgs := rfl
@[simp] theorem merge_full (s : State) (c : Commit) (l : LoadOut) (st : StoreOut)
    (i : IssueOut) (r : Option IRec) (msgs : List Msg) : (merge s c l st i r msgs).full = s.full := rfl
@[simp] theorem merge_pred (s : State) (c : Commit) (l : LoadOut) (st : StoreOut)
    (i : IssueOut) (r : Option IRec) (msgs : List Msg) : (merge s c l st i r msgs).pred = c.pred := rfl
@[simp] theorem merge_status (s : State) (c : Commit) (l : LoadOut) (st : StoreOut)
    (i : IssueOut) (r : Option IRec) (msgs : List Msg) : (merge s c l st i r msgs).status = s.status := rfl

end Sys2Proof.Machine
end

