-- ==== Sys2Proof/Laws/Units.lean ====
section
/-! SUPPORT. What the shared operations of the units can do, once for each: insertion and dispatch of a
reservation bank, the stage step, the wakeups, the bus, the units of Execute. Later proofs cite these and
do not unfold the operations. -/

namespace Sys2Proof.Machine

/-! ## Insertion into a bank (42_reservation_stations.md R203) -/

/-- Insertion fails exactly where no slot is free. -/
theorem insertFree_eq_none_iff {α : Type} {e : α} {bank : List (Option α)} :
    insertFree e bank = none ↔ none ∉ bank := by
  induction bank with
  | nil => simp [insertFree]
  | cons c rest ih => cases c <;> simp [insertFree, ih]

/-- Insertion fills the free slot with the lowest index and changes no other slot. -/
theorem insertFree_eq_some {α : Type} {e : α} {bank b : List (Option α)}
    (h : insertFree e bank = some b) :
    ∃ k, bank[k]? = some none ∧ (∀ j < k, bank[j]? ≠ some none) ∧ b = bank.set k (some e) := by
  induction bank generalizing b with
  | nil => simp [insertFree] at h
  | cons c rest ih =>
    cases c with
    | none =>
      simp only [insertFree, Option.some.injEq] at h
      exact ⟨0, rfl, by simp, h.symm⟩
    | some x =>
      simp only [insertFree, Option.map_eq_some_iff] at h
      obtain ⟨b', hb', rfl⟩ := h
      obtain ⟨k, hk, hlow, rfl⟩ := ih hb'
      refine ⟨k + 1, by simpa using hk, fun j hj => ?_, by simp⟩
      cases j with
      | zero => simp
      | succ j => simpa using hlow j (by omega)

/-- Insertion keeps the number of slots. -/
theorem insertFree_length {α : Type} {e : α} {bank b : List (Option α)}
    (h : insertFree e bank = some b) : b.length = bank.length := by
  obtain ⟨k, -, -, rfl⟩ := insertFree_eq_some h
  simp

/-! ## Dispatch from a bank (R207, R209) -/

/-- Nothing is dispatched exactly where no entry is ready. -/
theorem takeReady_eq_none_iff {α : Type} {bank : List (Option (RSEntry α))} :
    takeReady bank = none ↔ ∀ e, some e ∈ bank → e.ready = none := by
  induction bank with
  | nil => simp [takeReady]
  | cons c rest ih =>
    cases c with
    | none => simp [takeReady, ih]
    | some e =>
      cases hr : e.ready with
      | none => simp [takeReady, hr, ih]
      | some r =>
        simp only [takeReady, hr, reduceCtorEq, List.mem_cons, false_iff, not_forall]
        exact ⟨e, .inl rfl, by simp [hr]⟩

/-- What is dispatched is the ready entry with the lowest slot index, whose slot becomes free. -/
theorem takeReady_eq_some {α : Type} {bank b : List (Option (RSEntry α))} {r : Ready α}
    (h : takeReady bank = some (r, b)) :
    ∃ k e, bank[k]? = some (some e) ∧ e.ready = some r ∧
      (∀ j < k, ∀ e', bank[j]? = some (some e') → e'.ready = none) ∧ b = bank.set k none := by
  induction bank generalizing b with
  | nil => simp [takeReady] at h
  | cons c rest ih =>
    cases c with
    | none =>
      simp only [takeReady, Option.map_eq_some_iff, Prod.mk.injEq] at h
      obtain ⟨⟨r', b'⟩, hb, rfl, rfl⟩ := h
      obtain ⟨k, e, hk, hr, hlow, rfl⟩ := ih hb
      refine ⟨k + 1, e, by simpa using hk, hr, fun j hj e' he' => ?_, by simp⟩
      cases j with
      | zero => simp at he'
      | succ j => exact hlow j (by omega) e' (by simpa using he')
    | some e =>
      cases hr : e.ready with
      | some r' =>
        simp only [takeReady, hr, Option.some.injEq, Prod.mk.injEq] at h
        obtain ⟨rfl, rfl⟩ := h
        exact ⟨0, e, rfl, hr, by simp, by simp⟩
      | none =>
        simp only [takeReady, hr, Option.map_eq_some_iff, Prod.mk.injEq] at h
        obtain ⟨⟨r', b'⟩, hb, rfl, rfl⟩ := h
        obtain ⟨k, e2, hk, hr2, hlow, rfl⟩ := ih hb
        refine ⟨k + 1, e2, by simpa using hk, hr2, fun j hj e' he' => ?_, by simp⟩
        cases j with
        | zero =>
          simp only [List.getElem?_cons_zero, Option.some.injEq] at he'
          subst he'
          exact hr
        | succ j => exact hlow j (by omega) e' (by simpa using he')

/-- Dispatch keeps the number of slots. -/
theorem takeReady_length {α : Type} {bank b : List (Option (RSEntry α))} {r : Ready α}
    (h : takeReady bank = some (r, b)) : b.length = bank.length := by
  obtain ⟨k, e, -, -, -, rfl⟩ := takeReady_eq_some h
  simp

/-- Dispatch leaves the slots that were free free. -/
theorem takeReady_keeps_free {α : Type} {bank b : List (Option (RSEntry α))} {r : Ready α}
    (h : takeReady bank = some (r, b)) (hn : none ∈ bank) : none ∈ b := by
  obtain ⟨k, e, hk, -, -, rfl⟩ := takeReady_eq_some h
  obtain ⟨j, hj⟩ := List.mem_iff_getElem?.mp hn
  refine List.mem_iff_getElem?.mpr ⟨j, ?_⟩
  have hjk : k ≠ j := by
    rintro rfl
    simp [hk] at hj
  rw [List.getElem?_set_ne hjk, hj]

/-! ## The stage step (43_addsub.md R231) -/

/-- A stage step and its dispatch, case by case. -/
theorem unitStep_cases {α : Type} (result : α → Word → Word → Word) (lat : Nat) (st : Stage α)
    (bank : List (Option (RSEntry α))) :
    (∃ rem op a b d, st = .busy rem op a b d ∧ 1 < rem ∧
      unitStep result lat st bank = ⟨.busy (rem - 1) op a b d, bank, []⟩) ∨
    (∃ rem op a b d, st = .busy rem op a b d ∧ ¬ 1 < rem ∧
      unitStep result lat st bank = ⟨.idle, bank, [⟨.writeBack, d, result op a b⟩]⟩) ∨
    (st = .idle ∧ takeReady bank = none ∧ unitStep result lat st bank = ⟨.idle, bank, []⟩) ∨
    (∃ r bank', st = .idle ∧ takeReady bank = some (r, bank') ∧
      unitStep result lat st bank = ⟨.busy lat r.op r.a r.b r.dest, bank', []⟩) := by
  cases st with
  | busy rem op a b d =>
    by_cases h : 1 < rem
    · exact .inl ⟨rem, op, a, b, d, rfl, h, by simp [unitStep, h]⟩
    · exact .inr (.inl ⟨rem, op, a, b, d, rfl, h, by simp [unitStep, h]⟩)
  | idle =>
    rcases hb : takeReady bank with _ | ⟨r, bank'⟩
    · exact .inr (.inr (.inl ⟨rfl, rfl, by simp [unitStep, hb]⟩))
    · exact .inr (.inr (.inr ⟨r, bank', rfl, rfl, by simp [unitStep, hb]⟩))

/-- A stage step keeps the number of slots of its bank. -/
theorem unitStep_length {α : Type} (result : α → Word → Word → Word) (lat : Nat) (st : Stage α)
    (bank : List (Option (RSEntry α))) : (unitStep result lat st bank).bank.length = bank.length := by
  rcases unitStep_cases result lat st bank with ⟨_, _, _, _, _, -, -, h⟩ | ⟨_, _, _, _, _, -, -, h⟩ |
    ⟨-, -, h⟩ | ⟨_, _, -, hb, h⟩ <;> rw [h]
  exact takeReady_length hb

/-- A stage step leaves the slots that were free free. -/
theorem unitStep_keeps_free {α : Type} (result : α → Word → Word → Word) (lat : Nat) (st : Stage α)
    {bank : List (Option (RSEntry α))} (hn : none ∈ bank) :
    none ∈ (unitStep result lat st bank).bank := by
  rcases unitStep_cases result lat st bank with ⟨_, _, _, _, _, -, -, h⟩ | ⟨_, _, _, _, _, -, -, h⟩ |
    ⟨-, -, h⟩ | ⟨_, _, -, hb, h⟩ <;> rw [h]
  · exact hn
  · exact hn
  · exact hn
  · exact takeReady_keeps_free hb hn

/-- A stage emits at most one message, and it is a WriteBack (40_clock_and_bus.md R146). -/
theorem unitStep_msgs {α : Type} (result : α → Word → Word → Word) (lat : Nat) (st : Stage α)
    (bank : List (Option (RSEntry α))) :
    (unitStep result lat st bank).msgs = [] ∨
      ∃ d v, (unitStep result lat st bank).msgs = [⟨.writeBack, d, v⟩] := by
  rcases unitStep_cases result lat st bank with ⟨_, _, _, _, _, -, -, h⟩ | ⟨_, _, _, _, _, -, -, h⟩ |
    ⟨-, -, h⟩ | ⟨_, _, -, -, h⟩ <;> rw [h]
  · exact .inl rfl
  · exact .inr ⟨_, _, rfl⟩
  · exact .inl rfl
  · exact .inl rfl

/-! ## The load-store bank (R210, 47_load_store.md R331) -/

/-- The LS bank dispatches the first ready entry, or nothing. -/
theorem dispatchLs_cases (f : State) :
    (takeReady f.rs.ls = none ∧ dispatchLs f = (f.rs.ls, [])) ∨
    (∃ r bank, takeReady f.rs.ls = some (r, bank) ∧ dispatchLs f = (bank, dispatchMsgs r)) := by
  rcases hb : takeReady f.rs.ls with _ | ⟨r, bank⟩
  · exact .inl ⟨rfl, by simp [dispatchLs, hb]⟩
  · exact .inr ⟨r, bank, rfl, by simp [dispatchLs, hb]⟩

theorem dispatchLs_length (f : State) : (dispatchLs f).1.length = f.rs.ls.length := by
  rcases dispatchLs_cases f with ⟨-, h⟩ | ⟨r, bank, hb, h⟩ <;> rw [h]
  exact takeReady_length hb

theorem dispatchLs_keeps_free {f : State} (hn : none ∈ f.rs.ls) : none ∈ (dispatchLs f).1 := by
  rcases dispatchLs_cases f with ⟨-, h⟩ | ⟨r, bank, hb, h⟩ <;> rw [h]
  · exact hn
  · exact takeReady_keeps_free hb hn

/-- At most two messages, of the kinds GetAddr and WriteBack. -/
theorem dispatchMsgs_cases (r : Ready LsOp) :
    (∃ o, r.op = .load o ∧ dispatchMsgs r = [⟨.getAddr, r.dest, r.a + r.b⟩]) ∨
    (∃ o, r.op = .store o ∧
      dispatchMsgs r = [⟨.getAddr, r.dest, r.a + r.imm⟩, ⟨.writeBack, r.dest, r.b⟩]) := by
  cases h : r.op with
  | load o => exact .inl ⟨o, rfl, by simp [dispatchMsgs, effectiveAddress, h]⟩
  | store o => exact .inr ⟨o, rfl, by simp [dispatchMsgs, effectiveAddress, h]⟩

theorem dispatchLs_msgs_length (f : State) : (dispatchLs f).2.length ≤ 2 := by
  rcases dispatchLs_cases f with ⟨-, h⟩ | ⟨r, bank, -, h⟩ <;> rw [h]
  · simp
  · rcases dispatchMsgs_cases r with ⟨o, -, h⟩ | ⟨o, -, h⟩ <;> simp [h]

/-! ## Wakeup (R205, R206) -/

/-- The bus answers the first WriteBack or CommitReg for an index. -/
theorem busValue_eq_none_iff {bus : List Msg} {q : Nat} :
    busValue bus q = none ↔
      ∀ m ∈ bus, (m.kind = .writeBack ∨ m.kind = .commitReg) → m.idx ≠ q := by
  induction bus with
  | nil => simp [busValue]
  | cons m ms ih =>
    by_cases h : (m.kind = .writeBack ∨ m.kind = .commitReg) ∧ m.idx = q
    · simp [busValue, h]
    · rw [busValue, if_neg h, ih]
      simp only [not_and] at h
      simp only [List.mem_cons, forall_eq_or_imp]
      exact ⟨fun hm => ⟨h, hm⟩, And.right⟩

/-- What the bus answers is the data of such a message. -/
theorem busValue_eq_some {bus : List Msg} {q : Nat} {v : Word} (h : busValue bus q = some v) :
    ∃ m ∈ bus, (m.kind = .writeBack ∨ m.kind = .commitReg) ∧ m.idx = q ∧ m.data = v := by
  induction bus with
  | nil => simp [busValue] at h
  | cons m ms ih =>
    by_cases hm : (m.kind = .writeBack ∨ m.kind = .commitReg) ∧ m.idx = q
    · rw [busValue, if_pos hm, Option.some.injEq] at h
      exact ⟨m, List.mem_cons_self, hm.1, hm.2, h⟩
    · rw [busValue, if_neg hm] at h
      obtain ⟨m', hm', rest⟩ := ih h
      exact ⟨m', List.mem_cons_of_mem _ hm', rest⟩

/-- Wakeup keeps the number of slots and which of them are free. -/
@[simp] theorem wakeBank_length {α : Type} (bus : List Msg) (bank : List (Option (RSEntry α))) :
    (wakeBank bus bank).length = bank.length := by
  simp [wakeBank]

theorem none_mem_wakeBank {α : Type} {bus : List Msg} {bank : List (Option (RSEntry α))} :
    none ∈ wakeBank bus bank ↔ none ∈ bank := by
  simp [wakeBank]

/-- A bank is full exactly where no slot is free (R212). -/
theorem bankFull_eq_false_iff {α : Type} {bank : List (Option α)} : bankFull bank = false ↔ none ∈ bank := by
  induction bank with
  | nil => simp [bankFull]
  | cons c rest ih =>
    simp only [bankFull] at ih ⊢
    cases c <;> simp [ih]

/-! ## Commit (48_reorder_commit.md R385 to R393) -/

/-- What commit can do: nothing, or one of the five commits of the head. -/
theorem commit_cases {f : State} {c : Commit} (h : commit f = .ok c) :
    (f.rob.entries = [] ∧ c = Commit.nothing f) ∨
    (∃ e rest, f.rob.entries = e :: rest ∧ e.state = .issue ∧ c = Commit.nothing f) ∨
    (∃ e rest, f.rob.entries = e :: rest ∧ e.state = .waitSt ∧ e.isStore = true ∧ c = Commit.nothing f) ∨
    (∃ e rest, f.rob.entries = e :: rest ∧ e.state = .write ∧ c = commitHead f e) := by
  unfold commit at h
  split at h
  · cases h
    exact .inl ⟨‹_›, rfl⟩
  · rename_i e rest he
    split at h
    · cases h
      exact .inr (.inl ⟨e, rest, he, ‹_›, rfl⟩)
    · cases h
    · cases h
      exact .inr (.inr (.inr ⟨e, rest, he, ‹_›, rfl⟩))
    · split at h
      · cases h
        exact .inr (.inr (.inl ⟨e, rest, he, ‹_›, ‹_›, rfl⟩))
      · cases h

/-- The commit of the head, by the entry's instruction. -/
theorem commitHead_cases (f : State) (e : RobEntry) :
    (e.instr.isHalt = true ∧ commitHead f e = commitHalt f) ∨
    (e.instr.isHalt = false ∧ e.instr.op = some (.add .jalr) ∧ commitHead f e = commitJalr f e) ∨
    (e.instr.isHalt = false ∧ (∃ o : CmpOp, e.instr.op = some (.cmp o) ∧ o.isBranch = true) ∧
      commitHead f e = commitBranch f e) ∨
    (e.instr.isHalt = false ∧ e.isStore = true ∧ commitHead f e = commitStore f e) ∨
    (e.instr.isHalt = false ∧ e.instr.op ≠ some (.add .jalr) ∧
      (∀ o : CmpOp, e.instr.op = some (.cmp o) → o.isBranch = false) ∧ e.isStore = false ∧
      commitHead f e = commitResult f e) := by
  unfold commitHead RobEntry.isStore
  cases hh : e.instr.isHalt
  · simp only [Bool.false_eq_true, if_false]
    rcases ho : e.instr.op with _ | (a | c | l | s | m)
    · simp
    · cases a <;> simp
    · cases c <;> simp [CmpOp.isBranch]
    · simp
    · simp
    · cases m <;> simp
  · simp

/-- At most one message, a CommitReg or a CommitMem of the head (40_clock_and_bus.md R146). -/
theorem commit_msgs {f : State} {c : Commit} (h : commit f = .ok c) :
    c.msgs = [] ∨ (∃ v, c.msgs = [⟨.commitReg, f.rob.head, v⟩]) ∨
      (∃ v, c.msgs = [⟨.commitMem, f.rob.head, v⟩]) := by
  rcases commit_cases h with ⟨-, rfl⟩ | ⟨e, -, -, -, rfl⟩ | ⟨e, -, -, -, -, rfl⟩ | ⟨e, -, -, -, rfl⟩
  · exact .inl rfl
  · exact .inl rfl
  · exact .inl rfl
  · rcases commitHead_cases f e with ⟨-, h⟩ | ⟨-, -, h⟩ | ⟨-, -, h⟩ | ⟨-, -, h⟩ | ⟨-, -, -, -, h⟩ <;> rw [h]
    · exact .inl rfl
    · exact .inr (.inl ⟨_, rfl⟩)
    · exact .inl rfl
    · exact .inr (.inr ⟨_, rfl⟩)
    · exact .inr (.inl ⟨_, rfl⟩)

/-! ## The load stage (47_load_store.md R338 to R340) -/

/-- What the load stage can do: count, complete, start the head load, or nothing. -/
theorem loadStage_cases {f : State} {l : LoadOut} (h : loadStage f = .ok l) :
    (∃ rem e, f.ldst = .busy rem e ∧ 1 < rem ∧ l = ⟨.busy (rem - 1) e, f.lq, []⟩) ∨
    (∃ rem e v, f.ldst = .busy rem e ∧ ¬ 1 < rem ∧ loadValue f.mem f.cfg.memSize e.op e.addr = some v ∧
      l = ⟨.idle, f.lq, [⟨.writeBack, e.dest, v⟩]⟩) ∨
    (∃ e rest, f.ldst = .idle ∧ f.lq = e :: rest ∧ (e.ready && noOlderStore f e) = true ∧
      l = ⟨.busy f.cfg.latLoad e, rest, []⟩) ∨
    (f.ldst = .idle ∧ (∀ e rest, f.lq = e :: rest → (e.ready && noOlderStore f e) = false) ∧
      l = ⟨.idle, f.lq, []⟩) := by
  unfold loadStage at h
  split at h
  · rename_i rem e hl
    split at h
    · cases h
      exact .inl ⟨rem, e, hl, ‹_›, rfl⟩
    · split at h
      · cases h
        exact .inr (.inl ⟨rem, e, _, hl, ‹_›, ‹_›, rfl⟩)
      · cases h
  · rename_i hl
    split at h
    · rename_i hq
      cases h
      exact .inr (.inr (.inr ⟨hl, by simp [hq], by rw [hq]⟩))
    · rename_i e rest hq
      split at h
      · cases h
        exact .inr (.inr (.inl ⟨e, rest, hl, hq, ‹_›, rfl⟩))
      · rename_i hn
        cases h
        refine .inr (.inr (.inr ⟨hl, fun e' rest' h' => ?_, by rw [hq]⟩))
        rw [hq] at h'
        cases h'
        simpa using hn

/-- The load stage's one abort is the out-of-range read of a completing load (20_memory.md R75). -/
theorem loadStage_error {f : State} {a : Abort} (h : loadStage f = .error a) :
    ∃ rem e, f.ldst = .busy rem e ∧ ¬ 1 < rem ∧ loadValue f.mem f.cfg.memSize e.op e.addr = none ∧
      a = .memoryOutOfRange e.addr e.op.width .load f.cycle := by
  unfold loadStage at h
  split at h
  · rename_i rem e hl
    split at h
    · cases h
    · split at h
      · cases h
      · cases h
        exact ⟨rem, e, hl, ‹_›, ‹_›, rfl⟩
  · split at h
    · cases h
    · split at h <;> cases h

/-! ## The store stage (47_load_store.md R344, R345) -/

/-- What the store stage can do: count, complete, start the committed head store, or nothing. -/
theorem storeStage_cases {f : State} {o : StoreOut} (h : storeStage f = .ok o) :
    (∃ rem, f.stst = .busy rem ∧ 1 < rem ∧ o = ⟨.busy (rem - 1), f.sq, f.mem, []⟩) ∨
    (∃ rem e rest m, f.stst = .busy rem ∧ ¬ 1 < rem ∧ f.sq = e :: rest ∧
      memWrite f.mem f.cfg.memSize e.addr e.op.width e.data = some m ∧
      o = ⟨.idle, rest, m, [⟨.storeSuccess, e.dest, 0⟩]⟩) ∨
    (∃ e rest, f.stst = .idle ∧ f.sq = e :: rest ∧ e.committed = true ∧
      o = ⟨.busy f.cfg.latStore, f.sq, f.mem, []⟩) ∨
    (f.stst = .idle ∧ (∀ e rest, f.sq = e :: rest → e.committed = false) ∧
      o = ⟨.idle, f.sq, f.mem, []⟩) := by
  unfold storeStage at h
  split at h
  · rename_i rem hs
    split at h
    · cases h
      exact .inl ⟨rem, hs, ‹_›, rfl⟩
    · split at h
      · cases h
      · rename_i e rest hq
        split at h
        · cases h
          exact .inr (.inl ⟨rem, e, rest, _, hs, ‹_›, hq, ‹_›, rfl⟩)
        · cases h
  · rename_i hs
    split at h
    · rename_i hq
      cases h
      exact .inr (.inr (.inr ⟨hs, by simp [hq], by rw [hq]⟩))
    · rename_i e rest hq
      split at h
      · cases h
        exact .inr (.inr (.inl ⟨e, rest, hs, hq, ‹_›, by rw [hq]⟩))
      · rename_i hn
        cases h
        refine .inr (.inr (.inr ⟨hs, fun e' rest' h' => ?_, by rw [hq]⟩))
        rw [hq] at h'
        cases h'
        simpa using hn

/-- The store stage's aborts. -/
theorem storeStage_error {f : State} {a : Abort} (h : storeStage f = .error a) :
    ∃ rem, f.stst = .busy rem ∧ ¬ 1 < rem ∧
      ((f.sq = [] ∧ a = .protocolViolation .storeStageWithoutHead f.cycle) ∨
       (∃ e rest, f.sq = e :: rest ∧ memWrite f.mem f.cfg.memSize e.addr e.op.width e.data = none ∧
         a = .memoryOutOfRange e.addr e.op.width .store f.cycle)) := by
  unfold storeStage at h
  split at h
  · rename_i rem hs
    split at h
    · cases h
    · refine ⟨rem, hs, ‹_›, ?_⟩
      split at h
      · cases h
        exact .inl ⟨‹_›, rfl⟩
      · rename_i e rest hq
        split at h
        · cases h
        · cases h
          exact .inr ⟨e, rest, hq, ‹_›, rfl⟩
  · split at h
    · cases h
    · split at h <;> cases h

/-! ## Issue (41_issue_unit.md R170 to R177) -/

/-- What issue can do: hand the head over, or hold. -/
theorem issue_cases {f : State} {o : IssueOut} (h : issue f = .ok o) :
    (f.iq = [] ∧ o = ⟨[], none, none⟩) ∨
    (∃ i rest op, f.iq = i :: rest ∧ i.op = some op ∧ issueGate f op = true ∧
      o = ⟨rest, some (latchOf f i op), i.rd.map fun d => (d, f.robTail)⟩) ∨
    (∃ i rest op, f.iq = i :: rest ∧ i.op = some op ∧ issueGate f op = false ∧
      o = ⟨f.iq, none, none⟩) := by
  unfold issue at h
  split at h
  · cases h
    exact .inl ⟨‹_›, rfl⟩
  · rename_i i rest hq
    split at h
    · cases h
    · rename_i op ho
      split at h
      · cases h
        exact .inr (.inl ⟨i, rest, op, hq, ho, ‹_›, rfl⟩)
      · rename_i hg
        cases h
        exact .inr (.inr ⟨i, rest, op, hq, ho, by simpa using hg, by rw [hq]⟩)

/-- Issue aborts exactly on an INVALID head (R171). -/
theorem issue_error {f : State} {a : Abort} (h : issue f = .error a) :
    ∃ i rest, f.iq = i :: rest ∧ i.op = none ∧ a = .unclassifiable i.word i.pc f.cycle := by
  unfold issue at h
  split at h
  · cases h
  · rename_i i rest hq
    split at h
    · cases h
      exact ⟨i, rest, hq, ‹_›, rfl⟩
    · split at h <;> cases h

/-! ## Fetch (R160, R161) -/

/-- What fetch can do. -/
theorem fetch_cases {port : FetchPort} {f : State} {r : Option IRec} (h : fetch port f = .ok r) :
    (fetchGate f = true ∧ ∃ i, port f = .ok i ∧ r = some i) ∨ (fetchGate f = false ∧ r = none) := by
  unfold fetch at h
  split at h
  · split at h
    · cases h
      exact .inl ⟨‹_›, _, ‹_›, rfl⟩
    · cases h
  · rename_i hg
    cases h
    exact .inr ⟨by simpa using hg, rfl⟩

/-- With the gate closed the port is not read. -/
theorem fetch_of_closed {port : FetchPort} {f : State} (h : fetchGate f = false) : fetch port f = .ok none := by
  unfold fetch
  simp [h]

end Sys2Proof.Machine
end

