-- ==== Sys2Proof/Laws/Tick.lean ====
section
/-! SUPPORT. What a phase and a tick can do, said once: inversion of Execute, of Flush and of the tick,
and the parts of the state that Flush leaves alone (40_clock_and_bus.md R130 to R133). -/

namespace Sys2Proof.Machine

/-! ## Execute -/

/-- A completed Execute: every unit answered, the bus held the messages, and the next state is their merge. -/
theorem execute_eq_ok_iff {port : FetchPort} {f t : State} :
    execute port f = .ok t ↔
      ∃ c l st i r, commit f = .ok c ∧ loadStage f = .ok l ∧ storeStage f = .ok st ∧ issue f = .ok i ∧
        fetch port f = .ok r ∧ (emitted f c l st).length ≤ f.cfg.busCap ∧
        t = merge f c l st i r (emitted f c l st) := by
  unfold execute
  rcases hc : commit f with a | c <;> simp [bind, Except.bind]
  rcases hl : loadStage f with a | l <;> simp
  rcases hs : storeStage f with a | st <;> simp
  rcases hi : issue f with a | i <;> simp
  rcases hr : fetch port f with a | r <;> simp
  by_cases hb : f.cfg.busCap < (emitted f c l st).length
  · simp [hb, throw, throwThe, MonadExceptOf.throw, Nat.not_le.mpr hb]
  · simp [hb, pure, Except.pure, Nat.not_lt.mp hb, eq_comm]

/-- An abandoned Execute: the first unit that aborts, in the order of 60_exceptions.md R428. -/
theorem execute_eq_error {port : FetchPort} {f : State} {a : Abort} (h : execute port f = .error a) :
    commit f = .error a ∨
    (∃ c, commit f = .ok c) ∧
      (loadStage f = .error a ∨
      (∃ l, loadStage f = .ok l) ∧
        (storeStage f = .error a ∨
        (∃ st, storeStage f = .ok st) ∧
          (issue f = .error a ∨
          (∃ i, issue f = .ok i) ∧
            (fetch port f = .error a ∨
            (∃ r, fetch port f = .ok r) ∧
              ∃ c l st, commit f = .ok c ∧ loadStage f = .ok l ∧ storeStage f = .ok st ∧
                f.cfg.busCap < (emitted f c l st).length ∧ a = .structuralOverflow .bus f.cycle)))) := by
  unfold execute at h
  rcases hc : commit f with b | c <;> simp [hc, bind, Except.bind] at h ⊢
  · exact h
  rcases hl : loadStage f with b | l <;> simp [hl] at h ⊢
  · exact h
  rcases hs : storeStage f with b | st <;> simp [hs] at h ⊢
  · exact h
  rcases hi : issue f with b | i <;> simp [hi] at h ⊢
  · exact h
  rcases hr : fetch port f with b | r <;> simp [hr] at h ⊢
  · exact h
  split at h
  · simp only [throw, throwThe, MonadExceptOf.throw, Except.error.injEq] at h
    exact ⟨‹_›, h.symm⟩
  · simp [pure, Except.pure] at h

/-! ## Flush -/

/-- The reactions to the bus, one unit at a time, leave a completed Flush's parts to be read off. -/
theorem flushUnits_eq_ok {s s' : State} (h : flushUnits s = .ok s') :
    ∃ s1 s2 s3 s4 s5 s6 s7, absorbAll onWriteBack s s.bus = .ok s1 ∧
      absorbAll onStoreSuccess s1 s.bus = .ok s2 ∧ insertRob s2 = .ok s3 ∧ insertLsb s3 = .ok s4 ∧
      absorbAll onGetAddr s4 s.bus = .ok s5 ∧ absorbAll onCommitMem s5 s.bus = .ok s6 ∧
      insertRs s6 = .ok s7 ∧ s' = clearLatchAndBus (wakeAll s7) := by
  unfold flushUnits at h
  rcases h1 : absorbAll onWriteBack s s.bus with a | s1 <;> simp [h1, bind, Except.bind] at h
  rcases h2 : absorbAll onStoreSuccess s1 s.bus with a | s2 <;> simp [h2] at h
  rcases h3 : insertRob s2 with a | s3 <;> simp [h3] at h
  rcases h4 : insertLsb s3 with a | s4 <;> simp [h4] at h
  rcases h5 : absorbAll onGetAddr s4 s.bus with a | s5 <;> simp [h5] at h
  rcases h6 : absorbAll onCommitMem s5 s.bus with a | s6 <;> simp [h6] at h
  rcases h7 : insertRs s6 with a | s7 <;> simp [h7, pure, Except.pure] at h
  exact ⟨s1, s2, s3, s4, s5, s6, s7, rfl, h2, h3, h4, h5, h6, h7, h.symm⟩

/-- A completed Flush is the squash, or the units' steps with the flags recomputed. -/
theorem flush_eq_ok {s f : State} (h : flush s = .ok f) :
    (s.clear = true ∧ f = setFull (squash s)) ∨
    (s.clear = false ∧ ∃ s', flushUnits s = .ok s' ∧ f = setFull s') := by
  unfold flush at h
  split at h
  · cases h
    exact .inl ⟨‹_›, rfl⟩
  · rename_i hc
    rcases hu : flushUnits s with a | s' <;> simp [hu, bind, Except.bind, pure, Except.pure] at h
    exact .inr ⟨by simpa using hc, s', rfl, h.symm⟩

/-- Something every single reaction keeps is kept by the whole bus. -/
theorem absorbAll_induct {g : State → Msg → Except Abort State} {P : State → Prop}
    (hg : ∀ s m s', P s → g s m = .ok s' → P s') {s s' : State} {ms : List Msg} (hs : P s)
    (h : absorbAll g s ms = .ok s') : P s' := by
  induction ms generalizing s with
  | nil =>
    cases h
    exact hs
  | cons m ms ih =>
    rw [absorbAll] at h
    split at h
    · exact ih (hg _ _ _ hs ‹_›) h
    · cases h

/-- The same, where what is kept may depend on the message being on the bus. -/
theorem absorbAll_induct_mem {g : State → Msg → Except Abort State} {P : State → Prop} {ms : List Msg}
    (hg : ∀ s, ∀ m ∈ ms, ∀ s', P s → g s m = .ok s' → P s') {s s' : State} (hs : P s)
    (h : absorbAll g s ms = .ok s') : P s' := by
  induction ms generalizing s with
  | nil =>
    cases h
    exact hs
  | cons m ms ih =>
    rw [absorbAll] at h
    split at h
    · exact ih (fun s n hn => hg s n (List.mem_cons_of_mem _ hn)) (hg _ _ List.mem_cons_self _ hs ‹_›) h
    · cases h

/-- An aborted absorption: some message, met in a state that the earlier ones led to. -/
theorem absorbAll_error {g : State → Msg → Except Abort State} {P : State → Prop}
    (hg : ∀ s m s', P s → g s m = .ok s' → P s') {s : State} {ms : List Msg} {a : Abort} (hs : P s)
    (h : absorbAll g s ms = .error a) : ∃ s' m, P s' ∧ m ∈ ms ∧ g s' m = .error a := by
  induction ms generalizing s with
  | nil => cases h
  | cons m ms ih =>
    rw [absorbAll] at h
    split at h
    · obtain ⟨s', m', hs', hm, he⟩ := ih (hg _ _ _ hs ‹_›) h
      exact ⟨s', m', hs', List.mem_cons_of_mem _ hm, he⟩
    · cases h
      exact ⟨s, m, hs, List.mem_cons_self, ‹_›⟩

/-! ### One reaction each -/

/-- WriteBack absorb (48_reorder_commit.md R383). -/
theorem onWriteBack_eq_ok {s s' : State} {m : Msg} (h : onWriteBack s m = .ok s') :
    (m.kind ≠ .writeBack ∧ s' = s) ∨
    (m.kind = .writeBack ∧ ∃ e, s.robAt m.idx = some e ∧
      s' = s.robModify m.idx fun e => { e with state := .write, value := m.data }) := by
  unfold onWriteBack at h
  split at h
  · split at h
    · cases h
      exact .inr ⟨‹_›, _, ‹_›, rfl⟩
    · cases h
  all_goals
    rename_i hk
    cases h
    exact .inl ⟨by simp [hk], rfl⟩

/-- StoreSuccess absorb (R384). -/
theorem onStoreSuccess_eq_ok {s s' : State} {m : Msg} (h : onStoreSuccess s m = .ok s') :
    (m.kind ≠ .storeSuccess ∧ s' = s) ∨
    (m.kind = .storeSuccess ∧ m.idx = s.rob.head ∧
      (∃ e rest, s.rob.entries = e :: rest ∧ e.state = .waitSt) ∧
      s' = { s with rob := s.rob.retire s.cfg.robCap }) := by
  unfold onStoreSuccess at h
  split at h
  · split at h
    · rename_i hk hw
      cases h
      refine .inr ⟨hk, ?_, ?_, rfl⟩ <;> unfold headAwaitsStore at hw
      · split at hw <;> simp_all
      · split at hw
        · cases hw
        · rename_i e rest he
          exact ⟨e, rest, he, by simpa using (Bool.and_eq_true_iff.mp hw).2⟩
    · cases h
  all_goals
    rename_i hk
    cases h
    exact .inl ⟨by simp [hk], rfl⟩

/-- GetAddr absorb (47_load_store.md R334). -/
theorem onGetAddr_eq_ok {s s' : State} {m : Msg} (h : onGetAddr s m = .ok s') :
    (m.kind ≠ .getAddr ∧ s' = s) ∨
    (m.kind = .getAddr ∧ lsbMatches s m.idx = 1 ∧
      s' = { s with
        lq := s.lq.map (LoadEntry.resolve m.idx m.data)
        sq := s.sq.map (StoreEntry.resolve m.idx m.data) }) := by
  unfold onGetAddr at h
  split at h
  · split at h
    · cases h
      exact .inr ⟨‹_›, ‹_›, rfl⟩
    · cases h
  all_goals
    rename_i hk
    cases h
    exact .inl ⟨by simp [hk], rfl⟩

/-- CommitMem absorb (47_load_store.md R335). -/
theorem onCommitMem_eq_ok {s s' : State} {m : Msg} (h : onCommitMem s m = .ok s') :
    (m.kind ≠ .commitMem ∧ s' = s) ∨
    (m.kind = .commitMem ∧ ∃ e rest, s.sq = e :: rest ∧ e.dest = m.idx ∧ e.ready = true ∧
      s' = { s with sq := { e with committed := true, data := m.data } :: rest }) := by
  unfold onCommitMem at h
  split at h
  · split at h
    · split at h
      · rename_i hk _ e rest hq hr
        cases h
        exact .inr ⟨hk, e, rest, hq, hr.1, hr.2, rfl⟩
      · cases h
    · cases h
  all_goals
    rename_i hk
    cases h
    exact .inl ⟨by simp [hk], rfl⟩

/-- Insertion into the reorder buffer (48_reorder_commit.md R381). -/
theorem insertRob_eq_ok {s s' : State} (h : insertRob s = .ok s') :
    (s.latch = none ∧ s' = s) ∨
    (∃ l, s.latch = some l ∧ s.rob.entries.length < s.cfg.robCap ∧
      s' = { s with rob := { s.rob with entries := s.rob.entries ++ [l.robEntry] } }) := by
  unfold insertRob at h
  split at h
  · cases h
    exact .inl ⟨‹_›, rfl⟩
  · split at h
    · cases h
      exact .inr ⟨_, ‹_›, ‹_›, rfl⟩
    · cases h

/-- Insertion into the load/store buffer (47_load_store.md R332, R333). -/
theorem insertLsb_eq_ok {s s' : State} (h : insertLsb s = .ok s') :
    ((s.latch = none ∨ ∃ l, s.latch = some l ∧ l.lsbEntry = none) ∧ s' = s) ∨
    (∃ l e, s.latch = some l ∧ l.lsbEntry = some (.load e) ∧ s.lq.length < s.cfg.lqCap ∧
      s' = { s with lq := s.lq ++ [{ e with ts := s.cycle, ready := false }] }) ∨
    (∃ l e, s.latch = some l ∧ l.lsbEntry = some (.store e) ∧ s.sq.length < s.cfg.sqCap ∧
      s' = { s with sq := s.sq ++ [{ e with ts := s.cycle, ready := false, committed := false }] }) := by
  unfold insertLsb at h
  split at h
  · cases h
    exact .inl ⟨.inl ‹_›, rfl⟩
  · rename_i l hl
    split at h
    · cases h
      exact .inl ⟨.inr ⟨l, hl, ‹_›⟩, rfl⟩
    · split at h
      · cases h
        exact .inr (.inl ⟨l, _, hl, ‹_›, ‹_›, rfl⟩)
      · cases h
    · split at h
      · cases h
        exact .inr (.inr ⟨l, _, hl, ‹_›, ‹_›, rfl⟩)
      · cases h

/-- Insertion into the reservation stations: one bank gets the latched entry, or none does
(42_reservation_stations.md R203). -/
theorem insertRs_eq_ok {s s' : State} (h : insertRs s = .ok s') :
    (s.latch = none ∧ s' = s) ∨
    (∃ l, s.latch = some l ∧
      ((∃ o b, l.rsEntry.op = .add o ∧ insertFree ((arriving s l.rsEntry).withOp o) s.rs.add = some b ∧
          s' = { s with rs := { s.rs with add := b } }) ∨
       (∃ o b, l.rsEntry.op = .cmp o ∧ insertFree ((arriving s l.rsEntry).withOp o) s.rs.cmp = some b ∧
          s' = { s with rs := { s.rs with cmp := b } }) ∨
       (∃ o b, l.rsEntry.op = .log o ∧ insertFree ((arriving s l.rsEntry).withOp o) s.rs.log = some b ∧
          s' = { s with rs := { s.rs with log := b } }) ∨
       (∃ o b, l.rsEntry.op = .shf o ∧ insertFree ((arriving s l.rsEntry).withOp o) s.rs.shf = some b ∧
          s' = { s with rs := { s.rs with shf := b } }) ∨
       (∃ o b, l.rsEntry.op = .ls o ∧ insertFree ((arriving s l.rsEntry).withOp o) s.rs.ls = some b ∧
          s' = { s with rs := { s.rs with ls := b } }))) := by
  unfold insertRs at h
  split at h
  · cases h
    exact .inl ⟨‹_›, rfl⟩
  · rename_i l hl
    refine .inr ⟨l, hl, ?_⟩
    split at h <;> split at h <;> cases h
    · exact .inl ⟨_, _, ‹_›, ‹_›, rfl⟩
    · exact .inr (.inl ⟨_, _, ‹_›, ‹_›, rfl⟩)
    · exact .inr (.inr (.inl ⟨_, _, ‹_›, ‹_›, rfl⟩))
    · exact .inr (.inr (.inr (.inl ⟨_, _, ‹_›, ‹_›, rfl⟩)))
    · exact .inr (.inr (.inr (.inr ⟨_, _, ‹_›, ‹_›, rfl⟩)))

/-! ## The tick -/

/-- A tick from a running state always answers; what it answers is `tick` (R130). -/
theorem tickOutcome_of_running {port : FetchPort} {s : State} (h : s.status = .running) :
    tickOutcome port s = .next (tick port s) := by
  unfold tickOutcome
  rw [h]

/-- A tick that answers came from a running state. -/
theorem tickOutcome_eq_next {port : FetchPort} {s t : State} (h : tickOutcome port s = .next t) :
    s.status = .running ∧ t = tick port s := by
  unfold tickOutcome at h
  split at h
  · cases h
    exact ⟨‹_›, rfl⟩
  · cases h
  · cases h

/-- The three ways a tick ends: the halt, an abort, or a completed Execute. -/
theorem tick_cases (port : FetchPort) (s : State) :
    (s.halt = true ∧ tick port s = haltedState s) ∨
    (s.halt = false ∧ ∃ a, flush s = .error a ∧ tick port s = s.abort a) ∨
    (s.halt = false ∧ ∃ f a, flush s = .ok f ∧ execute port f = .error a ∧ tick port s = f.abort a) ∨
    (s.halt = false ∧ ∃ f t, flush s = .ok f ∧ execute port f = .ok t ∧ tick port s = t) := by
  unfold tick
  cases hh : s.halt
  · rcases hf : flush s with a | f
    · exact .inr (.inl ⟨rfl, a, rfl, by simp⟩)
    · rcases he : execute port f with a | t
      · exact .inr (.inr (.inl ⟨rfl, f, a, rfl, he, by simp [he]⟩))
      · exact .inr (.inr (.inr ⟨rfl, f, t, rfl, he, by simp [he]⟩))
  · exact .inl ⟨rfl, by simp⟩

/-- With the fetch gate of the flushed state closed, what the port would deliver makes no difference. -/
theorem tick_port_irrelevant {s : State} (h : ∀ f, flush s = .ok f → fetchGate f = false)
    (p q : FetchPort) : tick p s = tick q s := by
  unfold tick
  split
  · rfl
  · split
    · rfl
    · rename_i f hf
      have e : execute p f = execute q f := by
        unfold execute
        rw [fetch_of_closed (h f hf), fetch_of_closed (h f hf)]
      rw [e]

/-- A step is a tick with some port. -/
theorem step_eq_tickOutcome (s : State) : ∃ port, step s = tickOutcome port s := by
  unfold step
  split
  · exact ⟨_, rfl⟩
  · split
    · rename_i i _
      cases i <;> exact ⟨_, rfl⟩
    · exact ⟨_, rfl⟩

/-- `exec` of an instruction is a tick with some port, which never aborts. -/
theorem exec_eq_enter (i : Instr) (s : State) : ∃ record, exec i s = enter record s := by
  cases i <;> exact ⟨_, rfl⟩

end Sys2Proof.Machine
end

