-- ==== Sys2Proof/Laws/FlushFrame.lean ====
section
/-! SUPPORT. The parts of the state that no unit's Flush action touches (40_clock_and_bus.md R131), and for each
unit the part that it may change. -/

namespace Sys2Proof.Machine

/-- Everything outside the reorder buffer, the queues, the banks, the latch, the bus and the flags. -/
structure FlushFrame (s s' : State) : Prop where
  cfg : s'.cfg = s.cfg
  x : s'.x = s.x
  tag : s'.tag = s.tag
  pc : s'.pc = s.pc
  mem : s'.mem = s.mem
  stall : s'.stall = s.stall
  clear : s'.clear = s.clear
  halt : s'.halt = s.halt
  cycle : s'.cycle = s.cycle
  iq : s'.iq = s.iq
  fu : s'.fu = s.fu
  ldst : s'.ldst = s.ldst
  stst : s'.stst = s.stst
  pred : s'.pred = s.pred
  status : s'.status = s.status

theorem FlushFrame.refl (s : State) : FlushFrame s s := by constructor <;> rfl

theorem FlushFrame.trans {s t u : State} (h : FlushFrame s t) (h' : FlushFrame t u) : FlushFrame s u where
  cfg := h'.cfg.trans h.cfg
  x := h'.x.trans h.x
  tag := h'.tag.trans h.tag
  pc := h'.pc.trans h.pc
  mem := h'.mem.trans h.mem
  stall := h'.stall.trans h.stall
  clear := h'.clear.trans h.clear
  halt := h'.halt.trans h.halt
  cycle := h'.cycle.trans h.cycle
  iq := h'.iq.trans h.iq
  fu := h'.fu.trans h.fu
  ldst := h'.ldst.trans h.ldst
  stst := h'.stst.trans h.stst
  pred := h'.pred.trans h.pred
  status := h'.status.trans h.status

/-- F2, WriteBack: only the entries of the reorder buffer change, and their number does not. -/
theorem absorb_onWriteBack_frame {s s' : State} (h : absorbAll onWriteBack s s.bus = .ok s') :
    ∃ es, s' = { s with rob := ⟨s.rob.head, es⟩ } ∧ es.length = s.rob.entries.length := by
  refine absorbAll_induct (P := fun t => ∃ es, t = { s with rob := ⟨s.rob.head, es⟩ } ∧
    es.length = s.rob.entries.length) ?_ ⟨s.rob.entries, rfl, rfl⟩ h
  rintro t m t' ⟨es, rfl, hl⟩ ht
  rcases onWriteBack_eq_ok ht with ⟨-, rfl⟩ | ⟨-, e, -, rfl⟩
  · exact ⟨es, rfl, hl⟩
  · exact ⟨_, rfl, by simpa using hl⟩

/-- F2, StoreSuccess: only the reorder buffer changes. -/
theorem absorb_onStoreSuccess_frame {s s' : State} {ms : List Msg}
    (h : absorbAll onStoreSuccess s ms = .ok s') : ∃ r, s' = { s with rob := r } := by
  refine absorbAll_induct (P := fun t => ∃ r, t = { s with rob := r }) ?_ ⟨s.rob, rfl⟩ h
  rintro t m t' ⟨r, rfl⟩ ht
  rcases onStoreSuccess_eq_ok ht with ⟨-, rfl⟩ | ⟨-, -, -, rfl⟩
  · exact ⟨_, rfl⟩
  · exact ⟨_, rfl⟩

/-- F4, GetAddr: only the entries of the two queues change, and neither their number nor anything but
address and readiness does. -/
theorem absorb_onGetAddr_frame {s s' : State} {ms : List Msg} (h : absorbAll onGetAddr s ms = .ok s') :
    ∃ (f : LoadEntry → LoadEntry) (g : StoreEntry → StoreEntry),
      s' = { s with lq := s.lq.map f, sq := s.sq.map g } ∧
      (∀ e, (f e).op = e.op ∧ (f e).dest = e.dest ∧ (f e).ts = e.ts) ∧
      (∀ e, (g e).op = e.op ∧ (g e).dest = e.dest ∧ (g e).ts = e.ts ∧ (g e).committed = e.committed ∧
        (g e).data = e.data) := by
  refine absorbAll_induct (P := fun t => ∃ (f : LoadEntry → LoadEntry) (g : StoreEntry → StoreEntry),
      t = { s with lq := s.lq.map f, sq := s.sq.map g } ∧
      (∀ e, (f e).op = e.op ∧ (f e).dest = e.dest ∧ (f e).ts = e.ts) ∧
      (∀ e, (g e).op = e.op ∧ (g e).dest = e.dest ∧ (g e).ts = e.ts ∧ (g e).committed = e.committed ∧
        (g e).data = e.data)) ?_ ⟨id, id, by simp, by simp, by simp⟩ h
  rintro t m t' ⟨f, g, rfl, hf, hg⟩ ht
  rcases onGetAddr_eq_ok ht with ⟨-, rfl⟩ | ⟨-, -, rfl⟩
  · exact ⟨f, g, rfl, hf, hg⟩
  · refine ⟨LoadEntry.resolve m.idx m.data ∘ f, StoreEntry.resolve m.idx m.data ∘ g, by simp, ?_, ?_⟩
    · intro e
      have := hf e
      simp only [Function.comp, LoadEntry.resolve]
      split <;> exact this
    · intro e
      have := hg e
      simp only [Function.comp, StoreEntry.resolve]
      split <;> exact this

/-- F4, CommitMem: only the head of the store queue changes, and only to committed. -/
theorem absorb_onCommitMem_frame {s s' : State} {ms : List Msg} (h : absorbAll onCommitMem s ms = .ok s') :
    s' = s ∨ ∃ e e' rest, s.sq = e :: rest ∧ s' = { s with sq := e' :: rest } ∧ e'.committed = true ∧
      e'.op = e.op ∧ e'.dest = e.dest ∧ e'.ts = e.ts ∧ e'.addr = e.addr ∧ e'.ready = e.ready := by
  refine absorbAll_induct (P := fun t => t = s ∨ ∃ e e' rest, s.sq = e :: rest ∧
      t = { s with sq := e' :: rest } ∧ e'.committed = true ∧
      e'.op = e.op ∧ e'.dest = e.dest ∧ e'.ts = e.ts ∧ e'.addr = e.addr ∧ e'.ready = e.ready) ?_ (.inl rfl) h
  rintro t m t' hP ht
  rcases onCommitMem_eq_ok ht with ⟨-, rfl⟩ | ⟨-, e1, rest1, hq, -, hr, rfl⟩
  · exact hP
  · rcases hP with rfl | ⟨e, e', rest, hs, rfl, -, h1, h2, h3, h4, h5⟩
    · exact .inr ⟨e1, { e1 with committed := true, data := m.data }, rest1, hq, rfl, rfl, rfl, rfl, rfl, rfl, rfl⟩
    · simp only [List.cons.injEq] at hq
      obtain ⟨rfl, rfl⟩ := hq
      exact .inr ⟨e, { e' with committed := true, data := m.data }, rest, hs, rfl, rfl, h1, h2, h3, h4, h5⟩

/-- F3: only the reorder buffer changes. -/
theorem insertRob_frame {s s' : State} (h : insertRob s = .ok s') : ∃ r, s' = { s with rob := r } := by
  rcases insertRob_eq_ok h with ⟨-, rfl⟩ | ⟨l, -, -, rfl⟩
  · exact ⟨_, rfl⟩
  · exact ⟨_, rfl⟩

/-- F4: only the two queues change. -/
theorem insertLsb_frame {s s' : State} (h : insertLsb s = .ok s') :
    ∃ q r, s' = { s with lq := q, sq := r } := by
  rcases insertLsb_eq_ok h with ⟨-, rfl⟩ | ⟨l, e, -, -, -, rfl⟩ | ⟨l, e, -, -, -, rfl⟩
  · exact ⟨_, _, rfl⟩
  · exact ⟨_, _, rfl⟩
  · exact ⟨_, _, rfl⟩

/-- F5: only the banks change. -/
theorem insertRs_frame {s s' : State} (h : insertRs s = .ok s') : ∃ b, s' = { s with rs := b } := by
  rcases insertRs_eq_ok h with ⟨-, rfl⟩ | ⟨l, -, h⟩
  · exact ⟨_, rfl⟩
  · rcases h with ⟨_, _, -, -, rfl⟩ | ⟨_, _, -, -, rfl⟩ | ⟨_, _, -, -, rfl⟩ | ⟨_, _, -, -, rfl⟩ |
      ⟨_, _, -, -, rfl⟩ <;> exact ⟨_, rfl⟩

/-- F5 fills a slot of the bank of the operation, and keeps the sizes of all banks. -/
theorem insertRs_lengths {s s' : State} (h : insertRs s = .ok s') :
    s'.rs.add.length = s.rs.add.length ∧ s'.rs.cmp.length = s.rs.cmp.length ∧
      s'.rs.log.length = s.rs.log.length ∧ s'.rs.shf.length = s.rs.shf.length ∧
      s'.rs.ls.length = s.rs.ls.length := by
  rcases insertRs_eq_ok h with ⟨-, rfl⟩ | ⟨l, -, h⟩
  · simp
  · rcases h with ⟨_, _, -, hb, rfl⟩ | ⟨_, _, -, hb, rfl⟩ | ⟨_, _, -, hb, rfl⟩ | ⟨_, _, -, hb, rfl⟩ |
      ⟨_, _, -, hb, rfl⟩ <;> simp [insertFree_length hb]

/-- A Flush without a squash leaves the frame alone, and clears the latch and the bus. -/
theorem flushUnits_frame {s s' : State} (h : flushUnits s = .ok s') :
    FlushFrame s s' ∧ s'.latch = none ∧ s'.bus = [] := by
  obtain ⟨s1, s2, s3, s4, s5, s6, s7, h1, h2, h3, h4, h5, h6, h7, rfl⟩ := flushUnits_eq_ok h
  obtain ⟨es, rfl, -⟩ := absorb_onWriteBack_frame h1
  obtain ⟨r2, rfl⟩ := absorb_onStoreSuccess_frame h2
  obtain ⟨r3, rfl⟩ := insertRob_frame h3
  obtain ⟨q4, p4, rfl⟩ := insertLsb_frame h4
  obtain ⟨g5, k5, rfl, -, -⟩ := absorb_onGetAddr_frame h5
  rcases absorb_onCommitMem_frame h6 with rfl | ⟨_, _, _, -, rfl, -⟩ <;>
    obtain ⟨b, rfl⟩ := insertRs_frame h7 <;>
    exact ⟨by constructor <;> rfl, rfl, rfl⟩

end Sys2Proof.Machine
end

