-- ==== Sys2Proof/Laws/Reorder.lean ====
section
/-! SUPPORT. Reading the reorder buffer by index after a change of one entry, an insertion at the tail and
a retirement of the head (10_state.md R38; 48_reorder_commit.md R381, R393). -/

namespace Sys2Proof.Machine

/-- The offset of an index from the head, without the modulus (R38). -/
theorem State.robOffset_eq (s : State) {i : Nat} (hi : i < s.cfg.robCap) (hh : s.rob.head < s.cfg.robCap) :
    s.robOffset i = if s.rob.head ≤ i then i - s.rob.head else i + s.cfg.robCap - s.rob.head := by
  unfold State.robOffset
  split
  · rw [show i + s.cfg.robCap - s.rob.head = (i - s.rob.head) + s.cfg.robCap by omega,
      Nat.add_mod_right, Nat.mod_eq_of_lt (by omega)]
  · exact Nat.mod_eq_of_lt (by omega)

/-- Indices with the same offset are equal. -/
theorem State.robOffset_inj (s : State) {i j : Nat} (hi : i < s.cfg.robCap) (hj : j < s.cfg.robCap)
    (hh : s.rob.head < s.cfg.robCap) (h : s.robOffset i = s.robOffset j) : i = j := by
  rw [robOffset_eq s hi hh, robOffset_eq s hj hh] at h
  split at h <;> split at h <;> omega

/-- A live index is below ROB_CAP. -/
theorem State.robAt_lt {s : State} {i : Nat} {e : RobEntry} (h : s.robAt i = some e) :
    i < s.cfg.robCap := by
  unfold State.robAt at h
  split at h
  · assumption
  · cases h

theorem State.robAt_of_lt (s : State) {i : Nat} (h : i < s.cfg.robCap) :
    s.robAt i = s.rob.entries[s.robOffset i]? := if_pos h

theorem State.robAt_of_not_lt (s : State) {i : Nat} (h : ¬ i < s.cfg.robCap) : s.robAt i = none := if_neg h

theorem State.robAt_entries {s : State} {i : Nat} {e : RobEntry} (h : s.robAt i = some e) :
    s.rob.entries[s.robOffset i]? = some e := by
  unfold State.robAt at h
  rwa [if_pos (robAt_lt h)] at h

/-- The head's index reads the first entry. -/
theorem State.robAt_head {s : State} {e : RobEntry} {rest : List RobEntry} (h : s.rob.entries = e :: rest)
    (hh : s.rob.head < s.cfg.robCap) : s.robAt s.rob.head = some e := by
  unfold State.robAt
  rw [if_pos hh, robOffset_eq s hh hh, if_pos (le_refl _), h]
  simp

/-- The same reorder buffer and capacity read alike. -/
theorem State.robAt_congr {s t : State} (hr : t.rob = s.rob) (hc : t.cfg = s.cfg) (i : Nat) :
    t.robAt i = s.robAt i := by
  unfold State.robAt State.robOffset
  rw [hr, hc]

/-- Changing one live entry changes the reading of its index and of no other. -/
theorem State.robAt_robModify {s : State} (hh : s.rob.head < s.cfg.robCap) {i j : Nat}
    (hi : i < s.cfg.robCap) (g : RobEntry → RobEntry) :
    (s.robModify i g).robAt j = if j = i then (s.robAt j).map g else s.robAt j := by
  by_cases hj : j < s.cfg.robCap
  · rw [robAt_of_lt (s.robModify i g) hj, robAt_of_lt s hj]
    show (s.rob.entries.modify (s.robOffset i) g)[s.robOffset j]? = _
    rw [List.getElem?_modify]
    by_cases hji : j = i
    · subst hji
      simp
    · have ho : s.robOffset i ≠ s.robOffset j := fun h => hji (robOffset_inj s hi hj hh h).symm
      rw [if_neg hji]
      rcases s.rob.entries[s.robOffset j]? with _ | e <;> simp [ho]
  · rw [robAt_of_not_lt (s.robModify i g) hj, robAt_of_not_lt s hj]
    simp

/-- The index of the next entry is the tail (R381). -/
theorem State.robOffset_tail {s : State} (hh : s.rob.head < s.cfg.robCap)
    (hl : s.rob.entries.length < s.cfg.robCap) : s.robOffset s.robTail = s.rob.entries.length := by
  have hc : 0 < s.cfg.robCap := by omega
  have ht : s.robTail < s.cfg.robCap := Nat.mod_lt _ hc
  rw [robOffset_eq s ht hh]
  unfold State.robTail
  by_cases hw : s.rob.head + s.rob.entries.length < s.cfg.robCap
  · rw [Nat.mod_eq_of_lt hw, if_pos (by omega)]
    omega
  · rw [show s.rob.head + s.rob.entries.length
        = (s.rob.head + s.rob.entries.length - s.cfg.robCap) + s.cfg.robCap by omega,
      Nat.add_mod_right, Nat.mod_eq_of_lt (by omega), if_neg (by omega)]
    omega

/-- Reading by index after an insertion at the tail: the tail's index reads the new entry, and every live
index reads what it read. -/
theorem State.robAt_append {s t : State} (hh : s.rob.head < s.cfg.robCap)
    (hl : s.rob.entries.length < s.cfg.robCap) {e : RobEntry}
    (ht : t.rob = { s.rob with entries := s.rob.entries ++ [e] }) (hc : t.cfg = s.cfg) :
    t.robAt s.robTail = some e ∧ ∀ i e', s.robAt i = some e' → t.robAt i = some e' := by
  have ho : ∀ i, t.robOffset i = s.robOffset i := fun i => by
    unfold State.robOffset
    rw [ht, hc]
  constructor
  · have htail : s.robTail < t.cfg.robCap := hc ▸ Nat.mod_lt _ (by omega)
    rw [robAt_of_lt t htail, ho, robOffset_tail hh hl, ht]
    simp
  · intro i e' h
    have hi := robAt_lt h
    have he := robAt_entries h
    rw [robAt_of_lt t (hc ▸ hi), ho, ht]
    have hlt := (List.getElem?_eq_some_iff.mp he).1
    rw [List.getElem?_append_left hlt]
    exact he

/-- Reading by index after the head retires: every other live index reads what it read (R393). -/
theorem State.robAt_retire {s t : State} (hh : s.rob.head < s.cfg.robCap)
    (ht : t.rob = s.rob.retire s.cfg.robCap) (hc : t.cfg = s.cfg)
    {i : Nat} {e : RobEntry} (hi : i ≠ s.rob.head) (h : s.robAt i = some e) : t.robAt i = some e := by
  have hic := robAt_lt h
  have he := robAt_entries h
  have hlt := (List.getElem?_eq_some_iff.mp he).1
  rw [robOffset_eq s hic hh] at he hlt
  have hth : t.rob.head = (s.rob.head + 1) % s.cfg.robCap := by rw [ht]; rfl
  have hte : ∀ k, t.rob.entries[k]? = s.rob.entries[k + 1]? := fun k => by
    rw [ht]
    exact List.getElem?_tail
  have hh' : t.rob.head < t.cfg.robCap := by
    rw [hth, hc]
    exact Nat.mod_lt _ (by omega)
  rw [robAt_of_lt t (hc ▸ hic), robOffset_eq t (hc ▸ hic) hh', hte, ← he]
  have hcap : t.cfg.robCap = s.cfg.robCap := congrArg Config.robCap hc
  congr 1
  by_cases hw : s.rob.head + 1 < s.cfg.robCap
  · rw [Nat.mod_eq_of_lt hw] at hth
    split_ifs <;> omega
  · rw [show s.rob.head + 1 = s.cfg.robCap by omega, Nat.mod_self] at hth
    split_ifs <;> omega

/-- A retirement of a non-empty buffer leaves the tail where it was (R381). -/
theorem State.robTail_retire {s t : State} (hne : s.rob.entries ≠ [])
    (ht : t.rob = s.rob.retire s.cfg.robCap) (hc : t.cfg = s.cfg) : t.robTail = s.robTail := by
  unfold State.robTail
  rw [ht, hc]
  simp only [Rob.retire, List.length_tail]
  have : 0 < s.rob.entries.length := List.length_pos_of_ne_nil hne
  rw [Nat.mod_add_mod]
  congr 1
  omega

end Sys2Proof.Machine
end

