-- ==== Sys2Proof/Laws/InFlight.lean ====
section
/-! SUPPORT. The live entries of the reorder buffer as a list with their indices, the busy slots of a bank as a
list, the indices on the bus: what the machine's operations do to each (10_state.md R38, R44). -/

namespace Sys2Proof.Machine

/-! ## Live entries -/

/-- The entry number `k` has the index `head + k` in the ring. -/
theorem getElem?_liveFrom {cap h : Nat} (hh : h < cap) (es : List RobEntry) (k : Nat) :
    (liveFrom cap h es)[k]? = es[k]?.map fun e => ((h + k) % cap, e) := by
  induction es generalizing h k with
  | nil => simp [liveFrom]
  | cons e es ih =>
    cases k with
    | zero => simp [liveFrom, Nat.mod_eq_of_lt hh]
    | succ k =>
      simp only [liveFrom, List.getElem?_cons_succ]
      rw [ih (Nat.mod_lt _ (by omega))]
      simp only [Nat.mod_add_mod]
      rw [show h + 1 + k = h + (k + 1) by omega]

@[simp] theorem length_liveFrom (cap h : Nat) (es : List RobEntry) : (liveFrom cap h es).length = es.length := by
  induction es generalizing h with
  | nil => rfl
  | cons e es ih => simp [liveFrom, ih]

/-- An entry at the end has the index behind the last one. -/
theorem liveFrom_append {cap h : Nat} (hh : h < cap) (es : List RobEntry) (e : RobEntry) :
    liveFrom cap h (es ++ [e]) = liveFrom cap h es ++ [((h + es.length) % cap, e)] := by
  induction es generalizing h with
  | nil => simp [liveFrom, Nat.mod_eq_of_lt hh]
  | cons a es ih =>
    simp only [List.cons_append, liveFrom]
    rw [ih (Nat.mod_lt _ (by omega))]
    simp only [Nat.mod_add_mod, List.length_cons]
    rw [show h + 1 + es.length = h + (es.length + 1) by omega]

/-- The same reorder buffer and capacity have the same live entries. -/
theorem State.live_congr {s t : State} (hr : t.rob = s.rob) (hc : t.cfg = s.cfg) : t.live = s.live := by
  unfold State.live
  rw [hr, hc]

/-- The live entries are those that `robAt` reads. -/
theorem State.mem_live_iff {s : State} (hh : s.rob.head < s.cfg.robCap)
    (hl : s.rob.entries.length ≤ s.cfg.robCap) {i : Nat} {e : RobEntry} :
    (i, e) ∈ s.live ↔ s.robAt i = some e := by
  constructor
  · intro h
    obtain ⟨k, hk⟩ := List.mem_iff_getElem?.mp h
    rw [State.live, getElem?_liveFrom hh] at hk
    rcases he : s.rob.entries[k]? with _ | e'
    · simp [he] at hk
    · simp only [he, Option.map_some, Option.some.injEq, Prod.mk.injEq] at hk
      obtain ⟨rfl, rfl⟩ := hk
      have hkl := (List.getElem?_eq_some_iff.mp he).1
      have hi : (s.rob.head + k) % s.cfg.robCap < s.cfg.robCap := Nat.mod_lt _ (by omega)
      rw [State.robAt_of_lt s hi]
      have ho : s.robOffset ((s.rob.head + k) % s.cfg.robCap) = k := by
        rw [State.robOffset_eq s hi hh]
        by_cases hw : s.rob.head + k < s.cfg.robCap
        · rw [Nat.mod_eq_of_lt hw]
          split <;> omega
        · have : (s.rob.head + k) % s.cfg.robCap = s.rob.head + k - s.cfg.robCap := by
            rw [Nat.mod_eq_sub_mod (by omega), Nat.mod_eq_of_lt (by omega)]
          rw [this]
          split <;> omega
      rw [ho, he]
  · intro h
    have hi := State.robAt_lt h
    have he := State.robAt_entries h
    refine List.mem_iff_getElem?.mpr ⟨s.robOffset i, ?_⟩
    rw [State.live, getElem?_liveFrom hh, he]
    simp only [Option.map_some, Option.some.injEq, Prod.mk.injEq, and_true]
    rw [State.robOffset_eq s hi hh]
    split
    · rw [show s.rob.head + (i - s.rob.head) = i by omega, Nat.mod_eq_of_lt hi]
    · rw [show s.rob.head + (i + s.cfg.robCap - s.rob.head) = i + s.cfg.robCap by omega, Nat.add_mod_right,
        Nat.mod_eq_of_lt hi]

/-- No index is live twice. -/
theorem State.live_nodup {s : State} (hh : s.rob.head < s.cfg.robCap)
    (hl : s.rob.entries.length ≤ s.cfg.robCap) : (s.live.map Prod.fst).Nodup := by
  rw [List.nodup_iff_injective_getElem]
  rintro ⟨a, ha⟩ ⟨b, hb⟩ hab
  simp only [List.length_map, State.live, length_liveFrom] at ha hb
  simp only [List.getElem_map] at hab
  have ga := getElem?_liveFrom (cap := s.cfg.robCap) hh s.rob.entries a
  have gb := getElem?_liveFrom (cap := s.cfg.robCap) hh s.rob.entries b
  rw [List.getElem?_eq_getElem (by simpa using ha), List.getElem?_eq_getElem (by simpa using ha)] at ga
  rw [List.getElem?_eq_getElem (by simpa using hb), List.getElem?_eq_getElem (by simpa using hb)] at gb
  simp only [Option.map_some, Option.some.injEq] at ga gb
  have hab' : (s.rob.head + a) % s.cfg.robCap = (s.rob.head + b) % s.cfg.robCap := by
    simpa [State.live, ga, gb] using hab
  have : a = b := by
    have h1 := Nat.div_add_mod (s.rob.head + a) s.cfg.robCap
    have h2 := Nat.div_add_mod (s.rob.head + b) s.cfg.robCap
    rcases Nat.lt_trichotomy ((s.rob.head + a) / s.cfg.robCap) ((s.rob.head + b) / s.cfg.robCap) with h | h | h
    · have := Nat.mul_le_mul_left s.cfg.robCap (show _ + 1 ≤ _ from h)
      rw [Nat.mul_add] at this
      omega
    · rw [h] at h1
      omega
    · have := Nat.mul_le_mul_left s.cfg.robCap (show _ + 1 ≤ _ from h)
      rw [Nat.mul_add] at this
      omega
  exact Fin.ext this

/-- An index has one live entry. -/
theorem State.live_unique {s : State} (hh : s.rob.head < s.cfg.robCap)
    (hl : s.rob.entries.length ≤ s.cfg.robCap) {i : Nat} {e e' : RobEntry} (h : (i, e) ∈ s.live)
    (h' : (i, e') ∈ s.live) : e = e' := by
  rw [State.mem_live_iff hh hl] at h h'
  rw [h] at h'
  exact Option.some.inj h'

/-- The tail's index is not live while there is room. -/
theorem State.robTail_not_live {s : State} (hh : s.rob.head < s.cfg.robCap)
    (hl : s.rob.entries.length < s.cfg.robCap) {p : Nat × RobEntry} (h : p ∈ s.live) : p.1 ≠ s.robTail := by
  intro he
  have h1 := (State.mem_live_iff hh hl.le (i := p.1) (e := p.2)).mp h
  have h2 := State.robAt_entries h1
  rw [he, State.robOffset_tail hh hl] at h2
  simp at h2

/-- Changing the entry of one index. -/
theorem State.live_robModify {s : State} (hh : s.rob.head < s.cfg.robCap)
    (hl : s.rob.entries.length ≤ s.cfg.robCap) {i : Nat} (hi : i < s.cfg.robCap) (g : RobEntry → RobEntry) :
    (s.robModify i g).live = s.live.map fun p => if p.1 = i then (p.1, g p.2) else p := by
  refine List.ext_getElem? fun k => ?_
  have e1 : (s.robModify i g).live[k]? = (s.rob.entries.modify (s.robOffset i) g)[k]?.map
      fun e => ((s.rob.head + k) % s.cfg.robCap, e) := getElem?_liveFrom hh _ k
  rw [e1, List.getElem?_modify, List.getElem?_map, State.live, getElem?_liveFrom hh]
  rcases he : s.rob.entries[k]? with _ | e
  · simp
  · have hk := (List.getElem?_eq_some_iff.mp he).1
    have : (s.rob.head + k) % s.cfg.robCap = i ↔ s.robOffset i = k := by
      rw [State.robOffset_eq s hi hh]
      by_cases hw : s.rob.head + k < s.cfg.robCap
      · rw [Nat.mod_eq_of_lt hw]
        split <;> omega
      · have : (s.rob.head + k) % s.cfg.robCap = s.rob.head + k - s.cfg.robCap := by
          rw [Nat.mod_eq_sub_mod (by omega), Nat.mod_eq_of_lt (by omega)]
        rw [this]
        split <;> omega
    by_cases hx : s.robOffset i = k
    · simp [hx, this.mpr hx]
    · simp [hx, mt this.mp hx]

/-- Insertion at the tail. -/
theorem State.live_append {s t : State} (hh : s.rob.head < s.cfg.robCap) {e : RobEntry}
    (ht : t.rob = { s.rob with entries := s.rob.entries ++ [e] }) (hc : t.cfg = s.cfg) :
    t.live = s.live ++ [(s.robTail, e)] := by
  unfold State.live State.robTail
  rw [ht, hc]
  exact liveFrom_append hh _ _

/-- Retirement of the head. -/
theorem State.live_retire {s t : State} (ht : t.rob = s.rob.retire s.cfg.robCap) (hc : t.cfg = s.cfg) :
    t.live = s.live.tail := by
  unfold State.live
  rw [ht, hc]
  cases h : s.rob.entries <;> simp [Rob.retire, h, liveFrom]

theorem State.live_cons {s : State} {e : RobEntry} {rest : List RobEntry} (h : s.rob.entries = e :: rest) :
    s.live = (s.rob.head, e) :: liveFrom s.cfg.robCap ((s.rob.head + 1) % s.cfg.robCap) rest := by
  unfold State.live
  rw [h]
  rfl

/-! ## The youngest instruction with a destination -/

theorem youngestIn_append (r : RegIdx) (a b : List (Nat × RobEntry)) :
    youngestIn r (a ++ b) = (youngestIn r b).or (youngestIn r a) := by
  induction a with
  | nil => simp [youngestIn]
  | cons p a ih =>
    simp only [List.cons_append, youngestIn, ih]
    cases youngestIn r b <;> simp

/-- What does not change indices and destinations does not change the youngest. -/
theorem youngestIn_map {r : RegIdx} {g : Nat × RobEntry → Nat × RobEntry} {l : List (Nat × RobEntry)}
    (hg : ∀ p ∈ l, (g p).1 = p.1 ∧ (g p).2.rd = p.2.rd) : youngestIn r (l.map g) = youngestIn r l := by
  induction l with
  | nil => rfl
  | cons p l ih =>
    have h := hg p List.mem_cons_self
    simp only [List.map_cons, youngestIn, ih fun q hq => hg q (List.mem_cons_of_mem _ hq), h.1, h.2]

theorem youngestIn_eq_none_iff {r : RegIdx} {l : List (Nat × RobEntry)} :
    youngestIn r l = none ↔ ∀ p ∈ l, p.2.rd ≠ some r := by
  induction l with
  | nil => simp [youngestIn]
  | cons p l ih =>
    simp only [youngestIn, List.mem_cons, forall_eq_or_imp]
    rw [← ih]
    cases youngestIn r l <;> simp

theorem youngestIn_eq_some {r : RegIdx} {l : List (Nat × RobEntry)} {q : Nat} (h : youngestIn r l = some q) :
    ∃ older e younger, l = older ++ (q, e) :: younger ∧ e.rd = some r ∧ ∀ p ∈ younger, p.2.rd ≠ some r := by
  induction l with
  | nil => cases h
  | cons p l ih =>
    simp only [youngestIn] at h
    split at h
    · cases h
      obtain ⟨older, e, younger, rfl, he⟩ := ih ‹_›
      exact ⟨p :: older, e, younger, rfl, he⟩
    · rename_i hn
      split at h
      · cases h
        exact ⟨[], p.2, l, rfl, ‹_›, youngestIn_eq_none_iff.mp hn⟩
      · cases h

/-! ## Busy slots -/

theorem mem_busy {α : Type} {bank : List (Option (RSEntry α))} {e : RSEntry α} :
    e ∈ busy bank ↔ some e ∈ bank := by
  simp [busy]

/-- An entry put into a free slot joins the busy ones. -/
theorem busy_set_some {α : Type} {bank : List (Option (RSEntry α))} {k : Nat} (e : RSEntry α)
    (h : bank[k]? = some none) : (busy (bank.set k (some e))).Perm (e :: busy bank) := by
  induction bank generalizing k with
  | nil => simp at h
  | cons c rest ih =>
    cases k with
    | zero =>
      simp only [List.getElem?_cons_zero, Option.some.injEq] at h
      subst h
      simp [busy]
    | succ k =>
      have := ih (by simpa using h)
      cases c with
      | none => simpa [busy] using this
      | some a =>
        simp only [busy, List.set_cons_succ, List.filterMap_cons, id] at this ⊢
        exact (List.Perm.cons a this).trans (List.Perm.swap e a _)

/-- An entry whose slot is freed leaves the busy ones. -/
theorem busy_set_none {α : Type} {bank : List (Option (RSEntry α))} {k : Nat} {e : RSEntry α}
    (h : bank[k]? = some (some e)) : (busy bank).Perm (e :: busy (bank.set k none)) := by
  induction bank generalizing k with
  | nil => simp at h
  | cons c rest ih =>
    cases k with
    | zero =>
      simp only [List.getElem?_cons_zero, Option.some.injEq] at h
      subst h
      simp [busy]
    | succ k =>
      have := ih (by simpa using h)
      cases c with
      | none => simpa [busy] using this
      | some a =>
        simp only [busy, List.set_cons_succ, List.filterMap_cons, id] at this ⊢
        exact (List.Perm.cons a this).trans (List.Perm.swap e a _)

/-- A change of every busy entry. -/
theorem busy_map {α β : Type} (bank : List (Option (RSEntry α))) (g : RSEntry α → RSEntry β) :
    busy (bank.map (Option.map g)) = (busy bank).map g := by
  induction bank with
  | nil => rfl
  | cons c rest ih => cases c <;> simp_all [busy]

@[simp] theorem busy_replicate_none {α : Type} (n : Nat) :
    busy (List.replicate n (none : Option (RSEntry α))) = [] := by
  induction n with
  | zero => rfl
  | succ n ih => simp [busy]

/-! ## The indices on the bus -/

theorem mem_sent {bus : List Msg} {k : MsgKind} {i : Nat} :
    i ∈ sent bus k ↔ ∃ m ∈ bus, m.kind = k ∧ m.idx = i := by
  simp [sent, and_assoc]

@[simp] theorem sent_nil (k : MsgKind) : sent [] k = [] := rfl

@[simp] theorem sent_append (a b : List Msg) (k : MsgKind) : sent (a ++ b) k = sent a k ++ sent b k := by
  simp [sent]

theorem sent_cons (m : Msg) (ms : List Msg) (k : MsgKind) :
    sent (m :: ms) k = if m.kind = k then m.idx :: sent ms k else sent ms k := by
  unfold sent
  by_cases h : m.kind = k <;> simp [h]

end Sys2Proof.Machine
end

