-- ==== Sys2Proof/Laws/Memory.lean ====
section
/-! SUPPORT. Memory: the canonical form is kept by every operation, a write is read back and leaves every
other byte alone, and canonical memories that read alike are equal (20_memory.md R73, R74; log 4). -/

namespace Sys2Proof.Machine

/-! ## The canonical form -/

theorem Memory.nil_wf : Memory.wf [] := ⟨List.Pairwise.nil, by simp⟩

theorem Memory.wf_tail {c : Host.Cell} {m : Memory} (h : Memory.wf (c :: m)) : Memory.wf m :=
  ⟨(List.pairwise_cons.mp h.1).2, fun d hd => h.2 d (List.mem_cons_of_mem _ hd)⟩

theorem Memory.wf_head_lt {c : Host.Cell} {m : Memory} (h : Memory.wf (c :: m)) :
    ∀ d ∈ m, c.1 < d.1 :=
  (List.pairwise_cons.mp h.1).1

/-- A cell of a written memory is the one written or was there before. -/
theorem Memory.mem_write {m : Memory} {a : Nat} {v : Byte} {c : Host.Cell} (h : c ∈ m.write a v) :
    c = (a, v) ∧ v ≠ 0 ∨ c ∈ m := by
  induction m with
  | nil =>
    unfold Memory.write at h
    split at h <;> simp_all
  | cons d rest ih =>
    obtain ⟨da, db⟩ := d
    unfold Memory.write at h
    split at h
    · split at h
      · exact .inr h
      · rcases List.mem_cons.mp h with rfl | h
        · exact .inl ⟨rfl, ‹_›⟩
        · exact .inr h
    · split at h
      · rename_i heq
        subst heq
        split at h
        · exact .inr (List.mem_cons_of_mem _ h)
        · rcases List.mem_cons.mp h with rfl | h
          · exact .inl ⟨rfl, ‹_›⟩
          · exact .inr (List.mem_cons_of_mem _ h)
      · rcases List.mem_cons.mp h with rfl | h
        · exact .inr List.mem_cons_self
        · rcases ih h with h | h
          · exact .inl h
          · exact .inr (List.mem_cons_of_mem _ h)

/-- A write keeps the canonical form. -/
theorem Memory.write_wf {m : Memory} (h : m.wf) (a : Nat) (v : Byte) : (m.write a v).wf := by
  refine ⟨?_, fun c hc => ?_⟩
  · induction m with
    | nil => unfold Memory.write; split <;> simp
    | cons d rest ih =>
      obtain ⟨da, db⟩ := d
      have hr := wf_head_lt h
      unfold Memory.write
      split
      · split
        · exact h.1
        · refine List.pairwise_cons.mpr ⟨fun e he => ?_, h.1⟩
          rcases List.mem_cons.mp he with rfl | he
          · assumption
          · have := hr e he
            simp only at this ⊢
            omega
      · split
        · rename_i heq
          subst heq
          split
          · exact (wf_tail h).1
          · exact List.pairwise_cons.mpr ⟨hr, (wf_tail h).1⟩
        · refine List.pairwise_cons.mpr ⟨fun e he => ?_, ih (wf_tail h)⟩
          rcases mem_write he with ⟨rfl, -⟩ | he
          · simp only
            omega
          · exact hr e he
  · rcases mem_write hc with ⟨rfl, hv⟩ | hc
    · exact hv
    · exact h.2 c hc

/-- A write of several bytes keeps the canonical form. -/
theorem Memory.writeBytes_wf {m : Memory} (h : m.wf) (a n : Nat) (v : Word) : (m.writeBytes a n v).wf := by
  induction n generalizing m a v with
  | zero => exact h
  | succ n ih => exact ih (write_wf h _ _) _ _

/-- `MemWrite` keeps the canonical form. -/
theorem memWrite_wf {m m' : Memory} {size : Nat} {a : Word} {n : Nat} {v : Word} (h : m.wf)
    (hw : memWrite m size a n v = some m') : m'.wf := by
  unfold memWrite at hw
  split at hw
  · cases hw
    exact Memory.writeBytes_wf h _ _ _
  · cases hw

/-- Every cell of a memory lies below a bound. -/
theorem Memory.write_inside {m : Memory} {size a : Nat} {v : Byte} (h : ∀ c ∈ m, c.1 < size)
    (ha : a < size) : ∀ c ∈ m.write a v, c.1 < size := by
  intro c hc
  rcases mem_write hc with ⟨rfl, -⟩ | hc
  · exact ha
  · exact h c hc

theorem Memory.writeBytes_inside {m : Memory} {size a n : Nat} {v : Word} (h : ∀ c ∈ m, c.1 < size)
    (ha : a + n ≤ size) : ∀ c ∈ m.writeBytes a n v, c.1 < size := by
  induction n generalizing m a v with
  | zero => exact h
  | succ n ih => exact ih (write_inside h (by omega)) (by omega)

/-- `MemWrite` lists no address outside memory. -/
theorem memWrite_inside {m m' : Memory} {size : Nat} {a : Word} {n : Nat} {v : Word}
    (h : ∀ c ∈ m, c.1 < size) (hw : memWrite m size a n v = some m') : ∀ c ∈ m', c.1 < size := by
  unfold memWrite at hw
  split at hw
  · cases hw
    exact Memory.writeBytes_inside h ‹_›
  · cases hw

/-! ## Reading back -/

/-- An address below every listed one reads as 0x00. -/
theorem Memory.read_of_lt {m : Memory} {a : Nat} (h : ∀ c ∈ m, a < c.1) : m.read a = 0 := by
  induction m with
  | nil => rfl
  | cons d rest ih =>
    obtain ⟨da, db⟩ := d
    have := h _ List.mem_cons_self
    simp only at this
    rw [Memory.read, if_neg (by omega)]
    exact ih fun c hc => h c (List.mem_cons_of_mem _ hc)

/-- What a byte reads as after a write. -/
theorem Memory.read_write {m : Memory} (h : m.wf) (a : Nat) (v : Byte) (b : Nat) :
    (m.write a v).read b = if b = a then v else m.read b := by
  induction m with
  | nil =>
    unfold Memory.write
    split <;> simp_all [Memory.read]
  | cons d rest ih =>
    obtain ⟨da, db⟩ := d
    have hr := wf_head_lt h
    simp only at hr
    have ht := ih (wf_tail h)
    unfold Memory.write
    split
    · split
      · rename_i hlt hv
        subst hv
        split
        · rename_i hb
          subst hb
          rw [Memory.read, if_neg (by omega)]
          exact read_of_lt fun c hc => lt_trans hlt (hr c hc)
        · rfl
      · rfl
    · split
      · rename_i hlt heq
        subst heq
        split
        · rename_i hv
          subst hv
          split
          · rename_i hb
            subst hb
            exact read_of_lt hr
          · rename_i hb
            rw [Memory.read, if_neg hb]
        · rw [Memory.read, Memory.read]
          split
          · simp
          · simp
      · rename_i hlt hne
        rw [Memory.read, Memory.read]
        split
        · rename_i hb
          rw [if_neg (by omega)]
        · exact ht

/-- The byte written is read back. -/
theorem Memory.read_write_same {m : Memory} (h : m.wf) (a : Nat) (v : Byte) : (m.write a v).read a = v := by
  rw [read_write h, if_pos rfl]

/-- Every other byte is unchanged. -/
theorem Memory.read_write_other {m : Memory} (h : m.wf) {a b : Nat} (v : Byte) (hb : b ≠ a) :
    (m.write a v).read b = m.read b := by
  rw [read_write h, if_neg hb]

/-- What a byte reads as after a write of `n` bytes: byte `b - a` of the value inside the stored range,
and what it was outside (R74). -/
theorem Memory.read_writeBytes {m : Memory} (h : m.wf) (a n : Nat) (v : Word) (b : Nat) :
    (m.writeBytes a n v).read b =
      if a ≤ b ∧ b < a + n then (v >>> (8 * (b - a))).setWidth 8 else m.read b := by
  induction n generalizing m a v with
  | zero =>
    rw [if_neg (by omega)]
    rfl
  | succ n ih =>
    rw [Memory.writeBytes, ih (write_wf h _ _), read_write h]
    by_cases hb : b = a
    · subst hb
      rw [if_neg (by omega), if_pos rfl, if_pos (by omega)]
      simp
    · rw [if_neg hb]
      by_cases hin : a ≤ b ∧ b < a + (n + 1)
      · rw [if_pos (by omega), if_pos hin, ← BitVec.shiftRight_add]
        congr 2
        omega
      · rw [if_neg (by omega), if_neg hin]

/-- `MemWrite` in range: each byte of memory afterwards (R74). -/
theorem memWrite_read {m m' : Memory} {size : Nat} {a : Word} {n : Nat} {v : Word} (h : m.wf)
    (hw : memWrite m size a n v = some m') (b : Nat) :
    m'.read b = if a.toNat ≤ b ∧ b < a.toNat + n then (v >>> (8 * (b - a.toNat))).setWidth 8
      else m.read b := by
  unfold memWrite at hw
  split at hw
  · cases hw
    exact Memory.read_writeBytes h _ _ _ _
  · cases hw

/-- `MemRead` answers exactly where the access is in range (R73, R75). -/
theorem memRead_eq_some_iff {m : Memory} {size : Nat} {a : Word} {n : Nat} {v : Word} :
    memRead m size a n = some v ↔ a.toNat + n ≤ size ∧ v = BitVec.ofNat 32 (m.readNat a.toNat n) := by
  unfold memRead
  split <;> simp_all [eq_comm]

/-- `MemWrite` answers exactly where the access is in range (R74, R75). -/
theorem memWrite_eq_some_iff {m m' : Memory} {size : Nat} {a : Word} {n : Nat} {v : Word} :
    memWrite m size a n v = some m' ↔ a.toNat + n ≤ size ∧ m' = m.writeBytes a.toNat n v := by
  unfold memWrite
  split <;> simp_all [eq_comm]

theorem memRead_isSome_iff {m : Memory} {size : Nat} {a : Word} {n : Nat} :
    (∃ v, memRead m size a n = some v) ↔ a.toNat + n ≤ size := by
  simp [memRead_eq_some_iff]

/-- The value read is below `256 ^ n`. -/
theorem Memory.readNat_lt (m : Memory) (a n : Nat) : m.readNat a n < 256 ^ n := by
  induction n generalizing a with
  | zero => simp [Memory.readNat]
  | succ n ih =>
    have h1 := (m.read a).isLt
    have h2 := ih (a + 1)
    rw [Memory.readNat, pow_succ]
    omega

/-- Four stored bytes read back as the word. -/
theorem Memory.readNat_writeBytes_four {m : Memory} (h : m.wf) (a : Nat) (w : Word) :
    (m.writeBytes a 4 w).readNat a 4 = w.toNat := by
  simp only [Memory.readNat, read_writeBytes h]
  rw [if_pos (by omega), if_pos (by omega), if_pos (by omega), if_pos (by omega)]
  simp only [BitVec.toNat_setWidth, BitVec.toNat_ushiftRight, Nat.shiftRight_eq_div_pow]
  have hw := w.isLt
  have e0 : a - a = 0 := by omega
  have e1 : a + 1 - a = 1 := by omega
  have e2 : a + 1 + 1 - a = 2 := by omega
  have e3 : a + 1 + 1 + 1 - a = 3 := by omega
  rw [e0, e1, e2, e3]
  omega

/-! ## Extensionality -/

/-- Canonical memories that read alike at every address are equal data. -/
theorem Memory.ext_read {m m' : Memory} (h : m.wf) (h' : m'.wf) (hr : ∀ a, m.read a = m'.read a) :
    m = m' := by
  induction m generalizing m' with
  | nil =>
    cases m' with
    | nil => rfl
    | cons d rest =>
      have := hr d.1
      rw [Memory.read, Memory.read, if_pos rfl] at this
      exact absurd this.symm (h'.2 d List.mem_cons_self)
  | cons c rest ih =>
    cases m' with
    | nil =>
      have := hr c.1
      rw [Memory.read, Memory.read, if_pos rfl] at this
      exact absurd this (h.2 c List.mem_cons_self)
    | cons d rest' =>
      obtain ⟨ca, cb⟩ := c
      obtain ⟨da, db⟩ := d
      have hc := wf_head_lt h
      have hd := wf_head_lt h'
      simp only at hc hd
      have hcb : cb ≠ 0 := h.2 _ List.mem_cons_self
      have hdb : db ≠ 0 := h'.2 _ List.mem_cons_self
      have e1 := hr ca
      have e2 := hr da
      simp only [Memory.read] at e1 e2
      have hcd : ca = da := by
        by_contra hne
        rcases Nat.lt_or_gt_of_ne hne with hlt | hlt
        · rw [if_neg hne, read_of_lt fun c hc' => lt_trans hlt (hd c hc')] at e1
          simp at e1
          exact hcb e1
        · rw [if_neg (Ne.symm hne), read_of_lt fun c hc' => lt_trans hlt (hc c hc')] at e2
          simp at e2
          exact hdb e2.symm
      subst hcd
      simp at e1
      subst e1
      congr 1
      refine ih (wf_tail h) (wf_tail h') fun a => ?_
      by_cases ha : a = ca
      · subst ha
        rw [read_of_lt hc, read_of_lt hd]
      · have := hr a
        simpa [Memory.read, ha] using this

/-! ## Fetching -/

/-- A word placed where fetch reads next is the word fetched, if that address is inside memory. -/
theorem State.fetchWord_placeWord {s : State} (h : s.mem.wf) (w : Word)
    (hr : s.pc.toNat + 4 ≤ s.cfg.memSize) : (s.placeWord w).fetchWord = some w := by
  have hw : memWrite s.mem s.cfg.memSize s.pc 4 w = some (s.mem.writeBytes s.pc.toNat 4 w) :=
    memWrite_eq_some_iff.mpr ⟨hr, rfl⟩
  unfold State.placeWord State.fetchWord
  rw [hw]
  refine memRead_eq_some_iff.mpr ⟨hr, ?_⟩
  rw [Memory.readNat_writeBytes_four h]
  simp

end Sys2Proof.Machine
end

