-- ==== Sys2Proof/Laws/PerInstr.lean ====
section
/-! SUPPORT. The family LowBits: every instruction's word is in the 32-bit space, `w[1:0] = 0b11`
(30_encoding.md R102), one lemma per constructor. -/

namespace Sys2Proof.Laws.LowBits

/-- `w[1:0] = 0b11` for the word of an instruction (R102). -/
def Statement (i : Instr) : Prop := (encode i).extractLsb' 0 2 = 3#2

theorem halt : Statement .halt := by
  unfold Statement
  decide

theorem lui (rd : RegIdx) (imm : BitVec 20) : Statement (.lui rd imm) :=
  low_encodeU _ _ _

theorem auipc (rd : RegIdx) (imm : BitVec 20) : Statement (.auipc rd imm) :=
  low_encodeU _ _ _

theorem jal (rd : RegIdx) (off : BitVec 21) : Statement (.jal rd off) :=
  low_encodeJ _ _ _

theorem jalr (rd : RegIdx) (rs1 : RegIdx) (imm : BitVec 12) : Statement (.jalr rd rs1 imm) :=
  low_encodeI _ _ _ _ _

theorem beq (rs1 : RegIdx) (rs2 : RegIdx) (off : BitVec 13) : Statement (.beq rs1 rs2 off) :=
  low_encodeB _ _ _ _ _

theorem bne (rs1 : RegIdx) (rs2 : RegIdx) (off : BitVec 13) : Statement (.bne rs1 rs2 off) :=
  low_encodeB _ _ _ _ _

theorem blt (rs1 : RegIdx) (rs2 : RegIdx) (off : BitVec 13) : Statement (.blt rs1 rs2 off) :=
  low_encodeB _ _ _ _ _

theorem bge (rs1 : RegIdx) (rs2 : RegIdx) (off : BitVec 13) : Statement (.bge rs1 rs2 off) :=
  low_encodeB _ _ _ _ _

theorem bltu (rs1 : RegIdx) (rs2 : RegIdx) (off : BitVec 13) : Statement (.bltu rs1 rs2 off) :=
  low_encodeB _ _ _ _ _

theorem bgeu (rs1 : RegIdx) (rs2 : RegIdx) (off : BitVec 13) : Statement (.bgeu rs1 rs2 off) :=
  low_encodeB _ _ _ _ _

theorem lb (rd : RegIdx) (rs1 : RegIdx) (imm : BitVec 12) : Statement (.lb rd rs1 imm) :=
  low_encodeI _ _ _ _ _

theorem lh (rd : RegIdx) (rs1 : RegIdx) (imm : BitVec 12) : Statement (.lh rd rs1 imm) :=
  low_encodeI _ _ _ _ _

theorem lw (rd : RegIdx) (rs1 : RegIdx) (imm : BitVec 12) : Statement (.lw rd rs1 imm) :=
  low_encodeI _ _ _ _ _

theorem lbu (rd : RegIdx) (rs1 : RegIdx) (imm : BitVec 12) : Statement (.lbu rd rs1 imm) :=
  low_encodeI _ _ _ _ _

theorem lhu (rd : RegIdx) (rs1 : RegIdx) (imm : BitVec 12) : Statement (.lhu rd rs1 imm) :=
  low_encodeI _ _ _ _ _

theorem sb (rs2 : RegIdx) (rs1 : RegIdx) (imm : BitVec 12) : Statement (.sb rs2 rs1 imm) :=
  low_encodeS _ _ _ _ _

theorem sh (rs2 : RegIdx) (rs1 : RegIdx) (imm : BitVec 12) : Statement (.sh rs2 rs1 imm) :=
  low_encodeS _ _ _ _ _

theorem sw (rs2 : RegIdx) (rs1 : RegIdx) (imm : BitVec 12) : Statement (.sw rs2 rs1 imm) :=
  low_encodeS _ _ _ _ _

theorem addi (rd : RegIdx) (rs1 : RegIdx) (imm : BitVec 12) : Statement (.addi rd rs1 imm) :=
  low_encodeI _ _ _ _ _

theorem slti (rd : RegIdx) (rs1 : RegIdx) (imm : BitVec 12) : Statement (.slti rd rs1 imm) :=
  low_encodeI _ _ _ _ _

theorem sltiu (rd : RegIdx) (rs1 : RegIdx) (imm : BitVec 12) : Statement (.sltiu rd rs1 imm) :=
  low_encodeI _ _ _ _ _

theorem xori (rd : RegIdx) (rs1 : RegIdx) (imm : BitVec 12) : Statement (.xori rd rs1 imm) :=
  low_encodeI _ _ _ _ _

theorem ori (rd : RegIdx) (rs1 : RegIdx) (imm : BitVec 12) : Statement (.ori rd rs1 imm) :=
  low_encodeI _ _ _ _ _

theorem andi (rd : RegIdx) (rs1 : RegIdx) (imm : BitVec 12) : Statement (.andi rd rs1 imm) :=
  low_encodeI _ _ _ _ _

theorem slli (rd : RegIdx) (rs1 : RegIdx) (shamt : BitVec 5) : Statement (.slli rd rs1 shamt) :=
  low_encodeR _ _ _ _ _ _

theorem srli (rd : RegIdx) (rs1 : RegIdx) (shamt : BitVec 5) : Statement (.srli rd rs1 shamt) :=
  low_encodeR _ _ _ _ _ _

theorem srai (rd : RegIdx) (rs1 : RegIdx) (shamt : BitVec 5) : Statement (.srai rd rs1 shamt) :=
  low_encodeR _ _ _ _ _ _

theorem add (rd : RegIdx) (rs1 : RegIdx) (rs2 : RegIdx) : Statement (.add rd rs1 rs2) :=
  low_encodeR _ _ _ _ _ _

theorem sub (rd : RegIdx) (rs1 : RegIdx) (rs2 : RegIdx) : Statement (.sub rd rs1 rs2) :=
  low_encodeR _ _ _ _ _ _

theorem sll (rd : RegIdx) (rs1 : RegIdx) (rs2 : RegIdx) : Statement (.sll rd rs1 rs2) :=
  low_encodeR _ _ _ _ _ _

theorem slt (rd : RegIdx) (rs1 : RegIdx) (rs2 : RegIdx) : Statement (.slt rd rs1 rs2) :=
  low_encodeR _ _ _ _ _ _

theorem sltu (rd : RegIdx) (rs1 : RegIdx) (rs2 : RegIdx) : Statement (.sltu rd rs1 rs2) :=
  low_encodeR _ _ _ _ _ _

theorem xor (rd : RegIdx) (rs1 : RegIdx) (rs2 : RegIdx) : Statement (.xor rd rs1 rs2) :=
  low_encodeR _ _ _ _ _ _

theorem srl (rd : RegIdx) (rs1 : RegIdx) (rs2 : RegIdx) : Statement (.srl rd rs1 rs2) :=
  low_encodeR _ _ _ _ _ _

theorem sra (rd : RegIdx) (rs1 : RegIdx) (rs2 : RegIdx) : Statement (.sra rd rs1 rs2) :=
  low_encodeR _ _ _ _ _ _

theorem or (rd : RegIdx) (rs1 : RegIdx) (rs2 : RegIdx) : Statement (.or rd rs1 rs2) :=
  low_encodeR _ _ _ _ _ _

theorem and (rd : RegIdx) (rs1 : RegIdx) (rs2 : RegIdx) : Statement (.and rd rs1 rs2) :=
  low_encodeR _ _ _ _ _ _

end Sys2Proof.Laws.LowBits
end

