-- ==== Sys2Proof/Laws/Registers.lean ====
section
/-! SUPPORT. Reading registers and tags after a write; x0 reads 0 and has no tag whatever is written
(10_state.md R21, R22). -/

namespace Sys2Proof.Machine

/-- A register's value after a write of one register. -/
theorem writeValue_get (x : Vector Word 32) (r q : RegIdx) (v : Word) :
    (writeValue x r v)[q.toNat] = if q = r ∧ q ≠ 0 then v else x[q.toNat] := by
  by_cases h : r = 0
  · subst h
    have e : writeValue x 0 v = x := rfl
    rw [e, if_neg (fun h : q = 0 ∧ q ≠ 0 => h.2 h.1)]
  · have e : writeValue x r v = x.set r.toNat v := if_neg h
    rw [e, Vector.getElem_set]
    by_cases hq : q = r
    · subst hq
      rw [if_pos rfl, if_pos ⟨rfl, h⟩]
    · rw [if_neg (fun h => hq (BitVec.eq_of_toNat_eq h.symm)), if_neg (fun h => hq h.1)]

/-- A register's tag after a write of one tag. -/
theorem writeTag_get (tag : Vector (Option Nat) 32) (r q : RegIdx) (t : Option Nat) :
    (writeTag tag r t)[q.toNat] = if q = r ∧ q ≠ 0 then t else tag[q.toNat] := by
  by_cases h : r = 0
  · subst h
    have e : writeTag tag 0 t = tag := rfl
    rw [e, if_neg (fun h : q = 0 ∧ q ≠ 0 => h.2 h.1)]
  · have e : writeTag tag r t = tag.set r.toNat t := if_neg h
    rw [e, Vector.getElem_set]
    by_cases hq : q = r
    · subst hq
      rw [if_pos rfl, if_pos ⟨rfl, h⟩]
    · rw [if_neg (fun h => hq (BitVec.eq_of_toNat_eq h.symm)), if_neg (fun h => hq h.1)]

/-- x0 reads 0. -/
@[simp] theorem State.reg_zero (s : State) : s.reg 0 = 0 := rfl

/-- x0 carries no producer tag. -/
@[simp] theorem State.tagOf_zero (s : State) : s.tagOf 0 = none := rfl

theorem State.reg_of_ne_zero (s : State) {r : RegIdx} (h : r ≠ 0) : s.reg r = s.x[r.toNat] := if_neg h

theorem State.tagOf_of_ne_zero (s : State) {r : RegIdx} (h : r ≠ 0) : s.tagOf r = s.tag[r.toNat] :=
  if_neg h

/-- States with equal register vectors read alike. -/
theorem State.reg_congr {s t : State} (h : t.x = s.x) (r : RegIdx) : t.reg r = s.reg r := by
  unfold State.reg
  rw [h]

theorem State.tagOf_congr {s t : State} (h : t.tag = s.tag) (r : RegIdx) : t.tagOf r = s.tagOf r := by
  unfold State.tagOf
  rw [h]

/-- What every register reads as after one is written. -/
theorem State.reg_of_writeValue {s t : State} {r : RegIdx} {v : Word} (h : t.x = writeValue s.x r v)
    (q : RegIdx) : t.reg q = if q = r ∧ q ≠ 0 then v else s.reg q := by
  unfold State.reg
  rw [h]
  by_cases hq : q = 0
  · rw [if_pos hq, if_neg (fun h => h.2 hq), if_pos hq]
  · rw [if_neg hq, if_neg hq, writeValue_get]

/-- What every tag is after one is written. -/
theorem State.tagOf_of_writeTag {s t : State} {r : RegIdx} {v : Option Nat}
    (h : t.tag = writeTag s.tag r v) (q : RegIdx) :
    t.tagOf q = if q = r ∧ q ≠ 0 then v else s.tagOf q := by
  unfold State.tagOf
  rw [h]
  by_cases hq : q = 0
  · rw [if_pos hq, if_neg (fun h => h.2 hq), if_pos hq]
  · rw [if_neg hq, if_neg hq, writeTag_get]

/-- The field of x0 is never written. -/
theorem writeValue_zero (x : Vector Word 32) (r : RegIdx) (v : Word) : (writeValue x r v)[0] = x[0] := by
  have := writeValue_get x r 0 v
  simpa using this

theorem writeTag_zero (tag : Vector (Option Nat) 32) (r : RegIdx) (t : Option Nat) :
    (writeTag tag r t)[0] = tag[0] := by
  have := writeTag_get tag r 0 t
  simpa using this

end Sys2Proof.Machine
end

