-- ==== Sys2Proof/Tests/Slice0.lean ====
section
/-! SUPPORT. Tests on fixed values, and for every statement that has hypotheses a witness that they can be met together.
Expected values are the examples of spec/ (43_addsub.md to 47_load_store.md) or worked out by hand from its rules. -/

namespace Sys2Proof.Machine

/-! ## Well-formedness: what each check refuses (30_encoding.md R104; 43_addsub.md R243) -/

theorem test_wellFormed_refuses_odd_jal : (Instr.jal 1 3).wellFormed = false := by decide

theorem test_wellFormed_refuses_odd_branches :
    [Instr.beq 1 2 1, .bne 1 2 (-1), .blt 1 2 3, .bge 1 2 5, .bltu 1 2 7, .bgeu 1 2 4095].all
      (fun i => !i.wellFormed) = true := by decide

theorem test_wellFormed_refuses_the_sentinel_as_addi :
    (Instr.addi 10 0 255).wellFormed = false ∧ (Instr.addi 10 0 254).wellFormed = true ∧
      (Instr.addi 11 0 255).wellFormed = true ∧ (Instr.addi 10 1 255).wellFormed = true := by decide

/-! ## Decoding and encoding of words written out from the encoding tables (R103, R112)

Each word is written from its fields, for example `add x3, x1, x2`:
funct7 0000000, rs2 00010, rs1 00001, funct3 000, rd 00011, opcode 0110011, which is 0x002081B3. -/

/-- The word decodes to the instruction and the instruction encodes to the word. -/
def wordOf (w : Word) (i : Instr) : Prop := decode w = .ok i ∧ encode i = w

theorem test_words_upper_and_jumps :
    wordOf 0x123452B7 (.lui 5 0x12345) ∧ wordOf 0x00001297 (.auipc 5 1) ∧ wordOf 0x00C000EF (.jal 1 12) ∧
      wordOf 0x003280E7 (.jalr 1 5 3) ∧ wordOf 0x0FF00513 .halt := by
  unfold wordOf
  decide

theorem test_words_branches :
    wordOf 0x00208463 (.beq 1 2 8) ∧ wordOf 0xFE209EE3 (.bne 1 2 (-4)) ∧ wordOf 0x0020C863 (.blt 1 2 16) ∧
      wordOf 0x0020D863 (.bge 1 2 16) ∧ wordOf 0x0020E863 (.bltu 1 2 16) ∧
      wordOf 0x8020F063 (.bgeu 1 2 (-4096)) := by
  unfold wordOf
  decide

theorem test_words_loads_and_stores :
    wordOf 0xFFF08283 (.lb 5 1 (-1)) ∧ wordOf 0x00209283 (.lh 5 1 2) ∧ wordOf 0x0080A283 (.lw 5 1 8) ∧
      wordOf 0x0000C283 (.lbu 5 1 0) ∧ wordOf 0x0010D283 (.lhu 5 1 1) ∧ wordOf 0x005081A3 (.sb 5 1 3) ∧
      wordOf 0xFE509F23 (.sh 5 1 (-2)) ∧ wordOf 0x0050A423 (.sw 5 1 8) := by
  unfold wordOf
  decide

theorem test_words_immediates :
    wordOf 0xFFF30293 (.addi 5 6 (-1)) ∧ wordOf 0xFFF0A193 (.slti 3 1 (-1)) ∧
      wordOf 0xFFF0B193 (.sltiu 3 1 (-1)) ∧ wordOf 0xFFF0C193 (.xori 3 1 (-1)) ∧
      wordOf 0xF000E193 (.ori 3 1 (-256)) ∧ wordOf 0x0F00F193 (.andi 3 1 240) ∧
      wordOf 0x00409193 (.slli 3 1 4) ∧ wordOf 0x01F0D193 (.srli 3 1 31) ∧ wordOf 0x41F0D193 (.srai 3 1 31) := by
  unfold wordOf
  decide

theorem test_words_registers :
    wordOf 0x002081B3 (.add 3 1 2) ∧ wordOf 0x402081B3 (.sub 3 1 2) ∧ wordOf 0x002091B3 (.sll 3 1 2) ∧
      wordOf 0x0020A1B3 (.slt 3 1 2) ∧ wordOf 0x0020B1B3 (.sltu 3 1 2) ∧ wordOf 0x0020C1B3 (.xor 3 1 2) ∧
      wordOf 0x0020D1B3 (.srl 3 1 2) ∧ wordOf 0x4020D1B3 (.sra 3 1 2) ∧ wordOf 0x0020E1B3 (.or 3 1 2) ∧
      wordOf 0x0020F1B3 (.and 3 1 2) := by
  unfold wordOf
  decide

/-- One word for each case of R118, (a) to (h). -/
theorem test_invalid_words :
    decode 0x00000000 = .error .notWordForm ∧ decode 0x00000073 = .error .majorOpcode ∧
      decode 0x00001067 = .error .jalrFunct3 ∧ decode 0x00002063 = .error .branchFunct3 ∧
      decode 0x00003003 = .error .loadFunct3 ∧ decode 0x00003023 = .error .storeFunct3 ∧
      decode 0x40001013 = .error .shiftFunct7 ∧ decode 0x02000033 = .error .registerFunct7 := by decide

theorem test_decodeTableWord :
    decodeTableWord 32 0x002081B3 = some (.add 3 1 2) ∧ decodeTableWord 32 0x0FF00513 = some .halt ∧
      decodeTableWord 32 0 = none := by decide

theorem test_decodeBytes_little_endian :
    decodeBytes [0xB3, 0x81, 0x20, 0x00, 0x13] = .ok (.add 3 1 2, [0x13]) ∧
      decodeBytes [0xB3, 0x81, 0x20] = .error .truncated := by decide

/-! ## States -/

/-- Memory holding words at addresses. -/
def memoryOf (ws : List (Word × Word)) : Memory := ws.foldl (fun m w => m.writeBytes w.1.toNat 4 w.2) []

/-- A drained machine under REF with a predictor, a program counter, registers and words in memory. -/
def idleAt (k : PredictorKind) (pc : Word) (rs : List (RegIdx × Word)) (ws : List (Word × Word)) : State :=
  { State.resetWith { Config.ref with predictor := k } (memoryOf ws) with
    pc := pc
    x := rs.foldl (fun x r => writeValue x r.1 r.2) (Vector.replicate 32 0) }

theorem idleAt_drained (k : PredictorKind) (pc : Word) (rs : List (RegIdx × Word)) (ws : List (Word × Word)) :
    Drained (idleAt k pc rs ws) := by
  constructor <;> first | rfl | exact Nat.zero_lt_succ 7

theorem idleAt_refTiming (k : PredictorKind) (pc : Word) (rs : List (RegIdx × Word)) (ws : List (Word × Word)) :
    RefTiming (idleAt k pc rs ws) := ⟨k, rfl⟩

theorem idleAt_cfg_wf (k : PredictorKind) (pc : Word) (rs : List (RegIdx × Word)) (ws : List (Word × Word)) :
    (idleAt k pc rs ws).cfg.wf := by
  show Config.wf { Config.ref with predictor := k }
  simp [Config.wf, Config.ref]

/-- The machine most tests start from. -/
def base : State := idleAt .notTaken 0x100 [(1, 7), (2, 0xFFFFFFFE)] []

/-- The flushed state, where the Flush completes. -/
def flushed (s : State) : State :=
  match flush s with
  | .ok f => f
  | .error _ => s

/-- The state after a step, where there is one. -/
def after (i : Instr) (s : State) : State :=
  match exec i s with
  | .next t => t
  | .fault _ => s
  | .refused _ => s

/-- The conditions of `Ticks`, evaluated. -/
def ticks (i : Instr) (s : State) : Bool :=
  decide (s.status = .running) && !s.halt && (match flush s with | .ok _ => true | .error _ => false) &&
    decide ((after i s).status = .running)

theorem ticks_spec {i : Instr} {s : State} (h : ticks i s = true) : Ticks s (flushed s) (after i s) := by
  simp only [ticks, Bool.and_eq_true, decide_eq_true_eq, Bool.not_eq_true'] at h
  obtain ⟨⟨⟨hr, hh⟩, hf⟩, ht⟩ := h
  refine ⟨hr, hh, ?_, .inr ⟨i, ?_⟩, ht⟩
  · unfold flushed
    cases hfl : flush s <;> simp_all
  · obtain ⟨record, he⟩ := exec_eq_enter i s
    have hx : exec i s = .next (tick (fun f => .ok (record f)) s) := he.trans (tickOutcome_of_running hr)
    rw [after, hx]

/-- What R163 says of a record beside its `word`, `pc`, `mn` and `cls`. -/
structure Entered where
  op : Option Op
  rd : Option RegIdx
  src1 : Source
  src2 : Source
  imm : Word
  pred : Option Bool
  deriving DecidableEq

/-- The record that entered the queue. -/
def entered (i : Instr) : List Entered :=
  (after i base).iq.map fun r => ⟨r.op, r.rd, r.src1, r.src2, r.imm, r.pred⟩

/-! ## One step: the record of each instruction (41_issue_unit.md R163), the next pc (R162), the stall (R165) -/

theorem test_enter_upper_and_jumps :
    entered (.lui 5 0x12345) = [⟨some (.add .add), some 5, .reg 0, .val 0x12345000, 0x12345000, none⟩] ∧
    entered (.auipc 0 1) = [⟨some (.add .add), none, .val 0x100, .val 0x1000, 0x1000, none⟩] ∧
    entered (.jal 1 (-4)) = [⟨some (.add .add), some 1, .val 0x100, .val 4, 0xFFFFFFFC, none⟩] ∧
    entered (.jalr 1 2 3) = [⟨some (.add .jalr), some 1, .reg 2, .val 3, 3, none⟩] ∧
    entered .halt = [⟨some (.add .add), some 10, .reg 0, .val 255, 255, none⟩] := by decide

theorem test_enter_branches :
    entered (.beq 1 2 8) = [⟨some (.cmp .beq), none, .reg 1, .reg 2, 8, some false⟩] ∧
    entered (.bne 1 2 8) = [⟨some (.cmp .bne), none, .reg 1, .reg 2, 8, some false⟩] ∧
    entered (.blt 1 2 8) = [⟨some (.cmp .blt), none, .reg 1, .reg 2, 8, some false⟩] ∧
    entered (.bge 1 2 8) = [⟨some (.cmp .bge), none, .reg 1, .reg 2, 8, some false⟩] ∧
    entered (.bltu 1 2 8) = [⟨some (.cmp .bltu), none, .reg 1, .reg 2, 8, some false⟩] ∧
    entered (.bgeu 1 2 8) = [⟨some (.cmp .bgeu), none, .reg 1, .reg 2, 8, some false⟩] := by decide

theorem test_enter_loads_and_stores :
    entered (.lb 5 1 (-1)) = [⟨some (.ls (.load .lb)), some 5, .reg 1, .val 0xFFFFFFFF, 0xFFFFFFFF, none⟩] ∧
    entered (.lh 5 1 2) = [⟨some (.ls (.load .lh)), some 5, .reg 1, .val 2, 2, none⟩] ∧
    entered (.lw 5 1 2) = [⟨some (.ls (.load .lw)), some 5, .reg 1, .val 2, 2, none⟩] ∧
    entered (.lbu 5 1 2) = [⟨some (.ls (.load .lbu)), some 5, .reg 1, .val 2, 2, none⟩] ∧
    entered (.lhu 5 1 2) = [⟨some (.ls (.load .lhu)), some 5, .reg 1, .val 2, 2, none⟩] ∧
    entered (.sb 5 1 (-2)) = [⟨some (.ls (.store .sb)), none, .reg 1, .reg 5, 0xFFFFFFFE, none⟩] ∧
    entered (.sh 5 1 2) = [⟨some (.ls (.store .sh)), none, .reg 1, .reg 5, 2, none⟩] ∧
    entered (.sw 5 1 2) = [⟨some (.ls (.store .sw)), none, .reg 1, .reg 5, 2, none⟩] := by decide

theorem test_enter_immediates :
    entered (.addi 5 6 (-1)) = [⟨some (.add .add), some 5, .reg 6, .val 0xFFFFFFFF, 0xFFFFFFFF, none⟩] ∧
    entered (.slti 5 6 1) = [⟨some (.cmp .slt), some 5, .reg 6, .val 1, 1, none⟩] ∧
    entered (.sltiu 5 6 (-1)) = [⟨some (.cmp .sltu), some 5, .reg 6, .val 0xFFFFFFFF, 0xFFFFFFFF, none⟩] ∧
    entered (.xori 5 6 1) = [⟨some (.log .xor), some 5, .reg 6, .val 1, 1, none⟩] ∧
    entered (.ori 5 6 1) = [⟨some (.log .or), some 5, .reg 6, .val 1, 1, none⟩] ∧
    entered (.andi 5 6 1) = [⟨some (.log .and), some 5, .reg 6, .val 1, 1, none⟩] ∧
    entered (.slli 5 6 31) = [⟨some (.shf .sll), some 5, .reg 6, .val 31, 31, none⟩] ∧
    entered (.srli 5 6 31) = [⟨some (.shf .srl), some 5, .reg 6, .val 31, 31, none⟩] ∧
    entered (.srai 5 6 31) = [⟨some (.shf .sra), some 5, .reg 6, .val 31, 31, none⟩] := by decide

theorem test_enter_registers :
    entered (.add 3 1 2) = [⟨some (.add .add), some 3, .reg 1, .reg 2, 0, none⟩] ∧
    entered (.sub 3 1 2) = [⟨some (.add .sub), some 3, .reg 1, .reg 2, 0, none⟩] ∧
    entered (.sll 3 1 2) = [⟨some (.shf .sll), some 3, .reg 1, .reg 2, 0, none⟩] ∧
    entered (.slt 3 1 2) = [⟨some (.cmp .slt), some 3, .reg 1, .reg 2, 0, none⟩] ∧
    entered (.sltu 3 1 2) = [⟨some (.cmp .sltu), some 3, .reg 1, .reg 2, 0, none⟩] ∧
    entered (.xor 3 1 2) = [⟨some (.log .xor), some 3, .reg 1, .reg 2, 0, none⟩] ∧
    entered (.srl 3 1 2) = [⟨some (.shf .srl), some 3, .reg 1, .reg 2, 0, none⟩] ∧
    entered (.sra 3 1 2) = [⟨some (.shf .sra), some 3, .reg 1, .reg 2, 0, none⟩] ∧
    entered (.or 3 1 2) = [⟨some (.log .or), some 3, .reg 1, .reg 2, 0, none⟩] ∧
    entered (.and 3 1 2) = [⟨some (.log .and), some 3, .reg 1, .reg 2, 0, none⟩] := by decide

theorem test_next_pc_and_stall :
    (after (.add 3 1 2) base).pc = 0x104 ∧ (after (.jal 1 (-4)) base).pc = 0xFC ∧
    (after (.beq 1 2 8) base).pc = 0x104 ∧ (after (.jalr 1 2 3) base).pc = 0x104 ∧
    (after (.beq 1 2 8) (idleAt .taken 0x100 [] [])).pc = 0x108 ∧
    (after (.jalr 1 2 3) base).stall = true ∧ (after .halt base).stall = true ∧
    (after (.jal 1 (-4)) base).stall = false := by decide

/-! ## Results of the stages (R232, R261, R291, R311) and of the memory operations (R73, R74, R341) -/

theorem test_results_arithmetic :
    addResult .add 0xFFFFFFFF 1 = 0 ∧ addResult .sub 0 1 = 0xFFFFFFFF ∧ addResult .jalr 0xFFFFFFFF 2 = 0 ∧
    addResult .jalr 6 3 = 8 ∧ cmpResult .slt 0x80000000 0x7FFFFFFF = 1 ∧
    cmpResult .sltu 0x80000000 0x7FFFFFFF = 0 ∧ cmpResult .bge 5 5 = 1 ∧ cmpResult .bgeu 0 0xFFFFFFFF = 0 ∧
    cmpResult .beq 3 3 = 1 ∧ cmpResult .bne 3 3 = 0 ∧ logResult .and 0xFF00 0x0FF0 = 0x0F00 ∧
    logResult .or 0xFF00 0x0FF0 = 0xFFF0 ∧ logResult .xor 0xFF00 0x0FF0 = 0xF0F0 ∧
    shfResult .sll 1 33 = 2 ∧ shfResult .srl 0x80000000 31 = 1 ∧ shfResult .sra 0x80000000 31 = 0xFFFFFFFF := by
  decide

theorem test_memory_little_endian :
    (memWrite [] 65536 0xFFFC 4 0x11223380).map (fun m =>
      (m.read 0xFFFC, m.read 0xFFFF, memRead m 65536 0xFFFE 2, loadValue m 65536 .lb 0xFFFC,
        loadValue m 65536 .lbu 0xFFFC, memRead m 65536 0xFFFD 4)) =
      some (0x80, 0x11, some 0x1122, some 0xFFFFFF80, some 0x80, none) ∧
    memWrite [] 65536 0xFFFD 4 1 = none ∧ memWrite [] 65536 0xFFFFFFFF 1 1 = none ∧
    memWrite [(8, 5)] 65536 8 1 0 = some [] := by decide

theorem test_withFetchWord_runs_first_after_reset :
    (match step (State.reset.withFetchWord 32 0x002081B3) with
      | .next t => t.iq.map (fun r => (r.word, r.pc, r.op)) == [(0x002081B3, 0, some (.add .add))]
      | .fault _ => false
      | .refused _ => false) = true := by decide

/-! ## The host (70_reset_and_hazards.md R455, R456) and the assembler's constants (30_encoding.md R123) -/

theorem test_loader :
    loadImage 65536 "@00000010 b3 81\n20 00 @00000000 7F".toList =
      some [(0, 0x7F), (16, 0xB3), (17, 0x81), (18, 0x20)] ∧
    loadImage 65536 "@0000fFfF 01 02".toList = none ∧ loadImage 65536 "@0000fffe aB Cd".toList = some [(65534, 0xAB), (65535, 0xCD)] ∧
    ["1", "0G", "@0000000G", "000000000", "00 @12", "@000000100"].all (fun t => loadImage 65536 t.toList == none) = true := by
  decide

theorem test_pseudo :
    Pseudo.words (.li 10 255) = [haltWord] ∧ Pseudo.expand (.li 5 0x12345FFF) = [.lui 5 0x12346, .addi 5 5 (-1)] ∧
      Pseudo.words .nop = [0x00000013] ∧ Pseudo.expand .ret = [.jalr 0 1 0] := by decide

/-! ## Witnesses: the hypotheses of the statements can be met, each clause at a boundary -/

theorem witness_DecodeOfEncode :
    [Instr.jal 1 0x100000, .jal 1 0x0FFFFE, .beq 1 2 0x1000, .bgeu 31 31 0x0FFE, .addi 10 0 254, .halt, .lw 0 0 0x800].all
      Instr.wellFormed = true := by decide

theorem witness_EncodeOfDecode : decode 0x0FF00513#32 = .ok .halt ∧ decode 0xFFF30293#32 = .ok (.addi 5 6 (-1)) := by decide

/-- Each clause: a row that matches, and a word that no row matches. -/
theorem witness_DecoderFollowsOpcodeTable :
    (⟨.lui, 0x0000007F, 0x00000037⟩ : OpcodeRow) ∈ opcodeRows ∧
      (0xFFFFFFB7#32 &&& 0x0000007F#32 = 0x00000037#32 ∧ (decodeRecord 0xFFFFFFB7#32).mn = .lui) ∧
      (∀ row ∈ opcodeRows, 0x0000707F#32 &&& row.mask ≠ row.pattern) := by decide

theorem witness_StepRunsDecodedInstruction :
    (idleAt .notTaken 0xFFFC [] [(0xFFFC, 0x002081B3)]).fetchWord = some 0x002081B3#32 ∧
      decode 0x002081B3#32 = .ok (.add 3 1 2) := by decide

theorem witness_PlacedInstructionIsRun :
    (idleAt .notTaken 0xFFFC [] []).mem.wf ∧
      (idleAt .notTaken 0xFFFC [] []).pc.toNat + 4 ≤ (idleAt .notTaken 0xFFFC [] []).cfg.memSize ∧
      (Instr.beq 1 2 (-2)).wellFormed = true := by decide

theorem witness_RunningTicksAndTerminalStops :
    base.status = .running ∧ ({ base with status := .halted 7 } : State).status = .halted 7 ∧
      ({ base with status := .aborted (.unreachable 0 0) } : State).status = .aborted (.unreachable 0 0) := by decide

theorem witness_HaltIsDetectedAtFlush :
    ({ base with halt := true } : State).status = .running ∧ ({ base with halt := true } : State).halt = true := by decide

/-- A reorder-buffer entry of an instruction, as fetched in `base`. -/
def entryOf (i : Instr) (st : RobState) (v : Word) : RobEntry :=
  ⟨fetchedRecord i base, st, (fetchedRecord i base).rd, v⟩

/-- `base` with entries in the reorder buffer, whose head is the last slot of the ring. -/
def withRob (es : List RobEntry) : State := { base with rob := ⟨7, es⟩ }

/-- `base` with records in the instruction queue. -/
def withIq (is : List IRec) : State := { base with iq := is }

/-- An abort in Flush, one in Execute, and one of a step that fetches outside memory. -/
theorem witness_AbortLeavesPhaseStart :
    (∃ a t, TickTo { base with bus := [⟨.writeBack, 0, 5⟩] } t ∧ base.status = .running ∧
      t.status = .aborted a ∧ flush { base with bus := [⟨.writeBack, 0, 5⟩] } = .error a) ∧
    (∃ a t, TickTo (withIq [invalidRecord 0 base]) t ∧ t.status = .aborted a ∧
      (withIq [invalidRecord 0 base]).status = .running) ∧
    ∃ a t, TickTo (idleAt .notTaken 0xFFFD [] []) t ∧ t.status = .aborted a :=
  ⟨⟨.protocolViolation (.writeBackDead 0 5) 0, _, .inr ⟨.add 3 1 2, rfl⟩, rfl, rfl, rfl⟩,
    ⟨.unclassifiable 0 0x100 0, _, .inr ⟨.add 3 1 2, rfl⟩, rfl, rfl⟩,
    ⟨.memoryOutOfRange 0xFFFD 4 .fetch 0, _, .inl rfl, rfl⟩⟩

theorem witness_ExecEntersDrainedPipeline : Drained base ∧ base.cfg.wf ∧ (Instr.jal 1 2).wellFormed = true :=
  ⟨idleAt_drained _ _ _ _, idleAt_cfg_wf _ _ _ _, rfl⟩

/-- The gate open with one free place, for an instruction and for an INVALID word; closed by the stall, closed by a full
queue. -/
theorem witness_FetchAppendsCanonicalRecord :
    let one := fetchedRecord (.add 3 1 2) base
    let s := withIq [one, one, one]
    let t := { base with stall := true }
    let u := withIq [one, one, one, one]
    (Ticks s (flushed s) (after (.lw 3 1 2) s) ∧ FetchOpen (flushed s) ∧
      Delivers (Instr.lw 3 1 2).drec (encode (.lw 3 1 2)) s (after (.lw 3 1 2) s)) ∧
    (∃ v, Ticks base (flushed base) v ∧ FetchOpen (flushed base) ∧ Delivers (decodeRecord 0) 0 base v) ∧
    (Ticks t (flushed t) (after .halt t) ∧ ¬ FetchOpen (flushed t)) ∧
    (Ticks u (flushed u) (after (.lw 3 1 2) u) ∧ ¬ FetchOpen (flushed u)) :=
  ⟨⟨ticks_spec (by decide), by decide, .inr ⟨_, rfl, rfl, rfl, rfl⟩⟩,
    ⟨_, ⟨rfl, rfl, by decide, .inl rfl, rfl⟩, by decide, .inl ⟨by decide, rfl, rfl⟩⟩,
    ⟨ticks_spec (by decide), by decide⟩, ⟨ticks_spec (by decide), by decide⟩⟩

/-- With a redirect; without one, with the gate open for a jump, and with the gate closed. -/
theorem witness_NextPcByPriority :
    let s := withRob [entryOf (.beq 1 2 8) .write 1]
    let u := { base with stall := true }
    (Ticks s (flushed s) (after (.jal 1 8) s) ∧ redirectOf (flushed s) = some 0x108) ∧
    (Ticks base (flushed base) (after (.jal 1 8) base) ∧ redirectOf (flushed base) = none ∧ FetchOpen (flushed base) ∧
      Delivers (Instr.jal 1 8).drec (encode (.jal 1 8)) base (after (.jal 1 8) base)) ∧
    (Ticks u (flushed u) (after (.jal 1 8) u) ∧ redirectOf (flushed u) = none ∧ ¬ FetchOpen (flushed u)) :=
  ⟨⟨ticks_spec (by decide), by decide⟩,
    ⟨ticks_spec (by decide), by decide, by decide, .inr ⟨_, rfl, rfl, rfl, rfl⟩⟩,
    ⟨ticks_spec (by decide), by decide, by decide⟩⟩

theorem witness_InvalidWordAborts :
    Drained base ∧ base.cfg.wf ∧ base.fetchWord = some 0#32 ∧ decode 0#32 = .error .notWordForm :=
  ⟨idleAt_drained _ _ _ _, idleAt_cfg_wf _ _ _ _, by decide, by decide⟩

/-- The hypotheses of the four statements about results in a register, of the loads and stores inside memory, and of the
halt, with a load or store of each width at the last place where it is inside memory. -/
theorem witness_results :
    let s := idleAt .notTaken 0x100 [(1, 0x10000)] [(0x104, haltWord)]
    Drained s ∧ RefTiming s ∧ SentinelAt s (s.pc + 4) ∧ s.mem.wf ∧
      (s.reg 1 + (-1 : BitVec 12).signExtend 32).toNat + 1 = s.cfg.memSize ∧
      (s.reg 1 + (-2 : BitVec 12).signExtend 32).toNat + 2 = s.cfg.memSize ∧
      (s.reg 1 + (-4 : BitVec 12).signExtend 32).toNat + 4 = s.cfg.memSize ∧
      ¬ ((5 : RegIdx) = 10 ∧ (0 : RegIdx) = 0 ∧ (255 : BitVec 12) = 255) :=
  ⟨idleAt_drained _ _ _ _, idleAt_refTiming _ _ _ _, by unfold SentinelAt; decide, by decide, by decide, by decide, by decide, by decide⟩

theorem witness_JalLinksAndJumps :
    let s := idleAt .taken 0x100 [] [(0xFE, haltWord)]
    Drained s ∧ RefTiming s ∧ SentinelAt s (s.pc + (-2 : BitVec 21).signExtend 32) ∧
      (-2 : BitVec 21).getLsbD 0 = false :=
  ⟨idleAt_drained _ _ _ _, idleAt_refTiming _ _ _ _, by unfold SentinelAt; decide, by decide⟩

theorem witness_JalrLinksAndJumps : Drained base ∧ RefTiming base :=
  ⟨idleAt_drained _ _ _ _, idleAt_refTiming _ _ _ _⟩

/-- With either guess, and with equal and unequal operands. -/
theorem witness_BranchesFollowTheirRelations :
    let s := idleAt .notTaken 0x100 [(1, 5), (2, 5)] [(0x104, haltWord)]
    let t := idleAt .taken 0x2000 [(1, 5), (2, 6)] [(0x1000, haltWord)]
    (Drained s ∧ RefTiming s ∧ SentinelAt s (s.pc + 4) ∧ predict s.cfg.predictor s.pred s.pc = false) ∧
    (Drained t ∧ RefTiming t ∧ SentinelAt t (t.pc + (0x1000 : BitVec 13).signExtend 32) ∧
      predict t.cfg.predictor t.pred t.pc = true ∧ (0x1000 : BitVec 13).getLsbD 0 = false) :=
  ⟨⟨idleAt_drained _ _ _ _, idleAt_refTiming _ _ _ _, by unfold SentinelAt; decide, by decide⟩,
    ⟨idleAt_drained _ _ _ _, idleAt_refTiming _ _ _ _, by unfold SentinelAt; decide, by decide, by decide⟩⟩

/-- The fetch and each width at the first place where it is outside memory. -/
theorem witness_AccessOutOfRangeAborts :
    let s := idleAt .notTaken 0x100 [(1, 0x10000)] [(0x104, haltWord)]
    let t := idleAt .notTaken 0xFFFD [] []
    (Drained t ∧ t.cfg.wf ∧ ¬ t.pc.toNat + 4 ≤ t.cfg.memSize) ∧
    Drained s ∧ RefTiming s ∧ SentinelAt s (s.pc + 4) ∧
      ¬ (s.reg 1 + (0 : BitVec 12).signExtend 32).toNat + 1 ≤ s.cfg.memSize ∧
      ¬ (s.reg 1 + (-1 : BitVec 12).signExtend 32).toNat + 2 ≤ s.cfg.memSize ∧
      ¬ (s.reg 1 + (-3 : BitVec 12).signExtend 32).toNat + 4 ≤ s.cfg.memSize :=
  ⟨⟨idleAt_drained _ _ _ _, idleAt_cfg_wf _ _ _ _, by decide⟩, idleAt_drained _ _ _ _, idleAt_refTiming _ _ _ _,
    by unfold SentinelAt; decide, by decide, by decide, by decide⟩

/-- A store, and a branch that the predictor guesses wrong. -/
theorem witness_OneInstructionMatchesInterpreter :
    let s := idleAt .notTaken 0x100 [(1, 0x200)] [(0x100, encode (.sw 1 1 4)), (0x104, haltWord)]
    let t := idleAt .taken 0x100 [(1, 5)] [(0x100, encode (.beq 1 0 8)), (0x104, haltWord), (0x108, haltWord)]
    (∃ a' o, Drained s ∧ RefTiming s ∧ s.fetchWord = some (encode (.sw 1 1 4)) ∧
      seqStep s.cfg.memSize s.arch = .next a' o ∧ memRead a'.mem s.cfg.memSize a'.pc 4 = some haltWord ∧
      SentinelAt s a'.pc ∧
      SentinelAt s (tableNextPc (Instr.sw 1 1 4).drec s.pc (predict s.cfg.predictor s.pred s.pc))) ∧
    (∃ a' o, Drained t ∧ RefTiming t ∧ t.fetchWord = some (encode (.beq 1 0 8)) ∧
      seqStep t.cfg.memSize t.arch = .next a' o ∧ memRead a'.mem t.cfg.memSize a'.pc 4 = some haltWord ∧
      SentinelAt t a'.pc ∧
      SentinelAt t (tableNextPc (Instr.beq 1 0 8).drec t.pc (predict t.cfg.predictor t.pred t.pc))) :=
  ⟨⟨_, _, idleAt_drained _ _ _ _, idleAt_refTiming _ _ _ _, by decide, rfl, by decide,
      by unfold SentinelAt; decide, by unfold SentinelAt; decide⟩,
    ⟨_, _, idleAt_drained _ _ _ _, idleAt_refTiming _ _ _ _, by decide, rfl, by decide,
      by unfold SentinelAt; decide, by unfold SentinelAt; decide⟩⟩

theorem witness_memory_accesses :
    (0xFFFC : Word).toNat + 4 ≤ 65536 ∧ ¬ (0xFFFD : Word).toNat + 4 ≤ 65536 ∧
      ¬ (0xFFFFFFFF : Word).toNat + 1 ≤ 65536 ∧ Memory.wf [(0xFFFF, 0x80)] ∧
      memRead [(0xFFFF, 0x80)] 65536 0xFFFF 1 = some 0x80 ∧
      memRead [(0xFFFF, 0x80)] 65536 0xFFFE 2 = some 0x8000 := by decide

theorem witness_FullFlagsAreOfFlushedState : flush base = .ok (flushed base) := by decide

theorem witness_SquashFieldByField :
    (withRob [entryOf (.add 3 1 2) .issue 0]).cfg.wf ∧
      ({ withRob [entryOf (.add 3 1 2) .issue 0] with clear := true } : State).clear = true :=
  ⟨idleAt_cfg_wf .notTaken 0x100 [(1, 7), (2, 0xFFFFFFFE)] [], rfl⟩

/-- A WriteBack for the last entry of a full ring, a live entry that none names, and a WriteBack for a dead index. -/
theorem witness_WriteBackReachesReorderBuffer :
    let e := entryOf (.add 3 1 2) .issue 0
    let s := { withRob [e, e, e, e, e, e, e, e] with bus := [⟨.writeBack, 6, 9⟩] }
    let t := { withRob [e] with bus := [⟨.writeBack, 6, 9⟩] }
    (s.clear = false ∧ s.rob.head < s.cfg.robCap ∧ s.rob.entries.length ≤ s.cfg.robCap ∧
      flush s = .ok (flushed s) ∧ s.robAt 6 = some e ∧ s.robAt 7 = some e ∧
      (∀ m ∈ s.bus, m.kind = .storeSuccess → m.idx ≠ 6) ∧ (⟨.writeBack, 6, 9⟩ : Msg) ∈ s.bus ∧
      (∀ m ∈ s.bus, m.kind = .writeBack → m.idx ≠ 7)) ∧
    (t.clear = false ∧ t.rob.head < t.cfg.robCap ∧ t.rob.entries.length ≤ t.cfg.robCap ∧
      (⟨.writeBack, 6, 9⟩ : Msg) ∈ t.bus ∧ t.robAt 6 = none) := by decide

/-- The head that waits, and each way of not being it; the head store, and each way of not being it; an index queued
once, not at all, and twice. -/
theorem witness_LoadStoreMessagesAbsorbed :
    let e := entryOf (.sw 2 1 0) .waitSt 0
    let q : StoreEntry := ⟨.sw, 7, 0x200, true, 1, false, 0⟩
    let l : LoadEntry := ⟨.lw, 7, 0, false, 0⟩
    (withRob [e]).rob.entries = [e] ∧ 7 = (withRob [e]).rob.head ∧ e.state = .waitSt ∧
      (withRob []).rob.entries = [] ∧ 6 ≠ (withRob [e]).rob.head ∧ (entryOf (.sw 2 1 0) .write 0).state ≠ .waitSt ∧
      ({ base with sq := [q] } : State).sq = [q] ∧ q.dest = 7 ∧ q.ready = true ∧ base.sq = [] ∧
      ({ q with ready := false } : StoreEntry).ready = false ∧
      queuedUnder [] [q] 7 = 1 ∧ queuedUnder [l] [] 7 = 1 ∧ queuedUnder [l] [q] 6 = 0 ∧ queuedUnder [l] [q] 7 = 2 := by
  decide

/-- A GetAddr that no entry or that two entries match aborts (47_load_store.md R334). -/
theorem test_getAddr_mismatch_aborts :
    let q : StoreEntry := ⟨.sw, 7, 0x200, true, 1, false, 0⟩
    let l : LoadEntry := ⟨.lw, 7, 0, false, 0⟩
    flush { base with bus := [⟨.getAddr, 7, 4⟩] } = .error (.protocolViolation (.getAddrWithoutEntry 7 4) 0) ∧
      flush { base with lq := [l], sq := [q], bus := [⟨.getAddr, 7, 4⟩] } =
        .error (.protocolViolation (.getAddrWithoutEntry 7 4) 0) := by decide

/-- The latched entry of an instruction that issues in `base`. -/
def latched (i : Instr) (op : Op) : State :=
  { base with latch := some (latchOf base (fetchedRecord i base) op), cycle := 1 }

theorem latched_inv : Inv (latched (.beq 1 2 8) (.cmp .beq)) where
  capacity := {
    cfg := idleAt_cfg_wf .notTaken 0x100 [(1, 7), (2, 0xFFFFFFFE)] []
    iq := by decide
    head := by decide
    rob := by decide
    add := rfl
    cmp := rfl
    log := rfl
    shf := rfl
    ls := rfl
    lq := by decide
    sq := by decide
    bus := by decide
    latch := ⟨by decide, by show none ∈ base.rs.cmp; decide, trivial⟩ }
  stages := ⟨trivial, trivial, trivial, trivial, trivial, trivial⟩
  queues := ⟨List.Pairwise.nil, List.Pairwise.nil, fun _ h => (nomatch h), fun _ h => (nomatch h)⟩
  records := {
    iq := fun _ h => nomatch h
    rob := fun _ h => nomatch h
    latch := by
      intro l hl
      cases hl
      exact ⟨⟨⟨by decide, fun _ => rfl⟩, rfl, by decide, by decide⟩, rfl, rfl⟩ }
  tags := by
    intro r q h
    have hn : ∀ r : RegIdx, (latched (.beq 1 2 8) (.cmp .beq)).tagOf r = none := by decide
    rw [hn r] at h
    cases h
  zero := ⟨by decide, by decide⟩
  memory := ⟨by decide, fun _ h => (nomatch h)⟩
  flags := by unfold FlagInv; decide

theorem witness_IssuedEntryIsInsertedAtItsIndex :
    let s := latched (.beq 1 2 8) (.cmp .beq)
    Inv s ∧ s.clear = false ∧ s.latch = some (latchOf base (fetchedRecord (.beq 1 2 8) base) (.cmp .beq)) ∧
      flush s = .ok (flushed s) :=
  ⟨latched_inv, rfl, rfl, by decide⟩

/-- A load joins behind another one, whose address arrives in the same Flush; a store joins behind the head store, which
is released. -/
theorem witness_LoadStoreQueuesThroughFlush :
    let e : LoadEntry := ⟨.lw, 7, 0, false, 0⟩
    let q : StoreEntry := ⟨.sw, 7, 0x200, true, 0, false, 0⟩
    let s := { latched (.lb 3 1 2) (.ls (.load .lb)) with lq := [e], bus := [⟨.getAddr, 7, 0x40⟩] }
    let t := { latched (.sb 3 1 2) (.ls (.store .sb)) with sq := [q], bus := [⟨.commitMem, 7, 9⟩] }
    (s.clear = false ∧ flush s = .ok (flushed s) ∧ (⟨.getAddr, 7, 0x40⟩ : Msg) ∈ s.bus ∧
      loadsInserted s = [e, ⟨.lb, 0, 0, false, 1⟩] ∧
      (flushed s).lq = [⟨.lw, 7, 0x40, true, 0⟩, ⟨.lb, 0, 0, false, 1⟩]) ∧
    (t.clear = false ∧ flush t = .ok (flushed t) ∧ (⟨.commitMem, 7, 9⟩ : Msg) ∈ t.bus ∧
      storesInserted t = [q, ⟨.sb, 0, 0, false, 1, false, 0⟩] ∧
      (flushed t).sq = [⟨.sw, 7, 0x200, true, 0, true, 9⟩, ⟨.sb, 0, 0, false, 1, false, 0⟩]) := by decide

/-- An entry in the last slot of its bank with one operand that the bus resolves, one that it does not. -/
theorem witness_EveryBusySlotSnoopsTheBus :
    let e : RSEntry AddOp := ⟨.add, 3, .pending 0, .pending 1, 0⟩
    let r := entryOf (.add 3 1 2) .issue 0
    let s := { base with
      rs := { base.rs with add := [none, none, none, some e] }
      rob := ⟨0, [r, r]⟩
      bus := [⟨.writeBack, 0, 9⟩] }
    s.clear = false ∧ flush s = .ok (flushed s) ∧
      (s.rs.view .add)[3]? = some (some (e.withOp (.add .add))) := by decide

/-- The arriving entry meets its operand on the bus, through the port, and not at all. -/
theorem witness_ArrivingEntryTakesLowestFreeSlot :
    let w := entryOf (.add 3 1 2) .write 5
    let i := entryOf (.add 3 1 2) .issue 5
    let l : Latch := ⟨2, ⟨fetchedRecord (.add 3 1 2) base, .issue, some 3, 0⟩, ⟨.add .add, 2, .pending 0, .pending 1, 0⟩, none⟩
    let s := { base with latch := some l, rob := ⟨0, [w, i]⟩ }
    let t := { s with bus := [⟨.commitReg, 0, 6⟩] }
    (s.clear = false ∧ s.latch = some l ∧ flush s = .ok (flushed s) ∧
      (flushed s).robAt 0 = some w ∧ w.state = .write ∧ (flushed s).robAt 1 = some i ∧ i.state ≠ .write) ∧
    Unannounced s.bus 0 ∧ flush t = .ok (flushed t) ∧ Announced t.bus 0 6 := by
  unfold Announced Unannounced
  decide

/-- The four stages in the four situations of R231: finishing, counting, taking an entry, waiting. -/
theorem witness_ArithmeticStagesStep :
    let e : RSEntry LogOp := ⟨.xor, 2, .value 1, .value 2, 0⟩
    let s := { base with
      fu := ⟨.busy 1 .add 1 2 0, .busy 2 .slt 1 2 1, .idle, .idle⟩
      rs := { base.rs with log := [none, none, none, some e] } }
    Ticks s (flushed s) (after (.add 3 1 2) s) ∧ (flushed s).fu.add = .busy 1 .add 1 2 0 ∧
      (flushed s).fu.cmp = .busy 2 .slt 1 2 1 ∧ FirstReady (flushed s).rs.log 3 e ∧ NoneReady (flushed s).rs.shf := by
  refine ⟨ticks_spec (by decide), by decide, by decide, ⟨by decide, ⟨⟨1, rfl⟩, ⟨2, rfl⟩⟩, ?_⟩, ?_⟩
  · intro j hj e' he'
    match j, hj with
    | 0, _ => exact nomatch he'
    | 1, _ => exact nomatch he'
    | 2, _ => exact nomatch he'
  · intro e' he'
    have hn : ∀ x ∈ (flushed base).rs.shf, x = none := by decide
    exact nomatch hn _ he'

/-- No ready entry, a ready load, a ready store. -/
theorem witness_LoadStoreBankDispatch :
    let ld : RSEntry LsOp := ⟨.load .lw, 2, .value 1, .value 2, 2⟩
    let st : RSEntry LsOp := ⟨.store .sw, 2, .value 1, .value 2, 8⟩
    let s := { base with rs := { base.rs with ls := [some ld, none, none, none] } }
    let t := { base with rs := { base.rs with ls := [some st, none, none, none] } }
    (Ticks base (flushed base) (after (.add 3 1 2) base) ∧ NoneReady (flushed base).rs.ls) ∧
    (Ticks s (flushed s) (after (.add 3 1 2) s) ∧ FirstReady (flushed s).rs.ls 0 ld) ∧
    (Ticks t (flushed t) (after (.add 3 1 2) t) ∧ FirstReady (flushed t).rs.ls 0 st) := by
  refine ⟨⟨ticks_spec (by decide), ?_⟩,
    ⟨ticks_spec (by decide), by decide, ⟨⟨1, rfl⟩, ⟨2, rfl⟩⟩, fun j hj => absurd hj (Nat.not_lt_zero j)⟩,
    ⟨ticks_spec (by decide), by decide, ⟨⟨1, rfl⟩, ⟨2, rfl⟩⟩, fun j hj => absurd hj (Nat.not_lt_zero j)⟩⟩
  intro e' he'
  have hn : ∀ x ∈ (flushed base).rs.ls, x = none := by decide
  exact nomatch hn _ he'

/-- A load that starts beside a store of the same age at the boundary, one that an older store holds back, one that counts,
one that completes. -/
theorem witness_LoadStageStep :
    let e : LoadEntry := ⟨.lw, 2, 0xFFFC, true, 5⟩
    let u : StoreEntry := ⟨.sw, 1, 0, false, 5, false, 0⟩
    let s1 := { base with lq := [e], sq := [u] }
    let s2 := { base with lq := [e], sq := [{ u with ts := 4 }] }
    let s3 := { base with ldst := .busy 2 e }
    let s4 := { base with ldst := .busy 1 e }
    (Ticks s1 (flushed s1) (after .halt s1) ∧ (flushed s1).lq = [e] ∧ (flushed s1).sq = [u]) ∧
    (Ticks s2 (flushed s2) (after .halt s2) ∧ (flushed s2).lq = [e] ∧
      (flushed s2).sq = [{ u with ts := 4 }]) ∧
    (Ticks s3 (flushed s3) (after .halt s3) ∧ (flushed s3).ldst = .busy 2 e) ∧
    (Ticks s4 (flushed s4) (after .halt s4) ∧ (flushed s4).ldst = .busy 1 e) :=
  ⟨⟨ticks_spec (by decide), by decide, by decide⟩, ⟨ticks_spec (by decide), by decide, by decide⟩,
    ⟨ticks_spec (by decide), by decide⟩, ⟨ticks_spec (by decide), by decide⟩⟩

/-- A committed store that starts, one not committed, one that counts, one that completes. -/
theorem witness_StoreStageStep :
    let e : StoreEntry := ⟨.sw, 2, 0xFFFC, true, 5, true, 7⟩
    let s1 := { base with sq := [e] }
    let s2 := { base with sq := [{ e with committed := false }] }
    let s3 := { base with sq := [e], stst := .busy 2 }
    let s4 := { base with sq := [e], stst := .busy 1 }
    (Ticks s1 (flushed s1) (after .halt s1) ∧ (flushed s1).sq = [e] ∧ (flushed s1).stst = .idle) ∧
    (Ticks s2 (flushed s2) (after .halt s2) ∧ (flushed s2).sq = [{ e with committed := false }]) ∧
    (Ticks s3 (flushed s3) (after .halt s3) ∧ (flushed s3).stst = .busy 2) ∧
    (Ticks s4 (flushed s4) (after .halt s4) ∧ (flushed s4).stst = .busy 1 ∧ (flushed s4).sq = [e]) :=
  ⟨⟨ticks_spec (by decide), by decide, by decide⟩, ⟨ticks_spec (by decide), by decide⟩,
    ⟨ticks_spec (by decide), by decide⟩, ⟨ticks_spec (by decide), by decide, by decide⟩⟩

/-- An empty queue, a head that issues into the last entry of the ring, a head that a full ring holds back. -/
theorem witness_IssueHandsOverTheHead :
    let r := fetchedRecord (.sw 2 1 4) base
    let e := entryOf (.add 3 1 2) .issue 0
    let s := { withRob [e, e, e, e, e, e, e] with iq := [r] }
    let t := { withRob [e, e, e, e, e, e, e, e] with iq := [r] }
    (Ticks base (flushed base) (after .halt base) ∧ (flushed base).iq = []) ∧
    (Ticks s (flushed s) (after .halt s) ∧ (flushed s).iq = [r] ∧ r.op = some (.ls (.store .sw)) ∧
      CanIssue (flushed s) (.ls (.store .sw))) ∧
    (Ticks t (flushed t) (after .halt t) ∧ (flushed t).iq = [r] ∧
      ¬ CanIssue (flushed t) (.ls (.store .sw))) := by
  refine ⟨⟨ticks_spec (by decide), by decide⟩, ⟨ticks_spec (by decide), by decide, by decide, ?_⟩,
    ⟨ticks_spec (by decide), by decide, fun h => h.1 (by decide)⟩⟩
  exact ⟨by decide, by show none ∈ (flushed base).rs.ls; decide, by show _ ≠ _; decide⟩

theorem witness_InvalidHeadAborts :
    let s := withIq [invalidRecord 0 base]
    s.status = .running ∧ s.halt = false ∧ flush s = .ok (flushed s) ∧ (flushed s).iq = [invalidRecord 0 base] ∧
      (invalidRecord 0 base).op = none ∧ (∃ c, commit (flushed s) = .ok c) ∧
      (∃ l, loadStage (flushed s) = .ok l) ∧ ∃ o, storeStage (flushed s) = .ok o :=
  ⟨by decide, by decide, by decide, by decide, by decide, ⟨_, rfl⟩, ⟨_, rfl⟩, ⟨_, rfl⟩⟩

/-- An empty buffer, a head in Issue, a store that waits; a head in Exec and one that waits without being a store. -/
theorem witness_CommitGate :
    let s1 := withRob [entryOf (.add 3 1 2) .issue 0]
    let s2 := withRob [entryOf (.sw 2 1 0) .waitSt 0]
    let s3 := withRob [entryOf (.add 3 1 2) .exec 0]
    let s4 := withRob [entryOf (.add 3 1 2) .waitSt 0]
    (Ticks base (flushed base) (after .halt base) ∧ (flushed base).rob.entries = []) ∧
    (Ticks s1 (flushed s1) (after .halt s1) ∧ (flushed s1).rob.entries = [entryOf (.add 3 1 2) .issue 0]) ∧
    (Ticks s2 (flushed s2) (after .halt s2) ∧ (flushed s2).rob.entries = [entryOf (.sw 2 1 0) .waitSt 0] ∧
      (entryOf (.sw 2 1 0) .waitSt 0).isStore = true) ∧
    (s3.status = .running ∧ s3.halt = false ∧ flush s3 = .ok (flushed s3) ∧
      (flushed s3).rob.entries = [entryOf (.add 3 1 2) .exec 0]) ∧
    (s4.status = .running ∧ s4.halt = false ∧ flush s4 = .ok (flushed s4) ∧
      (flushed s4).rob.entries = [entryOf (.add 3 1 2) .waitSt 0] ∧
      (entryOf (.add 3 1 2) .waitSt 0).isStore = false) :=
  ⟨⟨ticks_spec (by decide), by decide⟩, ⟨ticks_spec (by decide), by decide⟩,
    ⟨ticks_spec (by decide), by decide, by decide⟩, by decide, by decide⟩

theorem witness_SentinelCommit :
    let e := entryOf .halt .write 255
    Ticks (withRob [e]) (flushed (withRob [e])) (after (.add 3 1 2) (withRob [e])) ∧
      HeadCommits (flushed (withRob [e])) e [] ∧ e.instr.isHalt = true :=
  ⟨ticks_spec (by decide), by unfold HeadCommits; decide, by decide⟩

/-- With a destination, and with none. -/
theorem witness_ResultCommit :
    let e := entryOf (.lw 3 1 0) .write 9
    let z := entryOf (.add 0 1 2) .write 9
    (Ticks (withRob [e]) (flushed (withRob [e])) (after .halt (withRob [e])) ∧
      HeadCommits (flushed (withRob [e])) e [] ∧ e.instr.isHalt = false ∧
      e.instr.op = some (.ls (.load .lw)) ∧ (Op.ls (.load .lw)).isResult = true ∧ e.rd = some 3) ∧
    (Ticks (withRob [z]) (flushed (withRob [z])) (after .halt (withRob [z])) ∧
      HeadCommits (flushed (withRob [z])) z [] ∧ z.instr.op = some (.add .add) ∧
      (Op.add .add).isResult = true ∧ z.rd = none) :=
  ⟨⟨ticks_spec (by decide), by unfold HeadCommits; decide, by decide, by decide, by decide, by decide⟩,
    ⟨ticks_spec (by decide), by unfold HeadCommits; decide, by decide, by decide, by decide⟩⟩

theorem witness_JalrCommit :
    let e := entryOf (.jalr 1 2 0) .write 0x200
    let s := { withRob [e] with stall := true }
    Ticks s (flushed s) (after .halt s) ∧ HeadCommits (flushed s) e [] ∧ e.instr.isHalt = false ∧
      e.instr.op = some (.add .jalr) ∧ (flushed s).stall = true :=
  ⟨ticks_spec (by decide), by unfold HeadCommits; decide, by decide, by decide, by decide⟩

/-- A wrong guess, and a right one with the gate open and with it closed. -/
theorem witness_BranchCommit :
    let e := entryOf (.bgeu 1 2 8) .write 1
    let g := entryOf (.bgeu 1 2 8) .write 0
    let s := withRob [g]
    let t := { withRob [g] with stall := true }
    (Ticks (withRob [e]) (flushed (withRob [e])) (after (.jal 1 8) (withRob [e])) ∧
      HeadCommits (flushed (withRob [e])) e [] ∧ e.instr.isHalt = false ∧
      e.instr.op = some (.cmp .bgeu) ∧ CmpOp.bgeu.isBranch = true ∧ Mispredicted e) ∧
    (Ticks s (flushed s) (after (.jal 1 8) s) ∧ HeadCommits (flushed s) g [] ∧ ¬ Mispredicted g ∧
      FetchOpen (flushed s) ∧ Delivers (Instr.jal 1 8).drec (encode (.jal 1 8)) s (after (.jal 1 8) s)) ∧
    (Ticks t (flushed t) (after (.jal 1 8) t) ∧ HeadCommits (flushed t) g [] ∧ ¬ FetchOpen (flushed t)) :=
  ⟨⟨ticks_spec (by decide), by unfold HeadCommits; decide, by decide, by decide, by decide, by unfold Mispredicted; decide⟩,
    ⟨ticks_spec (by decide), by unfold HeadCommits; decide, by unfold Mispredicted; decide, by decide,
      .inr ⟨_, rfl, rfl, rfl, rfl⟩⟩,
    ⟨ticks_spec (by decide), by unfold HeadCommits; decide, by decide⟩⟩

theorem witness_StoreCommit :
    let e := entryOf (.sb 2 1 0) .write 9
    Ticks (withRob [e]) (flushed (withRob [e])) (after .halt (withRob [e])) ∧
      HeadCommits (flushed (withRob [e])) e [] ∧ e.instr.isHalt = false ∧
      e.instr.op = some (.ls (.store .sb)) :=
  ⟨ticks_spec (by decide), by unfold HeadCommits; decide, by decide, by decide⟩

theorem witness_ExecuteBoundsAndFrame : Ticks base (flushed base) (after .halt base) := ticks_spec (by decide)

/-- A retirement in Flush, one in Execute and an insertion in one tick. -/
theorem witness_ReorderBufferIsFifo :
    let s := { latched (.lb 3 1 2) (.ls (.load .lb)) with
      rob := ⟨7, [entryOf (.sw 2 1 0) .waitSt 0, entryOf (.add 3 1 2) .write 5]⟩
      bus := [⟨.storeSuccess, 7, 0⟩] }
    Ticks s (flushed s) (after .halt s) ∧ s.clear = false ∧
      (after .halt s).rob.entries.map (fun e => e.instr.word) = [encode (.lb 3 1 2)] :=
  ⟨ticks_spec (by decide), rfl, by decide⟩

theorem witness_ResetSatisfiesInvariant :
    Config.ref3.wf ∧ Memory.wf [(0, 1), (65535, 2)] ∧ ∀ x ∈ ([(0, 1), (65535, 2)] : Memory), x.1 < Config.ref3.memSize :=
  ⟨by simp [Config.wf, Config.ref3, Config.ref], by decide, by decide⟩

theorem witness_EveryStepKeepsInvariant :
    let s := latched (.beq 1 2 8) (.cmp .beq)
    Inv s ∧ exec (.add 3 1 2) s = .next (after (.add 3 1 2) s) ∧ (after (.add 3 1 2) s).status = .running :=
  ⟨latched_inv, rfl, by decide⟩

theorem latched_inFlight : InFlightInv (latched (.beq 1 2 8) (.cmp .beq)) where
  latch := by
    intro l hl
    cases hl
    exact ⟨rfl, rfl, ⟨0, rfl⟩, fun q h => by rcases h with h | h <;> exact nomatch h⟩
  work := fun _ h => nomatch h
  waits := fun _ h => nomatch h
  results := fun _ h => nomatch h
  once := by decide
  loads := rfl
  stores := rfl
  addresses := .refl _
  ready := fun _ h => nomatch h
  committed := fun _ h => nomatch h
  released := fun _ h => nomatch h
  performed := .inl rfl
  retired := fun _ h => nomatch h
  oneCommit := by decide
  tags := by decide

theorem witness_EveryStepKeepsInFlight :
    let s := latched (.beq 1 2 8) (.cmp .beq)
    Inv s ∧ InFlightInv s ∧ TickTo s (after (.add 3 1 2) s) ∧ (after (.add 3 1 2) s).status = .running :=
  ⟨latched_inv, latched_inFlight, .inr ⟨.add 3 1 2, rfl⟩, by decide⟩

/-- A step that aborts: the fetch is outside memory. -/
theorem witness_ConsistencyAbortsNeverRaised :
    let s := { latched (.beq 1 2 8) (.cmp .beq) with pc := 0xFFFFFFFC }
    Inv s ∧ InFlightInv s ∧ s.status = .running ∧ ∃ t a, TickTo s t ∧ t.status = .aborted a := by
  refine ⟨?_, ?_, rfl, _, .memoryOutOfRange 0xFFFFFFFC 4 .fetch 1, .inl rfl, by decide⟩
  rotate_left
  · have h := latched_inFlight
    exact ⟨fun l hl => ⟨(h.1 l hl).1, (h.1 l hl).2, (h.1 l hl).3, (h.1 l hl).4⟩, h.2, h.3, h.4, h.5, h.6, h.7, h.8, h.9,
      h.10, h.11, h.12, h.13, h.14, h.15⟩
  have h := latched_inv
  exact ⟨⟨h.capacity.1, h.capacity.2, h.capacity.3, h.capacity.4, h.capacity.5, h.capacity.6, h.capacity.7,
    h.capacity.8, h.capacity.9, h.capacity.10, h.capacity.11, h.capacity.12, h.capacity.13⟩,
    ⟨h.stages.1, h.stages.2, h.stages.3, h.stages.4, h.stages.5, h.stages.6⟩,
    ⟨h.queues.1, h.queues.2, h.queues.3, h.queues.4⟩, ⟨h.records.1, h.records.2, h.records.3⟩, h.tags,
    ⟨h.zero.1, h.zero.2⟩, ⟨h.memory.1, h.memory.2⟩, h.flags⟩

/-- Two ticks into a run from reset, `x3` is owned by the instruction in the latch. -/
theorem witness_ReachableStatesSatisfyR44 :
    let m := memoryOf [(0, 0x002081B3), (4, 0x002081B3)]
    ∃ s, Reaches 2 (State.resetWith Config.ref m) s ∧ s.status = .running ∧ s.tagOf 3 = some 0 ∧ m.wf ∧
      (∀ x ∈ m, x.1 < Config.ref.memSize) :=
  ⟨_, rfl, by decide, by decide, by decide, by decide⟩

/-- Byte tokens in either case up to the end of memory, an address token, and tokens of neither form. -/
theorem witness_LoaderFillsConsecutiveBytes :
    List.Forall₂ ByteToken [['a', 'F'], ['3', '4']] [0xAF, 0x34] ∧ 65534 + [(0xAF : Byte), 0x34].length ≤ 65536 ∧
      Memory.wf [(3, 1)] ∧ AddressToken "@0000fF10".toList 0xFF10 ∧
      ∀ t ∈ ["0G".toList, "@0000000G".toList, "000000000".toList, "@12".toList, "123".toList, []],
        (∀ b, ¬ ByteToken t b) ∧ ∀ p, ¬ AddressToken t p := by
  refine ⟨.cons ⟨10, 15, .cons (by decide) (.cons (by decide) .nil), rfl⟩
      (.cons ⟨3, 4, .cons (by decide) (.cons (by decide) .nil), rfl⟩ .nil), by decide, by decide,
    ⟨_, [0, 0, 0, 0, 15, 15, 1, 0], rfl, ?_, rfl, rfl⟩, ?_⟩
  · exact .cons (by decide) (.cons (by decide) (.cons (by decide) (.cons (by decide) (.cons (by decide)
      (.cons (by decide) (.cons (by decide) (.cons (by decide) .nil)))))))
  · intro t ht
    simp only [List.mem_cons, List.not_mem_nil, or_false] at ht
    obtain rfl | rfl | rfl | rfl | rfl | rfl := ht <;>
      refine ⟨?_, ?_⟩ <;> simp +contextual [ByteToken, AddressToken, Digits, hexDigits, List.forall₂_cons_left_iff]

end Sys2Proof.Machine
end

section
/-! SUPPORT. Tier 1 of the family: which states tick, what reset gives, and the state with nothing in flight, which
reset and a squash both make (10_state.md R42, R45; 48_reorder_commit.md R395). -/

namespace Sys2Proof.Machine

/-! ## Which states tick -/

theorem tickOutcome_of_halted {port : FetchPort} {s : State} {code : BitVec 8} (h : s.status = .halted code) :
    tickOutcome port s = .fault (.halted code) := by
  unfold tickOutcome
  rw [h]

theorem tickOutcome_of_aborted {port : FetchPort} {s : State} {a : Abort} (h : s.status = .aborted a) :
    tickOutcome port s = .fault (.aborted a) := by
  unfold tickOutcome
  rw [h]

/-- `exec` of an instruction is a tick with some port. -/
theorem exec_eq_tickOutcome (i : Instr) (s : State) : ∃ port, exec i s = tickOutcome port s := by
  obtain ⟨record, h⟩ := exec_eq_enter i s
  exact ⟨_, h⟩

/-- What every port makes of the tick, the step and every `exec` make of it. -/
theorem step_and_exec_of_tickOutcome {s : State} {P : Host.Outcome State Fault Refusal → Prop}
    (h : ∀ port, P (tickOutcome port s)) : (∀ i, P (exec i s)) ∧ P (step s) := by
  constructor
  · intro i
    obtain ⟨port, hp⟩ := exec_eq_tickOutcome i s
    exact hp ▸ h port
  · obtain ⟨port, hp⟩ := step_eq_tickOutcome s
    exact hp ▸ h port

/-- Settles O8, by the status, which alone decides whether a tick is defined. -/
theorem runningTicksAndTerminalStops : Obligations.RunningTicksAndTerminalStops := by
  intro s
  refine ⟨fun hr => ?_, fun code hh => ?_, fun a ha => ?_⟩
  · exact step_and_exec_of_tickOutcome (P := fun o => ∃ t, o = .next t)
      fun port => ⟨_, tickOutcome_of_running hr⟩
  · exact step_and_exec_of_tickOutcome (P := fun o => o = .fault (.halted code))
      fun _ => tickOutcome_of_halted hh
  · exact step_and_exec_of_tickOutcome (P := fun o => o = .fault (.aborted a))
      fun _ => tickOutcome_of_aborted ha

/-! ## Reset values (10_state.md R45) -/

theorem State.reg_of_replicate {s : State} (h : s.x = Vector.replicate 32 0) (r : RegIdx) : s.reg r = 0 := by
  unfold State.reg
  simp [h]

theorem State.tagOf_of_replicate {s : State} (h : s.tag = Vector.replicate 32 none) (r : RegIdx) :
    s.tagOf r = none := by
  unfold State.tagOf
  simp [h]

/-- An empty bank has its configured size and no busy slot. -/
theorem Banks.view_empty (c : Config) (b : Bank) : (Banks.empty c).view b = List.replicate (c.rsCap b) none := by
  cases b <;> simp [Banks.view, Banks.empty, Config.rsCap]

/-- Settles O11: each field is read off `State.resetWith`; registers, tags and banks through their accessors. -/
theorem resetValues : Obligations.ResetValues := by
  intro c m s
  have hbanks : ∀ b : Bank, (s.rs.view b).length = c.rsCap b ∧ ∀ e, e ∈ s.rs.view b → e = none := fun b => by
    have hv : s.rs.view b = List.replicate (c.rsCap b) none := Banks.view_empty c b
    rw [hv]
    exact ⟨List.length_replicate, fun e he => List.eq_of_mem_replicate he⟩
  exact ⟨rfl, State.reg_of_replicate rfl, State.tagOf_of_replicate rfl, rfl, rfl, rfl, rfl, rfl, rfl, rfl, hbanks, rfl,
    rfl, rfl, rfl, rfl, rfl, rfl, rfl, rfl, rfl, rfl⟩

/-! ## Nothing in flight -/

/-- Every structure that holds an instruction in flight is empty, as reset and a squash leave them
(10_state.md R45; 48_reorder_commit.md R395). The instruction queue is not meant: nothing in it is issued. -/
structure NothingInFlight (s : State) : Prop where
  latch : s.latch = none
  rs : s.rs = Banks.empty s.cfg
  fu : s.fu = Stages.allIdle
  lq : s.lq = []
  sq : s.sq = []
  ldst : s.ldst = .idle
  stst : s.stst = .idle
  rob : s.rob = ⟨0, []⟩
  bus : s.bus = []
  tag : s.tag = Vector.replicate 32 none

@[simp] theorem Banks.entries_empty (c : Config) : (Banks.empty c).entries = [] := by
  simp [Banks.entries, Banks.view_empty]

theorem NothingInFlight.live {s : State} (h : NothingInFlight s) : s.live = [] := by
  unfold State.live
  rw [h.rob]
  rfl

theorem NothingInFlight.work {s : State} (h : NothingInFlight s) : s.work = [] := by
  unfold State.work
  rw [h.rs, h.fu, Banks.entries_empty]
  rfl

/-- The structures agree on what is in flight where nothing is. -/
theorem NothingInFlight.inFlightInv {s : State} (h : NothingInFlight s) : InFlightInv s where
  latch l hl := by simp [h.latch] at hl
  work w hw := by simp [h.work] at hw
  waits e he := by simp [h.rs] at he
  results q hq := by simp [h.bus] at hq
  once := by simp [h.work, h.bus]
  loads := by simp [loadsHeld, h.live, State.loadEntries, h.ldst, LoadStage.entries, h.lq]
  stores := by simp [storesHeld, h.live, h.sq]
  addresses := by simp [addressUnknown, h.lq, h.sq, h.bus, h.rs, Banks.empty]
  ready e he := by simp [h.sq] at he
  committed e he := by simp [h.sq] at he
  released i hi := by simp [h.bus] at hi
  performed := by simp [h.bus]
  retired i hi := by simp [h.bus] at hi
  oneCommit := by simp [h.bus]
  tags r := by
    have hn : s.inFlight = [] := by simp [State.inFlight, h.live, h.latch]
    rw [State.tagOf_of_replicate h.tag, hn]
    rfl

/-- The capacities are respected where nothing is in flight and the instruction queue fits. -/
theorem NothingInFlight.capacityInv {s : State} (h : NothingInFlight s) (hc : s.cfg.wf)
    (hq : s.iq.length ≤ s.cfg.iqCap) : CapacityInv s where
  cfg := hc
  iq := hq
  head := by
    obtain ⟨-, hcap, -⟩ := hc
    rw [h.rob]
    exact hcap
  rob := by simp [h.rob]
  add := by simp [h.rs, Banks.empty]
  cmp := by simp [h.rs, Banks.empty]
  log := by simp [h.rs, Banks.empty]
  shf := by simp [h.rs, Banks.empty]
  ls := by simp [h.rs, Banks.empty]
  lq := by simp [h.lq]
  sq := by simp [h.sq]
  bus := by simp [h.bus]
  latch := by simp [latchFits, h.latch]

theorem NothingInFlight.stageInv {s : State} (h : NothingInFlight s) : StageInv s := by
  constructor <;>
    simp [h.fu, h.ldst, h.stst, Stages.allIdle, Stage.countOk, LoadStage.countOk, storeStageOk]

theorem NothingInFlight.recordInv {s : State} (h : NothingInFlight s) (hq : ∀ i ∈ s.iq, i.destOk) :
    RecordInv s where
  iq := hq
  rob := by simp [h.rob]
  latch := by simp [h.latch]

theorem NothingInFlight.tagInv {s : State} (h : NothingInFlight s) : TagInv s := fun r q hr => by
  rw [State.tagOf_of_replicate h.tag] at hr
  cases hr

theorem NothingInFlight.queueOrderInv {s : State} (h : NothingInFlight s) : QueueOrderInv s := by
  constructor <;> simp [h.lq, h.sq]

theorem resetWith_nothingInFlight (c : Config) (m : Memory) : NothingInFlight (State.resetWith c m) := by
  constructor <;> rfl

theorem resetWith_inv {c : Config} {m : Memory} (hc : c.wf) (hm : m.wf) (hin : ∀ x ∈ m, x.1 < c.memSize) :
    Inv (State.resetWith c m) where
  capacity := (resetWith_nothingInFlight c m).capacityInv hc (Nat.zero_le _)
  stages := (resetWith_nothingInFlight c m).stageInv
  queues := (resetWith_nothingInFlight c m).queueOrderInv
  records := (resetWith_nothingInFlight c m).recordInv fun i hi => nomatch hi
  tags := (resetWith_nothingInFlight c m).tagInv
  zero := ⟨by simp [State.resetWith], by simp [State.resetWith]⟩
  memory := ⟨hm, hin⟩
  flags := by simp [FlagInv, State.resetWith]

/-- Settles O55: after reset nothing is in flight; `State.reset` is the case REF with no image. -/
theorem resetSatisfiesInvariant : Obligations.ResetSatisfiesInvariant := by
  have hall : ∀ (c : Config) (m : Memory), c.wf → m.wf → (∀ x ∈ m, x.1 < c.memSize) →
      Inv (State.resetWith c m) ∧ InFlightInv (State.resetWith c m) :=
    fun c m hc hm hin => ⟨resetWith_inv hc hm hin, (resetWith_nothingInFlight c m).inFlightInv⟩
  exact ⟨hall Config.ref [] (by simp [Config.wf, Config.ref]) Memory.nil_wf (fun x hx => nomatch hx), hall⟩

end Sys2Proof.Machine
end

section
/-! SUPPORT. What a tick from a running to a running state is: a flushed state and a completed Execute, whose fetch
port delivers canonical records only (40_clock_and_bus.md R130; 41_issue_unit.md R161, R163). -/

namespace Sys2Proof.Machine

/-! ## Destinations of canonical records (41_issue_unit.md R163) -/

/-- The operations whose record may name a destination: all but branches and stores. -/
def Op.mayWrite : Op → Bool
  | .add _ => true
  | .cmp o => !o.isBranch
  | .log _ => true
  | .shf _ => true
  | .ls (.load _) => true
  | .ls (.store _) => false

theorem destOf_ne_zero (rd : RegIdx) : destOf rd ≠ some 0 := by
  unfold destOf
  split
  · simp
  · simpa using ‹¬ rd = 0›

/-- A record's destination is in order: never x0, and none unless the operation may write. -/
theorem IRec.destOk_iff (i : IRec) :
    i.destOk ↔ i.rd ≠ some 0 ∧ ((∀ op, i.op = some op → op.mayWrite = false → i.rd = none) ∧
      (i.op = none → i.rd = none)) := by
  unfold IRec.destOk
  refine and_congr_right fun _ => ?_
  rcases i.op with _ | (o | o | o | o | (o | o)) <;> simp [Op.mayWrite]

/-- An operation that may not write has no destination. -/
theorem IRec.rd_of_not_mayWrite {i : IRec} (h : i.destOk) {op : Op} (hop : i.op = some op)
    (hw : op.mayWrite = false) : i.rd = none := by
  obtain ⟨-, hnone, -⟩ := (IRec.destOk_iff i).mp h
  exact hnone op hop hw

theorem registerRecord_destOk (i : Instr) (mn : Mnemonic) {op : Op} (hop : op.mayWrite = true) (rd rs1 rs2 : RegIdx)
    (f : State) : (registerRecord i mn op rd rs1 rs2 f).destOk := by
  rw [IRec.destOk_iff]
  exact ⟨destOf_ne_zero rd, by simp [registerRecord, hop], by simp [registerRecord]⟩

theorem immediateRecord_destOk (i : Instr) (mn : Mnemonic) (cls : OpClass) {op : Op} (hop : op.mayWrite = true)
    (rd rs1 : RegIdx) (imm : Word) (f : State) : (immediateRecord i mn cls op rd rs1 imm f).destOk := by
  rw [IRec.destOk_iff]
  exact ⟨destOf_ne_zero rd, by simp [immediateRecord, hop], by simp [immediateRecord]⟩

theorem adderRecord_destOk (i : Instr) (mn : Mnemonic) (rd : RegIdx) (src1 : Source) (src2 imm : Word) (f : State) :
    (adderRecord i mn rd src1 src2 imm f).destOk := ⟨destOf_ne_zero rd, trivial⟩

theorem branchRecord_destOk (i : Instr) (mn : Mnemonic) (op : CmpOp) (rs1 rs2 : RegIdx) (off : Word) (f : State) :
    (branchRecord i mn op rs1 rs2 off f).destOk := ⟨by simp [branchRecord], fun _ => rfl⟩

theorem storeRecord_destOk (i : Instr) (mn : Mnemonic) (op : StoreOp) (rs2 rs1 : RegIdx) (imm : Word) (f : State) :
    (storeRecord i mn op rs2 rs1 imm f).destOk := ⟨by simp [storeRecord], rfl⟩

theorem haltRecord_destOk (f : State) : (haltRecord f).destOk := ⟨by simp [haltRecord], trivial⟩

theorem invalidRecord_destOk (w : Word) (f : State) : (invalidRecord w f).destOk := ⟨by simp [invalidRecord], rfl⟩

/-- Every instruction enters by a record whose destination is in order. -/
theorem exec_enters_destOk (i : Instr) (s : State) :
    ∃ record : State → IRec, exec i s = enter record s ∧ ∀ f, (record f).destOk := by
  cases i with
  | halt => exact ⟨_, rfl, haltRecord_destOk⟩
  | lui | auipc | jal => exact ⟨_, rfl, fun f => adderRecord_destOk ..⟩
  | beq | bne | blt | bge | bltu | bgeu => exact ⟨_, rfl, branchRecord_destOk _ _ _ _ _ _⟩
  | sb | sh | sw => exact ⟨_, rfl, storeRecord_destOk _ _ _ _ _ _⟩
  | jalr | lb | lh | lw | lbu | lhu | addi | slti | sltiu | xori | ori | andi | slli | srli | srai =>
    exact ⟨_, rfl, immediateRecord_destOk _ _ _ rfl _ _ _⟩
  | add | sub | sll | slt | sltu | xor | srl | sra | or | and =>
    exact ⟨_, rfl, registerRecord_destOk _ _ rfl _ _ _⟩

/-! ## The port of a tick -/

/-- What the port delivers has its destination in order. -/
def DeliversDestOk (port : FetchPort) : Prop := ∀ f i, port f = .ok i → i.destOk

theorem deliversDestOk_of_record {record : State → IRec} (h : ∀ f, (record f).destOk) :
    DeliversDestOk fun f => .ok (record f) := by
  intro f i hi
  cases hi
  exact h f

/-- Every step and every `exec` is a tick whose port delivers records with their destination in order. -/
theorem TickTo.port {s t : State} (h : TickTo s t) :
    ∃ port, DeliversDestOk port ∧ tickOutcome port s = .next t := by
  have hexec : ∀ i, exec i s = .next t → ∃ port, DeliversDestOk port ∧ tickOutcome port s = .next t := by
    intro i hi
    obtain ⟨record, he, hr⟩ := exec_enters_destOk i s
    exact ⟨_, deliversDestOk_of_record hr, he.symm.trans hi⟩
  rcases h with h | ⟨i, hi⟩
  · unfold step at h
    split at h
    · refine ⟨_, fun f i hi => ?_, h⟩
      cases hi
    · split at h
      · exact hexec _ h
      · exact ⟨_, deliversDestOk_of_record (invalidRecord_destOk _), h⟩
  · exact hexec i hi

/-- A tick to a running state comes from a running state without the halt flag, and completes both phases. -/
theorem TickTo.phases {s t : State} (h : TickTo s t) (ht : t.status = .running) :
    s.status = .running ∧ s.halt = false ∧
      ∃ f port, flush s = .ok f ∧ DeliversDestOk port ∧ execute port f = .ok t := by
  obtain ⟨port, hp, ho⟩ := h.port
  obtain ⟨hs, rfl⟩ := tickOutcome_eq_next ho
  rcases tick_cases port s with ⟨-, h⟩ | ⟨-, a, -, h⟩ | ⟨-, f, a, -, -, h⟩ | ⟨hh, f, t', hf, he, h⟩
  · simp [h] at ht
  · simp [h] at ht
  · simp [h] at ht
  · exact ⟨hs, hh, f, port, hf, hp, h ▸ he⟩

end Sys2Proof.Machine
end

section
/-! SUPPORT. The live entries of the reorder buffer through a Flush without a squash: the WriteBack messages write
their entries, the StoreSuccess messages retire the head, the latch's entry joins at the tail
(48_reorder_commit.md R381, R383, R384). -/

namespace Sys2Proof.Machine

/-! ## Live entries and entries -/

theorem liveFrom_map_snd (cap h : Nat) (es : List RobEntry) : (liveFrom cap h es).map Prod.snd = es := by
  induction es generalizing h with
  | nil => rfl
  | cons e es ih => simp [liveFrom, ih]

theorem State.live_map_snd (s : State) : s.live.map Prod.snd = s.rob.entries := liveFrom_map_snd _ _ _

theorem State.mem_entries_iff {s : State} {e : RobEntry} : e ∈ s.rob.entries ↔ ∃ i, (i, e) ∈ s.live := by
  rw [← s.live_map_snd]
  simp

/-- The latch's instruction with its index, as it stands behind the live ones in `inFlight`. -/
def State.latched (s : State) : List (Nat × RobEntry) :=
  match s.latch with
  | some l => [(l.idx, l.robEntry)]
  | none => []

theorem State.inFlight_eq (s : State) : s.inFlight = s.live ++ s.latched := rfl

theorem State.latched_of_some {s : State} {l : Latch} (h : s.latch = some l) :
    s.latched = [(l.idx, l.robEntry)] := by
  unfold State.latched
  rw [h]

theorem State.latched_of_none {s : State} (h : s.latch = none) : s.latched = [] := by
  unfold State.latched
  rw [h]

theorem State.mem_latched {s : State} {p : Nat × RobEntry} :
    p ∈ s.latched ↔ ∃ l, s.latch = some l ∧ p = (l.idx, l.robEntry) := by
  rcases h : s.latch with _ | l
  · simp [State.latched_of_none h]
  · simp [State.latched_of_some h]

/-! ## WriteBack (R383) -/

/-- The effect of the WriteBack messages of a bus on an entry by its index: its state becomes Write where its index
is sent, and neither its record nor its destination changes. -/
structure Writes (ms : List Msg) (g : Nat → RobEntry → RobEntry) : Prop where
  instr : ∀ i e, (g i e).instr = e.instr
  rd : ∀ i e, (g i e).rd = e.rd
  state : ∀ i e, (g i e).state = if i ∈ sent ms .writeBack then .write else e.state

/-- A list of indexed entries, changed by index. -/
def written (g : Nat → RobEntry → RobEntry) (l : List (Nat × RobEntry)) : List (Nat × RobEntry) :=
  l.map fun p => (p.1, g p.1 p.2)

theorem mem_written {g : Nat → RobEntry → RobEntry} {l : List (Nat × RobEntry)} {i : Nat} {e : RobEntry} :
    (i, e) ∈ written g l ↔ ∃ e₀, (i, e₀) ∈ l ∧ g i e₀ = e := by
  simp only [written, List.mem_map, Prod.mk.injEq, Prod.exists]
  constructor
  · rintro ⟨_, e₀, h, rfl, rfl⟩
    exact ⟨e₀, h, rfl⟩
  · rintro ⟨e₀, h, rfl⟩
    exact ⟨i, e₀, h, rfl, rfl⟩

theorem Writes.isStore {ms : List Msg} {g : Nat → RobEntry → RobEntry} (h : Writes ms g) (i : Nat) (e : RobEntry) :
    (g i e).isStore = e.isStore := by
  unfold RobEntry.isStore
  rw [h.instr]

theorem Writes.isLoad {ms : List Msg} {g : Nat → RobEntry → RobEntry} (h : Writes ms g) (i : Nat) (e : RobEntry) :
    (g i e).isLoad = e.isLoad := by
  unfold RobEntry.isLoad
  rw [h.instr]

theorem Writes.entryOk {ms : List Msg} {g : Nat → RobEntry → RobEntry} (h : Writes ms g) {i : Nat} {e : RobEntry}
    (he : e.entryOk) : (g i e).entryOk := by
  obtain ⟨hdest, hrd, hexec, hwait⟩ := he
  refine ⟨(h.instr i e).symm ▸ hdest, by rw [h.rd, h.instr, hrd], ?_, ?_⟩
  · rw [h.state]
    split
    · simp
    · exact hexec
  · rw [h.state, h.isStore]
    split
    · simp
    · exact hwait

/-- Absorbing the WriteBack messages writes the live entries they name, and moves no entry. -/
theorem absorb_onWriteBack_live {s s' : State} {ms : List Msg} (hh : s.rob.head < s.cfg.robCap)
    (hl : s.rob.entries.length ≤ s.cfg.robCap) (h : absorbAll onWriteBack s ms = .ok s') :
    ∃ g, Writes ms g ∧ s'.live = written g s.live := by
  induction ms generalizing s with
  | nil =>
    cases h
    exact ⟨fun _ e => e, ⟨fun _ _ => rfl, fun _ _ => rfl, by simp⟩, by simp [written]⟩
  | cons m ms ih =>
    rw [absorbAll] at h
    split at h
    · rename_i s₁ hm
      rcases onWriteBack_eq_ok hm with ⟨hk, rfl⟩ | ⟨hk, e, he, rfl⟩
      · obtain ⟨g, hg, hlive⟩ := ih hh hl h
        exact ⟨g, ⟨hg.instr, hg.rd, by simpa [sent_cons, hk] using hg.state⟩, hlive⟩
      · obtain ⟨g, hg, hlive⟩ := ih (by simpa using hh) (by simpa using hl) h
        refine ⟨fun i e => g i (if i = m.idx then { e with state := .write, value := m.data } else e), ?_, ?_⟩
        · refine ⟨fun i e => ?_, fun i e => ?_, fun i e => ?_⟩
          · rw [hg.instr]
            split <;> rfl
          · rw [hg.rd]
            split <;> rfl
          · rw [hg.state, sent_cons, if_pos hk]
            by_cases hi : i = m.idx <;> simp [hi]
        · rw [hlive, State.live_robModify hh hl (State.robAt_lt he)]
          simp only [written, List.map_map]
          refine List.map_congr_left fun p _ => ?_
          by_cases hp : p.1 = m.idx <;> simp [hp]
    · cases h

/-! ## StoreSuccess (R384) -/

theorem Rob.retire_head_lt (r : Rob) {cap : Nat} (h : r.head < cap) : (r.retire cap).head < cap :=
  Nat.mod_lt _ (by omega)

theorem Rob.retire_length_le (r : Rob) (cap : Nat) : (r.retire cap).entries.length ≤ r.entries.length := by
  simp [Rob.retire]

/-- Absorbing the StoreSuccess messages retires as many heads, each of which waited for its store; the tail stays. -/
theorem absorb_onStoreSuccess_live {s s' : State} {ms : List Msg} (hh : s.rob.head < s.cfg.robCap)
    (h : absorbAll onStoreSuccess s ms = .ok s') :
    s'.live = s.live.drop (sent ms .storeSuccess).length ∧
      (∀ p ∈ s.live.take (sent ms .storeSuccess).length, p.2.state = .waitSt) ∧
      s'.rob.head < s.cfg.robCap ∧ s'.rob.entries.length ≤ s.rob.entries.length ∧ s'.robTail = s.robTail := by
  induction ms generalizing s with
  | nil =>
    cases h
    simp [hh]
  | cons m ms ih =>
    rw [absorbAll] at h
    split at h
    · rename_i s₁ hm
      rcases onStoreSuccess_eq_ok hm with ⟨hk, rfl⟩ | ⟨hk, -, ⟨e, rest, he, hw⟩, rfl⟩
      · simpa [sent_cons, hk] using ih hh h
      · obtain ⟨hlive, hwaits, hhead, hlen, htail⟩ := ih (s.rob.retire_head_lt hh) h
        rw [State.live_retire (s := s) (t := { s with rob := s.rob.retire s.cfg.robCap }) rfl rfl,
          State.live_cons he] at hlive hwaits
        rw [sent_cons, if_pos hk, State.live_cons he]
        refine ⟨by simpa using hlive, ?_, hhead, hlen.trans (s.rob.retire_length_le _), htail.trans ?_⟩
        · intro p hp
          rcases List.mem_cons.mp (by simpa using hp) with rfl | hp
          · exact hw
          · exact hwaits p (by simpa using hp)
        · exact State.robTail_retire (by simp [he]) rfl rfl
    · cases h

/-! ## The reorder buffer of the flushed state -/

/-- The reorder buffer of a state whose Flush does not squash, against the one before. -/
structure RobFlushed (s f : State) : Prop where
  head : f.rob.head < f.cfg.robCap
  count : f.rob.entries.length ≤ f.cfg.robCap
  live : ∃ g, Writes s.bus g ∧ (∀ p ∈ (written g s.live).take (sent s.bus .storeSuccess).length, p.2.state = .waitSt) ∧
    f.live = (written g s.live).drop (sent s.bus .storeSuccess).length ++ s.latched

/-- A later state with the same reorder buffer. -/
theorem RobFlushed.congr {s f f' : State} (h : RobFlushed s f) (hr : f'.rob = f.rob) (hc : f'.cfg = f.cfg) :
    RobFlushed s f' := by
  obtain ⟨hhead, hcount, hlive⟩ := h
  exact ⟨by rw [hr, hc]; exact hhead, by rw [hr, hc]; exact hcount, by rw [State.live_congr hr hc]; exact hlive⟩

/-- Insertion puts the latch's entry behind the live ones, where its index is the tail. -/
theorem insertRob_live {s s' : State} (hh : s.rob.head < s.cfg.robCap) (hl : s.rob.entries.length ≤ s.cfg.robCap)
    (htail : ∀ l, s.latch = some l → l.idx = s.robTail) (h : insertRob s = .ok s') :
    s'.live = s.live ++ s.latched ∧ s'.rob.head = s.rob.head ∧ s'.rob.entries.length ≤ s.cfg.robCap := by
  rcases insertRob_eq_ok h with ⟨hn, rfl⟩ | ⟨l, hs, hlt, rfl⟩
  · simp [State.latched_of_none hn, hl]
  · refine ⟨?_, rfl, by simpa using hlt⟩
    rw [State.latched_of_some hs, htail l hs]
    exact State.live_append hh rfl rfl

/-- Steps F2 and F3 together, which change the reorder buffer alone. -/
theorem robFlushed_of_steps {s s₁ s₂ s₃ : State} (hcap : CapacityInv s) (hrec : RecordInv s)
    (h₁ : absorbAll onWriteBack s s.bus = .ok s₁) (h₂ : absorbAll onStoreSuccess s₁ s.bus = .ok s₂)
    (h₃ : insertRob s₂ = .ok s₃) : RobFlushed s s₃ ∧ ∃ r, s₃ = { s with rob := r } := by
  obtain ⟨g, hg, hlive₁⟩ := absorb_onWriteBack_live hcap.head hcap.rob h₁
  obtain ⟨es, rfl, hes⟩ := absorb_onWriteBack_frame h₁
  obtain ⟨hlive₂, hwaits, hhead, hlen, htail⟩ := absorb_onStoreSuccess_live (by simpa using hcap.head) h₂
  obtain ⟨r, rfl⟩ := absorb_onStoreSuccess_frame h₂
  have hcount₂ : r.entries.length ≤ s.cfg.robCap := (hlen.trans_eq hes).trans hcap.rob
  have hidx : ∀ l, s.latch = some l → l.idx = s.robTail := fun l hl => by
    obtain ⟨-, -, htail⟩ := hrec.latch l hl
    exact htail
  have htail' : State.robTail { s with rob := r } = s.robTail := by
    refine htail.trans ?_
    simp only [State.robTail, hes]
  obtain ⟨hlive₃, hhead₃, hlen₃⟩ := insertRob_live (s := { s with rob := r }) hhead hcount₂
    (fun l hl => (hidx l hl).trans htail'.symm) h₃
  obtain ⟨r', rfl⟩ := insertRob_frame h₃
  exact ⟨⟨hhead₃.trans_lt hhead, hlen₃, g, hg, hlive₁ ▸ hwaits, by rw [hlive₃, hlive₂, hlive₁]; rfl⟩, r', rfl⟩

end Sys2Proof.Machine
end

section
/-! SUPPORT. The load/store buffer through a Flush without a squash: the latch's entry joins its queue, the GetAddr
messages resolve addresses, the CommitMem messages release the head store (47_load_store.md R332 to R335). -/

namespace Sys2Proof.Machine

/-! ## Lists entry by entry -/

/-- What corresponding entries share, the lists of it share. -/
theorem map_eq_of_forall₂ {α β : Type} {R : α → α → Prop} {v : α → β} (hR : ∀ a b, R a b → v b = v a)
    {l l' : List α} (h : List.Forall₂ R l l') : l'.map v = l.map v := by
  induction h with
  | nil => rfl
  | cons hab _ ih => rw [List.map_cons, List.map_cons, ih, hR _ _ hab]

/-- An entry of the second list comes from one of the first. -/
theorem exists_of_mem_forall₂ {α : Type} {R : α → α → Prop} {l l' : List α} (h : List.Forall₂ R l l') {b : α}
    (hb : b ∈ l') : ∃ a ∈ l, R a b := by
  induction h with
  | nil => cases hb
  | cons hab _ ih =>
    rcases List.mem_cons.mp hb with rfl | hb
    · exact ⟨_, List.mem_cons_self, hab⟩
    · obtain ⟨a, ha, hR⟩ := ih hb
      exact ⟨a, List.mem_cons_of_mem _ ha, hR⟩

/-- Where the entries with a key in `known` become ready, the keys of the others are the unknown ones left. -/
theorem unready_map_of_forall₂ {α : Type} {key : α → Nat} {ready : α → Bool} {known : List Nat} {l l' : List α}
    (h : List.Forall₂ (fun e e' => key e' = key e ∧ ready e' = (ready e || decide (key e ∈ known))) l l') :
    (l'.filter fun e => !ready e).map key =
      ((l.filter fun e => !ready e).map key).filter fun i => decide (i ∉ known) := by
  induction h with
  | nil => rfl
  | @cons a b _ _ hab _ ih =>
    obtain ⟨hkey, hready⟩ := hab
    by_cases hr : ready a = true
    · simp [hready, hr, ih]
    · by_cases hk : key a ∈ known <;> simp [hready, hr, hk, hkey, ih]

/-! ## Insertion (R332, R333) -/

theorem loadsInserted_of_load {s : State} {l : Latch} {e : LoadEntry} (h : s.latch = some l)
    (hl : l.lsbEntry = some (.load e)) : loadsInserted s = s.lq ++ [{ e with ts := s.cycle, ready := false }] := by
  obtain ⟨idx, re, rs, lsb⟩ := l
  cases hl
  simp [loadsInserted, h]

theorem loadsInserted_of_not_load {s : State} (h : ∀ l e, s.latch = some l → l.lsbEntry ≠ some (.load e)) :
    loadsInserted s = s.lq := by
  unfold loadsInserted
  split
  · rename_i hl
    exact absurd rfl (h _ _ hl)
  · simp

theorem storesInserted_of_store {s : State} {l : Latch} {e : StoreEntry} (h : s.latch = some l)
    (hl : l.lsbEntry = some (.store e)) :
    storesInserted s = s.sq ++ [{ e with ts := s.cycle, ready := false, committed := false }] := by
  obtain ⟨idx, re, rs, lsb⟩ := l
  cases hl
  simp [storesInserted, h]

theorem storesInserted_of_not_store {s : State} (h : ∀ l e, s.latch = some l → l.lsbEntry ≠ some (.store e)) :
    storesInserted s = s.sq := by
  unfold storesInserted
  split
  · rename_i hl
    exact absurd rfl (h _ _ hl)
  · simp

/-- The load that the latch brings, if it brings one. -/
theorem loadsInserted_cases (s : State) :
    ((∀ l e, s.latch = some l → l.lsbEntry ≠ some (.load e)) ∧ loadsInserted s = s.lq) ∨
      ∃ l e, s.latch = some l ∧ l.lsbEntry = some (.load e) ∧
        loadsInserted s = s.lq ++ [{ e with ts := s.cycle, ready := false }] := by
  by_cases h : ∃ l e, s.latch = some l ∧ l.lsbEntry = some (.load e)
  · obtain ⟨l, e, hl, he⟩ := h
    exact .inr ⟨l, e, hl, he, loadsInserted_of_load hl he⟩
  · have hno : ∀ l e, s.latch = some l → l.lsbEntry ≠ some (.load e) := fun l e hl he => h ⟨l, e, hl, he⟩
    exact .inl ⟨hno, loadsInserted_of_not_load hno⟩

/-- The store that the latch brings, if it brings one. -/
theorem storesInserted_cases (s : State) :
    ((∀ l e, s.latch = some l → l.lsbEntry ≠ some (.store e)) ∧ storesInserted s = s.sq) ∨
      ∃ l e, s.latch = some l ∧ l.lsbEntry = some (.store e) ∧
        storesInserted s = s.sq ++ [{ e with ts := s.cycle, ready := false, committed := false }] := by
  by_cases h : ∃ l e, s.latch = some l ∧ l.lsbEntry = some (.store e)
  · obtain ⟨l, e, hl, he⟩ := h
    exact .inr ⟨l, e, hl, he, storesInserted_of_store hl he⟩
  · have hno : ∀ l e, s.latch = some l → l.lsbEntry ≠ some (.store e) := fun l e hl he => h ⟨l, e, hl, he⟩
    exact .inl ⟨hno, storesInserted_of_not_store hno⟩

/-- Insertion makes the two queues those of the declarative reading, within their capacities. -/
theorem insertLsb_queues {s s' : State} (hlq : s.lq.length ≤ s.cfg.lqCap) (hsq : s.sq.length ≤ s.cfg.sqCap)
    (h : insertLsb s = .ok s') :
    s' = { s with lq := loadsInserted s, sq := storesInserted s } ∧
      (loadsInserted s).length ≤ s.cfg.lqCap ∧ (storesInserted s).length ≤ s.cfg.sqCap := by
  rcases insertLsb_eq_ok h with ⟨hn, rfl⟩ | ⟨l, e, hl, he, hlt, rfl⟩ | ⟨l, e, hl, he, hlt, rfl⟩
  · have hno : ∀ l, s'.latch = some l → l.lsbEntry = none := by
      rintro l hl
      rcases hn with hn | ⟨l', hl', he⟩
      · simp [hn] at hl
      · cases hl'.symm.trans hl
        exact he
    rw [loadsInserted_of_not_load fun l e hl => by simp [hno l hl],
      storesInserted_of_not_store fun l e hl => by simp [hno l hl]]
    exact ⟨rfl, hlq, hsq⟩
  · rw [loadsInserted_of_load hl he, storesInserted_of_not_store]
    · exact ⟨rfl, by simpa using hlt, hsq⟩
    · rintro l' e' hl'
      cases hl.symm.trans hl'
      simp [he]
  · rw [storesInserted_of_store hl he, loadsInserted_of_not_load]
    · exact ⟨rfl, hlq, by simpa using hlt⟩
    · rintro l' e' hl'
      cases hl.symm.trans hl'
      simp [he]

/-! ## GetAddr (R334) -/

/-- A queued load before and after a bus: it becomes ready where its index is sent. -/
structure LoadAddressed (ms : List Msg) (e e' : LoadEntry) : Prop where
  dest : e'.dest = e.dest
  ts : e'.ts = e.ts
  ready : e'.ready = (e.ready || decide (e.dest ∈ sent ms .getAddr))

/-- A queued store before and after a bus: it becomes ready where its index is sent with GetAddr, and it is committed
only if it was or its index is sent with CommitMem. -/
structure StoreAddressed (ms : List Msg) (e e' : StoreEntry) : Prop where
  dest : e'.dest = e.dest
  ts : e'.ts = e.ts
  ready : e'.ready = (e.ready || decide (e.dest ∈ sent ms .getAddr))
  stays : e.committed = true → e'.committed = true
  committed : e'.committed = true → e.committed = true ∨ e.dest ∈ sent ms .commitMem

theorem LoadEntry.resolve_ready (i : Nat) (a : Word) (e : LoadEntry) :
    (e.resolve i a).dest = e.dest ∧ (e.resolve i a).ts = e.ts ∧
      (e.resolve i a).ready = (e.ready || decide (e.dest = i)) := by
  unfold LoadEntry.resolve
  split <;> simp [*]

theorem StoreEntry.resolve_ready (i : Nat) (a : Word) (e : StoreEntry) :
    (e.resolve i a).dest = e.dest ∧ (e.resolve i a).ts = e.ts ∧
      (e.resolve i a).ready = (e.ready || decide (e.dest = i)) ∧ (e.resolve i a).committed = e.committed := by
  unfold StoreEntry.resolve
  split <;> simp [*]

/-- Absorbing the GetAddr messages makes ready exactly the queued entries they name. -/
theorem absorb_onGetAddr_queues {s s' : State} {ms : List Msg} (h : absorbAll onGetAddr s ms = .ok s') :
    ∃ (f : LoadEntry → LoadEntry) (g : StoreEntry → StoreEntry),
      s' = { s with lq := s.lq.map f, sq := s.sq.map g } ∧ (∀ e, LoadAddressed ms e (f e)) ∧
      ∀ e, StoreAddressed ms e (g e) ∧ (g e).committed = e.committed := by
  induction ms generalizing s with
  | nil =>
    cases h
    exact ⟨id, id, by simp, fun e => ⟨rfl, rfl, by simp⟩, fun e => ⟨⟨rfl, rfl, by simp, id, .inl⟩, rfl⟩⟩
  | cons m ms ih =>
    rw [absorbAll] at h
    split at h
    · rename_i s₁ hm
      obtain ⟨f, g, rfl, hf, hg⟩ := ih h
      rcases onGetAddr_eq_ok hm with ⟨hk, rfl⟩ | ⟨hk, -, rfl⟩
      · have hsent : sent (m :: ms) .getAddr = sent ms .getAddr := by simp [sent_cons, hk]
        refine ⟨f, g, rfl, fun e => ⟨(hf e).dest, (hf e).ts, hsent ▸ (hf e).ready⟩, fun e => ?_⟩
        obtain ⟨hgs, hgc⟩ := hg e
        exact ⟨⟨hgs.dest, hgs.ts, hsent ▸ hgs.ready, hgc ▸ id, fun hc => .inl (hgc ▸ hc)⟩, hgc⟩
      · have hsent : ∀ i, i ∈ sent (m :: ms) .getAddr ↔ i = m.idx ∨ i ∈ sent ms .getAddr := by simp [sent_cons, hk]
        refine ⟨f ∘ LoadEntry.resolve m.idx m.data, g ∘ StoreEntry.resolve m.idx m.data, by simp, fun e => ?_,
          fun e => ?_⟩
        · obtain ⟨hd, ht, hr⟩ := LoadEntry.resolve_ready m.idx m.data e
          have he := hf (e.resolve m.idx m.data)
          exact ⟨he.dest.trans hd, he.ts.trans ht, by simp [he.ready, hd, hr, hsent, Bool.or_assoc]⟩
        · obtain ⟨hd, ht, hr, hc⟩ := StoreEntry.resolve_ready m.idx m.data e
          obtain ⟨he, hec⟩ := hg (e.resolve m.idx m.data)
          have hce := hec.trans hc
          exact ⟨⟨he.dest.trans hd, he.ts.trans ht, by simp [he.ready, hd, hr, hsent, Bool.or_assoc],
            fun h => hce.trans h, fun h => .inl (hce.symm.trans h)⟩, hce⟩
    · cases h

/-! ## CommitMem (R335) -/

/-- A queued store before and after the CommitMem messages of a bus. -/
structure StoreReleased (ms : List Msg) (e e' : StoreEntry) : Prop where
  dest : e'.dest = e.dest
  ts : e'.ts = e.ts
  ready : e'.ready = e.ready
  stays : e.committed = true → e'.committed = true
  committed : e'.committed = true → e.committed = true ∨ e.dest ∈ sent ms .commitMem

theorem StoreReleased.refl (ms : List Msg) (e : StoreEntry) : StoreReleased ms e e := ⟨rfl, rfl, rfl, id, .inl⟩

/-- Absorbing the CommitMem messages commits only queued stores that they name. -/
theorem absorb_onCommitMem_queue {s s' : State} {ms : List Msg} (h : absorbAll onCommitMem s ms = .ok s') :
    ∃ q, s' = { s with sq := q } ∧ List.Forall₂ (StoreReleased ms) s.sq q := by
  refine absorbAll_induct_mem (P := fun t => ∃ q, t = { s with sq := q } ∧ List.Forall₂ (StoreReleased ms) s.sq q) ?_
    ⟨s.sq, rfl, List.forall₂_same.mpr fun e _ => .refl ms e⟩ h
  rintro t m hm t' ⟨q, rfl, hq⟩ ht
  rcases onCommitMem_eq_ok ht with ⟨-, rfl⟩ | ⟨hk, e₁, rest, he, hd, -, rfl⟩
  · exact ⟨q, rfl, hq⟩
  · cases he
    obtain ⟨e₀, rest₀, h₀, hrest, hs⟩ := List.forall₂_cons_right_iff.mp hq
    refine ⟨_, rfl, ?_⟩
    rw [hs]
    refine .cons ⟨h₀.dest, h₀.ts, h₀.ready, fun _ => rfl, fun _ => .inr ?_⟩ hrest
    exact mem_sent.mpr ⟨m, hm, hk, by rw [← hd, h₀.dest]⟩

theorem StoreAddressed.released {ms : List Msg} {e e₁ e₂ : StoreEntry} (h : StoreAddressed ms e e₁)
    (hc : e₁.committed = e.committed) (h' : StoreReleased ms e₁ e₂) : StoreAddressed ms e e₂ where
  dest := h'.dest.trans h.dest
  ts := h'.ts.trans h.ts
  ready := h'.ready.trans h.ready
  stays he := h'.stays (h.stays he)
  committed he := by
    rw [← hc, ← h.dest]
    exact h'.committed he

/-! ## The queues of the flushed state -/

/-- The load/store buffer of a state whose Flush does not squash, against the one before. -/
structure QueuesFlushed (s f : State) : Prop where
  lq : f.lq.length ≤ f.cfg.lqCap
  sq : f.sq.length ≤ f.cfg.sqCap
  loads : List.Forall₂ (LoadAddressed s.bus) (loadsInserted s) f.lq
  stores : List.Forall₂ (StoreAddressed s.bus) (storesInserted s) f.sq

theorem QueuesFlushed.congr {s f f' : State} (h : QueuesFlushed s f) (hl : f'.lq = f.lq) (hs : f'.sq = f.sq)
    (hc : f'.cfg = f.cfg) : QueuesFlushed s f' := by
  obtain ⟨hlq, hsq, hloads, hstores⟩ := h
  exact ⟨by rw [hl, hc]; exact hlq, by rw [hs, hc]; exact hsq, hl ▸ hloads, hs ▸ hstores⟩

/-- Step F4, which changes the two queues alone. -/
theorem queuesFlushed_of_steps {s s₄ s₅ s₆ : State} (hlq : s.lq.length ≤ s.cfg.lqCap)
    (hsq : s.sq.length ≤ s.cfg.sqCap) (h₄ : insertLsb s = .ok s₄) (h₅ : absorbAll onGetAddr s₄ s.bus = .ok s₅)
    (h₆ : absorbAll onCommitMem s₅ s.bus = .ok s₆) : QueuesFlushed s s₆ ∧ ∃ q p, s₆ = { s with lq := q, sq := p } := by
  obtain ⟨rfl, hl, hs⟩ := insertLsb_queues hlq hsq h₄
  obtain ⟨f, g, rfl, hf, hg⟩ := absorb_onGetAddr_queues h₅
  obtain ⟨q, rfl, hq⟩ := absorb_onCommitMem_queue h₆
  refine ⟨⟨by simpa using hl, by simpa [← hq.length_eq] using hs, ?_, ?_⟩, _, _, rfl⟩
  · exact List.forall₂_map_right_iff.mpr (List.forall₂_same.mpr fun e _ => hf e)
  · exact (List.forall₂_map_left_iff.mp hq).imp fun e e' h => (hg e).1.released (hg e).2 h

theorem QueuesFlushed.load_dests {s f : State} (h : QueuesFlushed s f) :
    f.lq.map LoadEntry.dest = (loadsInserted s).map LoadEntry.dest :=
  map_eq_of_forall₂ (fun _ _ h => h.dest) h.loads

theorem QueuesFlushed.store_dests {s f : State} (h : QueuesFlushed s f) :
    f.sq.map StoreEntry.dest = (storesInserted s).map StoreEntry.dest :=
  map_eq_of_forall₂ (fun _ _ h => h.dest) h.stores

theorem QueuesFlushed.load_stamps {s f : State} (h : QueuesFlushed s f) :
    f.lq.map LoadEntry.ts = (loadsInserted s).map LoadEntry.ts :=
  map_eq_of_forall₂ (fun _ _ h => h.ts) h.loads

theorem QueuesFlushed.store_stamps {s f : State} (h : QueuesFlushed s f) :
    f.sq.map StoreEntry.ts = (storesInserted s).map StoreEntry.ts :=
  map_eq_of_forall₂ (fun _ _ h => h.ts) h.stores

end Sys2Proof.Machine
end

section
/-! SUPPORT. The reservation stations through a Flush without a squash, and the whole of such a Flush
(42_reservation_stations.md R203, R205, R206; 40_clock_and_bus.md R131). -/

namespace Sys2Proof.Machine

/-! ## Pending operands -/

/-- One of the entry's operands waits for an index. -/
def RSEntry.waitsFor {α : Type} (e : RSEntry α) (q : Nat) : Prop := e.j = .pending q ∨ e.k = .pending q

theorem wakeOperand_eq_pending_iff {bus : List Msg} {o : Operand} {q : Nat} :
    wakeOperand bus o = .pending q ↔ o = .pending q ∧ busValue bus q = none := by
  cases o with
  | value v => simp [wakeOperand]
  | pending p =>
    cases hb : busValue bus p with
    | none =>
      simp only [wakeOperand, hb, Operand.pending.injEq]
      exact ⟨fun h => ⟨h, h ▸ hb⟩, And.left⟩
    | some v =>
      simp only [wakeOperand, hb, reduceCtorEq, Operand.pending.injEq, false_iff, not_and]
      rintro rfl
      simp [hb]

theorem portOperand_eq_pending_iff {s : State} {o : Operand} {q : Nat} :
    portOperand s o = .pending q ↔ o = .pending q ∧ s.lookup q = none := by
  cases o with
  | value v => simp [portOperand]
  | pending p =>
    cases hl : s.lookup p with
    | none =>
      simp only [portOperand, hl, Operand.pending.injEq]
      exact ⟨fun h => ⟨h, h ▸ hl⟩, And.left⟩
    | some v =>
      simp only [portOperand, hl, reduceCtorEq, Operand.pending.injEq, false_iff, not_and]
      rintro rfl
      simp [hl]

theorem RSEntry.waitsFor_wake {α : Type} {bus : List Msg} {e : RSEntry α} {q : Nat} :
    (e.wake bus).waitsFor q ↔ e.waitsFor q ∧ busValue bus q = none := by
  simp only [RSEntry.waitsFor, RSEntry.wake, wakeOperand_eq_pending_iff, or_and_right]

theorem RSEntry.waitsFor_port {α : Type} {s : State} {e : RSEntry α} {q : Nat} :
    (e.port s).waitsFor q ↔ e.waitsFor q ∧ s.lookup q = none := by
  simp only [RSEntry.waitsFor, RSEntry.port, portOperand_eq_pending_iff, or_and_right]

/-- An operand stays asleep where neither a WriteBack nor a CommitReg carries its tag. -/
theorem busValue_eq_none_iff_sent {bus : List Msg} {q : Nat} :
    busValue bus q = none ↔ q ∉ sent bus .writeBack ∧ q ∉ sent bus .commitReg := by
  simp only [busValue_eq_none_iff, mem_sent, not_exists, not_and]
  exact ⟨fun h => ⟨fun m hm hk => h m hm (.inl hk), fun m hm hk => h m hm (.inr hk)⟩,
    fun h m hm hk => hk.elim (h.1 m hm) (h.2 m hm)⟩

/-- The lookup port answers nothing for an index whose live entry is not in state Write. -/
theorem State.lookup_eq_none_iff {s : State} {q : Nat} :
    s.lookup q = none ↔ ∀ e, s.robAt q = some e → e.state ≠ .write := by
  unfold State.lookup
  rcases s.robAt q with _ | e
  · simp
  · simp

theorem RSEntry.port_congr {α : Type} {s t : State} (hr : t.rob = s.rob) (hc : t.cfg = s.cfg) (e : RSEntry α) :
    e.port t = e.port s := by
  have hl : ∀ q, t.lookup q = s.lookup q := fun q => by
    unfold State.lookup
    rw [State.robAt_congr hr hc]
  have ho : ∀ o, portOperand t o = portOperand s o := fun o => by
    cases o <;> simp [portOperand, hl]
  simp [RSEntry.port, ho]

@[simp] theorem RSEntry.wake_op {α : Type} (bus : List Msg) (e : RSEntry α) : (e.wake bus).op = e.op := rfl
@[simp] theorem RSEntry.wake_dest {α : Type} (bus : List Msg) (e : RSEntry α) : (e.wake bus).dest = e.dest := rfl
@[simp] theorem RSEntry.port_op {α : Type} (s : State) (e : RSEntry α) : (e.port s).op = e.op := rfl
@[simp] theorem RSEntry.port_dest {α : Type} (s : State) (e : RSEntry α) : (e.port s).dest = e.dest := rfl
@[simp] theorem RSEntry.withOp_op {α β : Type} (e : RSEntry α) (o : β) : (e.withOp o).op = o := rfl
@[simp] theorem RSEntry.withOp_dest {α β : Type} (e : RSEntry α) (o : β) : (e.withOp o).dest = e.dest := rfl
@[simp] theorem RSEntry.withOp_withOp {α β γ : Type} (e : RSEntry α) (o : β) (o' : γ) :
    (e.withOp o).withOp o' = e.withOp o' := rfl

theorem RSEntry.withOp_self {α : Type} {e : RSEntry α} {o : α} (h : e.op = o) : e.withOp o = e := by
  subst h
  rfl

/-! ## The banks as one list -/

/-- The slots of a bank under the common operation type. -/
theorem busy_view {α : Type} (toOp : α → Op) (bank : List (Option (RSEntry α))) :
    busy (bank.map (Option.map fun e => e.withOp (toOp e.op))) = (busy bank).map fun e => e.withOp (toOp e.op) :=
  busy_map bank _

theorem Banks.mem_entries {rs : Banks} {e : RSEntry Op} : e ∈ rs.entries ↔ ∃ b, some e ∈ rs.view b := by
  simp only [Banks.entries, List.mem_append, mem_busy]
  constructor
  · rintro ((((h | h) | h) | h) | h)
    exacts [⟨_, h⟩, ⟨_, h⟩, ⟨_, h⟩, ⟨_, h⟩, ⟨_, h⟩]
  · rintro ⟨b, h⟩
    cases b <;> simp [h]

/-- An entry more in one bank is an entry more in all. -/
theorem Banks.entries_insert {rs rs' : Banks} {b : Bank} {x : RSEntry Op}
    (hb : (busy (rs'.view b)).Perm (x :: busy (rs.view b))) (ho : ∀ b', b' ≠ b → rs'.view b' = rs.view b') :
    rs'.entries.Perm (x :: rs.entries) := by
  unfold Banks.entries
  have hmid : ∀ P : List (RSEntry Op), (P ++ busy (rs'.view b)).Perm (x :: (P ++ busy (rs.view b))) :=
    fun P => (hb.append_left P).trans List.perm_middle
  cases b with
  | add =>
    rw [ho .cmp (by simp), ho .log (by simp), ho .shf (by simp), ho .ls (by simp)]
    exact (((hb.append_right _).append_right _).append_right _).append_right _
  | cmp =>
    rw [ho .add (by simp), ho .log (by simp), ho .shf (by simp), ho .ls (by simp)]
    exact (((hmid _).append_right _).append_right _).append_right _
  | log =>
    rw [ho .add (by simp), ho .cmp (by simp), ho .shf (by simp), ho .ls (by simp)]
    exact ((hmid _).append_right _).append_right _
  | shf =>
    rw [ho .add (by simp), ho .cmp (by simp), ho .log (by simp), ho .ls (by simp)]
    exact (hmid _).append_right _
  | ls =>
    rw [ho .add (by simp), ho .cmp (by simp), ho .log (by simp), ho .shf (by simp)]
    exact hmid _

/-- Each entry of the list stands in the bank of its operation, so those of one bank are found by it. -/
theorem Banks.entries_filter_ls (rs : Banks) :
    (rs.entries.filter fun e => e.op.bank == .ls).map RSEntry.dest = (busy rs.ls).map RSEntry.dest := by
  have hview : ∀ {α : Type} (toOp : α → Op) (bank : List (Option (RSEntry α))) (p : Bool),
      (∀ o, ((toOp o).bank == .ls) = p) →
      ((busy (bank.map (Option.map fun e => e.withOp (toOp e.op)))).filter fun e => e.op.bank == .ls).map RSEntry.dest =
        if p then (busy bank).map RSEntry.dest else [] := by
    intro α toOp bank p hp
    rw [busy_view]
    cases p <;> simp [List.filter_map, Function.comp_def, hp]
  simp only [Banks.entries, Banks.view, List.filter_append, List.map_append]
  rw [hview Op.add _ false fun _ => rfl, hview Op.cmp _ false fun _ => rfl, hview Op.log _ false fun _ => rfl,
    hview Op.shf _ false fun _ => rfl, hview Op.ls _ true fun _ => rfl]
  simp

/-! ## Insertion and wakeup -/

/-- Insertion adds the classified entry to the busy ones of its bank. -/
theorem busy_insertFree {α : Type} (toOp : α → Op) {e : RSEntry Op} {o : α} {bank b : List (Option (RSEntry α))}
    (ho : e.op = toOp o) (h : insertFree (e.withOp o) bank = some b) :
    (busy (b.map (Option.map fun e => e.withOp (toOp e.op)))).Perm
      (e :: busy (bank.map (Option.map fun e => e.withOp (toOp e.op)))) := by
  obtain ⟨k, hk, -, rfl⟩ := insertFree_eq_some h
  rw [busy_view, busy_view]
  have := (busy_set_some (e.withOp o) hk).map fun e => e.withOp (toOp e.op)
  simpa [RSEntry.withOp_self ho] using this

/-- Step F5 adds the arriving entry to the busy ones. -/
theorem insertRs_entries {s s' : State} {l : Latch} (hl : s.latch = some l) (h : insertRs s = .ok s') :
    s'.rs.entries.Perm (arriving s l.rsEntry :: s.rs.entries) := by
  rcases insertRs_eq_ok h with ⟨hn, -⟩ | ⟨l', hl', h⟩
  · simp [hn] at hl
  · cases hl.symm.trans hl'
    rcases h with ⟨o, b, ho, hb, rfl⟩ | ⟨o, b, ho, hb, rfl⟩ | ⟨o, b, ho, hb, rfl⟩ | ⟨o, b, ho, hb, rfl⟩ |
      ⟨o, b, ho, hb, rfl⟩
    · exact Banks.entries_insert (b := .add) (busy_insertFree .add ho hb) (by rintro (_ | _) <;> simp [Banks.view])
    · exact Banks.entries_insert (b := .cmp) (busy_insertFree .cmp ho hb) (by rintro (_ | _) <;> simp [Banks.view])
    · exact Banks.entries_insert (b := .log) (busy_insertFree .log ho hb) (by rintro (_ | _) <;> simp [Banks.view])
    · exact Banks.entries_insert (b := .shf) (busy_insertFree .shf ho hb) (by rintro (_ | _) <;> simp [Banks.view])
    · exact Banks.entries_insert (b := .ls) (busy_insertFree .ls ho hb) (by rintro (_ | _) <;> simp [Banks.view])

/-- Step F6 wakes every busy entry. -/
theorem wakeAll_entries (s : State) : (wakeAll s).rs.entries = s.rs.entries.map (RSEntry.wake s.bus) := by
  have hview : ∀ {α : Type} (toOp : α → Op) (bank : List (Option (RSEntry α))),
      busy ((wakeBank s.bus bank).map (Option.map fun e => e.withOp (toOp e.op))) =
        (busy (bank.map (Option.map fun e => e.withOp (toOp e.op)))).map (RSEntry.wake s.bus) := by
    intro α toOp bank
    rw [busy_view, busy_view, wakeBank, busy_map]
    simp only [List.map_map]
    rfl
  simp only [Banks.entries, Banks.view, wakeAll_rs, List.map_append, hview]

/-! ## The whole of a Flush without a squash -/

/-- The entry the latch brings to its bank, as it stands there after the Flush that leads to `f`. -/
def arrived (s f : State) : List (RSEntry Op) :=
  match s.latch with
  | some l => [((l.rsEntry.wake s.bus).port f).wake s.bus]
  | none => []

/-- What a Flush without a squash makes of a state, structure by structure. -/
structure UnitsFlushed (s f : State) : Prop where
  frame : FlushFrame s f
  latch : f.latch = none
  bus : f.bus = []
  rob : RobFlushed s f
  queues : QueuesFlushed s f
  add : f.rs.add.length = s.rs.add.length
  cmp : f.rs.cmp.length = s.rs.cmp.length
  log : f.rs.log.length = s.rs.log.length
  shf : f.rs.shf.length = s.rs.shf.length
  ls : f.rs.ls.length = s.rs.ls.length
  entries : f.rs.entries.Perm (arrived s f ++ s.rs.entries.map (RSEntry.wake s.bus))

/-- Steps F5 and F6 together. -/
theorem entries_of_steps {s s₆ s₇ : State} (hlatch : s₆.latch = s.latch) (hbus : s₆.bus = s.bus)
    (hrs : s₆.rs = s.rs) (h₇ : insertRs s₆ = .ok s₇) :
    (wakeAll s₇).rs.entries.Perm (arrived s (wakeAll s₇) ++ s.rs.entries.map (RSEntry.wake s.bus)) := by
  rw [wakeAll_entries]
  rcases hl : s.latch with _ | l
  · rcases insertRs_eq_ok h₇ with ⟨-, rfl⟩ | ⟨l, hs, -⟩
    · simp [arrived, hl, hrs, hbus]
    · simp [hlatch, hl] at hs
  · have hperm := insertRs_entries (hlatch.trans hl) h₇
    obtain ⟨b, rfl⟩ := insertRs_frame h₇
    refine (hperm.map _).trans (.of_eq ?_)
    simp only [arrived, hl, List.map_cons, List.cons_append, List.nil_append, hrs, hbus, arriving]
    exact congrArg₂ List.cons (congrArg (RSEntry.wake s.bus) (RSEntry.port_congr rfl rfl _).symm) rfl

/-- A Flush without a squash, step by step and put together. -/
theorem flushUnits_flushed {s s' : State} (hcap : CapacityInv s) (hrec : RecordInv s) (h : flushUnits s = .ok s') :
    UnitsFlushed s s' := by
  obtain ⟨hframe, hlatch, hbus⟩ := flushUnits_frame h
  obtain ⟨s₁, s₂, s₃, s₄, s₅, s₆, s₇, h₁, h₂, h₃, h₄, h₅, h₆, h₇, rfl⟩ := flushUnits_eq_ok h
  obtain ⟨hrob, r, rfl⟩ := robFlushed_of_steps hcap hrec h₁ h₂ h₃
  obtain ⟨hqueues, q, p, rfl⟩ := queuesFlushed_of_steps (s := { s with rob := r }) hcap.lq hcap.sq h₄ h₅ h₆
  obtain ⟨hadd, hcmp, hlog, hshf, hls⟩ := insertRs_lengths h₇
  have hentries := entries_of_steps (s := s) (s₆ := { s with rob := r, lq := q, sq := p }) rfl rfl rfl h₇
  obtain ⟨b, rfl⟩ := insertRs_frame h₇
  exact {
    frame := hframe
    latch := hlatch
    bus := hbus
    rob := hrob.congr rfl rfl
    queues := ⟨hqueues.lq, hqueues.sq, hqueues.loads, hqueues.stores⟩
    add := by simpa using hadd
    cmp := by simpa using hcmp
    log := by simpa using hlog
    shf := by simpa using hshf
    ls := by simpa using hls
    entries := hentries }

/-- A Flush is the squash or the units' steps, and recomputes the full flags. -/
theorem flush_flushed {s f : State} (hcap : CapacityInv s) (hrec : RecordInv s) (h : flush s = .ok f) :
    f.full = fullFlags f ∧
      ((s.clear = true ∧ f = setFull (squash s)) ∨ (s.clear = false ∧ UnitsFlushed s f)) := by
  rcases flush_eq_ok h with ⟨hc, rfl⟩ | ⟨hc, s', hu, rfl⟩
  · exact ⟨rfl, .inl ⟨hc, rfl⟩⟩
  · obtain ⟨hframe, hlatch, hbus, hrob, hqueues, hadd, hcmp, hlog, hshf, hls, hentries⟩ :=
      flushUnits_flushed hcap hrec hu
    refine ⟨rfl, .inr ⟨hc, ?_, hlatch, hbus, hrob.congr rfl rfl, hqueues.congr rfl rfl rfl, hadd, hcmp, hlog, hshf,
      hls, hentries⟩⟩
    exact hframe.trans (by constructor <;> rfl)

end Sys2Proof.Machine
end

section
/-! SUPPORT. The first invariant through a Flush: what holds of every flushed state (10_state.md R44;
40_clock_and_bus.md R131, R135, R137). -/

namespace Sys2Proof.Machine

/-! ## Entries and their destinations -/

/-- A store's entry has no destination. -/
theorem RobEntry.rd_of_isStore {e : RobEntry} (h : e.entryOk) (hs : e.isStore = true) : e.rd = none := by
  obtain ⟨hdest, hrd, -, -⟩ := h
  unfold RobEntry.isStore at hs
  split at hs
  · rename_i o ho
    rw [hrd]
    exact IRec.rd_of_not_mayWrite hdest ho rfl
  · cases hs

/-- An entry that waits for its store has no destination. -/
theorem RobEntry.rd_of_waitSt {e : RobEntry} (h : e.entryOk) (hw : e.state = .waitSt) : e.rd = none := by
  obtain ⟨-, -, -, hstore⟩ := id h
  exact rd_of_isStore h (hstore hw)

/-- A producer tag names an instruction in flight with that destination, in the words of `inFlight`. -/
theorem tagInv_iff {s : State} (hh : s.rob.head < s.cfg.robCap) (hl : s.rob.entries.length ≤ s.cfg.robCap) :
    TagInv s ↔ ∀ r q, s.tagOf r = some q → ∃ e, (q, e) ∈ s.inFlight ∧ e.rd = some r := by
  have hiff : ∀ r q, ((∃ e, s.robAt q = some e ∧ e.rd = some r) ∨
      (∃ l, s.latch = some l ∧ l.idx = q ∧ l.robEntry.rd = some r)) ↔
      ∃ e, (q, e) ∈ s.inFlight ∧ e.rd = some r := by
    intro r q
    simp only [State.inFlight_eq, List.mem_append, State.mem_live_iff hh hl, State.mem_latched, Prod.mk.injEq]
    constructor
    · rintro (⟨e, he, hr⟩ | ⟨l, hl, rfl, hr⟩)
      exacts [⟨e, .inl he, hr⟩, ⟨_, .inr ⟨l, hl, rfl, rfl⟩, hr⟩]
    · rintro ⟨e, he | ⟨l, hl, rfl, rfl⟩, hr⟩
      exacts [.inl ⟨e, he, hr⟩, .inr ⟨l, hl, rfl, hr⟩]
  exact forall₂_congr fun r q => imp_congr_right fun _ => hiff r q

/-! ## The live entries of the flushed state, one by one -/

/-- Where the live entries of the flushed state come from, and which entries before the Flush stay live. -/
theorem RobFlushed.members {s f : State} (h : RobFlushed s f) :
    ∃ g, Writes s.bus g ∧
      (∀ i e, (i, e) ∈ f.live → (∃ e₀, (i, e₀) ∈ s.live ∧ g i e₀ = e) ∨ (i, e) ∈ s.latched) ∧
      (∀ i e, (i, e) ∈ s.live → (g i e).state ≠ .waitSt → (i, g i e) ∈ f.live) ∧
      ∀ p ∈ s.latched, p ∈ f.live := by
  obtain ⟨-, -, g, hg, hwaits, hlive⟩ := h
  refine ⟨g, hg, fun i e he => ?_, fun i e he hs => ?_, fun p hp => ?_⟩
  · rw [hlive, List.mem_append] at he
    exact he.imp_left fun he => mem_written.mp (List.mem_of_mem_drop he)
  · have hw : (i, g i e) ∈ written g s.live := mem_written.mpr ⟨e, he, rfl⟩
    rw [← List.take_append_drop (sent s.bus .storeSuccess).length (written g s.live), List.mem_append] at hw
    rw [hlive, List.mem_append]
    exact hw.elim (fun hw => absurd (hwaits _ hw) hs) .inl
  · rw [hlive, List.mem_append]
    exact .inr hp

/-- Every entry of the flushed reorder buffer copies its record's destination. -/
theorem RobFlushed.entryOk {s f : State} (h : RobFlushed s f) (hrec : RecordInv s) {e : RobEntry}
    (he : e ∈ f.rob.entries) : e.entryOk := by
  obtain ⟨g, hg, hfrom, -, -⟩ := h.members
  obtain ⟨i, hi⟩ := State.mem_entries_iff.mp he
  rcases hfrom i e hi with ⟨e₀, h₀, rfl⟩ | hm
  · exact hg.entryOk (hrec.rob e₀ (State.mem_entries_iff.mpr ⟨i, h₀⟩))
  · obtain ⟨l, hl, heq⟩ := State.mem_latched.mp hm
    cases heq
    exact (hrec.latch l hl).1

/-- An instruction in flight with a destination is live after the Flush. -/
theorem RobFlushed.keeps_dest {s f : State} (h : RobFlushed s f) (hrec : RecordInv s) {q : Nat} {e : RobEntry}
    {r : RegIdx} (he : (q, e) ∈ s.inFlight) (hr : e.rd = some r) : ∃ e', (q, e') ∈ f.live ∧ e'.rd = some r := by
  obtain ⟨g, hg, -, hkeeps, hlatched⟩ := h.members
  rcases List.mem_append.mp (State.inFlight_eq s ▸ he) with he | he
  · refine ⟨g q e, hkeeps q e he fun hw => ?_, (hg.rd q e).trans hr⟩
    have hok : (g q e).entryOk := hg.entryOk (hrec.rob e (State.mem_entries_iff.mpr ⟨q, he⟩))
    have := (hg.rd q e).symm.trans (RobEntry.rd_of_waitSt hok hw)
    simp [hr] at this
  · exact ⟨e, hlatched _ he, hr⟩

/-! ## The queues of the flushed state -/

/-- Stamps below a cycle stay sorted when that cycle's stamp joins them. -/
theorem stamps_append {l : List Nat} {n : Nat} (hl : l.Pairwise (· < ·)) (hn : ∀ m ∈ l, m < n) :
    (l ++ [n]).Pairwise (· < ·) ∧ ∀ m ∈ l ++ [n], m ≤ n := by
  refine ⟨List.pairwise_append.mpr ⟨hl, List.pairwise_singleton _ _, by simpa using hn⟩, fun m hm => ?_⟩
  rcases List.mem_append.mp hm with hm | hm
  · exact (hn m hm).le
  · exact (List.mem_singleton.mp hm).le

theorem loadsInserted_sorted {s : State} (h : QueueOrderInv s) :
    ((loadsInserted s).map LoadEntry.ts).Pairwise (· < ·) ∧ ∀ n ∈ (loadsInserted s).map LoadEntry.ts, n ≤ s.cycle := by
  have hold : ∀ n ∈ s.lq.map LoadEntry.ts, n < s.cycle := by simpa using h.lqOld
  have hsort : (s.lq.map LoadEntry.ts).Pairwise (· < ·) := List.pairwise_map.mpr h.lq
  rcases loadsInserted_cases s with ⟨-, he⟩ | ⟨l, e, -, -, he⟩ <;> rw [he]
  · exact ⟨hsort, fun n hn => (hold n hn).le⟩
  · rw [List.map_append]
    exact stamps_append hsort hold

theorem storesInserted_sorted {s : State} (h : QueueOrderInv s) :
    ((storesInserted s).map StoreEntry.ts).Pairwise (· < ·) ∧
      ∀ n ∈ (storesInserted s).map StoreEntry.ts, n ≤ s.cycle := by
  have hold : ∀ n ∈ s.sq.map StoreEntry.ts, n < s.cycle := by simpa using h.sqOld
  have hsort : (s.sq.map StoreEntry.ts).Pairwise (· < ·) := List.pairwise_map.mpr h.sq
  rcases storesInserted_cases s with ⟨-, he⟩ | ⟨l, e, -, -, he⟩ <;> rw [he]
  · exact ⟨hsort, fun n hn => (hold n hn).le⟩
  · rw [List.map_append]
    exact stamps_append hsort hold

/-- The store stage keeps its committed head through a Flush. -/
theorem UnitsFlushed.storeStageOk {s f : State} (h : UnitsFlushed s f) (hs : storeStageOk s) : storeStageOk f := by
  unfold Machine.storeStageOk at hs ⊢
  rw [h.frame.stst, h.frame.cfg]
  split at hs
  · trivial
  · obtain ⟨hlo, hhi, e, rest, hq, hc⟩ := hs
    refine ⟨hlo, hhi, ?_⟩
    have hcons : ∃ rest', storesInserted s = e :: rest' := by
      rcases storesInserted_cases s with ⟨-, he⟩ | ⟨l, e', -, -, he⟩ <;> rw [he, hq]
      exacts [⟨_, rfl⟩, ⟨_, rfl⟩]
    obtain ⟨rest', hi⟩ := hcons
    have hstores := h.queues.stores
    rw [hi] at hstores
    obtain ⟨e', q, he, -, hq'⟩ := List.forall₂_cons_left_iff.mp hstores
    exact ⟨e', q, hq', he.stays hc⟩

/-! ## The invariant of flushed states -/

/-- What holds of every flushed state of a tick that does not halt: the invariant, but with the entries of this tick
stamped with its cycle; latch and bus are empty, the full flags are those of the state, no flag is raised. -/
structure FlushedInv (f : State) : Prop where
  capacity : CapacityInv f
  stages : StageInv f
  loadOrder : f.lq.Pairwise fun a b => a.ts < b.ts
  storeOrder : f.sq.Pairwise fun a b => a.ts < b.ts
  loadStamps : ∀ e ∈ f.lq, e.ts ≤ f.cycle
  storeStamps : ∀ e ∈ f.sq, e.ts ≤ f.cycle
  records : RecordInv f
  tags : TagInv f
  zero : ZeroInv f
  memory : MemInv f
  latch : f.latch = none
  bus : f.bus = []
  full : f.full = fullFlags f
  halt : f.halt = false
  clear : f.clear = false

theorem squash_nothingInFlight (s : State) : NothingInFlight (setFull (squash s)) := by
  constructor <;> rfl

/-- The invariant through a squash. -/
theorem squash_flushedInv {s : State} (h : Inv s) (hh : s.halt = false) : FlushedInv (setFull (squash s)) where
  capacity := (squash_nothingInFlight s).capacityInv h.capacity.cfg (Nat.zero_le _)
  stages := (squash_nothingInFlight s).stageInv
  loadOrder := .nil
  storeOrder := .nil
  loadStamps e he := nomatch he
  storeStamps e he := nomatch he
  records := (squash_nothingInFlight s).recordInv fun i hi => nomatch hi
  tags := (squash_nothingInFlight s).tagInv
  zero := ⟨h.zero.x, by simp⟩
  memory := ⟨h.memory.wf, h.memory.inside⟩
  latch := rfl
  bus := rfl
  full := rfl
  halt := hh
  clear := rfl

theorem UnitsFlushed.capacityInv {s f : State} (h : UnitsFlushed s f) (hs : CapacityInv s) : CapacityInv f where
  cfg := h.frame.cfg ▸ hs.cfg
  iq := by rw [h.frame.iq, h.frame.cfg]; exact hs.iq
  head := h.rob.head
  rob := h.rob.count
  add := by rw [h.add, h.frame.cfg]; exact hs.add
  cmp := by rw [h.cmp, h.frame.cfg]; exact hs.cmp
  log := by rw [h.log, h.frame.cfg]; exact hs.log
  shf := by rw [h.shf, h.frame.cfg]; exact hs.shf
  ls := by rw [h.ls, h.frame.cfg]; exact hs.ls
  lq := h.queues.lq
  sq := h.queues.sq
  bus := by simp [h.bus]
  latch := by simp [latchFits, h.latch]

theorem UnitsFlushed.stageInv {s f : State} (h : UnitsFlushed s f) (hs : StageInv s) : StageInv f where
  add := by rw [h.frame.fu, h.frame.cfg]; exact hs.add
  cmp := by rw [h.frame.fu, h.frame.cfg]; exact hs.cmp
  log := by rw [h.frame.fu, h.frame.cfg]; exact hs.log
  shf := by rw [h.frame.fu, h.frame.cfg]; exact hs.shf
  ldst := by rw [h.frame.ldst, h.frame.cfg]; exact hs.ldst
  stst := h.storeStageOk hs.stst

theorem UnitsFlushed.tagInv {s f : State} (h : UnitsFlushed s f) (hs : Inv s) : TagInv f := by
  rw [tagInv_iff h.rob.head h.rob.count]
  intro r q hq
  rw [State.tagOf_congr h.frame.tag] at hq
  obtain ⟨e, he, hr⟩ := (tagInv_iff hs.capacity.head hs.capacity.rob).mp hs.tags r q hq
  obtain ⟨e', he', hr'⟩ := h.rob.keeps_dest hs.records he hr
  exact ⟨e', by simp [State.inFlight_eq, he'], hr'⟩

/-- The invariant through a Flush without a squash. -/
theorem UnitsFlushed.flushedInv {s f : State} (h : UnitsFlushed s f) (hs : Inv s) (hfull : f.full = fullFlags f)
    (hh : s.halt = false) (hc : s.clear = false) : FlushedInv f where
  capacity := h.capacityInv hs.capacity
  stages := h.stageInv hs.stages
  loadOrder := by
    rw [← List.pairwise_map (f := LoadEntry.ts) (R := (· < ·)), h.queues.load_stamps]
    exact (loadsInserted_sorted hs.queues).1
  storeOrder := by
    rw [← List.pairwise_map (f := StoreEntry.ts) (R := (· < ·)), h.queues.store_stamps]
    exact (storesInserted_sorted hs.queues).1
  loadStamps e he := by
    rw [h.frame.cycle]
    exact (loadsInserted_sorted hs.queues).2 _ (h.queues.load_stamps ▸ List.mem_map_of_mem he)
  storeStamps e he := by
    rw [h.frame.cycle]
    exact (storesInserted_sorted hs.queues).2 _ (h.queues.store_stamps ▸ List.mem_map_of_mem he)
  records := ⟨h.frame.iq ▸ hs.records.iq, fun e he => h.rob.entryOk hs.records he, by simp [h.latch]⟩
  tags := h.tagInv hs
  zero := ⟨by simp [h.frame.x, hs.zero.x], by simp [h.frame.tag, hs.zero.tag]⟩
  memory := ⟨h.frame.mem ▸ hs.memory.wf, by rw [h.frame.mem, h.frame.cfg]; exact hs.memory.inside⟩
  latch := h.latch
  bus := h.bus
  full := hfull
  halt := h.frame.halt.trans hh
  clear := h.frame.clear.trans hc

/-- The invariant through a Flush. -/
theorem flush_flushedInv {s f : State} (hs : Inv s) (hh : s.halt = false) (h : flush s = .ok f) : FlushedInv f := by
  obtain ⟨hfull, ⟨-, rfl⟩ | ⟨hc, hu⟩⟩ := flush_flushed hs.capacity hs.records h
  · exact squash_flushedInv hs hh
  · exact hu.flushedInv hs hfull hh hc

end Sys2Proof.Machine
end

section
/-! SUPPORT. The first invariant through an Execute, and so through every tick (10_state.md R44;
40_clock_and_bus.md R132, R133, R139). -/

namespace Sys2Proof.Machine

/-! ## What the units do, in the words of the invariants -/

/-- Issue holds, or hands the head of the queue over with the tail's index. -/
theorem issue_effect {f : State} {o : IssueOut} (h : issue f = .ok o) :
    (o.iq = f.iq ∧ o.latch = none ∧ o.rename = none) ∨
    (∃ i rest op, f.iq = i :: rest ∧ i.op = some op ∧ issueGate f op = true ∧
      o = ⟨rest, some (latchOf f i op), i.rd.map fun d => (d, f.robTail)⟩) := by
  rcases issue_cases h with ⟨hq, rfl⟩ | ⟨i, rest, op, hq, hop, hg, rfl⟩ | ⟨i, rest, op, -, -, -, rfl⟩
  · exact .inl ⟨hq.symm, rfl, rfl⟩
  · exact .inr ⟨i, rest, op, hq, hop, hg, rfl⟩
  · exact .inl ⟨rfl, rfl, rfl⟩

/-- Where the issue gate lets an instruction pass, everything it needs has room (41_issue_unit.md R170). -/
theorem room_of_issueGate {f : State} {op : Op} (hfull : f.full = fullFlags f) (h : issueGate f op = true) :
    f.rob.entries.length ≠ f.cfg.robCap ∧ bankHasRoom f.rs op.bank ∧
      (∀ o, op = .ls (.load o) → f.lq.length ≠ f.cfg.lqCap) ∧
      (∀ o, op = .ls (.store o) → f.sq.length ≠ f.cfg.sqCap) := by
  unfold issueGate at h
  rw [hfull] at h
  simp only [Bool.and_eq_true, Bool.not_eq_eq_eq_not, Bool.not_true] at h
  obtain ⟨⟨hrob, hbank⟩, hqueue⟩ := h
  refine ⟨by simpa [fullFlags] using hrob, ?_, ?_, ?_⟩
  · cases hb : op.bank <;> rw [hb] at hbank <;> exact bankFull_eq_false_iff.mp hbank
  · rintro o rfl
    simpa [fullFlags] using hqueue
  · rintro o rfl
    simpa [fullFlags] using hqueue

/-- Commit retires the head: it was in state Write and is no store; its destination, if any, is written, its value is
announced with CommitReg (48_reorder_commit.md R387 to R389, R391). -/
structure Retires (f : State) (c : Commit) (e : RobEntry) : Prop where
  state : e.state = .write
  notStore : e.isStore = false
  rob : c.rob = f.rob.retire f.cfg.robCap
  write : ∃ v, c.write = e.rd.map fun rd => (rd, v, f.rob.head)
  msgs : (c.msgs = [] ∧ e.rd = none) ∨ ∃ v, c.msgs = [⟨.commitReg, f.rob.head, v⟩]

/-- Commit releases the head store, which stays at the head (R390). -/
structure Releases (f : State) (c : Commit) (e : RobEntry) (rest : List RobEntry) : Prop where
  state : e.state = .write
  isStore : e.isStore = true
  rob : c.rob = ⟨f.rob.head, { e with state := .waitSt } :: rest⟩
  write : c.write = none
  msgs : ∃ v, c.msgs = [⟨.commitMem, f.rob.head, v⟩]

/-- Commit leaves the reorder buffer and the registers alone, retires the head, or releases the head store. -/
theorem commit_effect {f : State} {c : Commit} (hok : ∀ e ∈ f.rob.entries, e.entryOk) (h : commit f = .ok c) :
    (c.rob = f.rob ∧ c.write = none ∧ c.msgs = []) ∨
    ∃ e rest, f.rob.entries = e :: rest ∧ (Retires f c e ∨ Releases f c e rest) := by
  rcases commit_cases h with ⟨-, rfl⟩ | ⟨e, -, -, -, rfl⟩ | ⟨e, -, -, -, -, rfl⟩ | ⟨e, rest, he, hw, rfl⟩
  · exact .inl ⟨rfl, rfl, rfl⟩
  · exact .inl ⟨rfl, rfl, rfl⟩
  · exact .inl ⟨rfl, rfl, rfl⟩
  · obtain ⟨hdest, hrd, -, -⟩ := hok e (by simp [he])
    rcases commitHead_cases f e with ⟨-, hc⟩ | ⟨-, hop, hc⟩ | ⟨-, ⟨o, hop, hbr⟩, hc⟩ | ⟨-, hs, hc⟩ |
      ⟨-, -, -, hs, hc⟩ <;> rw [hc]
    · exact .inl ⟨rfl, rfl, rfl⟩
    · exact .inr ⟨e, rest, he, .inl ⟨hw, by simp [RobEntry.isStore, hop], rfl, ⟨_, rfl⟩, .inr ⟨_, rfl⟩⟩⟩
    · have hnone : e.rd = none := by
        rw [hrd]
        exact IRec.rd_of_not_mayWrite hdest hop (by simp [Op.mayWrite, hbr])
      exact .inr ⟨e, rest, he, .inl ⟨hw, by simp [RobEntry.isStore, hop], rfl, ⟨0, by rw [hnone]; rfl⟩,
        .inl ⟨rfl, hnone⟩⟩⟩
    · exact .inr ⟨e, rest, he, .inr ⟨hw, hs, by simp [commitStore, he], rfl, ⟨_, rfl⟩⟩⟩
    · exact .inr ⟨e, rest, he, .inl ⟨hw, hs, rfl, ⟨_, rfl⟩, .inr ⟨_, rfl⟩⟩⟩

/-- No commit raises both flags (40_clock_and_bus.md R135). -/
theorem commit_flags {f : State} {c : Commit} (h : commit f = .ok c) : c.setHalt = false ∨ c.setClear = false := by
  rcases commit_cases h with ⟨-, rfl⟩ | ⟨e, -, -, -, rfl⟩ | ⟨e, -, -, -, -, rfl⟩ | ⟨e, -, -, -, rfl⟩
  · exact .inl rfl
  · exact .inl rfl
  · exact .inl rfl
  · rcases commitHead_cases f e with ⟨-, hc⟩ | ⟨-, -, hc⟩ | ⟨-, -, hc⟩ | ⟨-, -, hc⟩ | ⟨-, -, -, -, hc⟩ <;> rw [hc]
    exacts [.inr rfl, .inl rfl, .inl rfl, .inl rfl, .inl rfl]

/-- The load stage takes from the front of the load queue only. -/
theorem loadStage_suffix {f : State} {l : LoadOut} (h : loadStage f = .ok l) : l.lq <:+ f.lq := by
  rcases loadStage_cases h with ⟨rem, e, -, -, rfl⟩ | ⟨rem, e, v, -, -, -, rfl⟩ | ⟨e, rest, -, hq, -, rfl⟩ |
    ⟨-, -, rfl⟩
  · exact List.suffix_rfl
  · exact List.suffix_rfl
  · exact hq ▸ List.suffix_cons e rest
  · exact List.suffix_rfl

/-- The store stage takes from the front of the store queue only. -/
theorem storeStage_suffix {f : State} {o : StoreOut} (h : storeStage f = .ok o) : o.sq <:+ f.sq := by
  rcases storeStage_cases h with ⟨rem, -, -, rfl⟩ | ⟨rem, e, rest, m, -, -, hq, -, rfl⟩ | ⟨e, rest, -, -, -, rfl⟩ |
    ⟨-, -, rfl⟩
  · exact List.suffix_rfl
  · exact hq ▸ List.suffix_cons e rest
  · exact List.suffix_rfl
  · exact List.suffix_rfl

/-! ## Counters -/

theorem unitStep_countOk {α : Type} (result : α → Word → Word → Word) {lat : Nat} {st : Stage α}
    (bank : List (Option (RSEntry α))) (hlat : 1 ≤ lat) (h : st.countOk lat) :
    (unitStep result lat st bank).stage.countOk lat := by
  rcases unitStep_cases result lat st bank with ⟨rem, op, a, b, d, hst, hr, hu⟩ | ⟨_, _, _, _, _, -, -, hu⟩ |
    ⟨-, -, hu⟩ | ⟨_, _, -, -, hu⟩ <;> rw [hu]
  · rw [hst] at h
    obtain ⟨-, hhi⟩ := h
    exact ⟨by omega, by omega⟩
  · trivial
  · trivial
  · exact ⟨hlat, le_refl _⟩

theorem loadStage_countOk {f : State} {l : LoadOut} (hlat : 1 ≤ f.cfg.latLoad) (hc : f.ldst.countOk f.cfg.latLoad)
    (h : loadStage f = .ok l) : l.ldst.countOk f.cfg.latLoad := by
  rcases loadStage_cases h with ⟨rem, e, hl, hr, rfl⟩ | ⟨rem, e, v, -, -, -, rfl⟩ | ⟨e, rest, -, -, -, rfl⟩ |
    ⟨-, -, rfl⟩
  · rw [hl] at hc
    obtain ⟨-, hhi⟩ := hc
    exact ⟨by omega, by omega⟩
  · trivial
  · exact ⟨hlat, le_refl _⟩
  · trivial

/-- The store stage's counter stays in range and its head stays committed. -/
theorem storeStage_ok {f t : State} {o : StoreOut} (hlat : 1 ≤ f.cfg.latStore) (hs : storeStageOk f)
    (h : storeStage f = .ok o) (hst : t.stst = o.stst) (hsq : t.sq = o.sq) (hcfg : t.cfg = f.cfg) : storeStageOk t := by
  unfold storeStageOk
  rw [hst, hsq, hcfg]
  rcases storeStage_cases h with ⟨rem, hb, hr, rfl⟩ | ⟨rem, e, rest, m, -, -, -, -, rfl⟩ | ⟨e, rest, -, hq, hc, rfl⟩ |
    ⟨-, -, rfl⟩
  · simp only [storeStageOk, hb] at hs
    obtain ⟨-, hhi, hq⟩ := hs
    exact ⟨by omega, by omega, hq⟩
  · trivial
  · exact ⟨hlat, le_refl _, e, rest, hq, hc⟩
  · trivial

/-- The store stage writes canonical memory, inside its size. -/
theorem storeStage_mem {f : State} {o : StoreOut} (hm : MemInv f) (h : storeStage f = .ok o) :
    Memory.wf o.mem ∧ ∀ c ∈ o.mem, c.1 < f.cfg.memSize := by
  rcases storeStage_cases h with ⟨rem, -, -, rfl⟩ | ⟨rem, e, rest, m, -, -, -, hw, rfl⟩ | ⟨e, rest, -, -, -, rfl⟩ |
    ⟨-, -, rfl⟩
  · exact ⟨hm.wf, hm.inside⟩
  · exact ⟨memWrite_wf hm.wf hw, memWrite_inside hm.inside hw⟩
  · exact ⟨hm.wf, hm.inside⟩
  · exact ⟨hm.wf, hm.inside⟩

/-! ## Tags (R139) -/

/-- The tags after commit's clear, read register by register. -/
theorem tagOf_clearedTags (f : State) (c : Commit) (r : RegIdx) :
    State.tagOf { f with tag := clearedTags f c } r = clearedTagOf f c.write r := by
  unfold clearedTags clearedTagOf
  rcases c.write with _ | ⟨rd, v, h⟩
  · rfl
  · by_cases hrd : f.tagOf rd = some h
    · have hset := State.tagOf_of_writeTag (s := f) (t := { f with tag := writeTag f.tag rd none }) rfl r
      simp only [hrd, if_true, hset]
      by_cases hr : r = rd
      · subst hr
        have hz : r ≠ 0 := fun hr => by
          rw [hr, State.tagOf_zero] at hrd
          cases hrd
        simpa [hrd] using hz
      · simp [hr]
    · simp only [hrd, if_false]
      by_cases hr : r = rd
      · subst hr
        simp only [hrd, and_false, if_false]
      · simp only [hr, false_and, if_false]

/-- The tags of the next state: issue's rename, else commit's clear. -/
theorem tagOf_nextTags {f t : State} {c : Commit} {i : IssueOut} (h : t.tag = nextTags f c i) (r : RegIdx) :
    t.tagOf r =
      match i.rename with
      | some (d, n) => if r = d ∧ r ≠ 0 then some n else clearedTagOf f c.write r
      | none => clearedTagOf f c.write r := by
  unfold nextTags at h
  rcases hren : i.rename with _ | ⟨d, n⟩ <;> rw [hren] at h
  · rw [← tagOf_clearedTags f c r]
    exact State.tagOf_congr h r
  · rw [← tagOf_clearedTags f c r]
    exact State.tagOf_of_writeTag (s := { f with tag := clearedTags f c }) h r

/-- A tag that commit's clear leaves was there, and commit did not write its register from its producer. -/
theorem clearedTagOf_eq_some {f : State} {w : Option (RegIdx × Word × Nat)} {r : RegIdx} {q : Nat}
    (h : clearedTagOf f w r = some q) : f.tagOf r = some q ∧ ∀ v, w ≠ some (r, v, q) := by
  unfold clearedTagOf at h
  rcases w with _ | ⟨rd, v, n⟩
  · exact ⟨h, by simp⟩
  · simp only at h
    split at h
    · cases h
    · rename_i hno
      refine ⟨h, ?_⟩
      rintro v' ⟨⟩
      exact hno ⟨rfl, h⟩

/-- x0's stored tag is never written. -/
theorem nextTags_zero (f : State) (c : Commit) (i : IssueOut) : (nextTags f c i)[0] = f.tag[0] := by
  have hclear : (clearedTags f c)[0] = f.tag[0] := by
    unfold clearedTags
    rcases c.write with _ | ⟨rd, v, h⟩
    · rfl
    · by_cases hrd : f.tagOf rd = some h <;> simp [hrd, writeTag_zero]
  unfold nextTags
  rcases i.rename with _ | ⟨d, n⟩ <;> simp [writeTag_zero, hclear]

theorem nextValues_zero (f : State) (c : Commit) : (nextValues f c)[0] = f.x[0] := by
  unfold nextValues
  rcases c.write with _ | ⟨rd, v, h⟩ <;> simp [writeValue_zero]

/-! ## The reorder buffer after commit -/

/-- The live entries after commit. -/
theorem live_of_commit {f t : State} {c : Commit} (hok : ∀ e ∈ f.rob.entries, e.entryOk) (h : commit f = .ok c)
    (hr : t.rob = c.rob) (hc : t.cfg = f.cfg) :
    (t.live = f.live ∧ c.write = none ∧ c.msgs = []) ∨
    ∃ e rest, f.live = (f.rob.head, e) :: rest ∧
      ((Retires f c e ∧ t.live = rest) ∨
        (t.live = (f.rob.head, { e with state := .waitSt }) :: rest ∧ ∃ es, Releases f c e es)) := by
  rcases commit_effect hok h with ⟨hrob, hw, hm⟩ | ⟨e, rest, he, hret | hrel⟩
  · exact .inl ⟨State.live_congr (hr.trans hrob) hc, hw, hm⟩
  · refine .inr ⟨e, _, State.live_cons he, .inl ⟨hret, ?_⟩⟩
    rw [State.live_retire (hr.trans hret.rob) hc, State.live_cons he]
    rfl
  · refine .inr ⟨e, _, State.live_cons he, .inr ⟨?_, rest, hrel⟩⟩
    have hrob := hr.trans hrel.rob
    rw [State.live_cons (s := t) (by rw [hrob]), hrob, hc]

/-- Commit keeps the bounds of the reorder buffer, the form of its entries and its tail. -/
theorem commit_bounds {f t : State} {c : Commit} (hhead : f.rob.head < f.cfg.robCap)
    (hok : ∀ e ∈ f.rob.entries, e.entryOk) (h : commit f = .ok c) (hr : t.rob = c.rob) (hc : t.cfg = f.cfg) :
    t.rob.head < f.cfg.robCap ∧ t.rob.entries.length ≤ f.rob.entries.length ∧
      (∀ e ∈ t.rob.entries, e.entryOk) ∧ t.robTail = f.robTail := by
  rcases commit_effect hok h with ⟨hrob, -, -⟩ | ⟨e, rest, he, hret | hrel⟩
  · have hrob' := hr.trans hrob
    exact ⟨hrob' ▸ hhead, by rw [hrob'], hrob' ▸ hok, by unfold State.robTail; rw [hrob', hc]⟩
  · have hrob := hr.trans hret.rob
    refine ⟨hrob ▸ f.rob.retire_head_lt hhead, hrob ▸ f.rob.retire_length_le _, fun e' h' => ?_, ?_⟩
    · rw [hrob] at h'
      exact hok e' (List.mem_of_mem_tail h')
    · exact State.robTail_retire (by simp [he]) hrob hc
  · have hrob := hr.trans hrel.rob
    rw [he] at hok
    obtain ⟨hdest, hrd, -, -⟩ := hok e List.mem_cons_self
    refine ⟨by rw [hrob]; exact hhead, by simp [hrob, he], fun e' h' => ?_, by simp [State.robTail, hrob, he, hc]⟩
    rw [hrob] at h'
    rcases List.mem_cons.mp h' with rfl | h'
    · exact ⟨hdest, hrd, by simp, fun _ => hrel.isStore⟩
    · exact hok e' (List.mem_cons_of_mem _ h')

/-! ## The invariant through an Execute -/

/-- A completed Execute, unit by unit. -/
structure Executed (f t : State) (c : Commit) (l : LoadOut) (st : StoreOut) (i : IssueOut) (r : Option IRec) :
    Prop where
  commit : commit f = .ok c
  load : loadStage f = .ok l
  store : storeStage f = .ok st
  issue : issue f = .ok i
  bus : (emitted f c l st).length ≤ f.cfg.busCap
  merged : t = merge f c l st i r (emitted f c l st)

theorem execute_executed {port : FetchPort} {f t : State} (h : execute port f = .ok t) :
    ∃ c l st i r, fetch port f = .ok r ∧ Executed f t c l st i r := by
  obtain ⟨c, l, st, i, r, hc, hl, hs, hi, hr, hb, rfl⟩ := execute_eq_ok_iff.mp h
  exact ⟨c, l, st, i, r, hr, hc, hl, hs, hi, hb, rfl⟩

section
variable {f t : State} {c : Commit} {l : LoadOut} {st : StoreOut} {i : IssueOut} {r : Option IRec}

/-- What the latch needs has room in the next state. -/
theorem Executed.latchFits (h : Executed f t c l st i r) (hf : FlushedInv f) : latchFits t := by
  obtain ⟨-, hlen, -, -⟩ := commit_bounds (t := t) hf.capacity.head hf.records.rob h.commit (by rw [h.merged]; rfl)
    (by rw [h.merged]; rfl)
  have hlq := (loadStage_suffix h.load).length_le
  have hsq := (storeStage_suffix h.store).length_le
  rcases issue_effect h.issue with ⟨-, hn, -⟩ | ⟨rec, rest, op, -, -, hg, rfl⟩
  · simp [Machine.latchFits, h.merged, hn]
  · obtain ⟨hrob, hbank, hload, hstore⟩ := room_of_issueGate hf.full hg
    have hcount := hf.capacity.rob
    have hlcap := hf.capacity.lq
    have hscap := hf.capacity.sq
    have hroom : t.rob.entries.length < f.cfg.robCap := by omega
    have hfree : bankHasRoom t.rs op.bank := by
      rw [h.merged]
      cases hb : op.bank <;> rw [hb] at hbank
      · exact unitStep_keeps_free _ _ _ hbank
      · exact unitStep_keeps_free _ _ _ hbank
      · exact unitStep_keeps_free _ _ _ hbank
      · exact unitStep_keeps_free _ _ _ hbank
      · exact dispatchLs_keeps_free hbank
    have hqueue : queueHasRoom t (lsbEntryOf op f.robTail) := by
      rcases op with o | o | o | o | (o | o)
      · trivial
      · trivial
      · trivial
      · trivial
      · have hne := hload o rfl
        show t.lq.length < t.cfg.lqCap
        simp only [h.merged, merge_lq, merge_cfg]
        omega
      · have hne := hstore o rfl
        show t.sq.length < t.cfg.sqCap
        simp only [h.merged, merge_sq, merge_cfg]
        omega
    have hcfg : t.cfg = f.cfg := by rw [h.merged]; rfl
    have hlatch : t.latch = some (latchOf f rec op) := by rw [h.merged]; rfl
    simp only [Machine.latchFits, hlatch, hcfg]
    exact ⟨hroom, hfree, hqueue⟩

/-- Fetch appends at most one record, into a queue with room. -/
theorem nextIq_length {port : FetchPort} (hi : issue f = .ok i) (hr : fetch port f = .ok r)
    (hq : f.iq.length ≤ f.cfg.iqCap) : (nextIq i r).length ≤ f.cfg.iqCap := by
  have hle : i.iq.length ≤ f.iq.length := by
    rcases issue_effect hi with ⟨hn, -, -⟩ | ⟨_, _, _, hiq, -, -, rfl⟩
    · rw [hn]
    · simp [hiq]
  rcases fetch_cases hr with ⟨hg, rec, -, rfl⟩ | ⟨-, rfl⟩
  · have hlt : f.iq.length < f.cfg.iqCap := by
      simp only [fetchGate, Bool.and_eq_true, decide_eq_true_eq] at hg
      exact hg.2
    simp only [nextIq, List.length_append, List.length_singleton]
    omega
  · exact hle.trans hq

theorem Executed.capacityInv {port : FetchPort} (h : Executed f t c l st i r) (hf : FlushedInv f)
    (hr : fetch port f = .ok r) : CapacityInv t := by
  have hfits := h.latchFits hf
  obtain ⟨hhead, hlen, -, -⟩ := commit_bounds (t := t) hf.capacity.head hf.records.rob h.commit (by rw [h.merged]; rfl)
    (by rw [h.merged]; rfl)
  obtain rfl := h.merged
  have hcap := hf.capacity
  exact {
    cfg := hcap.cfg
    iq := nextIq_length (f := f) h.issue hr hcap.iq
    head := hhead
    rob := hlen.trans hcap.rob
    add := (unitStep_length _ _ _ _).trans hcap.add
    cmp := (unitStep_length _ _ _ _).trans hcap.cmp
    log := (unitStep_length _ _ _ _).trans hcap.log
    shf := (unitStep_length _ _ _ _).trans hcap.shf
    ls := (dispatchLs_length f).trans hcap.ls
    lq := (loadStage_suffix h.load).length_le.trans hcap.lq
    sq := (storeStage_suffix h.store).length_le.trans hcap.sq
    bus := h.bus
    latch := hfits }

theorem Executed.stageInv (h : Executed f t c l st i r) (hf : FlushedInv f) : StageInv t := by
  obtain rfl := h.merged
  obtain ⟨-, -, -, -, -, -, ⟨hadd, hcmp, hlog, hshf⟩, hload, hstore, -, -⟩ := hf.capacity.cfg
  exact {
    add := unitStep_countOk _ _ hadd hf.stages.add
    cmp := unitStep_countOk _ _ hcmp hf.stages.cmp
    log := unitStep_countOk _ _ hlog hf.stages.log
    shf := unitStep_countOk _ _ hshf hf.stages.shf
    ldst := loadStage_countOk (f := f) hload hf.stages.ldst h.load
    stst := storeStage_ok hstore hf.stages.stst h.store rfl rfl rfl }

theorem Executed.queueOrderInv (h : Executed f t c l st i r) (hf : FlushedInv f) : QueueOrderInv t := by
  obtain rfl := h.merged
  have hl := loadStage_suffix h.load
  have hs := storeStage_suffix h.store
  exact {
    lq := hf.loadOrder.sublist hl.sublist
    sq := hf.storeOrder.sublist hs.sublist
    lqOld := fun e he => Nat.lt_succ_of_le (hf.loadStamps e (hl.subset he))
    sqOld := fun e he => Nat.lt_succ_of_le (hf.storeStamps e (hs.subset he)) }

theorem Executed.recordInv {port : FetchPort} (h : Executed f t c l st i r) (hf : FlushedInv f)
    (hp : DeliversDestOk port) (hr : fetch port f = .ok r) : RecordInv t := by
  obtain ⟨-, -, hok, htail⟩ := commit_bounds (t := t) hf.capacity.head hf.records.rob h.commit (by rw [h.merged]; rfl)
    (by rw [h.merged]; rfl)
  obtain rfl := h.merged
  have hiq : ∀ j ∈ i.iq, j.destOk := fun j hj => by
    rcases issue_effect h.issue with ⟨hn, -, -⟩ | ⟨rec, rest, op, hq, -, -, rfl⟩
    · exact hf.records.iq j (hn ▸ hj)
    · exact hf.records.iq j (hq ▸ List.mem_cons_of_mem _ hj)
  refine ⟨?_, hok, ?_⟩
  · rcases fetch_cases hr with ⟨-, rec, hrec, rfl⟩ | ⟨-, rfl⟩
    · intro j hj
      rcases List.mem_append.mp hj with hj | hj
      · exact hiq j hj
      · rw [List.mem_singleton.mp hj]
        exact hp f rec hrec
    · exact hiq
  · intro l' hl'
    rcases issue_effect h.issue with ⟨-, hn, -⟩ | ⟨rec, rest, op, hq, -, -, rfl⟩
    · simp [hn] at hl'
    · cases hl'
      exact ⟨⟨hf.records.iq rec (by simp [hq]), rfl, by simp [latchOf], by simp [latchOf]⟩, rfl, htail.symm⟩

/-- A live entry with a destination stays live through commit, unless it is the head that commit retires. -/
theorem live_keeps_dest (hok : ∀ e ∈ f.rob.entries, e.entryOk) (h : Machine.commit f = .ok c) (hr : t.rob = c.rob)
    (hc : t.cfg = f.cfg) {q : Nat} {e : RobEntry} {d : RegIdx} (he : (q, e) ∈ f.live) (hd : e.rd = some d) :
    (∃ e', (q, e') ∈ t.live ∧ e'.rd = some d) ∨ ∃ v, c.write = some (d, v, q) := by
  rcases live_of_commit hok h hr hc with ⟨hlive, -, -⟩ | ⟨e₀, rest, hf, ⟨hret, hlive⟩ | ⟨hlive, -, -⟩⟩
  · exact .inl ⟨e, hlive ▸ he, hd⟩
  · rcases List.mem_cons.mp (hf ▸ he) with heq | he
    · cases heq
      obtain ⟨v, hv⟩ := hret.write
      exact .inr ⟨v, by simp [hv, hd]⟩
    · exact .inl ⟨e, hlive ▸ he, hd⟩
  · rcases List.mem_cons.mp (hf ▸ he) with heq | he
    · cases heq
      exact .inl ⟨{ e with state := .waitSt }, by simp [hlive], hd⟩
    · exact .inl ⟨e, hlive ▸ List.mem_cons_of_mem _ he, hd⟩

theorem Executed.tagInv (h : Executed f t c l st i r) (hf : FlushedInv f) : TagInv t := by
  have hrob : t.rob = c.rob := by rw [h.merged]; rfl
  have hcfg : t.cfg = f.cfg := by rw [h.merged]; rfl
  have hlatch : t.latch = i.latch := by rw [h.merged]; rfl
  obtain ⟨hhead, hlen, -, -⟩ := commit_bounds hf.capacity.head hf.records.rob h.commit hrob hcfg
  rw [tagInv_iff (hcfg ▸ hhead) (hcfg ▸ hlen.trans hf.capacity.rob)]
  intro d q hq
  have hclear : clearedTagOf f c.write d = some q → ∃ e, (q, e) ∈ t.inFlight ∧ e.rd = some d := by
    intro hcl
    obtain ⟨htag, hnot⟩ := clearedTagOf_eq_some hcl
    obtain ⟨e, he, hd⟩ := (tagInv_iff hf.capacity.head hf.capacity.rob).mp hf.tags d q htag
    have he' : (q, e) ∈ f.live := by simpa [State.inFlight_eq, State.latched_of_none hf.latch] using he
    rcases live_keeps_dest hf.records.rob h.commit hrob hcfg he' hd with ⟨e', hm, hd'⟩ | ⟨v, hv⟩
    · exact ⟨e', by simp [State.inFlight_eq, hm], hd'⟩
    · exact absurd hv (hnot v)
  rw [tagOf_nextTags (f := f) (c := c) (i := i) (by rw [h.merged]; rfl)] at hq
  rcases issue_effect h.issue with ⟨-, -, hn⟩ | ⟨rec, rest, op, -, -, -, rfl⟩
  · rw [hn] at hq
    exact hclear hq
  · rcases hrd : rec.rd with _ | d'
    · simp only [hrd, Option.map_none] at hq
      exact hclear hq
    · simp only [hrd, Option.map_some] at hq
      split at hq
      · rename_i hd
        obtain ⟨rfl, -⟩ := hd
        cases hq
        exact ⟨_, by rw [State.inFlight_eq, State.latched_of_some hlatch]; exact List.mem_append_right _ List.mem_cons_self, hrd⟩
      · exact hclear hq

end

/-- The invariant through an Execute. -/
theorem execute_inv {port : FetchPort} {f t : State} (hf : FlushedInv f) (hp : DeliversDestOk port)
    (h : execute port f = .ok t) : Inv t := by
  obtain ⟨c, l, st, i, r, hr, he⟩ := execute_executed h
  obtain ⟨hwf, hinside⟩ := storeStage_mem hf.memory he.store
  have hflags := commit_flags he.commit
  have ht := he.merged
  exact {
    capacity := he.capacityInv hf hr
    stages := he.stageInv hf
    queues := he.queueOrderInv hf
    records := he.recordInv hf hp hr
    tags := he.tagInv hf
    zero := by
      rw [ht]
      exact ⟨(nextValues_zero f c).trans hf.zero.x, (nextTags_zero f c i).trans hf.zero.tag⟩
    memory := ht ▸ ⟨hwf, hinside⟩
    flags := by
      rw [ht, FlagInv]
      simp only [merge_halt, merge_clear, hf.halt, hf.clear, Bool.false_or]
      rcases hflags with hh | hh <;> simp [hh] }

/-- The invariant through every tick between running states. -/
theorem tickTo_inv {s t : State} (hs : Inv s) (ht : t.status = .running) (h : TickTo s t) : Inv t := by
  obtain ⟨-, hh, f, port, hf, hp, he⟩ := h.phases ht
  exact execute_inv (flush_flushedInv hs hh hf) hp he

/-- Settles O56, phase by phase: a Flush makes a state of `FlushedInv`, an Execute from there one of `Inv`. -/
theorem everyStepKeepsInvariant : Obligations.EveryStepKeepsInvariant :=
  fun _ _ hs ht => ⟨fun h => tickTo_inv hs ht (.inl h), fun i h => tickTo_inv hs ht (.inr ⟨i, h⟩)⟩

end Sys2Proof.Machine
end

section
/-! SUPPORT. Facts of a state of both invariants: which indices the structures hold, and that none is held twice
(10_state.md R38, R44). -/

namespace Sys2Proof.Machine

/-! ## Loads and stores -/

/-- The operation is a load. -/
def Op.isLoad : Op → Bool
  | .ls (.load _) => true
  | _ => false

/-- The operation is a store. -/
def Op.isStore : Op → Bool
  | .ls (.store _) => true
  | _ => false

theorem RobEntry.isLoad_of_op {e : RobEntry} {op : Op} (h : e.instr.op = some op) : e.isLoad = op.isLoad := by
  unfold RobEntry.isLoad
  rcases op with o | o | o | o | (o | o) <;> simp [h, Op.isLoad]

theorem RobEntry.isStore_of_op {e : RobEntry} {op : Op} (h : e.instr.op = some op) : e.isStore = op.isStore := by
  unfold RobEntry.isStore
  rcases op with o | o | o | o | (o | o) <;> simp [h, Op.isStore]

theorem Op.bank_eq_ls_iff {op : Op} : op.bank = .ls ↔ op.isLoad = true ∨ op.isStore = true := by
  rcases op with o | o | o | o | (o | o) <;> simp [Op.bank, Op.isLoad, Op.isStore]

theorem Op.not_isStore_of_isLoad {op : Op} (h : op.isLoad = true) : op.isStore = false := by
  rcases op with o | o | o | o | (o | o) <;> simp [Op.isLoad, Op.isStore] at h ⊢

/-- A load's queue entry is for a load, and only for one. -/
theorem lsbEntryFor_load {op : Op} {n ts : Nat} :
    (op.isLoad = true → ∃ e, lsbEntryFor op n ts = some (.load e)) ∧
      ∀ e, lsbEntryFor op n ts = some (.load e) → op.isLoad = true ∧ e.dest = n := by
  rcases op with o | o | o | o | (o | o) <;> simp [lsbEntryFor, Op.isLoad]

/-- A store's queue entry is for a store, and only for one. -/
theorem lsbEntryFor_store {op : Op} {n ts : Nat} :
    (op.isStore = true → ∃ e, lsbEntryFor op n ts = some (.store e)) ∧
      ∀ e, lsbEntryFor op n ts = some (.store e) → op.isStore = true ∧ e.dest = n := by
  rcases op with o | o | o | o | (o | o) <;> simp [lsbEntryFor, Op.isStore]

theorem RobEntry.not_isStore_of_isLoad {e : RobEntry} (h : e.isLoad = true) : e.isStore = false := by
  rcases hop : e.instr.op with _ | op
  · simp [RobEntry.isStore, hop]
  · rw [RobEntry.isLoad_of_op hop] at h
    rw [RobEntry.isStore_of_op hop, Op.not_isStore_of_isLoad h]

/-- An entry whose operation is of another bank is neither load nor store. -/
theorem RobEntry.not_memory_of_bank {e : RobEntry} {op : Op} (h : e.instr.op = some op) (hb : op.bank ≠ .ls) :
    e.isLoad = false ∧ e.isStore = false := by
  rw [RobEntry.isLoad_of_op h, RobEntry.isStore_of_op h]
  rw [ne_eq, Op.bank_eq_ls_iff] at hb
  simpa using hb

theorem mem_loadsHeld {s : State} {i : Nat} :
    i ∈ loadsHeld s ↔ ∃ e, (i, e) ∈ s.live ∧ e.isLoad = true ∧ e.state = .issue ∧ i ∉ sent s.bus .writeBack := by
  simp [loadsHeld, and_assoc]

theorem mem_storesHeld {s : State} {i : Nat} :
    i ∈ storesHeld s ↔ ∃ e, (i, e) ∈ s.live ∧ e.isStore = true ∧ i ∉ sent s.bus .storeSuccess := by
  simp [storesHeld]

section
variable {s : State}

/-- The head of the live entries is the head of the reorder buffer. -/
theorem HeadWaits.live {i : Nat} (h : HeadWaits s i) :
    i = s.rob.head ∧ ∃ e rest, s.live = (s.rob.head, e) :: rest ∧ e.state = .waitSt := by
  obtain ⟨e, rest, he, hi, hw⟩ := h
  exact ⟨hi, e, _, State.live_cons he, hw⟩

theorem headWaits_of_live {i : Nat} {e : RobEntry} {rest : List (Nat × RobEntry)} (h : s.live = (i, e) :: rest)
    (hw : e.state = .waitSt) : HeadWaits s i := by
  have hmap : s.rob.entries = e :: rest.map Prod.snd := by rw [← s.live_map_snd, h]; rfl
  have hidx := h.symm.trans (State.live_cons hmap)
  simp only [List.cons.injEq, Prod.mk.injEq] at hidx
  obtain ⟨⟨hhead, -⟩, -⟩ := hidx
  exact ⟨e, _, hmap, hhead, hw⟩

theorem CapacityInv.live_nodup (h : CapacityInv s) : (s.live.map Prod.fst).Nodup := State.live_nodup h.head h.rob

theorem CapacityInv.live_unique (h : CapacityInv s) {i : Nat} {e e' : RobEntry} (he : (i, e) ∈ s.live)
    (he' : (i, e') ∈ s.live) : e = e' := State.live_unique h.head h.rob he he'

theorem CapacityInv.loadsHeld_nodup (h : CapacityInv s) : (loadsHeld s).Nodup :=
  h.live_nodup.sublist (List.filter_sublist.map _)

theorem CapacityInv.storesHeld_nodup (h : CapacityInv s) : (storesHeld s).Nodup :=
  h.live_nodup.sublist (List.filter_sublist.map _)

/-- No index is held by two entries of the load/store buffer. -/
theorem memory_dests_nodup (h : CapacityInv s) (hi : InFlightInv s) :
    (s.loadEntries.map LoadEntry.dest ++ s.sq.map StoreEntry.dest).Nodup := by
  rw [hi.loads, hi.stores, List.nodup_append]
  refine ⟨h.loadsHeld_nodup, h.storesHeld_nodup, ?_⟩
  rintro i hl _ hst rfl
  obtain ⟨e, he, hload, -, -⟩ := mem_loadsHeld.mp hl
  obtain ⟨e', he', hstore, -⟩ := mem_storesHeld.mp hst
  cases h.live_unique he he'
  simp [RobEntry.not_isStore_of_isLoad hload] at hstore

theorem mem_addressUnknown {i : Nat} :
    i ∈ addressUnknown s ↔ (∃ e ∈ s.lq, e.ready = false ∧ e.dest = i) ∨ ∃ e ∈ s.sq, e.ready = false ∧ e.dest = i := by
  simp [addressUnknown, and_assoc]

/-- The queued instructions whose address is not known are among the queued ones. -/
theorem addressUnknown_sublist (s : State) :
    (addressUnknown s).Sublist (s.loadEntries.map LoadEntry.dest ++ s.sq.map StoreEntry.dest) := by
  unfold addressUnknown State.loadEntries
  rw [List.map_append]
  exact ((List.filter_sublist.map _).trans (List.sublist_append_right _ _)).append (List.filter_sublist.map _)

/-- Each address is computed once. -/
theorem addresses_nodup (h : CapacityInv s) (hi : InFlightInv s) :
    ((busy s.rs.ls).map RSEntry.dest ++ sent s.bus .getAddr).Nodup :=
  hi.addresses.nodup_iff.mpr ((memory_dests_nodup h hi).sublist (addressUnknown_sublist s))

/-- Everything in the load/store buffer is live. -/
theorem live_of_memory_dest (hi : InFlightInv s) {i : Nat}
    (h : i ∈ s.loadEntries.map LoadEntry.dest ++ s.sq.map StoreEntry.dest) : ∃ e, (i, e) ∈ s.live := by
  rw [hi.loads, hi.stores] at h
  rcases List.mem_append.mp h with h | h
  · obtain ⟨e, he, -⟩ := mem_loadsHeld.mp h
    exact ⟨e, he⟩
  · obtain ⟨e, he, -⟩ := mem_storesHeld.mp h
    exact ⟨e, he⟩

/-- A GetAddr on the bus is for a live entry. -/
theorem live_of_getAddr (hi : InFlightInv s) {i : Nat} (h : i ∈ sent s.bus .getAddr) : ∃ e, (i, e) ∈ s.live := by
  have hu : i ∈ addressUnknown s := hi.addresses.mem_iff.mp (List.mem_append_right _ h)
  exact live_of_memory_dest hi ((addressUnknown_sublist s).subset hu)

/-- Work that is waiting or done has not been announced. -/
theorem not_announced_of_work (hi : InFlightInv s) {w : Nat × Op} (h : w ∈ s.work) : w.1 ∉ sent s.bus .writeBack :=
  fun hb => List.disjoint_of_nodup_append hi.once (List.mem_map_of_mem h) hb

/-- The latch's index is not live. -/
theorem latch_not_live (hs : Inv s) {l : Latch} (hl : s.latch = some l) {e : RobEntry} : (l.idx, e) ∉ s.live := by
  have hfits := hs.capacity.latch
  simp only [latchFits, hl] at hfits
  obtain ⟨hroom, -, -⟩ := hfits
  obtain ⟨-, -, hidx⟩ := hs.records.latch l hl
  exact fun he => State.robTail_not_live hs.capacity.head hroom he hidx

end

/-! ## What the latch brings -/

/-- The load the latch brings, against the latched instruction. -/
theorem loadsInserted_eq {s : State} (hi : ∀ l, s.latch = some l → LatchInv s l) :
    ∃ new, loadsInserted s = s.lq ++ new ∧ (∀ e ∈ new, e.ready = false) ∧
      new.map LoadEntry.dest = (s.latched.filter fun p => p.2.isLoad).map Prod.fst := by
  rcases loadsInserted_cases s with ⟨hno, he⟩ | ⟨l, e, hl, hlsb, he⟩
  · refine ⟨[], by simpa using he, by simp, ?_⟩
    have hnone : ∀ p ∈ s.latched, ¬ p.2.isLoad = true := fun p hp hk => by
      obtain ⟨l, hl, rfl⟩ := State.mem_latched.mp hp
      obtain ⟨-, hop, ⟨ts, hlsb⟩, -⟩ := hi l hl
      obtain ⟨e, h⟩ := (lsbEntryFor_load (n := l.idx) (ts := ts)).1 (RobEntry.isLoad_of_op hop ▸ hk)
      exact hno l e hl (hlsb.trans h)
    rw [List.filter_eq_nil_iff.mpr hnone]
    rfl
  · obtain ⟨-, hop, ⟨ts, hfor⟩, -⟩ := hi l hl
    obtain ⟨hk, hd⟩ := lsbEntryFor_load.2 e (hfor.symm.trans hlsb)
    exact ⟨_, he, by simp, by simp [State.latched_of_some hl, RobEntry.isLoad_of_op hop, hk, hd]⟩

/-- The store the latch brings, against the latched instruction. -/
theorem storesInserted_eq {s : State} (hi : ∀ l, s.latch = some l → LatchInv s l) :
    ∃ new, storesInserted s = s.sq ++ new ∧ (∀ e ∈ new, e.ready = false ∧ e.committed = false) ∧
      new.map StoreEntry.dest = (s.latched.filter fun p => p.2.isStore).map Prod.fst := by
  rcases storesInserted_cases s with ⟨hno, he⟩ | ⟨l, e, hl, hlsb, he⟩
  · refine ⟨[], by simpa using he, by simp, ?_⟩
    have hnone : ∀ p ∈ s.latched, ¬ p.2.isStore = true := fun p hp hk => by
      obtain ⟨l, hl, rfl⟩ := State.mem_latched.mp hp
      obtain ⟨-, hop, ⟨ts, hlsb⟩, -⟩ := hi l hl
      obtain ⟨e, h⟩ := (lsbEntryFor_store (n := l.idx) (ts := ts)).1 (RobEntry.isStore_of_op hop ▸ hk)
      exact hno l e hl (hlsb.trans h)
    rw [List.filter_eq_nil_iff.mpr hnone]
    rfl
  · obtain ⟨-, hop, ⟨ts, hfor⟩, -⟩ := hi l hl
    obtain ⟨hk, hd⟩ := lsbEntryFor_store.2 e (hfor.symm.trans hlsb)
    exact ⟨_, he, by simp, by simp [State.latched_of_some hl, RobEntry.isStore_of_op hop, hk, hd]⟩

end Sys2Proof.Machine
end

section
/-! SUPPORT. The second invariant through a Flush: the messages of the bus are absorbed by the entries they are for
(10_state.md R44; 40_clock_and_bus.md R131). -/

namespace Sys2Proof.Machine

section
variable {s f : State}

/-! ## The live entries of the flushed state -/

/-- The live entries of the flushed state: those before the Flush with the announced ones written, without the head
where its store was performed, and the latch's behind them. -/
theorem UnitsFlushed.live_cases (h : UnitsFlushed s f) (hi : InFlightInv s) :
    ∃ g, Writes s.bus g ∧
      ((sent s.bus .storeSuccess = [] ∧ f.live = written g s.live ++ s.latched) ∨
        ∃ e rest, sent s.bus .storeSuccess = [s.rob.head] ∧ s.live = (s.rob.head, e) :: rest ∧ e.state = .waitSt ∧
          f.live = written g rest ++ s.latched) := by
  obtain ⟨-, -, g, hg, -, hlive⟩ := h.rob
  refine ⟨g, hg, ?_⟩
  rcases hi.performed with hn | ⟨i, hs, hw⟩
  · exact .inl ⟨hn, by simpa [hn] using hlive⟩
  · obtain ⟨rfl, e, rest, hl, hst⟩ := hw.live
    exact .inr ⟨e, rest, hs, hl, hst, by simpa [hs, hl, written] using hlive⟩

/-- A part of the live entries that the Flush does not change, and the latch's. -/
theorem written_filter_map_fst {g : Nat → RobEntry → RobEntry} {l : List (Nat × RobEntry)}
    {p : Nat × RobEntry → Bool} (q : Nat × RobEntry → Bool) (h : ∀ i e, (i, e) ∈ l → p (i, g i e) = q (i, e)) :
    ((written g l).filter p).map Prod.fst = (l.filter q).map Prod.fst := by
  unfold written
  rw [List.filter_map, List.map_map]
  exact congrArg (List.map Prod.fst) (List.filter_congr fun a ha => h a.1 a.2 ha)

/-- Without a bus the loads held are the live loads in state Issue. -/
theorem loadsHeld_of_bus_nil (hb : f.bus = []) :
    loadsHeld f = (f.live.filter fun p => p.2.isLoad && p.2.state == .issue).map Prod.fst := by
  simp [loadsHeld, hb]

theorem storesHeld_of_bus_nil (hb : f.bus = []) :
    storesHeld f = (f.live.filter fun p => p.2.isStore).map Prod.fst := by
  simp [storesHeld, hb]

/-- The loads held after the Flush are those before and the latch's. -/
theorem UnitsFlushed.loadsHeld_eq (h : UnitsFlushed s f) (hs : Inv s) (hi : InFlightInv s) :
    loadsHeld f = loadsHeld s ++ (s.latched.filter fun p => p.2.isLoad).map Prod.fst := by
  obtain ⟨g, hg, hlive⟩ := h.live_cases hi
  have hnew : s.latched.filter (fun p => p.2.isLoad && p.2.state == .issue) = s.latched.filter fun p => p.2.isLoad :=
    List.filter_congr fun p hp => by
      obtain ⟨l, hl, rfl⟩ := State.mem_latched.mp hp
      obtain ⟨-, hissue, -⟩ := hs.records.latch l hl
      simp [hissue]
  have hold : ∀ l, ((written g l).filter fun p => p.2.isLoad && p.2.state == .issue).map Prod.fst =
      (l.filter fun p => p.2.isLoad && p.2.state == .issue && !(sent s.bus .writeBack).contains p.1).map Prod.fst :=
    fun l => written_filter_map_fst _ fun i e _ => by
      simp only [hg.isLoad, hg.state]
      by_cases hw : i ∈ sent s.bus .writeBack <;> simp [hw]
  rw [loadsHeld_of_bus_nil h.bus]
  rcases hlive with ⟨-, hf⟩ | ⟨e, rest, -, hl, hw, hf⟩
  · rw [hf, List.filter_append, List.map_append, hnew, hold]
    rfl
  · rw [hf, List.filter_append, List.map_append, hnew, hold]
    simp [loadsHeld, hl, hw]

/-- The stores held after the Flush are those before and the latch's. -/
theorem UnitsFlushed.storesHeld_eq (h : UnitsFlushed s f) (hs : Inv s) (hi : InFlightInv s) :
    storesHeld f = storesHeld s ++ (s.latched.filter fun p => p.2.isStore).map Prod.fst := by
  obtain ⟨g, hg, hlive⟩ := h.live_cases hi
  rw [storesHeld_of_bus_nil h.bus]
  rcases hlive with ⟨hn, hf⟩ | ⟨e, rest, hn, hl, -, hf⟩
  · rw [hf, List.filter_append, List.map_append, written_filter_map_fst (fun p => p.2.isStore) fun i e _ => hg.isStore i e]
    simp [storesHeld, hn]
  · have hne : ∀ i e', (i, e') ∈ rest → i ≠ s.rob.head := by
      have hnd := hs.capacity.live_nodup
      rw [hl, List.map_cons, List.nodup_cons] at hnd
      rintro i e' he' rfl
      exact hnd.1 (List.mem_map.mpr ⟨_, he', rfl⟩)
    have hold : ((written g rest).filter fun p => p.2.isStore).map Prod.fst =
        (rest.filter fun p => p.2.isStore && !(sent s.bus .storeSuccess).contains p.1).map Prod.fst :=
      written_filter_map_fst _ fun i e' he => by simp [hg.isStore, hn, hne i e' he]
    rw [hf, List.filter_append, List.map_append, hold]
    simp [storesHeld, hl, hn]

/-- A live entry in state Issue whose result is not announced is live and in state Issue after the Flush. -/
theorem UnitsFlushed.keeps_issue (h : UnitsFlushed s f) {q : Nat} {e : RobEntry} (he : (q, e) ∈ s.live)
    (hst : e.state = .issue) (hq : q ∉ sent s.bus .writeBack) :
    ∃ e', (q, e') ∈ f.live ∧ e'.state = .issue ∧ e'.instr = e.instr ∧ e'.rd = e.rd := by
  obtain ⟨g, hg, -, hkeeps, -⟩ := h.rob.members
  have hstate : (g q e).state = .issue := by rw [hg.state, if_neg hq, hst]
  exact ⟨g q e, hkeeps q e he (by simp [hstate]), hstate, hg.instr q e, hg.rd q e⟩

/-! ## Work -/

/-- The work of the flushed state: the latch's, and what there was. -/
theorem UnitsFlushed.work_perm (h : UnitsFlushed s f) :
    f.work.Perm ((arrived s f).map (fun e => (e.dest, e.op)) ++ s.work) := by
  unfold State.work
  rw [h.frame.fu, ← List.append_assoc]
  refine ((h.entries.map _).trans (.of_eq ?_)).append_right _
  rw [List.map_append, List.map_map]
  rfl

theorem arrived_work (hi : InFlightInv s) {l : Latch} (hl : s.latch = some l) :
    (arrived s f).map (fun e => (e.dest, e.op)) = [(l.idx, l.rsEntry.op)] := by
  obtain ⟨hdest, -, -, -⟩ := hi.latch l hl
  simp [arrived, hl, hdest]

theorem UnitsFlushed.work (h : UnitsFlushed s f) (hs : Inv s) (hi : InFlightInv s) :
    ∀ w ∈ f.work, ∃ e, (w.1, e) ∈ f.live ∧ e.state = .issue ∧ e.instr.op = some w.2 := by
  intro w hw
  rcases List.mem_append.mp (h.work_perm.mem_iff.mp hw) with ha | ho
  · rcases hl : s.latch with _ | l
    · simp [arrived, hl] at ha
    · rw [arrived_work hi hl, List.mem_singleton] at ha
      obtain ⟨-, -, -, -, hlatched⟩ := h.rob.members
      obtain ⟨-, hissue, -⟩ := hs.records.latch l hl
      obtain ⟨-, hop, -, -⟩ := hi.latch l hl
      rw [ha]
      exact ⟨l.robEntry, hlatched _ (State.mem_latched.mpr ⟨l, hl, rfl⟩), hissue, hop⟩
  · obtain ⟨e, he, hst, hop⟩ := hi.work w ho
    obtain ⟨e', he', hst', hinstr, -⟩ := h.keeps_issue he hst (not_announced_of_work hi ho)
    exact ⟨e', he', hst', hinstr ▸ hop⟩

theorem UnitsFlushed.once (h : UnitsFlushed s f) (hs : Inv s) (hi : InFlightInv s) : (f.work.map Prod.fst).Nodup := by
  rw [(h.work_perm.map Prod.fst).nodup_iff, List.map_append]
  have hold : (s.work.map Prod.fst).Nodup := hi.once.of_append_left
  rcases hl : s.latch with _ | l
  · simpa [arrived, hl] using hold
  · rw [arrived_work hi hl]
    refine List.nodup_cons.mpr ⟨fun hm => ?_, hold⟩
    obtain ⟨w, hw, hidx⟩ := List.mem_map.mp hm
    obtain ⟨e, he, -⟩ := hi.work w hw
    exact latch_not_live hs hl (hidx ▸ he)

/-! ## Pending operands -/

/-- What the latch's entry still waits for in its slot is live, in state Issue, and has a destination: had it its
value, the lookup port would have given it (42_reservation_stations.md R206). -/
theorem UnitsFlushed.arrived_waits (h : UnitsFlushed s f) (hs : Inv s) (hi : InFlightInv s) {e : RSEntry Op} {q : Nat}
    (he : e ∈ arrived s f) (hq : e.waitsFor q) : ∃ p, (q, p) ∈ f.live ∧ p.state = .issue ∧ p.rd ≠ none := by
  rcases hl : s.latch with _ | l
  · simp [arrived, hl] at he
  · simp only [arrived, hl, List.mem_singleton] at he
    rw [he, RSEntry.waitsFor_wake, RSEntry.waitsFor_port, RSEntry.waitsFor_wake] at hq
    obtain ⟨⟨⟨hw, hbus⟩, hlook⟩, -⟩ := hq
    obtain ⟨hwb, hcr⟩ := busValue_eq_none_iff_sent.mp hbus
    obtain ⟨-, -, -, hops⟩ := hi.latch l hl
    rcases hops q hw with ⟨p, hp, hrd⟩ | hsent
    · obtain ⟨g, hg, -, hkeeps, -⟩ := h.rob.members
      have hok := hs.records.rob p (State.mem_entries_iff.mpr ⟨q, hp⟩)
      have hstate : (g q p).state = p.state := by rw [hg.state, if_neg hwb]
      have hnowait : p.state ≠ .waitSt := fun hc => hrd (RobEntry.rd_of_waitSt hok hc)
      have hlive := hkeeps q p hp (by rwa [hstate])
      have hnowrite : p.state ≠ .write :=
        hstate ▸ State.lookup_eq_none_iff.mp hlook _ ((State.mem_live_iff h.rob.head h.rob.count).mp hlive)
      obtain ⟨-, -, hnoexec, -⟩ := hok
      refine ⟨g q p, hlive, ?_, (hg.rd q p).symm ▸ hrd⟩
      rw [hstate]
      cases hp : p.state <;> simp [hp] at hnowait hnowrite hnoexec ⊢
    · exact absurd hsent hcr

theorem UnitsFlushed.waits (h : UnitsFlushed s f) (hs : Inv s) (hi : InFlightInv s) :
    ∀ e ∈ f.rs.entries, ∀ q, e.waitsFor q → ∃ p, (q, p) ∈ f.live ∧ p.state = .issue ∧ p.rd ≠ none := by
  intro e he q hq
  rcases List.mem_append.mp (h.entries.mem_iff.mp he) with ha | ho
  · exact h.arrived_waits hs hi ha hq
  · obtain ⟨e₀, h₀, rfl⟩ := List.mem_map.mp ho
    obtain ⟨hq₀, hbus⟩ := RSEntry.waitsFor_wake.mp hq
    obtain ⟨p, hp, hst, hrd⟩ := hi.waits e₀ h₀ q hq₀
    obtain ⟨p', hp', hst', -, hrd'⟩ := h.keeps_issue hp hst (busValue_eq_none_iff_sent.mp hbus).1
    exact ⟨p', hp', hst', hrd' ▸ hrd⟩

/-! ## The load/store buffer -/

theorem UnitsFlushed.loads (h : UnitsFlushed s f) (hs : Inv s) (hi : InFlightInv s) :
    f.loadEntries.map LoadEntry.dest = loadsHeld f := by
  obtain ⟨new, hins, -, hdest⟩ := loadsInserted_eq hi.latch
  rw [h.loadsHeld_eq hs hi, ← hi.loads, State.loadEntries, h.frame.ldst, List.map_append, h.queues.load_dests, hins,
    List.map_append, hdest, ← List.append_assoc, ← List.map_append]
  rfl

theorem UnitsFlushed.stores (h : UnitsFlushed s f) (hs : Inv s) (hi : InFlightInv s) :
    f.sq.map StoreEntry.dest = storesHeld f := by
  obtain ⟨new, hins, -, hdest⟩ := storesInserted_eq hi.latch
  rw [h.storesHeld_eq hs hi, ← hi.stores, h.queues.store_dests, hins, List.map_append, hdest]

/-- The memory instruction that the latch brings is the one its entry brings to the LS bank. -/
theorem arrived_memory (hi : InFlightInv s) :
    ((arrived s f).filter fun e => e.op.bank == .ls).map RSEntry.dest =
      (s.latched.filter fun p => p.2.isLoad).map Prod.fst ++ (s.latched.filter fun p => p.2.isStore).map Prod.fst := by
  rcases hl : s.latch with _ | l
  · simp [arrived, hl, State.latched_of_none hl]
  · obtain ⟨hdest, hop, -, -⟩ := hi.latch l hl
    have hload := RobEntry.isLoad_of_op hop
    have hstore := RobEntry.isStore_of_op hop
    rw [State.latched_of_some hl]
    rcases hc : l.rsEntry.op with o | o | o | o | (o | o) <;> rw [hc] at hload hstore <;>
      simp [arrived, hl, hc, hload, hstore, Op.bank, Op.isLoad, Op.isStore, hdest]

/-- The entries of the LS bank after the Flush: those before and the latch's memory instruction. -/
theorem UnitsFlushed.ls_dests (h : UnitsFlushed s f) (hi : InFlightInv s) :
    ((busy f.rs.ls).map RSEntry.dest).Perm
      ((s.latched.filter fun p => p.2.isLoad).map Prod.fst ++ (s.latched.filter fun p => p.2.isStore).map Prod.fst ++
        (busy s.rs.ls).map RSEntry.dest) := by
  rw [← Banks.entries_filter_ls, ← Banks.entries_filter_ls, ← arrived_memory (f := f) hi]
  refine ((h.entries.filter _).map _).trans (.of_eq ?_)
  rw [List.filter_append, List.map_append, List.filter_map, List.map_map]
  rfl

/-- The addresses that are unknown after the Flush: those unknown before or brought by the latch, without those on the
bus (47_load_store.md R334). -/
theorem UnitsFlushed.addressUnknown_perm (h : UnitsFlushed s f) (hi : InFlightInv s) :
    (addressUnknown f).Perm
      (((s.latched.filter fun p => p.2.isLoad).map Prod.fst ++ (s.latched.filter fun p => p.2.isStore).map Prod.fst ++
        addressUnknown s).filter fun i => decide (i ∉ sent s.bus .getAddr)) := by
  obtain ⟨newL, hinsL, hreadyL, hdestL⟩ := loadsInserted_eq hi.latch
  obtain ⟨newS, hinsS, hreadyS, hdestS⟩ := storesInserted_eq hi.latch
  have hloads := unready_map_of_forall₂ (h.queues.loads.imp fun _ _ hr => ⟨hr.dest, hr.ready⟩)
  have hstores := unready_map_of_forall₂ (h.queues.stores.imp fun _ _ hr => ⟨hr.dest, hr.ready⟩)
  have hnewL : newL.filter (fun e => !e.ready) = newL := List.filter_eq_self.mpr fun e he => by simp [hreadyL e he]
  have hnewS : newS.filter (fun e => !e.ready) = newS := List.filter_eq_self.mpr fun e he => by simp [hreadyS e he]
  rw [hinsL, List.filter_append, List.map_append, hnewL, hdestL] at hloads
  rw [hinsS, List.filter_append, List.map_append, hnewS, hdestS] at hstores
  unfold addressUnknown
  rw [hloads, hstores, ← List.filter_append]
  refine List.Perm.filter _ (List.perm_iff_count.mpr fun a => ?_)
  simp only [List.count_append]
  omega

theorem UnitsFlushed.addresses (h : UnitsFlushed s f) (hs : Inv s) (hi : InFlightInv s) :
    ((busy f.rs.ls).map RSEntry.dest).Perm (addressUnknown f) := by
  have hnd := addresses_nodup hs.capacity hi
  have hnew : ∀ i ∈ (s.latched.filter fun p => p.2.isLoad).map Prod.fst ++
      (s.latched.filter fun p => p.2.isStore).map Prod.fst, i ∉ sent s.bus .getAddr := by
    intro i hm hga
    have hlatched : ∃ p ∈ s.latched, p.1 = i := by
      rcases List.mem_append.mp hm with hm | hm <;> obtain ⟨p, hp, hpi⟩ := List.mem_map.mp hm <;>
        exact ⟨p, List.mem_of_mem_filter hp, hpi⟩
    obtain ⟨p, hp, rfl⟩ := hlatched
    obtain ⟨l, hl, rfl⟩ := State.mem_latched.mp hp
    obtain ⟨e, he⟩ := live_of_getAddr hi hga
    exact latch_not_live hs hl he
  have hbank : ∀ i ∈ (busy s.rs.ls).map RSEntry.dest, i ∉ sent s.bus .getAddr :=
    fun i hm hga => List.disjoint_of_nodup_append hnd hm hga
  have hold : (busy s.rs.ls).map RSEntry.dest =
      ((busy s.rs.ls).map RSEntry.dest ++ sent s.bus .getAddr).filter fun i => decide (i ∉ sent s.bus .getAddr) := by
    have hself := List.filter_eq_self.mpr fun i hm => decide_eq_true (hbank i hm)
    have hnil : (sent s.bus .getAddr).filter (fun i => decide (i ∉ sent s.bus .getAddr)) = [] :=
      List.filter_eq_nil_iff.mpr fun i hm => by simpa using hm
    rw [List.filter_append, hself, hnil, List.append_nil]
  have hkept := List.filter_eq_self.mpr fun i hm => decide_eq_true (hnew i hm)
  refine (h.ls_dests hi).trans (.trans ?_ (h.addressUnknown_perm hi).symm)
  rw [List.filter_append, hkept]
  exact List.Perm.append_left _ ((List.Perm.of_eq hold).trans (hi.addresses.filter _))

/-- A queued store of the flushed state was queued before, or is the latch's and then neither ready nor committed. -/
theorem UnitsFlushed.mem_sq (h : UnitsFlushed s f) (hi : InFlightInv s) {e : StoreEntry} (he : e ∈ f.sq) :
    ∃ e₀, StoreAddressed s.bus e₀ e ∧
      (e₀ ∈ s.sq ∨ ∃ l, s.latch = some l ∧ e₀.dest = l.idx ∧ e₀.committed = false) := by
  obtain ⟨e₀, h₀, haddr⟩ := exists_of_mem_forall₂ h.queues.stores he
  obtain ⟨new, hins, hnew, hdest⟩ := storesInserted_eq hi.latch
  rw [hins] at h₀
  refine ⟨e₀, haddr, (List.mem_append.mp h₀).imp_right fun hm => ?_⟩
  have hd : e₀.dest ∈ (s.latched.filter fun p => p.2.isStore).map Prod.fst := hdest ▸ List.mem_map_of_mem hm
  obtain ⟨p, hp, hpd⟩ := List.mem_map.mp hd
  obtain ⟨l, hl, rfl⟩ := State.mem_latched.mp (List.mem_of_mem_filter hp)
  exact ⟨l, hl, hpd.symm, (hnew e₀ hm).2⟩

/-- A queued store is live, and is a store. -/
theorem InFlightInv.store_live (hi : InFlightInv s) {e : StoreEntry} (he : e ∈ s.sq) :
    ∃ r, (e.dest, r) ∈ s.live ∧ r.isStore = true ∧ e.dest ∉ sent s.bus .storeSuccess :=
  mem_storesHeld.mp (hi.stores ▸ List.mem_map_of_mem he)

theorem UnitsFlushed.ready (h : UnitsFlushed s f) (hs : Inv s) (hi : InFlightInv s) :
    ∀ e ∈ f.sq, ∀ r, (e.dest, r) ∈ f.live → r.state ≠ .issue → e.ready = true := by
  intro e he r hr hst
  obtain ⟨g, hg, hfrom, -, -⟩ := h.rob.members
  obtain ⟨e₀, haddr, hold | ⟨l, hl, hd, -⟩⟩ := h.mem_sq hi he
  · obtain ⟨r₀, hr₀, hstore, -⟩ := hi.store_live hold
    have hready : e₀.ready = true ∨ e₀.dest ∈ sent s.bus .getAddr := by
      rcases hfrom _ _ hr with ⟨r₁, hr₁, rfl⟩ | hm
      · rw [haddr.dest] at hr₁ hst
        cases hs.capacity.live_unique hr₀ hr₁
        by_cases hw : e₀.dest ∈ sent s.bus .writeBack
        · obtain ⟨r', hr', -, hga⟩ := hi.results _ hw
          cases hs.capacity.live_unique hr₀ hr'
          exact .inr (hga hstore)
        · rw [hg.state, if_neg hw] at hst
          exact .inl (hi.ready e₀ hold r₀ hr₀ hst)
      · obtain ⟨l, hl, heq⟩ := State.mem_latched.mp hm
        rw [haddr.dest, Prod.mk.injEq] at heq
        exact absurd (heq.1 ▸ hr₀) (latch_not_live hs hl)
    rw [haddr.ready]
    simpa using hready
  · rw [haddr.dest, hd] at hr
    rcases hfrom _ _ hr with ⟨r₁, hr₁, -⟩ | hm
    · exact absurd hr₁ (latch_not_live hs hl)
    · obtain ⟨l', hl', heq⟩ := State.mem_latched.mp hm
      obtain ⟨-, hissue, -⟩ := hs.records.latch l' hl'
      rw [Prod.mk.injEq] at heq
      exact absurd hissue (heq.2 ▸ hst)

/-! ## The head -/

/-- A head that waits for its store and is not released by this bus still waits after the Flush. -/
theorem UnitsFlushed.keeps_headWaits (h : UnitsFlushed s f) (hs : Inv s) (hi : InFlightInv s) {i : Nat}
    (hw : HeadWaits s i) (hn : sent s.bus .storeSuccess = []) : HeadWaits f i := by
  obtain ⟨rfl, e, rest, hl, hst⟩ := hw.live
  obtain ⟨g, hg, ⟨-, hf⟩ | ⟨_, _, hsent, -⟩⟩ := h.live_cases hi
  · have hnot : s.rob.head ∉ sent s.bus .writeBack := fun hm => by
      obtain ⟨e', he', hissue, -⟩ := hi.results _ hm
      cases hs.capacity.live_unique (hl ▸ List.mem_cons_self) he'
      simp [hst] at hissue
    rw [hl] at hf
    exact headWaits_of_live hf (by simp [hg.state, hnot, hst])
  · simp [hn] at hsent

theorem UnitsFlushed.committed (h : UnitsFlushed s f) (hs : Inv s) (hi : InFlightInv s) :
    ∀ e ∈ f.sq, e.committed = true → HeadWaits f e.dest := by
  intro e he hc
  obtain ⟨e₀, haddr, hmem⟩ := h.mem_sq hi he
  rw [haddr.dest]
  rcases haddr.committed hc with hc₀ | hsent
  · rcases hmem with hold | ⟨l, -, -, hno⟩
    · have hw := hi.committed e₀ hold hc₀
      obtain ⟨-, -, -, hnot⟩ := hi.store_live hold
      refine h.keeps_headWaits hs hi hw ?_
      rcases hi.performed with hn | ⟨i, hi', hw'⟩
      · exact hn
      · rw [hi', hw'.live.1, hw.live.1] at hnot
        exact absurd List.mem_cons_self hnot
    · simp [hno] at hc₀
  · obtain ⟨hw, hn⟩ := hi.released _ hsent
    exact h.keeps_headWaits hs hi hw hn

/-! ## Tags -/

theorem UnitsFlushed.tags (h : UnitsFlushed s f) (hs : Inv s) (hi : InFlightInv s) :
    ∀ r, f.tagOf r = youngestIn r f.inFlight := by
  intro r
  obtain ⟨g, hg, hlive⟩ := h.live_cases hi
  have hwritten : ∀ l, youngestIn r (written g l) = youngestIn r l :=
    fun l => youngestIn_map fun p _ => ⟨rfl, hg.rd p.1 p.2⟩
  rw [State.tagOf_congr h.frame.tag, hi.tags, State.inFlight_eq, State.inFlight_eq, State.latched_of_none h.latch,
    List.append_nil, youngestIn_append]
  rcases hlive with ⟨-, hf⟩ | ⟨e, rest, -, hl, hw, hf⟩
  · rw [hf, youngestIn_append, hwritten]
  · have hok : e.entryOk := hs.records.rob e (State.mem_entries_iff.mpr ⟨_, hl ▸ List.mem_cons_self⟩)
    have hhead : youngestIn r s.live = youngestIn r rest := by
      rw [hl, youngestIn, RobEntry.rd_of_waitSt hok hw]
      cases youngestIn r rest <;> simp
    rw [hf, youngestIn_append, hwritten, hhead]

end

/-- The second invariant through a Flush without a squash. -/
theorem UnitsFlushed.inFlightInv {s f : State} (h : UnitsFlushed s f) (hs : Inv s) (hi : InFlightInv s) :
    InFlightInv f where
  latch l hl := by simp [h.latch] at hl
  work := h.work hs hi
  waits := h.waits hs hi
  results q hq := by simp [h.bus] at hq
  once := by simpa [h.bus] using h.once hs hi
  loads := h.loads hs hi
  stores := h.stores hs hi
  addresses := by simpa [h.bus] using h.addresses hs hi
  ready := h.ready hs hi
  committed := h.committed hs hi
  released i hm := by simp [h.bus] at hm
  performed := by simp [h.bus]
  retired i hm := by simp [h.bus] at hm
  oneCommit := by simp [h.bus]
  tags := h.tags hs hi

/-- The second invariant through a Flush. -/
theorem flush_inFlightInv {s f : State} (hs : Inv s) (hi : InFlightInv s) (h : flush s = .ok f) : InFlightInv f := by
  obtain ⟨-, ⟨-, rfl⟩ | ⟨-, hu⟩⟩ := flush_flushed hs.capacity hs.records h
  · exact (squash_nothingInFlight s).inFlightInv
  · exact hu.inFlightInv hs hi

end Sys2Proof.Machine
end

section
/-! SUPPORT. What an Execute does with the work in flight, unit by unit: each piece of work stays where it is, moves on,
or is announced on the bus (40_clock_and_bus.md R132, R146; 42_reservation_stations.md R207, R210). -/

namespace Sys2Proof.Machine

/-! ## Dispatch -/

theorem RSEntry.ready_eq_some {α : Type} {e : RSEntry α} {r : Ready α} (h : e.ready = some r) :
    r.op = e.op ∧ r.dest = e.dest := by
  unfold RSEntry.ready at h
  split at h
  · cases h
    exact ⟨rfl, rfl⟩
  · cases h

/-- What is dispatched leaves the busy ones. -/
theorem busy_takeReady {α : Type} {bank b : List (Option (RSEntry α))} {r : Ready α}
    (h : takeReady bank = some (r, b)) :
    ∃ e, (busy bank).Perm (e :: busy b) ∧ r.op = e.op ∧ r.dest = e.dest := by
  obtain ⟨k, e, hk, hr, -, rfl⟩ := takeReady_eq_some h
  exact ⟨e, busy_set_none hk, RSEntry.ready_eq_some hr⟩

/-- The work that waits in the slots of a bank: destination index and operation. -/
def slotWork {α : Type} (toOp : α → Op) (bank : List (Option (RSEntry α))) : List (Nat × Op) :=
  (busy bank).map fun e => (e.dest, toOp e.op)

theorem slotWork_map_fst {α : Type} (toOp : α → Op) (bank : List (Option (RSEntry α))) :
    (slotWork toOp bank).map Prod.fst = (busy bank).map RSEntry.dest := by
  simp [slotWork]

theorem slotWork_takeReady {α : Type} (toOp : α → Op) {bank b : List (Option (RSEntry α))} {r : Ready α}
    (h : takeReady bank = some (r, b)) : (slotWork toOp bank).Perm ((r.dest, toOp r.op) :: slotWork toOp b) := by
  obtain ⟨e, hperm, hop, hdest⟩ := busy_takeReady h
  rw [hop, hdest]
  exact hperm.map _

/-- The work of a state, bank by bank and stage by stage. -/
theorem State.work_eq (s : State) :
    s.work = slotWork .add s.rs.add ++ slotWork .cmp s.rs.cmp ++ slotWork .log s.rs.log ++ slotWork .shf s.rs.shf ++
      slotWork .ls s.rs.ls ++ s.fu.work := by
  have hview : ∀ {α : Type} (toOp : α → Op) (bank : List (Option (RSEntry α))),
      (busy (bank.map (Option.map fun e => e.withOp (toOp e.op)))).map (fun e => (e.dest, e.op)) =
        slotWork toOp bank := by
    intro α toOp bank
    rw [busy_view, List.map_map]
    rfl
  simp only [State.work, Banks.entries, Banks.view, List.map_append, hview]

/-! ## The messages of one unit -/

theorem sent_singleton (k : MsgKind) (i : Nat) (v : Word) : sent [⟨k, i, v⟩] k = [i] := by simp [sent]

theorem sent_singleton_of_ne {k k' : MsgKind} (h : k ≠ k') (i : Nat) (v : Word) : sent [⟨k, i, v⟩] k' = [] := by
  simp [sent, h]

/-- The messages announce the results of some finished work, and nothing else. -/
structure Announces (msgs : List Msg) (done : List Nat) : Prop where
  results : sent msgs .writeBack = done
  only : ∀ k, k ≠ .writeBack → sent msgs k = []

theorem announces_nil : Announces [] [] := ⟨rfl, fun _ _ => rfl⟩

theorem announces_singleton (i : Nat) (v : Word) : Announces [⟨.writeBack, i, v⟩] [i] :=
  ⟨sent_singleton _ _ _, fun _ hk => sent_singleton_of_ne hk.symm _ _⟩

/-- A stage and its bank: the work stays, moves into the stage, or is finished and announced. -/
theorem unitStep_work {α : Type} (toOp : α → Op) (result : α → Word → Word → Word) (lat : Nat) (st : Stage α)
    (bank : List (Option (RSEntry α))) :
    ∃ done : List (Nat × Op), (∀ w ∈ done, ∃ o, w.2 = toOp o) ∧
      Announces (unitStep result lat st bank).msgs (done.map Prod.fst) ∧
      (slotWork toOp bank ++ st.work toOp).Perm
        (slotWork toOp (unitStep result lat st bank).bank ++ (unitStep result lat st bank).stage.work toOp ++ done) := by
  rcases unitStep_cases result lat st bank with ⟨rem, op, a, b, d, rfl, -, hu⟩ | ⟨rem, op, a, b, d, rfl, -, hu⟩ |
    ⟨rfl, -, hu⟩ | ⟨r, bank', rfl, hr, hu⟩ <;> rw [hu]
  · exact ⟨[], by simp, announces_nil, by simp [Stage.work]⟩
  · exact ⟨[(d, toOp op)], by simp, announces_singleton d _, by simp [Stage.work]⟩
  · exact ⟨[], by simp, announces_nil, by simp⟩
  · refine ⟨[], by simp, announces_nil, ?_⟩
    simp only [Stage.work, List.append_nil]
    exact (slotWork_takeReady toOp hr).trans (List.perm_append_singleton _ _).symm

/-- The LS bank: a dispatched instruction announces its address, and a store its data (R210). -/
theorem dispatchLs_work (f : State) :
    ∃ gone : List (Nat × Op), (∀ w ∈ gone, w.2.bank = .ls) ∧
      sent (dispatchLs f).2 .getAddr = gone.map Prod.fst ∧
      sent (dispatchLs f).2 .writeBack = (gone.filter fun w => w.2.isStore).map Prod.fst ∧
      (∀ k, k ≠ .writeBack → k ≠ .getAddr → sent (dispatchLs f).2 k = []) ∧
      (slotWork .ls f.rs.ls).Perm (gone ++ slotWork .ls (dispatchLs f).1) := by
  rcases dispatchLs_cases f with ⟨-, hd⟩ | ⟨r, bank, hr, hd⟩ <;> rw [hd]
  · exact ⟨[], by simp⟩
  · have hperm := slotWork_takeReady .ls hr
    rcases dispatchMsgs_cases r with ⟨o, ho, hm⟩ | ⟨o, ho, hm⟩ <;> rw [hm]
    · refine ⟨[(r.dest, .ls r.op)], by simp [Op.bank], sent_singleton _ _ _, ?_, fun k _ hk => ?_, hperm⟩
      · simp [sent, ho, Op.isStore]
      · exact sent_singleton_of_ne hk.symm _ _
    · refine ⟨[(r.dest, .ls r.op)], by simp [Op.bank], by simp [sent], ?_, fun k hk hk' => ?_, hperm⟩
      · simp [sent, ho, Op.isStore]
      · simp [sent, hk.symm, hk'.symm]

/-- The load stage: the oldest load stays, starts, or is finished and announced; a load that starts has its address. -/
theorem loadStage_work {f : State} {l : LoadOut} (h : loadStage f = .ok l) :
    ∃ done : List LoadEntry, Announces l.msgs (done.map LoadEntry.dest) ∧ done.Sublist f.ldst.entries ∧
      f.loadEntries = done ++ (l.ldst.entries ++ l.lq) ∧
      l.lq.filter (fun e => !e.ready) = f.lq.filter fun e => !e.ready := by
  unfold State.loadEntries
  rcases loadStage_cases h with ⟨rem, e, hl, -, rfl⟩ | ⟨rem, e, v, hl, -, -, rfl⟩ | ⟨e, rest, hl, hq, hr, rfl⟩ |
    ⟨hl, -, rfl⟩ <;> rw [hl]
  · exact ⟨[], announces_nil, List.nil_sublist _, rfl, rfl⟩
  · exact ⟨[e], announces_singleton _ _, List.Sublist.refl _, rfl, rfl⟩
  · have hready : e.ready = true := (Bool.and_eq_true_iff.mp hr).1
    exact ⟨[], announces_nil, List.nil_sublist _, by simp [LoadStage.entries, hq], by simp [hq, hready]⟩
  · exact ⟨[], announces_nil, List.nil_sublist _, rfl, rfl⟩

/-- The store stage: the head store stays, or is performed and announced; then it was committed. -/
theorem storeStage_work {f : State} {o : StoreOut} (hok : storeStageOk f) (h : storeStage f = .ok o) :
    ∃ done : List StoreEntry, sent o.msgs .storeSuccess = done.map StoreEntry.dest ∧
      (∀ k, k ≠ .storeSuccess → sent o.msgs k = []) ∧ (done = [] ∨ ∃ e, done = [e]) ∧ f.sq = done ++ o.sq ∧
      ∀ e ∈ done, e.committed = true := by
  rcases storeStage_cases h with ⟨rem, -, -, rfl⟩ | ⟨rem, e, rest, m, hb, -, hq, -, rfl⟩ | ⟨e, rest, -, -, -, rfl⟩ |
    ⟨-, -, rfl⟩
  · exact ⟨[], rfl, fun _ _ => rfl, .inl rfl, rfl, by simp⟩
  · simp only [storeStageOk, hb] at hok
    obtain ⟨-, -, e', rest', hq', hc⟩ := hok
    cases hq.symm.trans hq'
    exact ⟨[e], sent_singleton _ _ _, fun k hk => sent_singleton_of_ne hk.symm _ _, .inr ⟨e, rfl⟩, hq, by simpa using hc⟩
  · exact ⟨[], rfl, fun _ _ => rfl, .inl rfl, rfl, by simp⟩
  · exact ⟨[], rfl, fun _ _ => rfl, .inl rfl, rfl, by simp⟩

/-- Commit emits no other kinds than CommitReg and CommitMem. -/
theorem commit_sent {f : State} {c : Commit} (h : commit f = .ok c) {k : MsgKind} (hr : k ≠ .commitReg)
    (hm : k ≠ .commitMem) : sent c.msgs k = [] := by
  rcases commit_msgs h with hc | ⟨v, hc⟩ | ⟨v, hc⟩ <;> rw [hc]
  · rfl
  · exact sent_singleton_of_ne hr.symm _ _
  · exact sent_singleton_of_ne hm.symm _ _

/-! ## All units together -/

/-- What an Execute makes of the work in flight: `done` is the work that the arithmetic stages finish, `gone` what the
LS bank dispatches, `loaded` and `stored` what the load and the store stage finish. -/
structure WorkMoved (f t : State) (c : Commit) (done gone : List (Nat × Op)) (loaded : List LoadEntry)
    (stored : List StoreEntry) : Prop where
  work : f.work.Perm (t.work ++ (done ++ gone))
  doneBank : ∀ w ∈ done, w.2.bank ≠ .ls
  goneBank : ∀ w ∈ gone, w.2.bank = .ls
  slots : ((busy f.rs.ls).map RSEntry.dest).Perm (gone.map Prod.fst ++ (busy t.rs.ls).map RSEntry.dest)
  loadEntries : f.loadEntries = loaded ++ t.loadEntries
  loadedFrom : loaded.Sublist f.ldst.entries
  unready : t.lq.filter (fun e => !e.ready) = f.lq.filter fun e => !e.ready
  sq : f.sq = stored ++ t.sq
  storedOne : stored = [] ∨ ∃ e, stored = [e]
  storedCommitted : ∀ e ∈ stored, e.committed = true
  writeBack : sent t.bus .writeBack =
    done.map Prod.fst ++ loaded.map LoadEntry.dest ++ (gone.filter fun w => w.2.isStore).map Prod.fst
  getAddr : sent t.bus .getAddr = gone.map Prod.fst
  storeSuccess : sent t.bus .storeSuccess = stored.map StoreEntry.dest
  commitReg : sent t.bus .commitReg = sent c.msgs .commitReg
  commitMem : sent t.bus .commitMem = sent c.msgs .commitMem

theorem Executed.workMoved {f t : State} {c : Commit} {l : LoadOut} {st : StoreOut} {i : IssueOut} {r : Option IRec}
    (h : Executed f t c l st i r) (hf : FlushedInv f) :
    ∃ done gone loaded stored, WorkMoved f t c done gone loaded stored := by
  obtain ⟨da, hda, ma, pa⟩ := unitStep_work .add addResult f.cfg.latAdd f.fu.add f.rs.add
  obtain ⟨dc, hdc, mc, pc⟩ := unitStep_work .cmp cmpResult f.cfg.latCmp f.fu.cmp f.rs.cmp
  obtain ⟨dl, hdl, ml, pl⟩ := unitStep_work .log logResult f.cfg.latLog f.fu.log f.rs.log
  obtain ⟨ds, hds, ms, ps⟩ := unitStep_work .shf shfResult f.cfg.latShf f.fu.shf f.rs.shf
  obtain ⟨gone, hgone, hga, hwb, honly, pg⟩ := dispatchLs_work f
  obtain ⟨loaded, mload, hfrom, hload, hunready⟩ := loadStage_work h.load
  obtain ⟨stored, hss, hsonly, hone, hsq, hcommitted⟩ := storeStage_work hf.stages.stst h.store
  have hbus : ∀ k, sent t.bus k = sent c.msgs k ++ sent (stepAdd f).msgs k ++ sent (stepCmp f).msgs k ++
      sent (stepLog f).msgs k ++ sent (stepShf f).msgs k ++ sent l.msgs k ++ sent st.msgs k ++
      sent (dispatchLs f).2 k := fun k => by
    rw [h.merged, merge_bus, emitted]
    simp only [sent_append]
  have hcommit := fun k (hr : k ≠ MsgKind.commitReg) (hm : k ≠ MsgKind.commitMem) => commit_sent h.commit hr hm
  refine ⟨da ++ dc ++ dl ++ ds, gone, loaded, stored, ?_⟩
  exact {
    work := by
      rw [State.work_eq, State.work_eq, h.merged]
      refine List.perm_iff_count.mpr fun a => ?_
      have ca := pa.count_eq a
      have cc := pc.count_eq a
      have cl := pl.count_eq a
      have cs := ps.count_eq a
      have cg := pg.count_eq a
      simp only [merge_rs, merge_fu, Stages.work, List.count_append, stepAdd, stepCmp, stepLog, stepShf] at *
      omega
    doneBank := by
      intro w hw
      simp only [List.mem_append] at hw
      rcases hw with ((hw | hw) | hw) | hw
      · obtain ⟨o, ho⟩ := hda w hw
        simp [ho, Op.bank]
      · obtain ⟨o, ho⟩ := hdc w hw
        simp [ho, Op.bank]
      · obtain ⟨o, ho⟩ := hdl w hw
        simp [ho, Op.bank]
      · obtain ⟨o, ho⟩ := hds w hw
        simp [ho, Op.bank]
    goneBank := hgone
    slots := by
      have hmap := pg.map Prod.fst
      rw [slotWork_map_fst, List.map_append, slotWork_map_fst] at hmap
      rw [h.merged]
      exact hmap
    loadEntries := by rw [h.merged]; exact hload
    loadedFrom := hfrom
    unready := by rw [h.merged]; exact hunready
    sq := by rw [h.merged]; exact hsq
    storedOne := hone
    storedCommitted := hcommitted
    writeBack := by
      rw [hbus, hcommit _ (by simp) (by simp), stepAdd, stepCmp, stepLog, stepShf, ma.results, mc.results, ml.results,
        ms.results, mload.results, hsonly _ (by simp), hwb]
      simp
    getAddr := by
      rw [hbus, hcommit _ (by simp) (by simp), stepAdd, stepCmp, stepLog, stepShf, ma.only _ (by simp),
        mc.only _ (by simp), ml.only _ (by simp), ms.only _ (by simp), mload.only _ (by simp), hsonly _ (by simp), hga]
      simp
    storeSuccess := by
      rw [hbus, hcommit _ (by simp) (by simp), stepAdd, stepCmp, stepLog, stepShf, ma.only _ (by simp),
        mc.only _ (by simp), ml.only _ (by simp), ms.only _ (by simp), mload.only _ (by simp), hss,
        honly _ (by simp) (by simp)]
      simp
    commitReg := by
      rw [hbus, stepAdd, stepCmp, stepLog, stepShf, ma.only _ (by simp), mc.only _ (by simp), ml.only _ (by simp),
        ms.only _ (by simp), mload.only _ (by simp), hsonly _ (by simp), honly _ (by simp) (by simp)]
      simp
    commitMem := by
      rw [hbus, stepAdd, stepCmp, stepLog, stepShf, ma.only _ (by simp), mc.only _ (by simp), ml.only _ (by simp),
        ms.only _ (by simp), mload.only _ (by simp), hsonly _ (by simp), honly _ (by simp) (by simp)]
      simp }

/-- Dispatch adds no entry to a bank. -/
theorem busy_unitStep_subset {α : Type} (result : α → Word → Word → Word) (lat : Nat) (st : Stage α)
    (bank : List (Option (RSEntry α))) : busy (unitStep result lat st bank).bank ⊆ busy bank := by
  rcases unitStep_cases result lat st bank with ⟨_, _, _, _, _, -, -, hu⟩ | ⟨_, _, _, _, _, -, -, hu⟩ | ⟨-, -, hu⟩ |
    ⟨r, bank', -, hr, hu⟩ <;> rw [hu]
  · exact List.Subset.refl _
  · exact List.Subset.refl _
  · exact List.Subset.refl _
  · obtain ⟨e, hperm, -, -⟩ := busy_takeReady hr
    exact fun a ha => hperm.symm.subset (List.mem_cons_of_mem _ ha)

theorem busy_dispatchLs_subset (f : State) : busy (dispatchLs f).1 ⊆ busy f.rs.ls := by
  rcases dispatchLs_cases f with ⟨-, hd⟩ | ⟨r, bank, hr, hd⟩ <;> rw [hd]
  · exact List.Subset.refl _
  · obtain ⟨e, hperm, -, -⟩ := busy_takeReady hr
    exact fun a ha => hperm.symm.subset (List.mem_cons_of_mem _ ha)

/-- An Execute adds no entry to the banks and changes none. -/
theorem Executed.entries_subset {f t : State} {c : Commit} {l : LoadOut} {st : StoreOut} {i : IssueOut}
    {r : Option IRec} (h : Executed f t c l st i r) : t.rs.entries ⊆ f.rs.entries := by
  have hview : ∀ {α : Type} (toOp : α → Op) {b bank : List (Option (RSEntry α))}, busy b ⊆ busy bank →
      busy (b.map (Option.map fun e => e.withOp (toOp e.op))) ⊆
        busy (bank.map (Option.map fun e => e.withOp (toOp e.op))) := by
    intro α toOp b bank hsub
    rw [busy_view, busy_view]
    exact List.map_subset _ hsub
  intro e he
  rw [h.merged] at he
  simp only [Banks.entries, Banks.view, merge_rs, List.mem_append] at he ⊢
  rcases he with (((he | he) | he) | he) | he
  · exact .inl (.inl (.inl (.inl (hview Op.add (busy_unitStep_subset _ _ _ _) he))))
  · exact .inl (.inl (.inl (.inr (hview Op.cmp (busy_unitStep_subset _ _ _ _) he))))
  · exact .inl (.inl (.inr (hview Op.log (busy_unitStep_subset _ _ _ _) he)))
  · exact .inl (.inr (hview Op.shf (busy_unitStep_subset _ _ _ _) he))
  · exact .inr (hview Op.ls (busy_dispatchLs_subset f) he)

end Sys2Proof.Machine
end

section
/-! SUPPORT. The second invariant through an Execute, and so through every tick; what R44 says of the states of both
invariants, and of every reachable one (10_state.md R44; 40_clock_and_bus.md R132). -/

namespace Sys2Proof.Machine

/-! ## Lists -/

/-- Of a list without repetition, what is left when its front is taken away. -/
theorem filter_not_mem_front {a b : List Nat} (h : (a ++ b).Nodup) :
    (a ++ b).filter (fun i => decide (i ∉ a)) = b := by
  have ha : a.filter (fun i => decide (i ∉ a)) = [] := List.filter_eq_nil_iff.mpr fun i hi => by simpa using hi
  have hb : b.filter (fun i => decide (i ∉ a)) = b :=
    List.filter_eq_self.mpr fun i hi => decide_eq_true fun hm => List.disjoint_of_nodup_append h hm hi
  rw [List.filter_append, ha, hb, List.nil_append]

/-- Taking some indices away from the indices of the entries that meet a condition. -/
theorem filter_map_fst_not_mem (l : List (Nat × RobEntry)) (p : Nat × RobEntry → Bool) (a : List Nat) :
    (l.filter fun x => p x && decide (x.1 ∉ a)).map Prod.fst =
      ((l.filter p).map Prod.fst).filter fun i => decide (i ∉ a) := by
  rw [List.filter_map, List.filter_filter]
  exact congrArg (List.map Prod.fst) (List.filter_congr fun x _ => Bool.and_comm _ _)

/-! ## Work in the flushed state -/

section
variable {f : State}

/-- Memory work waits in the LS bank: no arithmetic stage does it. -/
theorem slot_of_memory_work {w : Nat × Op} (hw : w ∈ f.work) (hb : w.2.bank = .ls) :
    w.1 ∈ (busy f.rs.ls).map RSEntry.dest := by
  have hslot : ∀ {α : Type} (toOp : α → Op) (bank : List (Option (RSEntry α))), (∀ o, (toOp o).bank ≠ .ls) →
      w ∉ slotWork toOp bank := by
    intro α toOp bank hne hm
    obtain ⟨e, -, rfl⟩ := List.mem_map.mp hm
    exact hne _ hb
  have hstage : ∀ {α : Type} (toOp : α → Op) (st : Stage α), (∀ o, (toOp o).bank ≠ .ls) → w ∉ st.work toOp := by
    intro α toOp st hne hm
    cases st with
    | idle => cases hm
    | busy rem op a b d =>
      rw [Stage.work, List.mem_singleton] at hm
      rw [hm] at hb
      exact hne op hb
  rw [State.work_eq, Stages.work] at hw
  simp only [List.mem_append] at hw
  rcases hw with (((((hw | hw) | hw) | hw) | hw) | (((hw | hw) | hw) | hw))
  · exact absurd hw (hslot Op.add _ (by simp [Op.bank]))
  · exact absurd hw (hslot Op.cmp _ (by simp [Op.bank]))
  · exact absurd hw (hslot Op.log _ (by simp [Op.bank]))
  · exact absurd hw (hslot Op.shf _ (by simp [Op.bank]))
  · exact slotWork_map_fst .ls f.rs.ls ▸ List.mem_map_of_mem hw
  · exact absurd hw (hstage Op.add _ (by simp [Op.bank]))
  · exact absurd hw (hstage Op.cmp _ (by simp [Op.bank]))
  · exact absurd hw (hstage Op.log _ (by simp [Op.bank]))
  · exact absurd hw (hstage Op.shf _ (by simp [Op.bank]))

/-- A load in the load/store buffer is live, is a load, and is in state Issue. -/
theorem InFlightInv.load_live (hi : InFlightInv f) {e : LoadEntry} (he : e ∈ f.loadEntries) :
    ∃ r, (e.dest, r) ∈ f.live ∧ r.isLoad = true ∧ r.state = .issue := by
  obtain ⟨r, hr, hload, hst, -⟩ := mem_loadsHeld.mp (hi.loads ▸ List.mem_map_of_mem he)
  exact ⟨r, hr, hload, hst⟩

/-- The load in the load stage has left its bank: its address is known. -/
theorem not_work_of_loading (hf : FlushedInv f) (hi : InFlightInv f) {e : LoadEntry} (he : e ∈ f.ldst.entries) :
    e.dest ∉ f.work.map Prod.fst := by
  intro hm
  obtain ⟨w, hw, hd⟩ := List.mem_map.mp hm
  obtain ⟨r, hr, -, hop⟩ := hi.work w hw
  obtain ⟨r', hr', hload, -⟩ := hi.load_live (e := e) (List.mem_append_left _ he)
  rw [hd] at hr
  cases hf.capacity.live_unique hr hr'
  rw [RobEntry.isLoad_of_op hop] at hload
  have hslot := slot_of_memory_work hw (Op.bank_eq_ls_iff.mpr (.inl hload))
  have hunknown : e.dest ∈ addressUnknown f := hi.addresses.mem_iff.mp (List.mem_append_left _ (hd ▸ hslot))
  have hnd := memory_dests_nodup hf.capacity hi
  rw [State.loadEntries, List.map_append, List.append_assoc] at hnd
  refine List.disjoint_of_nodup_append hnd (List.mem_map_of_mem he) ?_
  rcases mem_addressUnknown.mp hunknown with ⟨e', he', -, hd'⟩ | ⟨e', he', -, hd'⟩
  · exact List.mem_append_left _ (hd' ▸ List.mem_map_of_mem he')
  · exact List.mem_append_right _ (hd' ▸ List.mem_map_of_mem he')

/-- A committed store of the flushed state is the head's, which waits, and has its address. -/
theorem committed_store (hi : InFlightInv f) {e : StoreEntry} (he : e ∈ f.sq) (hc : e.committed = true) :
    HeadWaits f e.dest ∧ e.ready = true := by
  have hw := hi.committed e he hc
  obtain ⟨hd, r, rest, hl, hst⟩ := hw.live
  exact ⟨hw, hi.ready e he r (by rw [hd, hl]; exact List.mem_cons_self) (by simp [hst])⟩

end

/-! ## The live entries through commit -/

section
variable {f t : State} {c : Commit} {l : LoadOut} {st : StoreOut} {i : IssueOut} {r : Option IRec}

theorem Executed.live_cases (h : Executed f t c l st i r) (hf : FlushedInv f) :
    (t.live = f.live ∧ c.write = none ∧ c.msgs = []) ∨
    ∃ e rest, f.live = (f.rob.head, e) :: rest ∧
      ((Retires f c e ∧ t.live = rest) ∨
        (t.live = (f.rob.head, { e with state := .waitSt }) :: rest ∧ ∃ es, Releases f c e es)) :=
  live_of_commit hf.records.rob h.commit (by rw [h.merged]; rfl) (by rw [h.merged]; rfl)

/-- A live entry in state Issue is not touched by commit. -/
theorem Executed.keeps_issue (h : Executed f t c l st i r) (hf : FlushedInv f) {q : Nat} {e : RobEntry}
    (he : (q, e) ∈ f.live) (hst : e.state = .issue) : (q, e) ∈ t.live := by
  rcases h.live_cases hf with ⟨hlive, -⟩ | ⟨e₀, rest, hl, ⟨hret, hlive⟩ | ⟨hlive, es, hrel⟩⟩
  · exact hlive ▸ he
  · rcases List.mem_cons.mp (hl ▸ he) with heq | he
    · cases heq
      simp [hret.state] at hst
    · exact hlive ▸ he
  · rcases List.mem_cons.mp (hl ▸ he) with heq | he
    · cases heq
      simp [hrel.state] at hst
    · exact hlive ▸ List.mem_cons_of_mem _ he

/-- A live entry of the next state was live, and not in state Issue if it is not now. -/
theorem Executed.live_from (h : Executed f t c l st i r) (hf : FlushedInv f) {q : Nat} {e : RobEntry}
    (he : (q, e) ∈ t.live) (hst : e.state ≠ .issue) : ∃ e₀, (q, e₀) ∈ f.live ∧ e₀.state ≠ .issue := by
  rcases h.live_cases hf with ⟨hlive, -⟩ | ⟨e₀, rest, hl, ⟨hret, hlive⟩ | ⟨hlive, es, hrel⟩⟩
  · exact ⟨e, hlive ▸ he, hst⟩
  · exact ⟨e, hl ▸ List.mem_cons_of_mem _ (hlive ▸ he), hst⟩
  · rcases List.mem_cons.mp (hlive ▸ he) with heq | he
    · cases heq
      exact ⟨e₀, hl ▸ List.mem_cons_self, by simp [hrel.state]⟩
    · exact ⟨e, hl ▸ List.mem_cons_of_mem _ he, hst⟩

/-- Commit does nothing while the head waits for its store, which goes on waiting. -/
theorem Executed.keeps_headWaits (h : Executed f t c l st i r) (hf : FlushedInv f) {j : Nat} (hw : HeadWaits f j) :
    HeadWaits t j ∧ c.msgs = [] := by
  obtain ⟨rfl, e, rest, hl, hst⟩ := hw.live
  rcases h.live_cases hf with ⟨hlive, -, hm⟩ | ⟨e₀, rest₀, hl₀, hcase⟩
  · exact ⟨headWaits_of_live (hlive.trans hl) hst, hm⟩
  · rw [hl] at hl₀
    cases hl₀
    rcases hcase with ⟨hret, -⟩ | ⟨-, es, hrel⟩
    · simp [hret.state] at hst
    · simp [hrel.state] at hst

/-- Which live entries meet a condition that commit does not change. -/
theorem Executed.live_filter (h : Executed f t c l st i r) (hf : FlushedInv f) (p : Nat × RobEntry → Bool)
    (hretire : ∀ q e, e.state = .write → e.isStore = false → p (q, e) = false)
    (hrelease : ∀ q e, e.state = .write → e.isStore = true → p (q, { e with state := .waitSt }) = p (q, e)) :
    (t.live.filter p).map Prod.fst = (f.live.filter p).map Prod.fst := by
  rcases h.live_cases hf with ⟨hlive, -⟩ | ⟨e, rest, hl, ⟨hret, hlive⟩ | ⟨hlive, es, hrel⟩⟩
  · rw [hlive]
  · rw [hlive, hl, List.filter_cons, hretire _ _ hret.state hret.notStore]
    rfl
  · rw [hlive, hl, List.filter_cons, List.filter_cons, hrelease _ _ hrel.state hrel.isStore]
    cases p (f.rob.head, e) <;> rfl

/-! ## The fields of the invariant -/

variable {done gone : List (Nat × Op)} {loaded : List LoadEntry} {stored : List StoreEntry}

theorem WorkMoved.loaded_mem (hm : WorkMoved f t c done gone loaded stored) {e : LoadEntry} (he : e ∈ loaded) :
    e ∈ f.loadEntries := hm.loadEntries ▸ List.mem_append_left _ he

/-- Which loads are announced: those that the load stage finishes. -/
theorem WorkMoved.load_announced (hm : WorkMoved f t c done gone loaded stored) (hf : FlushedInv f)
    (hi : InFlightInv f) {q : Nat} {e : RobEntry} (he : (q, e) ∈ f.live) (hl : e.isLoad = true) :
    q ∈ sent t.bus .writeBack ↔ q ∈ loaded.map LoadEntry.dest := by
  have hop : ∀ w ∈ f.work, w.1 = q → w.2.isLoad = true := fun w hw hd => by
    obtain ⟨e', he', -, hop⟩ := hi.work w hw
    rw [hd] at he'
    cases hf.capacity.live_unique he he'
    exact (RobEntry.isLoad_of_op hop).symm.trans hl
  have hdone : q ∉ done.map Prod.fst := fun h => by
    obtain ⟨w, hw, hd⟩ := List.mem_map.mp h
    have hmem : w ∈ f.work := hm.work.mem_iff.mpr (by simp [hw])
    exact hm.doneBank w hw (Op.bank_eq_ls_iff.mpr (.inl (hop w hmem hd)))
  have hgone : q ∉ (gone.filter fun w => w.2.isStore).map Prod.fst := fun h => by
    obtain ⟨w, hw, hd⟩ := List.mem_map.mp h
    obtain ⟨hw, hstore⟩ := List.mem_filter.mp hw
    have hmem : w ∈ f.work := hm.work.mem_iff.mpr (by simp [hw])
    simp [Op.not_isStore_of_isLoad (hop w hmem hd)] at hstore
  rw [hm.writeBack]
  simp only [List.mem_append, hdone, hgone, false_or, or_false]

theorem WorkMoved.loads (hm : WorkMoved f t c done gone loaded stored) (h : Executed f t c l st i r)
    (hf : FlushedInv f) (hi : InFlightInv f) : t.loadEntries.map LoadEntry.dest = loadsHeld t := by
  have hsplit : loadsHeld f = loaded.map LoadEntry.dest ++ t.loadEntries.map LoadEntry.dest := by
    rw [← hi.loads, hm.loadEntries, List.map_append]
  have hheld : loadsHeld t = (f.live.filter fun p => p.2.isLoad && p.2.state == .issue &&
      !(sent t.bus .writeBack).contains p.1).map Prod.fst :=
    h.live_filter hf _ (fun q e hw _ => by simp [hw]) fun q e hw hs => by
      have hno : e.isLoad = false := by
        cases hl : e.isLoad
        · rfl
        · simp [RobEntry.not_isStore_of_isLoad hl] at hs
      have hno' : RobEntry.isLoad { e with state := .waitSt } = false := hno
      simp [hno, hno']
  have hannounced : (f.live.filter fun p => p.2.isLoad && p.2.state == .issue &&
      !(sent t.bus .writeBack).contains p.1) = f.live.filter fun p => (p.2.isLoad && p.2.state == .issue) &&
      decide (p.1 ∉ loaded.map LoadEntry.dest) := by
    refine List.filter_congr fun p hp => ?_
    cases hl : p.2.isLoad
    · simp
    · have hiff := hm.load_announced hf hi hp hl
      rw [Bool.eq_iff_iff]
      simp [hiff]
  have hnd := hf.capacity.loadsHeld_nodup
  rw [hheld, hannounced, filter_map_fst_not_mem, ← loadsHeld_of_bus_nil hf.bus, hsplit]
  rw [hsplit] at hnd
  exact (filter_not_mem_front hnd).symm

theorem WorkMoved.stores (hm : WorkMoved f t c done gone loaded stored) (h : Executed f t c l st i r)
    (hf : FlushedInv f) (hi : InFlightInv f) : t.sq.map StoreEntry.dest = storesHeld t := by
  have hsplit : storesHeld f = stored.map StoreEntry.dest ++ t.sq.map StoreEntry.dest := by
    rw [← hi.stores, hm.sq, List.map_append]
  have hheld : storesHeld t = (f.live.filter fun p => p.2.isStore &&
      !(sent t.bus .storeSuccess).contains p.1).map Prod.fst :=
    h.live_filter hf _ (fun q e _ hs => by simp [hs]) (fun q e _ hs => by simp [RobEntry.isStore])
  have hform : (f.live.filter fun p => p.2.isStore && !(sent t.bus .storeSuccess).contains p.1) =
      f.live.filter fun p => p.2.isStore && decide (p.1 ∉ stored.map StoreEntry.dest) :=
    List.filter_congr fun p _ => by rw [hm.storeSuccess, List.contains_eq_mem, decide_not]
  have hnd := hf.capacity.storesHeld_nodup
  rw [hheld, hform, filter_map_fst_not_mem, ← storesHeld_of_bus_nil hf.bus, hsplit]
  rw [hsplit] at hnd
  exact (filter_not_mem_front hnd).symm

theorem WorkMoved.stored_ready (hm : WorkMoved f t c done gone loaded stored) (hi : InFlightInv f) {e : StoreEntry}
    (he : e ∈ stored) : HeadWaits f e.dest ∧ e.ready = true :=
  committed_store hi (hm.sq ▸ List.mem_append_left _ he) (hm.storedCommitted e he)

theorem WorkMoved.addresses (hm : WorkMoved f t c done gone loaded stored) (hf : FlushedInv f) (hi : InFlightInv f) :
    ((busy t.rs.ls).map RSEntry.dest ++ sent t.bus .getAddr).Perm (addressUnknown t) := by
  have hsame : addressUnknown t = addressUnknown f := by
    have hstored : stored.filter (fun e => !e.ready) = [] :=
      List.filter_eq_nil_iff.mpr fun e he => by simp [(hm.stored_ready hi he).2]
    unfold addressUnknown
    rw [hm.unready, hm.sq, List.filter_append, hstored, List.nil_append]
  rw [hsame, hm.getAddr]
  refine .trans ?_ (show ((busy f.rs.ls).map RSEntry.dest).Perm (addressUnknown f) by simpa [hf.bus] using hi.addresses)
  exact List.perm_append_comm.trans hm.slots.symm

theorem WorkMoved.workInv (hm : WorkMoved f t c done gone loaded stored) (h : Executed f t c l st i r)
    (hf : FlushedInv f) (hi : InFlightInv f) :
    ∀ w ∈ t.work, ∃ e, (w.1, e) ∈ t.live ∧ e.state = .issue ∧ e.instr.op = some w.2 := by
  intro w hw
  obtain ⟨e, he, hst, hop⟩ := hi.work w (hm.work.mem_iff.mpr (List.mem_append_left _ hw))
  exact ⟨e, h.keeps_issue hf he hst, hst, hop⟩

theorem WorkMoved.results (hm : WorkMoved f t c done gone loaded stored) (h : Executed f t c l st i r)
    (hf : FlushedInv f) (hi : InFlightInv f) : ∀ q ∈ sent t.bus .writeBack, ∃ e, (q, e) ∈ t.live ∧ e.state = .issue ∧
      (e.isStore = true → q ∈ sent t.bus .getAddr) := by
  intro q hq
  rw [hm.writeBack] at hq
  rcases List.mem_append.mp hq with hq | hq
  · rcases List.mem_append.mp hq with hq | hq
    · obtain ⟨w, hw, rfl⟩ := List.mem_map.mp hq
      obtain ⟨e, he, hst, hop⟩ := hi.work w (hm.work.mem_iff.mpr (by simp [hw]))
      obtain ⟨-, hno⟩ := RobEntry.not_memory_of_bank hop (hm.doneBank w hw)
      exact ⟨e, h.keeps_issue hf he hst, hst, by simp [hno]⟩
    · obtain ⟨le, hle, rfl⟩ := List.mem_map.mp hq
      obtain ⟨e, he, hload, hst⟩ := hi.load_live (hm.loaded_mem hle)
      exact ⟨e, h.keeps_issue hf he hst, hst, by simp [RobEntry.not_isStore_of_isLoad hload]⟩
  · obtain ⟨w, hw, rfl⟩ := List.mem_map.mp hq
    have hw := List.mem_of_mem_filter hw
    obtain ⟨e, he, hst, -⟩ := hi.work w (hm.work.mem_iff.mpr (by simp [hw]))
    exact ⟨e, h.keeps_issue hf he hst, hst, fun _ => hm.getAddr ▸ List.mem_map_of_mem hw⟩

theorem WorkMoved.once (hm : WorkMoved f t c done gone loaded stored) (hf : FlushedInv f) (hi : InFlightInv f) :
    (t.work.map Prod.fst ++ sent t.bus .writeBack).Nodup := by
  have hwork : (f.work.map Prod.fst).Nodup := hi.once.of_append_left
  have hloaded : (loaded.map LoadEntry.dest).Nodup := by
    have hnd := hf.capacity.loadsHeld_nodup
    rw [← hi.loads, hm.loadEntries, List.map_append] at hnd
    exact hnd.of_append_left
  have hall : (f.work.map Prod.fst ++ loaded.map LoadEntry.dest).Nodup := by
    refine List.nodup_append.mpr ⟨hwork, hloaded, ?_⟩
    rintro q hq _ hl rfl
    obtain ⟨e, he, rfl⟩ := List.mem_map.mp hl
    exact not_work_of_loading hf hi (hm.loadedFrom.subset he) hq
  have hperm : (f.work.map Prod.fst ++ loaded.map LoadEntry.dest).Perm
      (t.work.map Prod.fst ++ (done.map Prod.fst ++ loaded.map LoadEntry.dest ++ gone.map Prod.fst)) := by
    refine ((hm.work.map Prod.fst).append_right _).trans (List.perm_iff_count.mpr fun a => ?_)
    simp only [List.map_append, List.count_append]
    omega
  rw [hm.writeBack]
  refine (hperm.nodup_iff.mp hall).sublist ?_
  exact (List.Sublist.refl _).append ((List.Sublist.refl _).append (List.filter_sublist.map _))

theorem WorkMoved.ready (hm : WorkMoved f t c done gone loaded stored) (h : Executed f t c l st i r)
    (hf : FlushedInv f) (hi : InFlightInv f) :
    ∀ e ∈ t.sq, ∀ r, (e.dest, r) ∈ t.live → r.state ≠ .issue → e.ready = true := by
  intro e he r hr hst
  obtain ⟨r₀, hr₀, hst₀⟩ := h.live_from hf hr hst
  exact hi.ready e (hm.sq ▸ List.mem_append_right _ he) r₀ hr₀ hst₀

theorem WorkMoved.performed (hm : WorkMoved f t c done gone loaded stored) (h : Executed f t c l st i r)
    (hf : FlushedInv f) (hi : InFlightInv f) :
    sent t.bus .storeSuccess = [] ∨ ∃ j, sent t.bus .storeSuccess = [j] ∧ HeadWaits t j := by
  rw [hm.storeSuccess]
  rcases hm.storedOne with hn | ⟨e, he⟩
  · exact .inl (by simp [hn])
  · have hw := (hm.stored_ready hi (e := e) (by simp [he])).1
    exact .inr ⟨e.dest, by simp [he], (h.keeps_headWaits hf hw).1⟩

/-- A CommitMem names the head that now waits for its store, and no store was performed. -/
theorem WorkMoved.released (hm : WorkMoved f t c done gone loaded stored) (h : Executed f t c l st i r)
    (hf : FlushedInv f) (hi : InFlightInv f) :
    ∀ j ∈ sent t.bus .commitMem, HeadWaits t j ∧ sent t.bus .storeSuccess = [] := by
  intro j hj
  rw [hm.commitMem] at hj
  have hnone : sent t.bus .storeSuccess = [] := by
    rw [hm.storeSuccess]
    rcases hm.storedOne with hn | ⟨e, he⟩
    · simp [hn]
    · have hw := (hm.stored_ready hi (e := e) (by simp [he])).1
      simp [(h.keeps_headWaits hf hw).2] at hj
  rcases h.live_cases hf with ⟨-, -, hc⟩ | ⟨e, rest, -, ⟨hret, -⟩ | ⟨hlive, es, hrel⟩⟩
  · simp [hc] at hj
  · rcases hret.msgs with ⟨hc, -⟩ | ⟨v, hc⟩ <;> simp [hc, sent] at hj
  · obtain ⟨v, hc⟩ := hrel.msgs
    rw [hc, sent_singleton, List.mem_singleton] at hj
    rw [hj]
    exact ⟨headWaits_of_live hlive rfl, hnone⟩

/-- A CommitReg names the head, which has retired. -/
theorem WorkMoved.retired (hm : WorkMoved f t c done gone loaded stored) (h : Executed f t c l st i r)
    (hf : FlushedInv f) : ∀ j ∈ sent t.bus .commitReg, ∀ p ∈ t.live, p.1 ≠ j := by
  intro j hj p hp
  rw [hm.commitReg] at hj
  rcases h.live_cases hf with ⟨-, -, hc⟩ | ⟨e, rest, hl, ⟨hret, hlive⟩ | ⟨-, es, hrel⟩⟩
  · simp [hc] at hj
  · have hidx : j = f.rob.head := by
      rcases hret.msgs with ⟨hc, -⟩ | ⟨v, hc⟩
      · simp [hc] at hj
      · rwa [hc, sent_singleton, List.mem_singleton] at hj
    have hnd := hf.capacity.live_nodup
    rw [hl, List.map_cons, List.nodup_cons] at hnd
    rintro rfl
    exact hnd.1 (hidx ▸ List.mem_map.mpr ⟨p, hlive ▸ hp, rfl⟩)
  · obtain ⟨v, hc⟩ := hrel.msgs
    simp [hc, sent] at hj

theorem WorkMoved.oneCommit (hm : WorkMoved f t c done gone loaded stored) (h : Executed f t c l st i r) :
    (sent t.bus .commitReg ++ sent t.bus .commitMem).length ≤ 1 := by
  rw [hm.commitReg, hm.commitMem]
  rcases commit_msgs h.commit with hc | ⟨v, hc⟩ | ⟨v, hc⟩ <;> simp [hc, sent]

/-! ### The latch -/

/-- What an issued entry waits for is live with a destination, or commits in this Execute and is on the bus
(41_issue_unit.md R173). -/
theorem WorkMoved.operand (hm : WorkMoved f t c done gone loaded stored) (h : Executed f t c l st i r)
    (hf : FlushedInv f) {src : Source} {q : Nat} (hq : readSource f src = .pending q) :
    (∃ p, (q, p) ∈ t.live ∧ p.rd ≠ none) ∨ q ∈ sent t.bus .commitReg := by
  have htag : ∃ d, f.tagOf d = some q := by
    unfold readSource at hq
    split at hq
    · cases hq
    · rename_i d
      split at hq
      · cases hq
      · cases hq
        exact ⟨d, ‹_›⟩
  obtain ⟨d, hd⟩ := htag
  obtain ⟨e, he, hrd⟩ := (tagInv_iff hf.capacity.head hf.capacity.rob).mp hf.tags d q hd
  have he' : (q, e) ∈ f.live := by simpa [State.inFlight_eq, State.latched_of_none hf.latch] using he
  rcases h.live_cases hf with ⟨hlive, -⟩ | ⟨e₀, rest, hl, ⟨hret, hlive⟩ | ⟨hlive, -⟩⟩
  · exact .inl ⟨e, hlive ▸ he', by simp [hrd]⟩
  · rcases List.mem_cons.mp (hl ▸ he') with heq | hr
    · cases heq
      rcases hret.msgs with ⟨-, hno⟩ | ⟨v, hc⟩
      · simp [hrd] at hno
      · exact .inr (by rw [hm.commitReg, hc, sent_singleton]; exact List.mem_cons_self)
    · exact .inl ⟨e, hlive ▸ hr, by simp [hrd]⟩
  · rcases List.mem_cons.mp (hl ▸ he') with heq | hr
    · cases heq
      exact .inl ⟨{ e with state := .waitSt }, hlive ▸ List.mem_cons_self, by simp [hrd]⟩
    · exact .inl ⟨e, hlive ▸ List.mem_cons_of_mem _ hr, by simp [hrd]⟩

theorem WorkMoved.latchInv (hm : WorkMoved f t c done gone loaded stored) (h : Executed f t c l st i r)
    (hf : FlushedInv f) : ∀ l', t.latch = some l' → LatchInv t l' := by
  intro l' hl'
  rw [h.merged, merge_latch] at hl'
  rcases issue_effect h.issue with ⟨-, hn, -⟩ | ⟨rec, rest, op, -, hop, -, rfl⟩
  · simp [hn] at hl'
  · cases hl'
    refine ⟨rfl, hop, ⟨0, ?_⟩, fun q hq => ?_⟩
    · rcases op with o | o | o | o | (o | o) <;> rfl
    · exact hq.elim (hm.operand h hf) (hm.operand h hf)

/-! ### Tags -/

/-- The tags that commit's clear leaves are those of the entries that stay live. -/
theorem Executed.clearedTags_youngest (h : Executed f t c l st i r) (hf : FlushedInv f) (hi : InFlightInv f)
    (d : RegIdx) : clearedTagOf f c.write d = youngestIn d t.live := by
  have htag : f.tagOf d = youngestIn d f.live := by
    rw [hi.tags, State.inFlight_eq, State.latched_of_none hf.latch, List.append_nil]
  rcases h.live_cases hf with ⟨hlive, hw, -⟩ | ⟨e, rest, hl, ⟨hret, hlive⟩ | ⟨hlive, es, hrel⟩⟩
  · rw [hw, hlive]
    exact htag
  · have hhead : youngestIn d f.live =
        match youngestIn d rest with
        | some j => some j
        | none => if e.rd = some d then some f.rob.head else none := by
      rw [hl]
      rfl
    have hne : ∀ j, youngestIn d rest = some j → j ≠ f.rob.head := by
      have hnd := hf.capacity.live_nodup
      rw [hl, List.map_cons, List.nodup_cons] at hnd
      rintro j hj rfl
      obtain ⟨older, e', younger, rfl, -⟩ := youngestIn_eq_some hj
      exact hnd.1 (by simp)
    obtain ⟨v, hw⟩ := hret.write
    rw [hlive, hw]
    rw [hhead] at htag
    rcases hrd : e.rd with _ | d'
    · simp only [clearedTagOf, Option.map_none, htag, hrd]
      cases youngestIn d rest <;> simp
    · simp only [clearedTagOf, Option.map_some, htag, hrd]
      rcases hy : youngestIn d rest with _ | j
      · by_cases hd : d' = d
        · simp [hd]
        · simp [hd]
      · simp [hne j hy]
  · rw [hrel.write, hlive]
    refine htag.trans ?_
    rw [hl]
    rfl

theorem Executed.tags (h : Executed f t c l st i r) (hf : FlushedInv f) (hi : InFlightInv f) :
    ∀ d, t.tagOf d = youngestIn d t.inFlight := by
  intro d
  have hlatch : t.latch = i.latch := by rw [h.merged]; rfl
  have hclear := h.clearedTags_youngest hf hi d
  rw [tagOf_nextTags (f := f) (c := c) (i := i) (by rw [h.merged]; rfl), State.inFlight_eq, youngestIn_append]
  rcases issue_effect h.issue with ⟨-, hn, hren⟩ | ⟨rec, rest, op, hq, -, -, rfl⟩
  · rw [hren, State.latched_of_none (hlatch.trans hn)]
    simpa [youngestIn] using hclear
  · have hzero : rec.rd ≠ some 0 := (hf.records.iq rec (by simp [hq])).1
    rw [State.latched_of_some hlatch]
    rcases hrd : rec.rd with _ | d'
    · simpa [youngestIn, latchOf, hrd] using hclear
    · have hd' : d' ≠ 0 := fun hz => hzero (hz ▸ hrd)
      by_cases hd : d = d'
      · subst hd
        simp only [Option.map_some, youngestIn, latchOf, hrd, true_and, ne_eq, hd', not_false_eq_true, if_true,
          Option.some_or]
      · simp [youngestIn, latchOf, hrd, hd, Ne.symm hd, hclear]

end

/-- The second invariant through an Execute. -/
theorem execute_inFlightInv {port : FetchPort} {f t : State} (hf : FlushedInv f) (hi : InFlightInv f)
    (h : execute port f = .ok t) : InFlightInv t := by
  obtain ⟨c, l, st, i, r, -, he⟩ := execute_executed h
  obtain ⟨done, gone, loaded, stored, hm⟩ := he.workMoved hf
  exact {
    latch := hm.latchInv he hf
    work := hm.workInv he hf hi
    waits := fun e hmem q hq => by
      obtain ⟨p, hp, hst, hrd⟩ := hi.waits e (he.entries_subset hmem) q hq
      exact ⟨p, he.keeps_issue hf hp hst, hst, hrd⟩
    results := hm.results he hf hi
    once := hm.once hf hi
    loads := hm.loads he hf hi
    stores := hm.stores he hf hi
    addresses := hm.addresses hf hi
    ready := hm.ready he hf hi
    committed := fun e hmem hc =>
      (he.keeps_headWaits hf (hi.committed e (hm.sq ▸ List.mem_append_right _ hmem) hc)).1
    released := hm.released he hf hi
    performed := hm.performed he hf hi
    retired := hm.retired he hf
    oneCommit := hm.oneCommit he
    tags := he.tags hf hi }

/-- The second invariant through every tick between running states. -/
theorem tickTo_inFlightInv {s t : State} (hs : Inv s) (hi : InFlightInv s) (ht : t.status = .running)
    (h : TickTo s t) : InFlightInv t := by
  obtain ⟨-, hh, f, port, hf, -, he⟩ := h.phases ht
  exact execute_inFlightInv (flush_flushedInv hs hh hf) (flush_inFlightInv hs hi hf) he

/-- Settles O57, phase by phase: the invariant is kept by the Flush, and from its flushed state by the Execute. -/
theorem everyStepKeepsInFlight : Obligations.EveryStepKeepsInFlight :=
  fun _ _ hs hi ht h => tickTo_inFlightInv hs hi ht h

end Sys2Proof.Machine
end

section
/-! SUPPORT. What 10_state.md R44 says, clause by clause, of a state of both invariants, and of every running state
that is reached from a reset with a canonical image. -/

namespace Sys2Proof.Machine

/-! ## R44 from the invariants -/

section
variable {s : State}

theorem mem_inFlight_of_live {i : Nat} {e : RobEntry} (h : (i, e) ∈ s.live) : (i, e) ∈ s.inFlight := by
  rw [State.inFlight_eq]
  exact List.mem_append_left _ h

/-- (b), for anything that works: its destination is in flight. -/
theorem InFlightInv.work_inFlight (hi : InFlightInv s) {w : Nat × Op} (hw : w ∈ s.work) :
    ∃ p ∈ s.inFlight, p.1 = w.1 := by
  obtain ⟨e, he, -⟩ := hi.work w hw
  exact ⟨_, mem_inFlight_of_live he, rfl⟩

theorem mem_work_of_slot {b : Bank} {e : RSEntry Op} (he : some e ∈ s.rs.view b) : (e.dest, e.op) ∈ s.work :=
  List.mem_append_left _ (List.mem_map.mpr ⟨e, Banks.mem_entries.mpr ⟨b, he⟩, rfl⟩)

/-- (b), for anything in the load/store buffer. -/
theorem InFlightInv.memory_inFlight (hi : InFlightInv s) {i : Nat}
    (h : i ∈ s.loadEntries.map LoadEntry.dest ++ s.sq.map StoreEntry.dest) : ∃ p ∈ s.inFlight, p.1 = i := by
  obtain ⟨e, he⟩ := live_of_memory_dest hi h
  exact ⟨_, mem_inFlight_of_live he, rfl⟩

/-- No kind of message carries an index twice. -/
theorem InFlightInv.sent_nodup (hcap : CapacityInv s) (hi : InFlightInv s) (k : MsgKind) : (sent s.bus k).Nodup := by
  have hone := hi.oneCommit
  rw [List.length_append] at hone
  have hshort : ∀ {l : List Nat}, l.length ≤ 1 → l.Nodup := fun {l} hl => by
    match l with
    | [] => exact List.nodup_nil
    | [_] => exact List.nodup_singleton _
    | _ :: _ :: _ => simp at hl
  cases k with
  | writeBack => exact hi.once.of_append_right
  | getAddr => exact (addresses_nodup hcap hi).of_append_right
  | commitReg => exact hshort (by omega)
  | commitMem => exact hshort (by omega)
  | storeSuccess =>
    rcases hi.performed with h | ⟨i, h, -⟩ <;> rw [h]
    · exact List.nodup_nil
    · exact List.nodup_singleton i

/-- Messages that share kind and index would repeat an index of that kind. -/
theorem pairwise_of_sent_nodup {bus : List Msg} (h : ∀ k, (sent bus k).Nodup) :
    bus.Pairwise fun m n => ¬ (m.kind = n.kind ∧ m.idx = n.idx) := by
  induction bus with
  | nil => exact .nil
  | cons m ms ih =>
    refine List.pairwise_cons.mpr ⟨?_, ih fun k => ?_⟩
    · rintro n hn ⟨hkind, hidx⟩
      have hm := h m.kind
      rw [sent_cons, if_pos rfl, List.nodup_cons] at hm
      exact hm.1 (mem_sent.mpr ⟨n, hn, hkind.symm, hidx.symm⟩)
    · have hk := h k
      rw [sent_cons] at hk
      split at hk
      · exact (List.nodup_cons.mp hk).2
      · exact hk

/-- R44 of a state of both invariants. -/
theorem r44_of_invariants (hs : Inv s) (hi : InFlightInv s) : R44 s where
  tags r q hq := youngestIn_eq_some ((hi.tags r).symm.trans hq)
  slotDests _ _ he := hi.work_inFlight (mem_work_of_slot he)
  stageDests _ hw := hi.work_inFlight (List.mem_append_right _ hw)
  loadDests _ he := hi.memory_inFlight (List.mem_append_left _ (List.mem_map_of_mem he))
  storeDests _ he := hi.memory_inFlight (List.mem_append_right _ (List.mem_map_of_mem he))
  operands b e he q hq := by
    obtain ⟨p, hp, -, hrd⟩ := hi.waits e (Banks.mem_entries.mpr ⟨b, he⟩) q hq
    exact ⟨_, mem_inFlight_of_live hp, rfl, hrd⟩
  loadOrder := hs.queues.lq
  storeOrder := hs.queues.sq
  loadCount := by rw [← hi.loads, List.length_map]
  storeCount := by rw [← hi.stores, List.length_map]
  busBound := hs.capacity.bus
  busOnce := pairwise_of_sent_nodup fun k => hi.sent_nodup hs.capacity k
  busOneValue m hm n hn hkm hkn hidx := by
    obtain ⟨e, he, -⟩ := hi.results m.idx (mem_sent.mpr ⟨m, hm, hkm, rfl⟩)
    exact hi.retired n.idx (mem_sent.mpr ⟨n, hn, hkn, rfl⟩) _ he hidx

end

/-! ## Runs -/

/-- Of a run of one step and more, the first step leads to a state from which the rest runs. -/
theorem reaches_succ {n : Nat} {s u : State} (h : Reaches (n + 1) s u) : ∃ t, step s = .next t ∧ Reaches n t u := by
  simp only [Reaches, Host.Core.run] at h
  split at h
  · exact ⟨_, ‹_›, h⟩
  · cases h
  · cases h

/-- A run that reaches a running state was running all along. -/
theorem running_of_reaches {n : Nat} {s u : State} (h : Reaches n s u) (hu : u.status = .running) :
    s.status = .running := by
  cases n with
  | zero =>
    cases h
    exact hu
  | succ n =>
    obtain ⟨t, hstep, -⟩ := reaches_succ h
    obtain ⟨port, hp⟩ := step_eq_tickOutcome s
    exact (tickOutcome_eq_next (hp ▸ hstep)).1

/-- What holds at the start and is kept by every step between running states holds of every running state reached. -/
theorem reaches_induct {P : State → Prop} (hstep : ∀ s t, P s → t.status = .running → step s = .next t → P t)
    {n : Nat} {s u : State} (hs : P s) (h : Reaches n s u) (hu : u.status = .running) : P u := by
  induction n generalizing s with
  | zero =>
    cases h
    exact hs
  | succ n ih =>
    obtain ⟨t, ht, hrest⟩ := reaches_succ h
    exact ih (hstep s t hs (running_of_reaches hrest hu) ht) hrest

/-- Settles O59: both invariants hold after reset and are kept together by every step, and they imply R44. -/
theorem reachableStatesSatisfyR44 : Obligations.ReachableStatesSatisfyR44 := by
  refine ⟨fun s hs hi => r44_of_invariants hs hi, fun c m n s hc hm hin hreach hrun => ?_⟩
  have hboth : Inv s ∧ InFlightInv s := by
    refine reaches_induct (P := fun s => Inv s ∧ InFlightInv s) (fun s t h ht hst => ?_)
      ⟨resetWith_inv hc hm hin, (resetWith_nothingInFlight c m).inFlightInv⟩ hreach hrun
    exact ⟨tickTo_inv h.1 ht (.inl hst), tickTo_inFlightInv h.1 h.2 ht (.inl hst)⟩
  obtain ⟨hs, hi⟩ := hboth
  exact ⟨r44_of_invariants hs hi, hs.zero.x, hs.zero.tag⟩

end Sys2Proof.Machine
end

section
/-! SUPPORT. `MemRead` and `MemWrite` in unbounded integers (20_memory.md R73, R74). -/

namespace Sys2Proof.Machine

/-- The recursion of `readNat` is Horner's scheme for the sum over the bytes. -/
theorem Memory.readNat_eq_sum (m : Memory) (a n : Nat) :
    m.readNat a n = ∑ k ∈ Finset.range n, (m.read (a + k)).toNat * 256 ^ k := by
  induction n generalizing a with
  | zero => rfl
  | succ n ih =>
    rw [Memory.readNat, ih, Finset.sum_range_succ', Finset.mul_sum, Nat.add_comm]
    congr 1
    · refine Finset.sum_congr rfl fun k _ => ?_
      rw [show a + 1 + k = a + (k + 1) by omega, pow_succ]
      ring
    · simp

/-- The widths of an access are those whose value fits a word. -/
theorem Memory.readNat_lt_word (m : Memory) (a : Nat) {n : Nat} (hn : n ≤ 4) : m.readNat a n < 2 ^ 32 :=
  (m.readNat_lt a n).trans_le (Nat.pow_le_pow_right (by decide : 0 < 256) hn)

theorem memRead_eq_none_iff {m : Memory} {size : Nat} {a : Word} {n : Nat} :
    memRead m size a n = none ↔ ¬ a.toNat + n ≤ size := by
  simp [memRead]

theorem memWrite_eq_none_iff {m : Memory} {size : Nat} {a : Word} {n : Nat} {v : Word} :
    memWrite m size a n v = none ↔ ¬ a.toNat + n ≤ size := by
  simp [memWrite]

/-- Byte `k` of a word as a quotient and a remainder. -/
theorem toNat_byte (v : Word) (k : Nat) : ((v >>> (8 * k)).setWidth 8).toNat = v.toNat / 256 ^ k % 256 := by
  rw [BitVec.toNat_setWidth, BitVec.toNat_ushiftRight, Nat.shiftRight_eq_div_pow, Nat.pow_mul]

/-- Settles O27: the value read is the sum over the bytes, which is below `2 ^ 32` for the three widths. -/
theorem memReadIsLittleEndianSum : Obligations.MemReadIsLittleEndianSum := by
  intro m size addr n hn
  refine ⟨fun hin => ⟨_, memRead_eq_some_iff.mpr ⟨hin, rfl⟩, ?_⟩, memRead_eq_none_iff.mpr⟩
  rw [BitVec.toNat_ofNat, Nat.mod_eq_of_lt (m.readNat_lt_word _ (by omega)), Memory.readNat_eq_sum]

/-- Settles O28, byte by byte: inside the written range a byte of the value is read back, outside nothing changes. -/
theorem memWriteSetsExactlyItsBytes : Obligations.MemWriteSetsExactlyItsBytes := by
  intro m size addr n v hm _
  refine ⟨fun hin => ?_, memWrite_eq_none_iff.mpr⟩
  have hw : memWrite m size addr n v = some (m.writeBytes addr.toNat n v) := memWrite_eq_some_iff.mpr ⟨hin, rfl⟩
  refine ⟨_, hw, memWrite_wf hm hw, fun k hk => ?_, fun b hb => ?_⟩
  · rw [memWrite_read hm hw, if_pos (by omega), Nat.add_sub_cancel_left, toNat_byte]
  · have hout : ¬ (addr.toNat ≤ b ∧ b < addr.toNat + n) := fun ⟨hle, hlt⟩ => hb (b - addr.toNat) (by omega) (by omega)
    rw [memWrite_read hm hw, if_neg hout]

end Sys2Proof.Machine
end

section
/-! SUPPORT. A word placed at `pc` is decoded to the instruction it encodes, and the tick runs it
(30_encoding.md R103, R112; 20_memory.md R71). -/

namespace Sys2Proof

/-- The sentinel word has the opcode and the funct3 of ADDI, and so has no word of another row (R112). -/
theorem ne_haltWord_of_opcode {w : Word} (h : opcodeOf w ≠ 0x13#7) : w ≠ haltWord := by
  rintro rfl
  exact h (by decide)

theorem ne_haltWord_of_funct3 {w : Word} (h : funct3Of w ≠ 0#3) : w ≠ haltWord := by
  rintro rfl
  exact h (by decide)

/-- The one ADDI that is no instruction is the one the sentinel word would be (43_addsub.md R243; log 9). -/
theorem addi_ne_haltWord {rd rs1 : RegIdx} {imm : BitVec 12} (h : (Instr.addi rd rs1 imm).wellFormed = true) :
    encodeI imm rs1 0#3 rd 0x13#7 ≠ haltWord := by
  intro heq
  have hrd : rd = 10 := (rdOf_encodeI imm rs1 _ rd _).symm.trans (congrArg rdOf heq)
  have hrs : rs1 = 0 := (rs1Of_encodeI imm rs1 _ rd _).symm.trans (congrArg rs1Of heq)
  have himm : imm = 255 := (immIOf_encodeI imm rs1 _ rd _).symm.trans (congrArg immIOf heq)
  subst hrd hrs himm
  simp [Instr.wellFormed] at h

/-- What `wellFormed` asks of an offset: its bit 0, which the encoding does not carry, is zero (R104; log 27). -/
theorem bit0_of_wellFormed {n : Nat} {off : BitVec n} (h : (!off.getLsbD 0) = true) : off.getLsbD 0 = false := by
  simpa using h

/-- Decoding gives back the encoded instruction, row by row (R103, R112). -/
theorem decode_encode {i : Instr} (h : i.wellFormed = true) : decode (encode i) = .ok i := by
  cases i with
  | halt => decide
  | lui | auipc => simp [encode, decode, ne_haltWord_of_opcode, low_encodeU]
  | jal rd off =>
    simp [encode, decode, ne_haltWord_of_opcode, low_encodeJ, offJOf_encodeJ off _ _ (bit0_of_wellFormed h)]
  | jalr => simp [encode, decode, ne_haltWord_of_opcode, low_encodeI, decodeJalr]
  | beq _ _ off | bne _ _ off | blt _ _ off | bge _ _ off | bltu _ _ off | bgeu _ _ off =>
    simp [encode, decode, ne_haltWord_of_opcode, low_encodeB, decodeBranch,
      offBOf_encodeB off _ _ _ _ (bit0_of_wellFormed h)]
  | lb | lh | lw | lbu | lhu => simp [encode, decode, ne_haltWord_of_opcode, low_encodeI, decodeLoad]
  | sb | sh | sw => simp [encode, decode, ne_haltWord_of_opcode, low_encodeS, decodeStore]
  | addi => simp [encode, decode, addi_ne_haltWord h, low_encodeI, decodeImmediate]
  | slti | sltiu | xori | ori | andi => simp [encode, decode, ne_haltWord_of_funct3, low_encodeI, decodeImmediate]
  | slli | srli | srai => simp [encode, decode, ne_haltWord_of_funct3, low_encodeR, decodeImmediate]
  | add | sub | sll | slt | sltu | xor | srl | sra | or | and =>
    simp [encode, decode, ne_haltWord_of_opcode, low_encodeR, decodeRegister]

end Sys2Proof

namespace Sys2Proof.Machine

/-- A step runs the instruction the fetched word decodes to. -/
theorem step_of_fetchWord {s : State} {w : Word} {i : Instr} (hw : s.fetchWord = some w) (hd : decode w = .ok i) :
    step s = exec i s := by
  unfold step
  rw [hw]
  simp only [hd]

/-- A word has 32 bits, so a table entry of 32 bits is the word. -/
theorem State.withFetchWord_toNat (s : State) (w : Word) : s.withFetchWord 32 w.toNat = s.placeWord w := by
  unfold State.withFetchWord
  rw [Nat.mod_eq_of_lt w.isLt, BitVec.ofNat_toNat, BitVec.setWidth_eq]

theorem State.placeWord_mem {s : State} {m : Memory} {w : Word}
    (h : memWrite s.mem s.cfg.memSize s.pc 4 w = some m) : (s.placeWord w).mem = m := by
  unfold State.placeWord
  rw [h]

/-- Settles O7: the placed word is fetched and decodes to the instruction; the write sets four bytes only. -/
theorem placedInstructionIsRun : Obligations.PlacedInstructionIsRun := by
  intro s i hm hin hi
  rw [State.withFetchWord_toNat]
  refine ⟨step_of_fetchWord (State.fetchWord_placeWord hm _ hin) (decode_encode hi), fun a ha => ?_⟩
  have hw : memWrite s.mem s.cfg.memSize s.pc 4 (encode i) = some (s.mem.writeBytes s.pc.toNat 4 (encode i)) :=
    memWrite_eq_some_iff.mpr ⟨hin, rfl⟩
  have hout : ¬ (s.pc.toNat ≤ a ∧ a < s.pc.toNat + 4) := fun ⟨hle, hlt⟩ => ha (a - s.pc.toNat) (by omega) (by omega)
  rw [State.placeWord_mem hw, memWrite_read hm hw, if_neg hout]

end Sys2Proof.Machine
end

section
/-! SUPPORT. The load stage and the store stage of a completed tick (47_load_store.md R338 to R340, R344, R345). -/

namespace Sys2Proof.Machine

/-- The Execute of a completed tick, unit by unit. -/
theorem Ticks.executed {s f t : State} (h : Ticks s f t) : ∃ c l st i r, Executed f t c l st i r := by
  obtain ⟨-, -, f', port, hf, -, he⟩ := h.next.phases h.goes
  obtain rfl : f' = f := Except.ok.inj (hf.symm.trans h.flushed)
  obtain ⟨c, l, st, i, r, -, hx⟩ := execute_executed he
  exact ⟨c, l, st, i, r, hx⟩

/-! ## The load stage, an equation per case (R338 to R340) -/

/-- R338: no older store is queued. -/
theorem noOlderStore_iff {f : State} {e : LoadEntry} :
    noOlderStore f e = true ↔ ∀ u us, f.sq = u :: us → e.ts ≤ u.ts := by
  unfold noOlderStore
  cases f.sq <;> simp

theorem loadStage_starts {f : State} {e : LoadEntry} {rest : List LoadEntry} (hs : f.ldst = .idle)
    (hq : f.lq = e :: rest) (hr : e.ready = true) (ho : noOlderStore f e = true) :
    loadStage f = .ok ⟨.busy f.cfg.latLoad e, rest, []⟩ := by
  simp [loadStage, hs, hq, hr, ho]

theorem loadStage_holds {f : State} (hs : f.ldst = .idle)
    (hq : ∀ e rest, f.lq = e :: rest → (e.ready && noOlderStore f e) = false) :
    loadStage f = .ok ⟨.idle, f.lq, []⟩ := by
  unfold loadStage
  rw [hs]
  rcases hl : f.lq with _ | ⟨e, rest⟩
  · rfl
  · simp [hq e rest hl]

theorem loadStage_counts {f : State} {rem : Nat} {e : LoadEntry} (hs : f.ldst = .busy rem e) (hr : 1 < rem) :
    loadStage f = .ok ⟨.busy (rem - 1) e, f.lq, []⟩ := by
  simp [loadStage, hs, hr]

theorem loadStage_completes {f : State} {e : LoadEntry} {v : Word} (hs : f.ldst = .busy 1 e)
    (hv : loadValue f.mem f.cfg.memSize e.op e.addr = some v) :
    loadStage f = .ok ⟨.idle, f.lq, [⟨.writeBack, e.dest, v⟩]⟩ := by
  simp [loadStage, hs, hv]

/-- The completing load outside memory (20_memory.md R75). -/
theorem loadStage_outOfRange {f : State} {e : LoadEntry} (hs : f.ldst = .busy 1 e)
    (hv : loadValue f.mem f.cfg.memSize e.op e.addr = none) :
    loadStage f = .error (.memoryOutOfRange e.addr e.op.width .load f.cycle) := by
  simp [loadStage, hs, hv]

/-! ## The store stage, an equation per case (R344, R345) -/

theorem storeStage_starts {f : State} {e : StoreEntry} {rest : List StoreEntry} (hs : f.stst = .idle)
    (hq : f.sq = e :: rest) (hc : e.committed = true) :
    storeStage f = .ok ⟨.busy f.cfg.latStore, f.sq, f.mem, []⟩ := by
  simp [storeStage, hs, hq, hc]

theorem storeStage_holds {f : State} (hs : f.stst = .idle) (hq : ∀ e rest, f.sq = e :: rest → e.committed = false) :
    storeStage f = .ok ⟨.idle, f.sq, f.mem, []⟩ := by
  unfold storeStage
  rw [hs]
  rcases hl : f.sq with _ | ⟨e, rest⟩
  · rfl
  · simp [hq e rest hl]

theorem storeStage_counts {f : State} {rem : Nat} (hs : f.stst = .busy rem) (hr : 1 < rem) :
    storeStage f = .ok ⟨.busy (rem - 1), f.sq, f.mem, []⟩ := by
  simp [storeStage, hs, hr]

theorem storeStage_completes {f : State} {e : StoreEntry} {rest : List StoreEntry} {m : Memory}
    (hs : f.stst = .busy 1) (hq : f.sq = e :: rest)
    (hw : memWrite f.mem f.cfg.memSize e.addr e.op.width e.data = some m) :
    storeStage f = .ok ⟨.idle, rest, m, [⟨.storeSuccess, e.dest, 0⟩]⟩ := by
  simp [storeStage, hs, hq, hw]

/-- The completing store outside memory (20_memory.md R75). -/
theorem storeStage_outOfRange {f : State} {e : StoreEntry} {rest : List StoreEntry}
    (hs : f.stst = .busy 1) (hq : f.sq = e :: rest)
    (hw : memWrite f.mem f.cfg.memSize e.addr e.op.width e.data = none) :
    storeStage f = .error (.memoryOutOfRange e.addr e.op.width .store f.cycle) := by
  simp [storeStage, hs, hq, hw]

/-! ## The stages of a completed tick -/

section
variable {f t : State} {c : Commit} {l l' : LoadOut} {st st' : StoreOut} {i : IssueOut} {r : Option IRec}

/-- The load stage owns `LDST` and `LQ`, and its messages reach the bus (40_clock_and_bus.md R133, R149). -/
theorem Executed.load_part (h : Executed f t c l st i r) (hl : loadStage f = .ok l') :
    t.ldst = l'.ldst ∧ t.lq = l'.lq ∧ ∀ m ∈ l'.msgs, m ∈ t.bus := by
  obtain rfl : l' = l := Except.ok.inj (hl.symm.trans h.load)
  obtain rfl := h.merged
  refine ⟨rfl, rfl, fun m hm => ?_⟩
  simp [emitted, hm]

/-- The store stage owns `STST`, `SQ` and memory, and its messages reach the bus. -/
theorem Executed.store_part (h : Executed f t c l st i r) (hs : storeStage f = .ok st') :
    t.stst = st'.stst ∧ t.sq = st'.sq ∧ t.mem = st'.mem ∧ ∀ m ∈ st'.msgs, m ∈ t.bus := by
  obtain rfl : st' = st := Except.ok.inj (hs.symm.trans h.store)
  obtain rfl := h.merged
  refine ⟨rfl, rfl, rfl, fun m hm => ?_⟩
  simp [emitted, hm]

end

/-- Settles O43: each clause is one case of the load stage; a read out of range would have abandoned the tick. -/
theorem loadStageStep : Obligations.LoadStageStep := by
  intro s f t h
  obtain ⟨c, l, st, i, r, hx⟩ := h.executed
  refine ⟨fun e rest hs hq hr ho => ?_, fun hs hq => ?_, fun rem e hs hr => ?_, fun e hs => ?_⟩
  · obtain ⟨hldst, hlq, -⟩ := hx.load_part (loadStage_starts hs hq hr (noOlderStore_iff.mpr ho))
    exact ⟨hldst, hlq⟩
  · have hblocked : ∀ e rest, f.lq = e :: rest → (e.ready && noOlderStore f e) = false := fun e rest he => by
      rcases hq e rest he with hr | ⟨u, us, hu, hlt⟩
      · rw [hr, Bool.false_and]
      · rw [Bool.and_eq_false_iff, ← Bool.not_eq_true (noOlderStore f e), noOlderStore_iff]
        exact .inr fun ho => absurd (ho u us hu) (by omega)
    obtain ⟨hldst, hlq, -⟩ := hx.load_part (loadStage_holds hs hblocked)
    exact ⟨hldst, hlq⟩
  · obtain ⟨hldst, hlq, -⟩ := hx.load_part (loadStage_counts hs hr)
    exact ⟨hldst, hlq⟩
  · rcases hv : loadValue f.mem f.cfg.memSize e.op e.addr with _ | v
    · cases (loadStage_outOfRange hs hv).symm.trans hx.load
    · obtain ⟨hldst, hlq, hbus⟩ := hx.load_part (loadStage_completes hs hv)
      exact ⟨hldst, hlq, v, rfl, hbus _ List.mem_cons_self⟩

/-- Settles O44: each clause is one case of the store stage; a write out of range would have abandoned the tick. -/
theorem storeStageStep : Obligations.StoreStageStep := by
  intro s f t h
  obtain ⟨c, l, st, i, r, hx⟩ := h.executed
  refine ⟨fun e rest hs hq hc => ?_, fun hs hq => ?_, fun rem hs hr => ?_, fun e rest hs hq => ?_⟩
  · obtain ⟨hstst, hsq, hmem, -⟩ := hx.store_part (storeStage_starts hs hq hc)
    exact ⟨hstst, hsq, hmem⟩
  · obtain ⟨hstst, hsq, hmem, -⟩ := hx.store_part (storeStage_holds hs hq)
    exact ⟨hstst, hsq, hmem⟩
  · obtain ⟨hstst, hsq, hmem, -⟩ := hx.store_part (storeStage_counts hs hr)
    exact ⟨hstst, hsq, hmem⟩
  · rcases hw : memWrite f.mem f.cfg.memSize e.addr e.op.width e.data with _ | m
    · cases (storeStage_outOfRange hs hq hw).symm.trans hx.store
    · obtain ⟨hstst, hsq, hmem, hbus⟩ := hx.store_part (storeStage_completes hs hq hw)
      exact ⟨hstst, hsq, hbus _ List.mem_cons_self, by rw [hmem]⟩

end Sys2Proof.Machine
end

section
/-! SUPPORT. Ticks in which little happens: a Flush with nothing to absorb, an Execute with nothing behind the issue
latch, and what commits nothing and writes nothing leaves alone (40_clock_and_bus.md R130 to R133). -/

namespace Sys2Proof.Machine

/-! ## A tick, phase by phase -/

theorem tick_completes {port : FetchPort} {s f t : State} (hh : s.halt = false) (hf : flush s = .ok f)
    (he : execute port f = .ok t) : tick port s = t := by
  simp [tick, hh, hf, he]

theorem tick_aborts {port : FetchPort} {s f : State} {a : Abort} (hh : s.halt = false) (hf : flush s = .ok f)
    (he : execute port f = .error a) : tick port s = f.abort a := by
  simp [tick, hh, hf, he]

/-- A step whose tick does not depend on what the port delivers. -/
theorem step_of_tick {s t : State} (hs : s.status = .running) (ht : ∀ port, tick port s = t) : step s = .next t := by
  obtain ⟨port, hp⟩ := step_eq_tickOutcome s
  rw [hp, tickOutcome_of_running hs, ht]

theorem reaches_step {n : Nat} {s t u : State} (h : step s = .next t) (hr : Reaches n t u) : Reaches (n + 1) s u := by
  have hcore : Sys2Proof.core.step s = .next t := h
  simp only [Reaches, Host.Core.run, hcore]
  exact hr

/-! ## A Flush with nothing to absorb -/

@[simp] theorem wakeOperand_nil (o : Operand) : wakeOperand [] o = o := by cases o <;> rfl

@[simp] theorem wakeBank_nil {α : Type} (bank : List (Option (RSEntry α))) : wakeBank [] bank = bank := by
  have hwake : RSEntry.wake (α := α) [] = id := funext fun e => by simp [RSEntry.wake]
  simp [wakeBank, hwake]

/-- With no message and no latched instruction, a Flush recomputes the full flags and nothing else. -/
theorem flush_of_quiet {s : State} (hc : s.clear = false) (hl : s.latch = none) (hb : s.bus = []) :
    flush s = .ok (setFull s) := by
  have hs : clearLatchAndBus (wakeAll s) = s := by
    cases s
    simp only at hl hb
    subst hl hb
    simp [clearLatchAndBus, wakeAll]
  have hu : flushUnits s = .ok (clearLatchAndBus (wakeAll s)) := by
    simp [flushUnits, hb, absorbAll, insertRob, insertLsb, insertRs, hl, bind, Except.bind, pure, Except.pure]
  simp [flush, hc, hu, hs, bind, Except.bind, pure, Except.pure]

/-- A Flush without a squash leaves the frame alone. -/
theorem flush_frame {s f : State} (hc : s.clear = false) (hf : flush s = .ok f) : FlushFrame s f := by
  rcases flush_eq_ok hf with ⟨hclear, -⟩ | ⟨-, f', hu, rfl⟩
  · simp [hc] at hclear
  · obtain ⟨hframe, -, -⟩ := flushUnits_frame hu
    exact hframe.trans (by constructor <;> rfl)

/-! ## The units with nothing to do -/

theorem commit_of_empty {f : State} (h : f.rob.entries = []) : commit f = .ok (Commit.nothing f) := by
  simp [commit, h]

theorem commit_of_issue {f : State} {e : RobEntry} {rest : List RobEntry} (h : f.rob.entries = e :: rest)
    (he : e.state = .issue) : commit f = .ok (Commit.nothing f) := by
  simp [commit, h, he]

theorem commit_of_waitSt {f : State} {e : RobEntry} {rest : List RobEntry} (h : f.rob.entries = e :: rest)
    (he : e.state = .waitSt) (hs : e.isStore = true) : commit f = .ok (Commit.nothing f) := by
  simp [commit, h, he, hs]

theorem issue_of_nil {f : State} (h : f.iq = []) : issue f = .ok ⟨[], none, none⟩ := by
  simp [issue, h]

theorem fetch_of_stall {port : FetchPort} {f : State} (h : f.stall = true) : fetch port f = .ok none :=
  fetch_of_closed (by simp [fetchGate, h])

theorem takeReady_replicate {α : Type} (n : Nat) : takeReady (α := α) (List.replicate n none) = none := by
  rw [takeReady_eq_none_iff]
  intro e he
  cases List.eq_of_mem_replicate he

theorem unitStep_of_empty {α : Type} (result : α → Word → Word → Word) (lat n : Nat) :
    unitStep result lat .idle (List.replicate n none) = ⟨.idle, List.replicate n none, []⟩ := by
  simp [unitStep, takeReady_replicate]

/-- The step of a machine whose fetch is stalled, unit by unit. -/
theorem step_of_units {t f : State} {c : Commit} {l : LoadOut} {st : StoreOut} {i : IssueOut} {msgs : List Msg}
    (hs : t.status = .running) (hh : t.halt = false) (hf : flush t = .ok f) (hstall : f.stall = true)
    (hc : commit f = .ok c) (hl : loadStage f = .ok l) (hst : storeStage f = .ok st) (hi : issue f = .ok i)
    (hm : emitted f c l st = msgs) (hb : msgs.length ≤ f.cfg.busCap) :
    step t = .next (merge f c l st i none msgs) :=
  step_of_tick hs fun _ => tick_completes hh hf
    (execute_eq_ok_iff.mpr ⟨c, l, st, i, none, hc, hl, hst, hi, fetch_of_stall hstall, by rwa [hm], by rw [hm]⟩)

/-- A step whose load stage aborts, whatever the fetch port delivers. -/
theorem step_of_load_error {t f : State} {c : Commit} {a : Abort} (hs : t.status = .running) (hh : t.halt = false)
    (hf : flush t = .ok f) (hc : commit f = .ok c) (hl : loadStage f = .error a) : step t = .next (f.abort a) :=
  step_of_tick hs fun _ => tick_aborts hh hf (by simp [execute, hc, hl, bind, Except.bind])

/-- A step whose store stage aborts, whatever the fetch port delivers. -/
theorem step_of_store_error {t f : State} {c : Commit} {l : LoadOut} {a : Abort} (hs : t.status = .running)
    (hh : t.halt = false) (hf : flush t = .ok f) (hc : commit f = .ok c) (hl : loadStage f = .ok l)
    (hst : storeStage f = .error a) : step t = .next (f.abort a) :=
  step_of_tick hs fun _ => tick_aborts hh hf (by simp [execute, hc, hl, hst, bind, Except.bind])

/-! ## What a tick without a commit and without a memory write leaves alone -/

/-- `n` ticks from `s` on, the machine still runs, and no instruction has committed or written memory. -/
structure Undisturbed (s : State) (n : Nat) (t : State) : Prop where
  cfg : t.cfg = s.cfg
  x : t.x = s.x
  mem : t.mem = s.mem
  pred : t.pred = s.pred
  cycle : t.cycle = s.cycle + n
  status : t.status = .running
  clear : t.clear = false
  halt : t.halt = false

theorem Undisturbed.flush {s t f : State} {n : Nat} (h : Undisturbed s n t) (hf : flush t = .ok f) :
    Undisturbed s n f := by
  have hframe := flush_frame h.clear hf
  exact ⟨hframe.cfg.trans h.cfg, hframe.x.trans h.x, hframe.mem.trans h.mem, hframe.pred.trans h.pred,
    hframe.cycle.trans h.cycle, hframe.status.trans h.status, hframe.clear.trans h.clear, hframe.halt.trans h.halt⟩

/-- The commits that leave registers, predictor, squash and halt alone. -/
structure Commit.Quiet (f : State) (c : Commit) : Prop where
  write : c.write = none
  setClear : c.setClear = false
  setHalt : c.setHalt = false
  pred : c.pred = f.pred

theorem Commit.quiet_nothing (f : State) : (Commit.nothing f).Quiet f := ⟨rfl, rfl, rfl, rfl⟩

theorem Commit.quiet_commitStore (f : State) (e : RobEntry) : (commitStore f e).Quiet f := ⟨rfl, rfl, rfl, rfl⟩

theorem Undisturbed.merge {s f : State} {n : Nat} {c : Commit} {l : LoadOut} {st : StoreOut} {i : IssueOut}
    {r : Option IRec} {msgs : List Msg} (h : Undisturbed s n f) (hc : c.Quiet f) (hm : st.mem = f.mem) :
    Undisturbed s (n + 1) (Machine.merge f c l st i r msgs) where
  cfg := h.cfg
  x := by
    rw [merge_x, nextValues, hc.write]
    exact h.x
  mem := hm.trans h.mem
  pred := hc.pred.trans h.pred
  cycle := by
    rw [merge_cycle, h.cycle]
    rfl
  status := h.status
  clear := by simp [h.clear, hc.setClear]
  halt := by simp [h.halt, hc.setHalt]

/-- The state an abort leaves has the registers, the memory and the predictor of `s`. -/
theorem Undisturbed.abortsWith {s t1 t : State} {n : Nat} {i : Instr} {a : Abort} (he : exec i s = .next t1)
    (hr : Reaches n t1 (t.abort a)) (h : Undisturbed s n t) : AbortsWith i s n a :=
  ⟨t1, _, he, hr, rfl, State.reg_congr (t := t.abort a) h.x, h.mem, h.pred, h.cycle⟩

end Sys2Proof.Machine
end

section
/-! SUPPORT. A machine with little or nothing behind the issue latch: what its stages and banks do, and the entry of an
instruction into the drained one (41_issue_unit.md R160, R161; 42_reservation_stations.md R207; 43_addsub.md R231). -/

namespace Sys2Proof.Machine

/-! ## Stages and banks with one entry at most -/

/-- What the stages and the dispatch of a flushed state do: the add stage becomes `add` and sends `done`, the LS bank
sends `sent`, the other stages do nothing, and no station is in use afterwards. -/
structure Dispatches (f : State) (add : Stage AddOp) (done sent : List Msg) : Prop where
  add : stepAdd f = ⟨add, (Banks.empty f.cfg).add, done⟩
  cmp : stepCmp f = ⟨.idle, (Banks.empty f.cfg).cmp, []⟩
  log : stepLog f = ⟨.idle, (Banks.empty f.cfg).log, []⟩
  shf : stepShf f = ⟨.idle, (Banks.empty f.cfg).shf, []⟩
  ls : dispatchLs f = ((Banks.empty f.cfg).ls, sent)

section
variable {f : State} {add : Stage AddOp} {done sent : List Msg}

/-- Where only the ADD and LS banks and the add stage are in use, those two units decide. -/
theorem dispatches_of_parts {st : Stage AddOp} {bank : List (Option (RSEntry AddOp))}
    {ls : List (Option (RSEntry LsOp))} (hrs : f.rs = { Banks.empty f.cfg with add := bank, ls := ls })
    (hfu : f.fu = { Stages.allIdle with add := st })
    (ha : unitStep addResult f.cfg.latAdd st bank = ⟨add, (Banks.empty f.cfg).add, done⟩)
    (hl : dispatchLs f = ((Banks.empty f.cfg).ls, sent)) : Dispatches f add done sent := by
  refine ⟨?_, ?_, ?_, ?_, hl⟩
  · rw [stepAdd, hrs, hfu]
    exact ha
  all_goals
    simp only [stepCmp, stepLog, stepShf, hrs, hfu]
    exact unitStep_of_empty ..

theorem dispatchLs_of_empty (h : f.rs.ls = (Banks.empty f.cfg).ls) : dispatchLs f = ((Banks.empty f.cfg).ls, []) := by
  simp [dispatchLs, h, Banks.empty, takeReady_replicate]

theorem Dispatches.emitted (h : Dispatches f add done sent) (c : Commit) (l : LoadOut) (st : StoreOut) :
    emitted f c l st = c.msgs ++ done ++ l.msgs ++ st.msgs ++ sent := by
  simp [Machine.emitted, h.add, h.cmp, h.log, h.shf, h.ls]

theorem Dispatches.rs (h : Dispatches f add done sent) (c : Commit) (l : LoadOut) (st : StoreOut) (i : IssueOut)
    (r : Option IRec) (msgs : List Msg) : (merge f c l st i r msgs).rs = Banks.empty f.cfg := by
  rw [merge_rs, h.add, h.cmp, h.log, h.shf, h.ls]

theorem Dispatches.fu (h : Dispatches f add done sent) (c : Commit) (l : LoadOut) (st : StoreOut) (i : IssueOut)
    (r : Option IRec) (msgs : List Msg) : (merge f c l st i r msgs).fu = { Stages.allIdle with add := add } := by
  rw [merge_fu, h.add, h.cmp, h.log, h.shf]
  rfl

end

/-! ## Nothing behind the issue latch -/

/-- No station, stage, queue or reorder-buffer entry is in use and the bus is empty; the ring's head is at `h`. -/
structure BackEmpty (h : Nat) (t : State) : Prop where
  rs : t.rs = Banks.empty t.cfg
  fu : t.fu = Stages.allIdle
  lq : t.lq = []
  sq : t.sq = []
  ldst : t.ldst = .idle
  stst : t.stst = .idle
  rob : t.rob = ⟨h, []⟩
  bus : t.bus = []

section
variable {h : Nat} {f : State}

theorem BackEmpty.setFull (hb : BackEmpty h f) : BackEmpty h (setFull f) := by
  obtain ⟨hrs, hfu, hlq, hsq, hldst, hstst, hrob, hbus⟩ := hb
  exact ⟨hrs, hfu, hlq, hsq, hldst, hstst, hrob, hbus⟩

theorem bankFull_replicate {α : Type} {n : Nat} (hn : 1 ≤ n) : bankFull (List.replicate n (none : Option α)) = false :=
  bankFull_eq_false_iff.mpr (List.mem_replicate.mpr ⟨by omega, rfl⟩)

/-- Every structure has room (R137). -/
theorem BackEmpty.fullFlags (hb : BackEmpty h f) (hc : f.cfg.wf) : fullFlags f = FullFlags.none := by
  obtain ⟨-, hrob, ⟨hadd, hcmp, hlog, hshf, hls⟩, hlq, hsq, -⟩ := hc
  have hne : ∀ {n : Nat}, 1 ≤ n → (0 == n) = false := fun hn => beq_eq_false_iff_ne.mpr (by omega)
  simp [Machine.fullFlags, hb.rs, hb.rob, hb.lq, hb.sq, Banks.empty, bankFull_replicate, hadd, hcmp, hlog, hshf, hls,
    hne hrob, hne hlq, hne hsq, FullFlags.none]

/-- With nothing behind the latch only issue and fetch can do anything. -/
theorem BackEmpty.units (hb : BackEmpty h f) :
    commit f = .ok (Commit.nothing f) ∧ loadStage f = .ok ⟨.idle, [], []⟩ ∧
      storeStage f = .ok ⟨.idle, [], f.mem, []⟩ := by
  refine ⟨commit_of_empty (by rw [hb.rob]), ?_, ?_⟩
  · rw [loadStage_holds hb.ldst (by simp [hb.lq]), hb.lq]
  · rw [storeStage_holds hb.stst (by simp [hb.sq]), hb.sq]

/-- The next state where only issue and fetch do anything. -/
def frontMerged (f : State) (i : IssueOut) (r : Option IRec) : State :=
  merge f (Commit.nothing f) ⟨.idle, [], []⟩ ⟨.idle, [], f.mem, []⟩ i r []

theorem BackEmpty.dispatches (hb : BackEmpty h f) : Dispatches f .idle [] [] :=
  dispatches_of_parts hb.rs hb.fu (unitStep_of_empty ..) (dispatchLs_of_empty (by rw [hb.rs]))

theorem BackEmpty.execute {port : FetchPort} {i : IssueOut} {r : Option IRec} (hb : BackEmpty h f)
    (hi : issue f = .ok i) (hr : fetch port f = .ok r) : execute port f = .ok (frontMerged f i r) := by
  obtain ⟨hc, hl, hs⟩ := hb.units
  have he : emitted f (Commit.nothing f) ⟨.idle, [], []⟩ ⟨.idle, [], f.mem, []⟩ = [] := hb.dispatches.emitted ..
  exact execute_eq_ok_iff.mpr ⟨_, _, _, i, r, hc, hl, hs, hi, hr, by simp [he], by rw [he]; rfl⟩

theorem BackEmpty.execute_fetch_error {port : FetchPort} {i : IssueOut} {a : Abort} (hb : BackEmpty h f)
    (hi : issue f = .ok i) (hr : fetch port f = .error a) : Machine.execute port f = .error a := by
  obtain ⟨hc, hl, hs⟩ := hb.units
  simp [Machine.execute, hc, hl, hs, hi, hr, bind, Except.bind]

theorem BackEmpty.merged (hb : BackEmpty h f) (i : IssueOut) (r : Option IRec) : BackEmpty h (frontMerged f i r) where
  rs := hb.dispatches.rs ..
  fu := hb.dispatches.fu ..
  lq := rfl
  sq := rfl
  ldst := rfl
  stst := rfl
  rob := hb.rob
  bus := rfl

theorem Undisturbed.frontMerged {s : State} {n : Nat} (hu : Undisturbed s n f) (i : IssueOut) (r : Option IRec) :
    Undisturbed s (n + 1) (Machine.frontMerged f i r) :=
  hu.merge (Commit.quiet_nothing f) rfl

end

/-! ## The drained machine -/

theorem Drained.undisturbed {s : State} (hd : Drained s) : Undisturbed s 0 s :=
  ⟨rfl, rfl, rfl, rfl, rfl, hd.status, hd.clear, hd.halt⟩

theorem Drained.backEmpty {s : State} (hd : Drained s) : BackEmpty s.rob.head s where
  rs := hd.rs
  fu := hd.fu
  lq := hd.lq
  sq := hd.sq
  ldst := hd.ldst
  stst := hd.stst
  rob := by rw [← hd.rob]
  bus := hd.bus

theorem Drained.flush {s : State} (hd : Drained s) : flush s = .ok (setFull s) :=
  flush_of_quiet hd.clear hd.latch hd.bus

theorem Drained.fetchGate {s : State} (hd : Drained s) (hc : s.cfg.wf) : fetchGate (setFull s) = true := by
  obtain ⟨hiq, -⟩ := hc
  simp [Machine.fetchGate, hd.stall, hd.iq]
  omega

theorem fetch_of_open {port : FetchPort} {f : State} {i : IRec} (hg : fetchGate f = true) (hp : port f = .ok i) :
    fetch port f = .ok (some i) := by
  simp [fetch, hg, hp]

theorem fetch_error_of_open {port : FetchPort} {f : State} {a : Abort} (hg : fetchGate f = true)
    (hp : port f = .error a) : fetch port f = .error a := by
  simp [fetch, hg, hp]

/-- An instruction enters a drained machine: its record alone is in the queue. -/
theorem Drained.enter_eq {s : State} (hd : Drained s) (hc : s.cfg.wf) (record : State → IRec) :
    enter record s = .next (frontMerged (setFull s) ⟨[], none, none⟩ (some (record (setFull s)))) := by
  unfold Machine.enter
  rw [tickOutcome_of_running hd.status]
  exact congrArg _ (tick_completes hd.halt hd.flush
    (hd.backEmpty.setFull.execute (issue_of_nil hd.iq) (fetch_of_open (hd.fetchGate hc) rfl)))

/-- The fetch of a drained machine outside memory aborts in its own tick (20_memory.md R75). -/
theorem Drained.step_outOfRange {s : State} (hd : Drained s) (hc : s.cfg.wf)
    (ho : ¬ s.pc.toNat + 4 ≤ s.cfg.memSize) :
    step s = .next ((setFull s).abort (.memoryOutOfRange s.pc 4 .fetch s.cycle)) := by
  have hw : s.fetchWord = none := memRead_eq_none_iff.mpr ho
  have hstep : step s = enterOutOfRange s := by
    unfold step
    rw [hw]
  rw [hstep, enterOutOfRange, tickOutcome_of_running hd.status]
  exact congrArg _ (tick_aborts hd.halt hd.flush
    (hd.backEmpty.setFull.execute_fetch_error (issue_of_nil hd.iq) (fetch_error_of_open (hd.fetchGate hc) rfl)))

end Sys2Proof.Machine
end

section
/-! SUPPORT. A memory instruction from a drained machine, tick by tick, until its address is known; behind it the halt
sentinel, which stalls fetch (41_issue_unit.md R165, R172 to R177; 47_load_store.md R331 to R334). -/

namespace Sys2Proof.Machine

/-! ## A memory instruction enters and issues -/

theorem readSource_congr {s t : State} (hx : t.x = s.x) (ht : t.tag = s.tag) (src : Source) :
    readSource t src = readSource s src := by
  cases src with
  | val v => rfl
  | reg r => simp only [readSource, State.tagOf_congr ht, State.reg_congr hx]

/-- A record of a memory operation whose operands have values in `s`, and behind which fetch goes on. -/
structure MemoryRecord (s : State) (r : IRec) (m : LsOp) (a b : Word) : Prop where
  op : r.op = some (.ls m)
  src1 : readSource s r.src1 = .value a
  src2 : readSource s r.src2 = .value b
  next : fetchNextPc r = s.pc + 4
  stall : fetchStalls r = false

/-- The record alone is in the instruction queue. -/
structure Fetched (s : State) (r : IRec) (t : State) : Prop where
  undisturbed : Undisturbed s 1 t
  back : BackEmpty s.rob.head t
  latch : t.latch = none
  iq : t.iq = [r]
  pc : t.pc = s.pc + 4
  stall : t.stall = false
  tag : t.tag = s.tag

theorem Drained.fetched {s : State} {r : IRec} {m : LsOp} {a b : Word} (hd : Drained s)
    (hr : MemoryRecord s r m a b) : Fetched s r (frontMerged (setFull s) ⟨[], none, none⟩ (some r)) where
  undisturbed := (hd.undisturbed.flush hd.flush).frontMerged _ _
  back := hd.backEmpty.setFull.merged _ _
  latch := rfl
  iq := rfl
  pc := hr.next
  stall := by simp [frontMerged, nextStall, hr.stall, hd.stall]
  tag := rfl

/-- The entry of the instruction in the reorder buffer, as issue makes it (R177). -/
def issuedEntry (r : IRec) : RobEntry := ⟨r, .issue, r.rd, 0⟩

/-- The reservation-station entry of the instruction. -/
def memoryEntry {α : Type} (r : IRec) (m : α) (n : Nat) (a b : Word) : RSEntry α := ⟨m, n, .value a, .value b, r.imm⟩

/-- The instruction is in the latch, and the sentinel alone in the instruction queue. -/
structure Issued (s : State) (r : IRec) (m : LsOp) (a b : Word) (t : State) : Prop where
  undisturbed : Undisturbed s 2 t
  back : BackEmpty s.rob.head t
  latch : t.latch = some ⟨s.rob.head, issuedEntry r, memoryEntry r (.ls m) s.rob.head a b,
    lsbEntryOf (.ls m) s.rob.head⟩
  iq : ∃ f, t.iq = [haltRecord f]
  stall : t.stall = true

/-- The issue gate is open where every structure has room (R170). -/
theorem issueGate_of_room {f : State} (h : f.full = FullFlags.none) (op : Op) : issueGate f op = true := by
  have hbank : f.full.bank op.bank = false := by
    rw [h]
    cases op.bank <;> rfl
  unfold issueGate
  rw [hbank, h]
  rcases op with o | o | o | o | (o | o) <;> rfl

theorem issue_of_gate {f : State} {i : IRec} {rest : List IRec} {op : Op} (hq : f.iq = i :: rest)
    (ho : i.op = some op) (hg : issueGate f op = true) :
    issue f = .ok ⟨rest, some (latchOf f i op), i.rd.map fun d => (d, f.robTail)⟩ := by
  simp [issue, hq, ho, hg]

/-- The sentinel is fetched, and the instruction issues with its operands read. -/
theorem Fetched.step {s t : State} {r : IRec} {m : LsOp} {a b : Word} (he : Fetched s r t) (hd : Drained s)
    (hr : MemoryRecord s r m a b) (hc : s.cfg.wf) (hiq : 1 < s.cfg.iqCap) (hsent : SentinelAt s (s.pc + 4)) :
    ∃ u, step t = .next u ∧ Issued s r m a b u := by
  obtain ⟨hu, hback, hlatch, hq, hpc, hstall, htag⟩ := he
  have hword : t.fetchWord = some haltWord := by
    unfold State.fetchWord
    rw [hu.mem, hu.cfg, hpc]
    exact hsent
  have hflush : flush t = .ok (setFull t) := flush_of_quiet hu.clear hlatch hback.bus
  have hgate : fetchGate (setFull t) = true := by simpa [fetchGate, hstall, hq, hu.cfg] using hiq
  have hissue := issue_of_gate (f := setFull t) hq hr.op
    (issueGate_of_room (hback.fullFlags (hu.cfg ▸ hc)) _)
  have hexec := hback.setFull.execute hissue (fetch_of_open (port := fun f => .ok (haltRecord f)) hgate rfl)
  have hstep := (step_of_fetchWord hword (by decide : decode haltWord = .ok .halt)).trans
    ((tickOutcome_of_running hu.status).trans (congrArg _ (tick_completes hu.halt hflush hexec)))
  refine ⟨_, hstep, (hu.flush hflush).frontMerged _ _, hback.setFull.merged _ _, ?_, ⟨_, rfl⟩, rfl⟩
  have htail : (setFull t).robTail = s.rob.head := by
    simp [State.robTail, hback.rob, hu.cfg, Nat.mod_eq_of_lt hd.head]
  have hsrc : ∀ src, readSource (setFull t) src = readSource s src := fun src =>
    readSource_congr (s := s) (t := setFull t) hu.x htag src
  show some (latchOf (setFull t) r (.ls m)) = _
  simp [latchOf, htail, hsrc, hr.src1, hr.src2, issuedEntry, memoryEntry]

/-! ## Dispatch -/

/-- The load queue with the instruction's entry, where it is a load. -/
def queuedLoads (n : Nat) (addr : Word) (known : Bool) (ts : Nat) : LsOp → List LoadEntry
  | .load o => [⟨o, n, addr, known, ts⟩]
  | .store _ => []

/-- The store queue with the instruction's entry, where it is a store; it is not committed. -/
def queuedStores (n : Nat) (addr : Word) (known : Bool) (ts : Nat) : LsOp → List StoreEntry
  | .load _ => []
  | .store o => [⟨o, n, addr, known, ts, false, 0⟩]

/-- A bank with a slot has its first one free when it is empty. -/
theorem replicate_of_pos {α : Type} {n : Nat} (hn : 1 ≤ n) (x : α) :
    List.replicate n x = x :: List.replicate (n - 1) x := by
  rw [← List.replicate_succ, Nat.sub_add_cancel hn]

theorem memoryEntry_isReady {α : Type} (r : IRec) (m : α) (n : Nat) (a b : Word) :
    (memoryEntry r m n a b).isReady := ⟨⟨a, rfl⟩, b, rfl⟩

/-- A ready entry is left alone by the bus and by the lookup ports (R205, R206). -/
theorem RSEntry.wake_of_isReady {α : Type} {e : RSEntry α} (h : e.isReady) (bus : List Msg) : e.wake bus = e := by
  obtain ⟨⟨a, hj⟩, b, hk⟩ := h
  cases e
  simp_all [RSEntry.wake, wakeOperand]

theorem RSEntry.port_of_isReady {α : Type} {e : RSEntry α} (h : e.isReady) (s : State) : e.port s = e := by
  obtain ⟨⟨a, hj⟩, b, hk⟩ := h
  cases e
  simp_all [RSEntry.port, portOperand]

theorem arriving_of_isReady {e : RSEntry Op} (h : e.isReady) (s : State) : arriving s e = e := by
  rw [arriving, RSEntry.wake_of_isReady h, RSEntry.port_of_isReady h]

theorem wakeBank_replicate {α : Type} (bus : List Msg) (n : Nat) :
    wakeBank (α := α) bus (List.replicate n none) = List.replicate n none := by
  simp [wakeBank]

theorem wakeBank_of_isReady {α : Type} {e : RSEntry α} (h : e.isReady) (bus : List Msg) (n : Nat) :
    wakeBank bus (some e :: List.replicate n none) = some e :: List.replicate n none := by
  simp [wakeBank, RSEntry.wake_of_isReady h]

/-- A Flush without a squash, put together from its steps (40_clock_and_bus.md R131). -/
theorem flush_of_steps {s s₁ s₂ s₃ s₄ s₅ s₆ s₇ : State} {ms : List Msg} (hc : s.clear = false) (hb : s.bus = ms)
    (h₁ : absorbAll onWriteBack s ms = .ok s₁) (h₂ : absorbAll onStoreSuccess s₁ ms = .ok s₂)
    (h₃ : insertRob s₂ = .ok s₃) (h₄ : insertLsb s₃ = .ok s₄) (h₅ : absorbAll onGetAddr s₄ ms = .ok s₅)
    (h₆ : absorbAll onCommitMem s₅ ms = .ok s₆) (h₇ : insertRs s₆ = .ok s₇) :
    flush s = .ok (setFull (clearLatchAndBus (wakeAll s₇))) := by
  subst hb
  simp [flush, flushUnits, hc, h₁, h₂, h₃, h₄, h₅, h₆, h₇, bind, Except.bind, pure, Except.pure]

theorem insertRob_of_room {s : State} {l : Latch} {n : Nat} {es : List RobEntry} (hl : s.latch = some l)
    (hr : s.rob = ⟨n, es⟩) (hc : es.length < s.cfg.robCap) :
    insertRob s = .ok { s with rob := ⟨n, es ++ [l.robEntry]⟩ } := by
  simp [insertRob, hl, hr, hc]

theorem insertLsb_of_memory {s : State} {l : Latch} {m : LsOp} {n : Nat} (hl : s.latch = some l)
    (he : l.lsbEntry = lsbEntryOf (.ls m) n) (hlq : s.lq = []) (hsq : s.sq = []) (hc : s.cfg.wf) :
    insertLsb s = .ok { s with lq := queuedLoads n 0 false s.cycle m, sq := queuedStores n 0 false s.cycle m } := by
  obtain ⟨-, -, -, hlcap, hscap, -⟩ := hc
  cases m with
  | load o =>
    have hroom : 0 < s.cfg.lqCap := hlcap
    simp [insertLsb, hl, he, lsbEntryOf, hlq, queuedLoads, queuedStores, ← hsq, hroom]
  | store o =>
    have hroom : 0 < s.cfg.sqCap := hscap
    simp [insertLsb, hl, he, lsbEntryOf, hsq, queuedLoads, queuedStores, ← hlq, hroom]

theorem insertRs_of_memory {s : State} {l : Latch} {r : IRec} {m : LsOp} {n : Nat} {a b : Word} (hl : s.latch = some l)
    (he : l.rsEntry = memoryEntry r (.ls m) n a b) (hrs : s.rs = Banks.empty s.cfg) (hc : s.cfg.wf) :
    insertRs s = .ok { s with rs := { s.rs with
      ls := some (memoryEntry r m n a b) :: List.replicate (s.cfg.rsCapLs - 1) none } } := by
  obtain ⟨-, -, ⟨-, -, -, -, hls⟩, -⟩ := hc
  simp only [insertRs, hl, he, arriving_of_isReady (memoryEntry_isReady r _ n a b), hrs, Banks.empty,
    replicate_of_pos hls]
  rfl

/-- The flushed state in which the instruction has joined the structures. -/
def inserted (s : State) (r : IRec) (m : LsOp) (a b : Word) (t : State) : State :=
  setFull { t with
    rob := ⟨s.rob.head, [issuedEntry r]⟩
    lq := queuedLoads s.rob.head 0 false (s.cycle + 2) m
    sq := queuedStores s.rob.head 0 false (s.cycle + 2) m
    rs := { t.rs with ls := some (memoryEntry r m s.rob.head a b) :: List.replicate (t.cfg.rsCapLs - 1) none }
    latch := none
    bus := [] }

theorem Issued.flush {s t : State} {r : IRec} {m : LsOp} {a b : Word} (hi : Issued s r m a b t) (hc : s.cfg.wf) :
    flush t = .ok (inserted s r m a b t) := by
  obtain ⟨hu, hback, hlatch, -, -⟩ := hi
  have hct : t.cfg.wf := hu.cfg ▸ hc
  obtain ⟨-, hrob, -⟩ := id hct
  have hf := flush_of_steps hu.clear hback.bus rfl rfl (insertRob_of_room hlatch hback.rob hrob)
    (insertLsb_of_memory hlatch rfl hback.lq hback.sq hct) rfl rfl (insertRs_of_memory hlatch rfl hback.rs hct)
  rw [hf, inserted, ← hu.cycle]
  simp [clearLatchAndBus, wakeAll, hback.bus]

/-! ## The instruction is dispatched, the sentinel issues -/

/-- The ring index behind the instruction's, which the sentinel gets. -/
def nextIndex (s : State) : Nat := (s.rob.head + 1) % s.cfg.robCap

/-- The reservation-station entry of the sentinel. -/
def sentinelEntry {α : Type} (o : α) (n : Nat) : RSEntry α := ⟨o, n, .value 0, .value 255, 255⟩

theorem sentinelEntry_isReady {α : Type} (o : α) (n : Nat) : (sentinelEntry o n).isReady := ⟨⟨0, rfl⟩, 255, rfl⟩

/-- The instruction has announced its address, and the sentinel is in the latch. -/
structure Dispatched (s : State) (r : IRec) (m : LsOp) (a b : Word) (t : State) : Prop where
  undisturbed : Undisturbed s 3 t
  rob : t.rob = ⟨s.rob.head, [issuedEntry r]⟩
  rs : t.rs = Banks.empty t.cfg
  fu : t.fu = Stages.allIdle
  lq : t.lq = queuedLoads s.rob.head 0 false (s.cycle + 2) m
  sq : t.sq = queuedStores s.rob.head 0 false (s.cycle + 2) m
  ldst : t.ldst = .idle
  stst : t.stst = .idle
  bus : t.bus = dispatchMsgs ⟨m, s.rob.head, a, b, r.imm⟩
  latch : ∃ e, t.latch = some ⟨nextIndex s, e, sentinelEntry (.add .add) (nextIndex s), none⟩
  iq : t.iq = []
  stall : t.stall = true

theorem takeReady_memoryEntry (r : IRec) (m : LsOp) (n : Nat) (a b : Word) (rest : List (Option (RSEntry LsOp))) :
    takeReady (some (memoryEntry r m n a b) :: rest) = some (⟨m, n, a, b, r.imm⟩, none :: rest) := rfl

theorem dispatches_of_memory {f : State} {r : IRec} {m : LsOp} {n : Nat} {a b : Word} (hc : f.cfg.wf)
    (hrs : f.rs = { Banks.empty f.cfg with
      ls := some (memoryEntry r m n a b) :: List.replicate (f.cfg.rsCapLs - 1) none })
    (hfu : f.fu = Stages.allIdle) : Dispatches f .idle [] (dispatchMsgs ⟨m, n, a, b, r.imm⟩) := by
  obtain ⟨-, -, ⟨-, -, -, -, hls⟩, -⟩ := hc
  refine dispatches_of_parts hrs hfu (unitStep_of_empty ..) ?_
  simp [dispatchLs, hrs, Banks.empty, takeReady_memoryEntry, ← replicate_of_pos hls]

theorem blocked_of_queued {f : State} {n ts : Nat} {addr : Word} {m : LsOp}
    (hlq : f.lq = queuedLoads n addr false ts m) :
    ∀ e rest, f.lq = e :: rest → (e.ready && noOlderStore f e) = false := by
  intro e rest he
  rw [hlq] at he
  cases m with
  | load o =>
    obtain ⟨rfl, -⟩ := List.cons.inj he
    rfl
  | store o => cases he

theorem uncommitted_of_queued {f : State} {n ts : Nat} {addr : Word} {known : Bool} {m : LsOp}
    (hsq : f.sq = queuedStores n addr known ts m) : ∀ e rest, f.sq = e :: rest → e.committed = false := by
  intro e rest he
  rw [hsq] at he
  cases m with
  | load o => cases he
  | store o =>
    obtain ⟨rfl, -⟩ := List.cons.inj he
    rfl

theorem dispatchMsgs_length (r : Ready LsOp) : (dispatchMsgs r).length ≤ 2 := by
  rcases dispatchMsgs_cases r with ⟨o, -, h⟩ | ⟨o, -, h⟩ <;> simp [h]

/-- The instruction joins the structures and is dispatched in one tick; the sentinel issues. -/
theorem Issued.step {s t : State} {r : IRec} {m : LsOp} {a b : Word} (hi : Issued s r m a b t) (hc : s.cfg.wf)
    (hcap : 1 < s.cfg.robCap) : ∃ u, step t = .next u ∧ Dispatched s r m a b u := by
  have hflush := hi.flush hc
  obtain ⟨hu, hback, -, ⟨f₀, hq⟩, hstall⟩ := hi
  rw [← hu.cfg] at hc
  have hdisp : Dispatches (inserted s r m a b t) .idle [] (dispatchMsgs ⟨m, s.rob.head, a, b, r.imm⟩) :=
    dispatches_of_memory hc (by simp [inserted, hback.rs]) hback.fu
  obtain ⟨-, -, ⟨haddCap, -⟩, -, -, hbus, -⟩ := hc
  have hgate : issueGate (inserted s r m a b t) (.add .add) = true := by
    have hne : (1 == t.cfg.robCap) = false := beq_eq_false_iff_ne.mpr (by rw [hu.cfg]; omega)
    simp [issueGate, inserted, fullFlags, FullFlags.bank, Op.bank, hback.rs, Banks.empty, bankFull_replicate haddCap,
      hne]
  have hstep := step_of_units hu.status hu.halt hflush hstall (commit_of_issue rfl rfl)
    (loadStage_holds (f := inserted s r m a b t) hback.ldst (blocked_of_queued rfl))
    (storeStage_holds (f := inserted s r m a b t) hback.stst (uncommitted_of_queued rfl))
    (issue_of_gate (f := inserted s r m a b t) hq rfl hgate)
    (hdisp.emitted ..) ((dispatchMsgs_length _).trans (by show 2 ≤ t.cfg.busCap; omega))
  refine ⟨_, hstep, (hu.flush hflush).merge (Commit.quiet_nothing _) rfl, rfl, hdisp.rs .., hdisp.fu .., rfl, rfl, rfl,
    rfl, rfl, ⟨issuedEntry (haltRecord f₀), ?_⟩, rfl, ?_⟩
  · have htail : (inserted s r m a b t).robTail = nextIndex s := by
      simp [State.robTail, inserted, nextIndex, hu.cfg]
    show some (latchOf (inserted s r m a b t) (haltRecord f₀) (.add .add)) = _
    rw [latchOf, htail]
    rfl
  · show ((inserted s r m a b t).stall && true) = true
    simp [inserted, hstall]

/-! ## The address is known, the sentinel joins the structures -/

/-- The instruction's entry in the reorder buffer after its announcements: a store's holds its data (R331, R383). -/
def announcedEntry (r : IRec) (b : Word) : LsOp → RobEntry
  | .load _ => issuedEntry r
  | .store _ => { issuedEntry r with state := .write, value := b }

section
variable {t : State} {r : IRec} {m : LsOp} {n ts : Nat} {a b imm : Word}

theorem absorb_dispatched_writeBack (hr : t.rob = ⟨n, [issuedEntry r]⟩) (hn : n < t.cfg.robCap) :
    absorbAll onWriteBack t (dispatchMsgs ⟨m, n, a, b, imm⟩) =
      .ok { t with rob := ⟨n, [announcedEntry r b m]⟩ } := by
  cases m with
  | load o =>
    rw [announcedEntry, ← hr]
    rfl
  | store o =>
    obtain rfl : t.rob.head = n := by rw [hr]
    have hat : t.robAt t.rob.head = some (issuedEntry r) := State.robAt_head (by rw [hr]) hn
    have ho : t.robOffset t.rob.head = 0 := by simp [State.robOffset_eq t hn hn]
    have hmod : t.rob.entries.modify 0 (fun e => { e with state := .write, value := b }) =
        [announcedEntry r b (.store o)] := by
      rw [hr]
      rfl
    simp [absorbAll, dispatchMsgs, onWriteBack, hat, State.robModify, ho, hmod]

theorem absorb_dispatched_getAddr (hlq : t.lq = queuedLoads n 0 false ts m) (hsq : t.sq = queuedStores n 0 false ts m) :
    absorbAll onGetAddr t (dispatchMsgs ⟨m, n, a, b, imm⟩) =
      .ok { t with
        lq := queuedLoads n (effectiveAddress ⟨m, n, a, b, imm⟩) true ts m
        sq := queuedStores n (effectiveAddress ⟨m, n, a, b, imm⟩) true ts m } := by
  cases m <;>
    simp [absorbAll, dispatchMsgs, onGetAddr, lsbMatches, hlq, hsq, queuedLoads, queuedStores, LoadEntry.resolve,
      StoreEntry.resolve]

theorem absorb_dispatched_storeSuccess (t : State) (q : Ready LsOp) :
    absorbAll onStoreSuccess t (dispatchMsgs q) = .ok t := by
  rcases dispatchMsgs_cases q with ⟨o, -, h⟩ | ⟨o, -, h⟩ <;> rw [h] <;> rfl

theorem absorb_dispatched_commitMem (t : State) (q : Ready LsOp) :
    absorbAll onCommitMem t (dispatchMsgs q) = .ok t := by
  rcases dispatchMsgs_cases q with ⟨o, -, h⟩ | ⟨o, -, h⟩ <;> rw [h] <;> rfl

end

theorem insertLsb_of_none {s : State} {l : Latch} (hl : s.latch = some l) (he : l.lsbEntry = none) :
    insertLsb s = .ok s := by
  simp [insertLsb, hl, he]

theorem insertRs_of_sentinel {s : State} {l : Latch} {n : Nat} (hl : s.latch = some l)
    (he : l.rsEntry = sentinelEntry (.add .add) n) (hrs : s.rs = Banks.empty s.cfg) (hc : s.cfg.wf) :
    insertRs s = .ok { s with rs := { s.rs with
      add := some (sentinelEntry .add n) :: List.replicate (s.cfg.rsCapAdd - 1) none } } := by
  obtain ⟨-, -, ⟨hadd, -⟩, -⟩ := hc
  simp only [insertRs, hl, he, arriving_of_isReady (sentinelEntry_isReady _ n), hrs, Banks.empty, replicate_of_pos hadd]
  rfl

/-- The flushed state in which the instruction's address is known and the sentinel, whose entry is `e`, has joined. -/
def announced (s : State) (r : IRec) (m : LsOp) (a b : Word) (e : RobEntry) (t : State) : State :=
  setFull { t with
    rob := ⟨s.rob.head, [announcedEntry r b m, e]⟩
    lq := queuedLoads s.rob.head (effectiveAddress ⟨m, s.rob.head, a, b, r.imm⟩) true (s.cycle + 2) m
    sq := queuedStores s.rob.head (effectiveAddress ⟨m, s.rob.head, a, b, r.imm⟩) true (s.cycle + 2) m
    rs := { t.rs with
      add := some (sentinelEntry .add (nextIndex s)) :: List.replicate (t.cfg.rsCapAdd - 1) none }
    latch := none
    bus := [] }

theorem Dispatched.flush {s t : State} {r : IRec} {m : LsOp} {a b : Word} (hi : Dispatched s r m a b t)
    (hd : s.rob.head < s.cfg.robCap) (hc : s.cfg.wf) (hcap : 1 < s.cfg.robCap) :
    ∃ e, flush t = .ok (announced s r m a b e t) := by
  obtain ⟨hu, hrob, hrs, hfu, hlq, hsq, hldst, hstst, hbus, ⟨e, hlatch⟩, hiq, hstall⟩ := hi
  rw [← hu.cfg] at hc hcap hd
  have hwrite := absorb_dispatched_writeBack (m := m) (a := a) (b := b) (imm := r.imm) hrob hd
  have hrob' := insertRob_of_room (s := { t with rob := ⟨s.rob.head, [announcedEntry r b m]⟩ }) hlatch rfl hcap
  have hlsb := insertLsb_of_none (s := { t with rob := ⟨s.rob.head, [announcedEntry r b m, e]⟩ }) hlatch rfl
  have haddr := absorb_dispatched_getAddr (t := { t with rob := ⟨s.rob.head, [announcedEntry r b m, e]⟩ })
    (a := a) (b := b) (imm := r.imm) hlq hsq
  have hf := flush_of_steps hu.clear hbus hwrite (absorb_dispatched_storeSuccess _ _) hrob' hlsb haddr
    (absorb_dispatched_commitMem _ _) (insertRs_of_sentinel hlatch rfl hrs hc)
  refine ⟨e, hf.trans ?_⟩
  simp [announced, clearLatchAndBus, wakeAll, hrs, Banks.empty, wakeBank_of_isReady (sentinelEntry_isReady _ _),
    wakeBank_replicate]

theorem dispatches_of_sentinel {f : State} {n : Nat} (hc : f.cfg.wf)
    (hrs : f.rs = { Banks.empty f.cfg with
      add := some (sentinelEntry .add n) :: List.replicate (f.cfg.rsCapAdd - 1) none })
    (hfu : f.fu = Stages.allIdle) : Dispatches f (.busy f.cfg.latAdd .add 0 255 n) [] [] := by
  obtain ⟨-, -, ⟨hadd, -⟩, -⟩ := hc
  have htake : ∀ rest, takeReady (some (sentinelEntry AddOp.add n) :: rest) =
      some (⟨.add, n, 0, 255, 255⟩, none :: rest) := fun _ => rfl
  refine dispatches_of_parts hrs hfu ?_ (dispatchLs_of_empty (by rw [hrs]))
  simp [unitStep, htake, Banks.empty, ← replicate_of_pos hadd]

theorem dispatches_of_result {f : State} {n : Nat} (hrs : f.rs = Banks.empty f.cfg)
    (hfu : f.fu = { Stages.allIdle with add := .busy 1 .add 0 255 n }) :
    Dispatches f .idle [⟨.writeBack, n, 255⟩] [] :=
  dispatches_of_parts hrs hfu (by simp [unitStep, addResult, Banks.empty]) (dispatchLs_of_empty (by rw [hrs]))

end Sys2Proof.Machine
end

section
/-! SUPPORT. The last ticks of a load and of a store whose address is outside memory: the access aborts in the tick in
which its stage completes (20_memory.md R75; 47_load_store.md R338 to R345; 60_exceptions.md R424). -/

namespace Sys2Proof.Machine

/-! ## A load is performed -/

/-- The load stage holds the instruction for one more tick, and the bus is empty. -/
structure LoadPerforming (s : State) (r : IRec) (o : LoadOp) (ea : Word) (t : State) : Prop where
  undisturbed : Undisturbed s 4 t
  rob : ∃ rest, t.rob.entries = issuedEntry r :: rest
  ldst : ∃ ts, t.ldst = .busy 1 ⟨o, s.rob.head, ea, true, ts⟩
  latch : t.latch = none
  bus : t.bus = []

/-- A load whose address is known starts: no older store is queued. -/
theorem Dispatched.step_load {s t : State} {r : IRec} {o : LoadOp} {a b : Word}
    (hi : Dispatched s r (.load o) a b t) (hd : s.rob.head < s.cfg.robCap) (hc : s.cfg.wf) (hcap : 1 < s.cfg.robCap)
    (hlat : s.cfg.latLoad = 1) : ∃ u, step t = .next u ∧ LoadPerforming s r o (a + b) u := by
  obtain ⟨e, hflush⟩ := hi.flush hd hc hcap
  obtain ⟨hu, hrob, hrs, hfu, hlq, hsq, hldst, hstst, hbus, hlatch, hiq, hstall⟩ := hi
  rw [← hu.cfg] at hc hlat
  have hdisp : Dispatches (announced s r (.load o) a b e t) (.busy t.cfg.latAdd .add 0 255 (nextIndex s)) [] [] :=
    dispatches_of_sentinel hc (by simp [announced, hrs]) hfu
  have hstep := step_of_units hu.status hu.halt hflush hstall (commit_of_issue rfl rfl)
    (loadStage_starts (f := announced s r (.load o) a b e t) hldst rfl rfl rfl)
    (storeStage_holds (f := announced s r (.load o) a b e t) hstst fun _ _ h => nomatch h)
    (issue_of_nil hiq) (hdisp.emitted ..) (Nat.zero_le _)
  refine ⟨_, hstep, (hu.flush hflush).merge (Commit.quiet_nothing _) rfl, ⟨_, rfl⟩, ⟨s.cycle + 2, ?_⟩, rfl, rfl⟩
  show LoadStage.busy t.cfg.latLoad _ = _
  rw [hlat]
  rfl

/-- A load outside memory aborts when the read is performed (20_memory.md R75). -/
theorem LoadPerforming.step {s t : State} {r : IRec} {o : LoadOp} {ea : Word} (hi : LoadPerforming s r o ea t)
    (ho : ¬ ea.toNat + o.width ≤ s.cfg.memSize) :
    ∃ f, Undisturbed s 4 f ∧ step t = .next (f.abort (.memoryOutOfRange ea o.width .load (s.cycle + 4))) := by
  obtain ⟨hu, ⟨rest, hrob⟩, ⟨ts, hldst⟩, hlatch, hbus⟩ := hi
  have hflush := flush_of_quiet hu.clear hlatch hbus
  have hv : loadValue t.mem t.cfg.memSize o ea = none := by
    rw [loadValue, memRead_eq_none_iff.mpr (hu.cfg ▸ ho)]
    rfl
  have hstep := step_of_load_error hu.status hu.halt hflush (commit_of_issue (f := setFull t) hrob rfl)
    (loadStage_outOfRange (f := setFull t) hldst hv)
  rw [setFull_cycle, hu.cycle] at hstep
  exact ⟨setFull t, hu.flush hflush, hstep⟩

/-! ## A store is released and performed -/

/-- The store's entry in the reorder buffer after its first commit (48_reorder_commit.md R390). -/
def waitingEntry (r : IRec) (b : Word) : RobEntry := { issuedEntry r with state := .waitSt, value := b }

theorem waitingEntry_isStore {r : IRec} {o : StoreOp} (h : r.op = some (.ls (.store o))) (b : Word) :
    (waitingEntry r b).isStore = true := by
  simp [RobEntry.isStore, waitingEntry, issuedEntry, h]

/-- The commit of a store at the head, which holds its data. -/
theorem commit_of_store {f : State} {r : IRec} {o : StoreOp} {n : Nat} {b : Word} {e : RobEntry}
    (hr : f.rob = ⟨n, [announcedEntry r b (.store o), e]⟩) (ho : r.op = some (.ls (.store o)))
    (hh : r.isHalt = false) : commit f = .ok (commitStore f (announcedEntry r b (.store o))) := by
  simp [commit, commitHead, hr, announcedEntry, issuedEntry, ho, hh]

/-- The store's data is on its way to the store queue, and the sentinel in the add stage. -/
structure StoreCommitted (s : State) (r : IRec) (o : StoreOp) (ea b : Word) (t : State) : Prop where
  undisturbed : Undisturbed s 4 t
  rob : ∃ e, t.rob = ⟨s.rob.head, [waitingEntry r b, e]⟩
  rs : t.rs = Banks.empty t.cfg
  fu : t.fu = { Stages.allIdle with add := .busy 1 .add 0 255 (nextIndex s) }
  lq : t.lq = []
  sq : ∃ ts, t.sq = [⟨o, s.rob.head, ea, true, ts, false, 0⟩]
  ldst : t.ldst = .idle
  stst : t.stst = .idle
  bus : t.bus = [⟨.commitMem, s.rob.head, b⟩]
  latch : t.latch = none
  iq : t.iq = []
  stall : t.stall = true

/-- A store whose address and data are known commits, which releases its data to the store queue. -/
theorem Dispatched.step_store {s t : State} {r : IRec} {o : StoreOp} {a b : Word}
    (hi : Dispatched s r (.store o) a b t) (ho : r.op = some (.ls (.store o))) (hh : r.isHalt = false)
    (hd : s.rob.head < s.cfg.robCap) (hc : s.cfg.wf) (hcap : 1 < s.cfg.robCap) (hlat : s.cfg.latAdd = 1) :
    ∃ u, step t = .next u ∧ StoreCommitted s r o (a + r.imm) b u := by
  obtain ⟨e, hflush⟩ := hi.flush hd hc hcap
  obtain ⟨hu, hrob, hrs, hfu, hlq, hsq, hldst, hstst, hbus, hlatch, hiq, hstall⟩ := hi
  rw [← hu.cfg] at hc hlat
  have hdisp : Dispatches (announced s r (.store o) a b e t) (.busy t.cfg.latAdd .add 0 255 (nextIndex s)) [] [] :=
    dispatches_of_sentinel hc (by simp [announced, hrs]) hfu
  obtain ⟨-, -, -, -, -, hbusCap, -⟩ := hc
  have hstep := step_of_units hu.status hu.halt hflush hstall (commit_of_store rfl ho hh)
    (loadStage_holds (f := announced s r (.store o) a b e t) hldst fun _ _ h => nomatch h)
    (storeStage_holds (f := announced s r (.store o) a b e t) hstst fun _ _ h => (List.cons.inj h).1 ▸ rfl)
    (issue_of_nil hiq) (hdisp.emitted ..) (by show 1 ≤ t.cfg.busCap; omega)
  refine ⟨_, hstep, (hu.flush hflush).merge (Commit.quiet_commitStore _ _) rfl, ⟨e, rfl⟩, hdisp.rs .., ?_, rfl,
    ⟨s.cycle + 2, rfl⟩, rfl, rfl, rfl, rfl, rfl, ?_⟩
  · rw [hdisp.fu, hlat]
  · show ((announced s r (.store o) a b e t).stall && true) = true
    simp [announced, hstall]

/-- The store stage works on the committed head, and the sentinel's result is on the bus. -/
structure StorePerforming (s : State) (r : IRec) (o : StoreOp) (ea b : Word) (t : State) : Prop where
  undisturbed : Undisturbed s 5 t
  rob : ∃ e, t.rob = ⟨s.rob.head, [waitingEntry r b, e]⟩
  lq : t.lq = []
  sq : ∃ ts, t.sq = [⟨o, s.rob.head, ea, true, ts, true, b⟩]
  ldst : t.ldst = .idle
  stst : t.stst = .busy 1
  bus : ∃ v, t.bus = [⟨.writeBack, nextIndex s, v⟩]
  latch : t.latch = none

/-- The insertions of a Flush with an empty latch. -/
theorem inserts_of_none {s : State} (h : s.latch = none) :
    insertRob s = .ok s ∧ insertLsb s = .ok s ∧ insertRs s = .ok s := by
  simp [insertRob, insertLsb, insertRs, h]

/-- A Flush with an empty latch and a CommitMem for the head of the store queue (47_load_store.md R335). -/
theorem flush_of_commitMem {t : State} {e : StoreEntry} {v : Word} (hc : t.clear = false) (hl : t.latch = none)
    (hb : t.bus = [⟨.commitMem, e.dest, v⟩]) (hq : t.sq = [e]) (hr : e.ready = true) :
    flush t = .ok (setFull (clearLatchAndBus (wakeAll
      { t with sq := [{ e with committed := true, data := v }] }))) := by
  obtain ⟨hrob, hlsb, -⟩ := inserts_of_none hl
  obtain ⟨-, -, hrs⟩ := inserts_of_none (s := { t with sq := [{ e with committed := true, data := v }] }) hl
  exact flush_of_steps hc hb rfl rfl hrob hlsb rfl (by simp [absorbAll, onCommitMem, hq, hr]) hrs

/-- A Flush with an empty latch and a WriteBack for a live entry (48_reorder_commit.md R383). -/
theorem flush_of_writeBack {t : State} {e : RobEntry} {i : Nat} {v : Word} (hc : t.clear = false) (hl : t.latch = none)
    (hb : t.bus = [⟨.writeBack, i, v⟩]) (he : t.robAt i = some e) :
    flush t = .ok (setFull (clearLatchAndBus (wakeAll
      (t.robModify i fun e => { e with state := .write, value := v })))) := by
  obtain ⟨hrob, hlsb, hrs⟩ := inserts_of_none
    (s := t.robModify i fun e => { e with state := .write, value := v }) hl
  exact flush_of_steps hc hb (by simp [absorbAll, onWriteBack, he]) rfl hrob hlsb rfl rfl hrs

/-- The released store starts, and the sentinel's addition completes. -/
theorem StoreCommitted.step {s t : State} {r : IRec} {o : StoreOp} {ea b : Word} (hi : StoreCommitted s r o ea b t)
    (ho : r.op = some (.ls (.store o))) (hc : s.cfg.wf) (hlat : s.cfg.latStore = 1) :
    ∃ u, step t = .next u ∧ StorePerforming s r o ea b u := by
  obtain ⟨hu, ⟨e, hrob⟩, hrs, hfu, hlq, ⟨ts, hsq⟩, hldst, hstst, hbus, hlatch, hiq, hstall⟩ := hi
  have hflush := flush_of_commitMem hu.clear hlatch hbus hsq rfl
  generalize hf : setFull _ = f at hflush
  have hfs := hu.flush hflush
  have hframe := flush_frame hu.clear hflush
  obtain ⟨-, -, -, -, -, hbusCap, -⟩ := hc
  have hfrob : f.rob = ⟨s.rob.head, [waitingEntry r b, e]⟩ := by simp [← hf, hrob]
  have hfrs : f.rs = Banks.empty f.cfg := by simp [← hf, hrs, Banks.empty, wakeBank_replicate]
  have hflq : f.lq = [] := by simp [← hf, hlq]
  have hfsq : f.sq = [⟨o, s.rob.head, ea, true, ts, true, b⟩] := by simp [← hf]
  have hdisp := dispatches_of_result hfrs (hframe.fu.trans hfu)
  have hstep := step_of_units hu.status hu.halt hflush (hframe.stall.trans hstall)
    (commit_of_waitSt (congrArg Rob.entries hfrob) rfl (waitingEntry_isStore ho b))
    (loadStage_holds (hframe.ldst.trans hldst) fun _ _ h => by simp [hflq] at h)
    (storeStage_starts (hframe.stst.trans hstst) hfsq rfl) (issue_of_nil (hframe.iq.trans hiq))
    (hdisp.emitted ..) (by rw [hfs.cfg]; show 1 ≤ s.cfg.busCap; omega)
  refine ⟨_, hstep, hfs.merge (Commit.quiet_nothing _) rfl, ⟨e, hfrob⟩, hflq, ⟨ts, hfsq⟩, rfl, ?_, ⟨_, rfl⟩, rfl⟩
  rw [merge_stst, hfs.cfg, hlat]

/-- The sentinel's index is live, one behind the head. -/
theorem robOffset_nextIndex {s t : State} (hd : s.rob.head < s.cfg.robCap) (hcap : 1 < s.cfg.robCap)
    (hc : t.cfg = s.cfg) (hr : t.rob.head = s.rob.head) :
    nextIndex s < t.cfg.robCap ∧ t.robOffset (nextIndex s) = 1 := by
  have hlt : nextIndex s < t.cfg.robCap := hc ▸ Nat.mod_lt _ (by omega)
  refine ⟨hlt, ?_⟩
  rw [State.robOffset_eq t hlt (by rw [hr, hc]; exact hd), hr, hc, nextIndex]
  rcases Nat.lt_or_ge (s.rob.head + 1) s.cfg.robCap with h | h
  · rw [Nat.mod_eq_of_lt h]
    split <;> omega
  · rw [show s.rob.head + 1 = s.cfg.robCap by omega, Nat.mod_self]
    split <;> omega

/-- A store outside memory aborts when the write is performed (20_memory.md R75). -/
theorem StorePerforming.step {s t : State} {r : IRec} {o : StoreOp} {ea b : Word} (hi : StorePerforming s r o ea b t)
    (hop : r.op = some (.ls (.store o))) (hd : s.rob.head < s.cfg.robCap) (hcap : 1 < s.cfg.robCap)
    (ho : ¬ ea.toNat + o.width ≤ s.cfg.memSize) :
    ∃ f, Undisturbed s 5 f ∧ step t = .next (f.abort (.memoryOutOfRange ea o.width .store (s.cycle + 5))) := by
  obtain ⟨hu, ⟨e, hrob⟩, hlq, ⟨ts, hsq⟩, hldst, hstst, ⟨v, hbus⟩, hlatch⟩ := hi
  obtain ⟨hlt, hoff⟩ := robOffset_nextIndex hd hcap hu.cfg (by rw [hrob])
  have hflush := flush_of_writeBack hu.clear hlatch hbus (e := e) (by rw [State.robAt_of_lt t hlt, hoff, hrob]; rfl)
  generalize hf : setFull _ = f at hflush
  have hfs := hu.flush hflush
  have hframe := flush_frame hu.clear hflush
  have hfrob : f.rob.entries = [waitingEntry r b, { e with state := .write, value := v }] := by
    simp [← hf, hoff, hrob]
  have hflq : f.lq = [] := by simp [← hf, hlq]
  have hfsq : f.sq = [⟨o, s.rob.head, ea, true, ts, true, b⟩] := by simp [← hf, hsq]
  have hw : memWrite f.mem f.cfg.memSize ea o.width b = none := memWrite_eq_none_iff.mpr (hfs.cfg ▸ ho)
  have hstep := step_of_store_error hu.status hu.halt hflush
    (commit_of_waitSt hfrob rfl (waitingEntry_isStore hop b))
    (loadStage_holds (hframe.ldst.trans hldst) fun _ _ h => by simp [hflq] at h)
    (storeStage_outOfRange (hframe.stst.trans hstst) hfsq hw)
  rw [hfs.cycle] at hstep
  exact ⟨f, hfs, hstep⟩

/-! ## The run of a memory instruction outside memory -/

theorem reaches_add {n k : Nat} {s t u : State} (h : Reaches n s t) (hr : Reaches k t u) : Reaches (k + n) s u := by
  induction n generalizing s with
  | zero =>
    cases h
    exact hr
  | succ n ih =>
    obtain ⟨v, hv, hrest⟩ := reaches_succ h
    exact reaches_step hv (ih hrest)

theorem reaches_one {s t : State} (h : step s = .next t) : Reaches 1 s t := reaches_step h rfl

/-- The sizes and latencies of REF that the run of one instruction and the sentinel depends on. -/
theorem RefTiming.sizes {s : State} (h : RefTiming s) :
    s.cfg.wf ∧ 1 < s.cfg.iqCap ∧ 1 < s.cfg.robCap ∧ s.cfg.latAdd = 1 ∧ s.cfg.latLoad = 1 ∧ s.cfg.latStore = 1 := by
  obtain ⟨k, hk⟩ := h
  rw [hk]
  simp [Config.wf, Config.ref]

section
variable {s : State} {i : Instr} {record : State → IRec} {m : LsOp} {a b : Word}

/-- Two ticks after its entry a memory instruction with resolved operands has announced its address. -/
theorem Drained.dispatched (hd : Drained s) (ht : RefTiming s) (hsent : SentinelAt s (s.pc + 4))
    (hi : exec i s = enter record s) (hr : MemoryRecord s (record (setFull s)) m a b) :
    ∃ t1 t, exec i s = .next t1 ∧ Reaches 2 t1 t ∧ Dispatched s (record (setFull s)) m a b t := by
  obtain ⟨hc, hiq, hrob, -⟩ := ht.sizes
  obtain ⟨t2, hstep1, h2⟩ := (hd.fetched hr).step hd hr hc hiq hsent
  obtain ⟨t3, hstep2, h3⟩ := h2.step hc hrob
  exact ⟨_, t3, hi.trans (hd.enter_eq hc record), reaches_step hstep1 (reaches_one hstep2), h3⟩

/-- A load outside memory, from its entry to the abort four ticks later. -/
theorem Drained.load_aborts {o : LoadOp} (hd : Drained s) (ht : RefTiming s) (hsent : SentinelAt s (s.pc + 4))
    (hi : exec i s = enter record s) (hr : MemoryRecord s (record (setFull s)) (.load o) a b)
    (ho : ¬ (a + b).toNat + o.width ≤ s.cfg.memSize) :
    AbortsWith i s 4 (.memoryOutOfRange (a + b) o.width .load (s.cycle + 4)) := by
  obtain ⟨hc, -, hrob, -, hlat, -⟩ := ht.sizes
  obtain ⟨t1, t3, hexec, hreach, h3⟩ := hd.dispatched ht hsent hi hr
  obtain ⟨t4, hstep3, h4⟩ := h3.step_load hd.head hc hrob hlat
  obtain ⟨f, hf, hstep4⟩ := h4.step ho
  exact hf.abortsWith hexec (reaches_add hreach (reaches_step hstep3 (reaches_one hstep4)))

/-- A store outside memory, from its entry to the abort five ticks later. -/
theorem Drained.store_aborts {o : StoreOp} (hd : Drained s) (ht : RefTiming s) (hsent : SentinelAt s (s.pc + 4))
    (hi : exec i s = enter record s) (hr : MemoryRecord s (record (setFull s)) (.store o) a b)
    (hh : (record (setFull s)).isHalt = false)
    (ho : ¬ (a + (record (setFull s)).imm).toNat + o.width ≤ s.cfg.memSize) :
    AbortsWith i s 5
      (.memoryOutOfRange (a + (record (setFull s)).imm) o.width .store (s.cycle + 5)) := by
  obtain ⟨hc, -, hrob, hadd, -, hstore⟩ := ht.sizes
  obtain ⟨t1, t3, hexec, hreach, h3⟩ := hd.dispatched ht hsent hi hr
  obtain ⟨t4, hstep3, h4⟩ := h3.step_store hr.op hh hd.head hc hrob hadd
  obtain ⟨t5, hstep4, h5⟩ := h4.step hr.op hc hstore
  obtain ⟨f, hf, hstep5⟩ := h5.step hr.op hd.head hrob ho
  exact hf.abortsWith hexec
    (reaches_add hreach (reaches_step hstep3 (reaches_step hstep4 (reaches_one hstep5))))

end

/-- In a drained machine a register operand is read as its value. -/
theorem Drained.readSource_reg {s : State} (hd : Drained s) (r : RegIdx) :
    readSource s (.reg r) = .value (s.reg r) := by
  simp [readSource, State.tagOf_of_replicate hd.tag]

theorem Drained.loadRecord {s : State} (hd : Drained s) (i : Instr) {mn : Mnemonic} (hmn : mn ≠ .jal) (o : LoadOp)
    (rd rs1 : RegIdx) (imm : Word) :
    MemoryRecord s (immediateRecord i mn .load (.ls (.load o)) rd rs1 imm (setFull s)) (.load o) (s.reg rs1) imm where
  op := rfl
  src1 := hd.readSource_reg rs1
  src2 := rfl
  next := by simp [fetchNextPc, immediateRecord, hmn]
  stall := rfl

theorem Drained.storeRecord {s : State} (hd : Drained s) (i : Instr) {mn : Mnemonic} (hmn : mn ≠ .jal) (o : StoreOp)
    (rs2 rs1 : RegIdx) (imm : Word) :
    MemoryRecord s (storeRecord i mn o rs2 rs1 imm (setFull s)) (.store o) (s.reg rs1) (s.reg rs2) where
  op := rfl
  src1 := hd.readSource_reg rs1
  src2 := hd.readSource_reg rs2
  next := by simp [fetchNextPc, Machine.storeRecord, hmn]
  stall := rfl

/-- Settles O24: the fetch aborts in its own tick; a load and a store are followed tick by tick, through the stations
and the load/store buffer, to the tick in which their stage makes the access. -/
theorem accessOutOfRangeAborts : Obligations.AccessOutOfRangeAborts := by
  refine ⟨fun s hd hc ho => ?_, fun s r rs1 imm hd ht hsent => ?_⟩
  · rw [hd.step_outOfRange hc ho, State.abort, Machine.setFull, hd.backEmpty.fullFlags hc]
    rfl
  · have hload : ∀ (i : Instr) (mn : Mnemonic) (o : LoadOp), mn ≠ .jal →
        exec i s = enter (immediateRecord i mn .load (.ls (.load o)) r rs1 (sext12 imm)) s →
        ¬ (s.reg rs1 + sext12 imm).toNat + o.width ≤ s.cfg.memSize →
        AbortsWith i s 4 (.memoryOutOfRange (s.reg rs1 + sext12 imm) o.width .load (s.cycle + 4)) :=
      fun i mn o hmn hi ho => hd.load_aborts ht hsent hi (hd.loadRecord i hmn o r rs1 _) ho
    have hstore : ∀ (i : Instr) (mn : Mnemonic) (o : StoreOp), mn ≠ .jal →
        exec i s = enter (storeRecord i mn o r rs1 (sext12 imm)) s →
        ¬ (s.reg rs1 + sext12 imm).toNat + o.width ≤ s.cfg.memSize →
        AbortsWith i s 5 (.memoryOutOfRange (s.reg rs1 + sext12 imm) o.width .store (s.cycle + 5)) :=
      fun i mn o hmn hi ho => hd.store_aborts ht hsent hi (hd.storeRecord i hmn o r rs1 _) rfl ho
    refine ⟨fun ho => ⟨?_, ?_, ?_⟩, fun ho => ⟨?_, ?_, ?_⟩, fun ho => ⟨?_, ?_⟩⟩
    · exact hload _ .lb .lb (by decide) rfl ho
    · exact hload _ .lbu .lbu (by decide) rfl ho
    · exact hstore _ .sb .sb (by decide) rfl ho
    · exact hload _ .lh .lh (by decide) rfl ho
    · exact hload _ .lhu .lhu (by decide) rfl ho
    · exact hstore _ .sh .sh (by decide) rfl ho
    · exact hload _ .lw .lw (by decide) rfl ho
    · exact hstore _ .sw .sw (by decide) rfl ho

end Sys2Proof.Machine
end

section
/-! SUPPORT. A word is made of its fields, so a word that decodes is the word of what it decodes to
(30_encoding.md R100, R102, R103). -/

namespace Sys2Proof

/-! ## A word from its fields, format by format -/

theorem encodeR_fields {w : Word} {f7 : BitVec 7} {f3 : BitVec 3} {op : BitVec 7} (h7 : funct7Of w = f7)
    (h3 : funct3Of w = f3) (hop : opcodeOf w = op) : encodeR f7 (rs2Of w) (rs1Of w) f3 (rdOf w) op = w := by
  subst h7 h3 hop
  unfold encodeR funct7Of rs2Of rs1Of funct3Of rdOf opcodeOf
  simp (disch := decide) only [BitVec.extractLsb'_append_extractLsb'_eq_extractLsb', BitVec.extractLsb'_eq_self]

theorem encodeI_fields {w : Word} {f3 : BitVec 3} {op : BitVec 7} (h3 : funct3Of w = f3) (hop : opcodeOf w = op) :
    encodeI (immIOf w) (rs1Of w) f3 (rdOf w) op = w := by
  subst h3 hop
  unfold encodeI immIOf rs1Of funct3Of rdOf opcodeOf
  simp (disch := decide) only [BitVec.extractLsb'_append_extractLsb'_eq_extractLsb', BitVec.extractLsb'_eq_self]

theorem encodeU_fields {w : Word} {op : BitVec 7} (hop : opcodeOf w = op) : encodeU (immUOf w) (rdOf w) op = w := by
  subst hop
  unfold encodeU immUOf rdOf opcodeOf
  simp (disch := decide) only [BitVec.extractLsb'_append_extractLsb'_eq_extractLsb', BitVec.extractLsb'_eq_self]

/-- The S format is the R format with the immediate's two parts in the fields funct7 and rd (R103). -/
theorem encodeS_fields {w : Word} {f3 : BitVec 3} {op : BitVec 7} (h3 : funct3Of w = f3) (hop : opcodeOf w = op) :
    encodeS (immSOf w) (rs2Of w) (rs1Of w) f3 op = w := by
  have hhigh : (immSOf w).extractLsb' 5 7 = funct7Of w := BitVec.extractLsb'_append_eq_left
  have hlow : (immSOf w).extractLsb' 0 5 = rdOf w := BitVec.extractLsb'_append_eq_right
  unfold encodeS
  rw [hhigh, hlow]
  exact encodeR_fields rfl h3 hop

theorem encodeB_fields {w : Word} {f3 : BitVec 3} {op : BitVec 7} (h3 : funct3Of w = f3) (hop : opcodeOf w = op) :
    encodeB (offBOf w) (rs2Of w) (rs1Of w) f3 op = w := by
  subst h3 hop
  unfold encodeB offBOf rs2Of rs1Of funct3Of opcodeOf
  ext i hi
  simp only [BitVec.getElem_append, BitVec.getElem_extractLsb', BitVec.getLsbD_append, BitVec.getLsbD_extractLsb']
  interval_cases i <;> simp_all

theorem encodeJ_fields {w : Word} {op : BitVec 7} (hop : opcodeOf w = op) : encodeJ (offJOf w) (rdOf w) op = w := by
  subst hop
  unfold encodeJ offJOf rdOf opcodeOf
  ext i hi
  simp only [BitVec.getElem_append, BitVec.getElem_extractLsb', BitVec.getLsbD_append, BitVec.getLsbD_extractLsb']
  interval_cases i <;> simp_all

/-- The offsets a word carries are even (R104). -/
theorem offBOf_bit0 (w : Word) : (offBOf w).getLsbD 0 = false := BitVec.getLsbD_append

theorem offJOf_bit0 (w : Word) : (offJOf w).getLsbD 0 = false := BitVec.getLsbD_append

/-! ## The decoder, opcode by opcode -/

/-- What a word that decodes is: the sentinel, or a word of one of the nine opcodes in use (R112). -/
theorem decode_eq_ok {w : Word} {i : Instr} (h : decode w = .ok i) :
    (w = haltWord ∧ i = .halt) ∨ w ≠ haltWord ∧
      ((opcodeOf w = 0x37#7 ∧ i = .lui (rdOf w) (immUOf w)) ∨ (opcodeOf w = 0x17#7 ∧ i = .auipc (rdOf w) (immUOf w)) ∨
        (opcodeOf w = 0x6F#7 ∧ i = .jal (rdOf w) (offJOf w)) ∨ (opcodeOf w = 0x67#7 ∧ decodeJalr w = .ok i) ∨
        (opcodeOf w = 0x63#7 ∧ decodeBranch w = .ok i) ∨ (opcodeOf w = 0x03#7 ∧ decodeLoad w = .ok i) ∨
        (opcodeOf w = 0x23#7 ∧ decodeStore w = .ok i) ∨ (opcodeOf w = 0x13#7 ∧ decodeImmediate w = .ok i) ∨
        (opcodeOf w = 0x33#7 ∧ decodeRegister w = .ok i)) := by
  unfold decode at h
  by_cases hw : w = haltWord
  · simp_all
  · by_cases hl : w.extractLsb' 0 2 ≠ 3#2
    · simp [hw, hl] at h
    · simp only [hw, hl, if_false] at h
      split at h <;> simp_all

/-- `w` is the word of the well-formed instruction `i`. -/
def IsWordOf (w : Word) (i : Instr) : Prop := encode i = w ∧ i.wellFormed = true

theorem isWordOf_decodeJalr {w : Word} {i : Instr} (hop : opcodeOf w = 0x67#7) (h : decodeJalr w = .ok i) :
    IsWordOf w i := by
  unfold decodeJalr at h
  split at h <;> cases h
  exact ⟨encodeI_fields ‹_› hop, rfl⟩

theorem isWordOf_decodeBranch {w : Word} {i : Instr} (hop : opcodeOf w = 0x63#7) (h : decodeBranch w = .ok i) :
    IsWordOf w i := by
  have hoff : (!(offBOf w).getLsbD 0) = true := by rw [offBOf_bit0]; rfl
  unfold decodeBranch at h
  split at h <;> cases h
  all_goals exact ⟨encodeB_fields ‹_› hop, hoff⟩

theorem isWordOf_decodeLoad {w : Word} {i : Instr} (hop : opcodeOf w = 0x03#7) (h : decodeLoad w = .ok i) :
    IsWordOf w i := by
  unfold decodeLoad at h
  split at h <;> cases h
  all_goals exact ⟨encodeI_fields ‹_› hop, rfl⟩

theorem isWordOf_decodeStore {w : Word} {i : Instr} (hop : opcodeOf w = 0x23#7) (h : decodeStore w = .ok i) :
    IsWordOf w i := by
  unfold decodeStore at h
  split at h <;> cases h
  all_goals exact ⟨encodeS_fields ‹_› hop, rfl⟩

/-- The ADDI word with the fields of the sentinel is the sentinel (43_addsub.md R243; log 9). -/
theorem addi_wellFormed {w : Word} (hop : opcodeOf w = 0x13#7) (h3 : funct3Of w = 0#3) (hw : w ≠ haltWord) :
    (Instr.addi (rdOf w) (rs1Of w) (immIOf w)).wellFormed = true := by
  have hne : ¬ ((rdOf w = 10 ∧ rs1Of w = 0) ∧ immIOf w = 255) := by
    rintro ⟨⟨hrd, hrs1⟩, himm⟩
    have hword := encodeI_fields h3 hop
    rw [hrd, hrs1, himm] at hword
    exact hw (hword.symm.trans (by decide))
  simpa only [Instr.wellFormed, Bool.not_eq_true', Bool.and_eq_false_iff, beq_eq_false_iff_ne, ne_eq, not_and_or]
    using hne

/-- The funct3 of the right shifts is the one that is left. -/
theorem funct3_eq_five {f3 : BitVec 3} (n0 : f3 ≠ 0#3) (n1 : f3 ≠ 1#3) (n2 : f3 ≠ 2#3) (n3 : f3 ≠ 3#3) (n4 : f3 ≠ 4#3)
    (n6 : f3 ≠ 6#3) (n7 : f3 ≠ 7#3) : f3 = 5#3 := by bv_omega

theorem isWordOf_decodeImmediate {w : Word} {i : Instr} (hop : opcodeOf w = 0x13#7) (hw : w ≠ haltWord)
    (h : decodeImmediate w = .ok i) : IsWordOf w i := by
  unfold decodeImmediate at h
  split at h
  case h_1 h3 =>
    cases h
    exact ⟨encodeI_fields h3 hop, addi_wellFormed hop h3 hw⟩
  case h_7 h3 =>
    split at h <;> cases h
    exact ⟨encodeR_fields ‹_› h3 hop, rfl⟩
  case h_8 n0 n2 n3 n4 n6 n7 n1 =>
    have h3 := funct3_eq_five n0 n1 n2 n3 n4 n6 n7
    split at h <;> cases h
    all_goals exact ⟨encodeR_fields ‹_› h3 hop, rfl⟩
  all_goals
    cases h
    exact ⟨encodeI_fields ‹_› hop, rfl⟩

theorem isWordOf_decodeRegister {w : Word} {i : Instr} (hop : opcodeOf w = 0x33#7) (h : decodeRegister w = .ok i) :
    IsWordOf w i := by
  unfold decodeRegister at h
  split at h <;> cases h
  all_goals exact ⟨encodeR_fields ‹_› ‹_› hop, rfl⟩

/-- What a word decodes to has that word and is well formed. -/
theorem isWordOf_decode {w : Word} {i : Instr} (h : decode w = .ok i) : IsWordOf w i := by
  rcases decode_eq_ok h with ⟨rfl, rfl⟩ | ⟨hw, ⟨hop, rfl⟩ | ⟨hop, rfl⟩ | ⟨hop, rfl⟩ | ⟨hop, h⟩ | ⟨hop, h⟩ | ⟨hop, h⟩ |
    ⟨hop, h⟩ | ⟨hop, h⟩ | ⟨hop, h⟩⟩
  · exact ⟨rfl, rfl⟩
  · exact ⟨encodeU_fields hop, rfl⟩
  · exact ⟨encodeU_fields hop, rfl⟩
  · exact ⟨encodeJ_fields hop, by rw [Instr.wellFormed, offJOf_bit0]; rfl⟩
  · exact isWordOf_decodeJalr hop h
  · exact isWordOf_decodeBranch hop h
  · exact isWordOf_decodeLoad hop h
  · exact isWordOf_decodeStore hop h
  · exact isWordOf_decodeImmediate hop hw h
  · exact isWordOf_decodeRegister hop h

/-- Settles O1: the round trip from the instruction, row by row. -/
theorem decodeOfEncode : Obligations.DecodeOfEncode := fun _ h => decode_encode h

/-- Settles O2: the round trip from the word, opcode by opcode. -/
theorem encodeOfDecode : Obligations.EncodeOfDecode := fun _ _ h => isWordOf_decode h

end Sys2Proof
end

section
/-! SUPPORT. The decoded record of a word, class by class (30_encoding.md R100, R104, R105). -/

namespace Sys2Proof

theorem decodeRecord_of_ok {w : Word} {i : Instr} (h : decode w = .ok i) : decodeRecord w = i.drec := by
  unfold decodeRecord
  rw [h]

theorem decodeRecord_of_error {w : Word} {e : DecodeError} (h : decode w = .error e) :
    decodeRecord w = ⟨.invalid, .other, none, none, none, 0⟩ := by
  unfold decodeRecord
  rw [h]

/-- Settles O4: a word that decodes is the word of its instruction, whose fields the laws of each format give. -/
theorem decodedOperandsByClass : Obligations.DecodedOperandsByClass := by
  intro w
  rcases h : decode w with e | i
  · rw [decodeRecord_of_error h]
    exact .inr (.inr (.inr ⟨rfl, rfl, rfl, rfl, rfl⟩))
  obtain ⟨rfl, hwf⟩ := isWordOf_decode h
  rw [decodeRecord_of_ok h]
  cases i with
  | halt => exact ⟨rfl, rfl, rfl, rfl⟩
  | lui | auipc =>
    refine .inl ⟨?_, congrArg some (rdOf_encodeU ..).symm, rfl, rfl, congrArg uImm (immUOf_encodeU ..).symm⟩
    simp [Instr.drec]
  | jal rd off =>
    exact .inr (.inl ⟨rfl, congrArg some (rdOf_encodeJ ..).symm, rfl, rfl,
      congrArg sext21 (offJOf_encodeJ off _ _ (bit0_of_wellFormed hwf)).symm⟩)
  | jalr =>
    exact .inr (.inr (.inl ⟨rfl, congrArg some (rdOf_encodeI ..).symm, congrArg some (rs1Of_encodeI ..).symm, rfl,
      congrArg sext12 (immIOf_encodeI ..).symm⟩))
  | beq _ _ off | bne _ _ off | blt _ _ off | bge _ _ off | bltu _ _ off | bgeu _ _ off =>
    exact ⟨rfl, congrArg some (rs1Of_encodeB ..).symm, congrArg some (rs2Of_encodeB ..).symm,
      congrArg sext13 (offBOf_encodeB off _ _ _ _ (bit0_of_wellFormed hwf)).symm⟩
  | sb | sh | sw =>
    exact ⟨rfl, congrArg some (rs1Of_encodeS ..).symm, congrArg some (rs2Of_encodeS ..).symm,
      congrArg sext12 (immSOf_encodeS ..).symm⟩
  | lb | lh | lw | lbu | lhu | addi | slti | sltiu | xori | ori | andi =>
    exact ⟨congrArg some (rdOf_encodeI ..).symm, congrArg some (rs1Of_encodeI ..).symm, rfl,
      congrArg sext12 (immIOf_encodeI ..).symm⟩
  | slli | srli | srai =>
    exact ⟨congrArg some (rdOf_encodeR ..).symm, congrArg some (rs1Of_encodeR ..).symm, rfl,
      congrArg zext5 (rs2Of_encodeR ..).symm⟩
  | add | sub | sll | slt | sltu | xor | srl | sra | or | and =>
    exact ⟨congrArg some (rdOf_encodeR ..).symm, congrArg some (rs1Of_encodeR ..).symm,
      congrArg some (rs2Of_encodeR ..).symm, rfl⟩

end Sys2Proof
end

section
/-! SUPPORT. Why a word is INVALID: the reason the decoder names holds of the word's fields (30_encoding.md R118). -/

namespace Sys2Proof

/-- What the fields of a word are that R118 rejects for a reason, (a) to (h). -/
def DecodeError.Holds (w : Word) : DecodeError → Prop
  | .truncated => False
  | .notWordForm => (opcodeOf w).extractLsb' 0 2 ≠ 3#2
  | .majorOpcode => opcodeOf w ∉ [0x37#7, 0x17#7, 0x6F#7, 0x67#7, 0x63#7, 0x03#7, 0x23#7, 0x13#7, 0x33#7]
  | .jalrFunct3 => opcodeOf w = 0x67#7 ∧ funct3Of w ∉ [0#3]
  | .branchFunct3 => opcodeOf w = 0x63#7 ∧ funct3Of w ∉ [0#3, 1#3, 4#3, 5#3, 6#3, 7#3]
  | .loadFunct3 => opcodeOf w = 0x03#7 ∧ funct3Of w ∉ [0#3, 1#3, 2#3, 4#3, 5#3]
  | .storeFunct3 => opcodeOf w = 0x23#7 ∧ funct3Of w ∉ [0#3, 1#3, 2#3]
  | .shiftFunct7 => opcodeOf w = 0x13#7 ∧ funct3Of w ∈ [1#3, 5#3] ∧
      (funct3Of w, funct7Of w) ∉ [(1#3, 0#7), (5#3, 0#7), (5#3, 32#7)]
  | .registerFunct7 => opcodeOf w = 0x33#7 ∧ (funct3Of w, funct7Of w) ∉
      [(0#3, 0#7), (0#3, 32#7), (1#3, 0#7), (2#3, 0#7), (3#3, 0#7), (4#3, 0#7), (5#3, 0#7), (5#3, 32#7), (6#3, 0#7),
        (7#3, 0#7)]

theorem holds_of_decodeJalr {w : Word} {e : DecodeError} (hop : opcodeOf w = 0x67#7) (h : decodeJalr w = .error e) :
    e.Holds w := by
  unfold decodeJalr at h
  split at h <;> cases h
  exact ⟨hop, by simp_all⟩

theorem holds_of_decodeBranch {w : Word} {e : DecodeError} (hop : opcodeOf w = 0x63#7)
    (h : decodeBranch w = .error e) : e.Holds w := by
  unfold decodeBranch at h
  split at h <;> cases h
  exact ⟨hop, by simp_all⟩

theorem holds_of_decodeLoad {w : Word} {e : DecodeError} (hop : opcodeOf w = 0x03#7) (h : decodeLoad w = .error e) :
    e.Holds w := by
  unfold decodeLoad at h
  split at h <;> cases h
  exact ⟨hop, by simp_all⟩

theorem holds_of_decodeStore {w : Word} {e : DecodeError} (hop : opcodeOf w = 0x23#7) (h : decodeStore w = .error e) :
    e.Holds w := by
  unfold decodeStore at h
  split at h <;> cases h
  exact ⟨hop, by simp_all⟩

theorem holds_of_decodeImmediate {w : Word} {e : DecodeError} (hop : opcodeOf w = 0x13#7)
    (h : decodeImmediate w = .error e) : e.Holds w := by
  unfold decodeImmediate at h
  split at h
  case h_7 h3 =>
    split at h <;> cases h
    exact ⟨hop, by simp [h3], by simp_all⟩
  case h_8 n0 n2 n3 n4 n6 n7 n1 =>
    have h3 := funct3_eq_five n0 n1 n2 n3 n4 n6 n7
    split at h <;> cases h
    exact ⟨hop, by simp [h3], by simp_all⟩
  all_goals cases h

theorem holds_of_decodeRegister {w : Word} {e : DecodeError} (hop : opcodeOf w = 0x33#7)
    (h : decodeRegister w = .error e) : e.Holds w := by
  unfold decodeRegister at h
  split at h <;> cases h
  exact ⟨hop, by simp_all⟩

/-- The two low bits of a word are the opcode's. -/
theorem low_opcodeOf (w : Word) : (opcodeOf w).extractLsb' 0 2 = w.extractLsb' 0 2 := by
  unfold opcodeOf
  simp

/-- A word is rejected for the reason that holds of it (R118). -/
theorem holds_of_decode {w : Word} {e : DecodeError} (h : decode w = .error e) : e.Holds w := by
  unfold decode at h
  by_cases hw : w = haltWord
  · simp [hw] at h
  by_cases hl : w.extractLsb' 0 2 ≠ 3#2
  · simp only [if_neg hw, if_pos hl] at h
    cases h
    have hlow : (opcodeOf w).extractLsb' 0 2 ≠ 3#2 := by rwa [low_opcodeOf]
    exact hlow
  rw [if_neg hw, if_neg hl] at h
  split at h
  case h_4 hop => exact holds_of_decodeJalr hop h
  case h_5 hop => exact holds_of_decodeBranch hop h
  case h_6 hop => exact holds_of_decodeLoad hop h
  case h_7 hop => exact holds_of_decodeStore hop h
  case h_8 hop => exact holds_of_decodeImmediate hop h
  case h_9 hop => exact holds_of_decodeRegister hop h
  all_goals cases h
  simp_all [DecodeError.Holds]

end Sys2Proof
end

section
/-! SUPPORT. The opcode table, field by field: which words a row matches, and the decoder against the table
(30_encoding.md R111, R112, R118). -/

namespace Sys2Proof.Machine

/-! ## Fields of a masked word -/

/-- Words with the same fields are equal (R102). -/
theorem word_eq_iff_fields {w v : Word} :
    w = v ↔ opcodeOf w = opcodeOf v ∧ rdOf w = rdOf v ∧ funct3Of w = funct3Of v ∧ rs1Of w = rs1Of v ∧
      rs2Of w = rs2Of v ∧ funct7Of w = funct7Of v := by
  refine ⟨by rintro rfl; simp, fun ⟨hop, hrd, h3, hrs1, hrs2, h7⟩ => ?_⟩
  rw [← encodeR_fields (w := w) h7 h3 hop, hrd, hrs1, hrs2]
  exact encodeR_fields rfl rfl rfl

/-- Masking a word masks each of its fields. -/
theorem fields_and (w m : Word) :
    opcodeOf (w &&& m) = opcodeOf w &&& opcodeOf m ∧ rdOf (w &&& m) = rdOf w &&& rdOf m ∧
      funct3Of (w &&& m) = funct3Of w &&& funct3Of m ∧ rs1Of (w &&& m) = rs1Of w &&& rs1Of m ∧
      rs2Of (w &&& m) = rs2Of w &&& rs2Of m ∧ funct7Of (w &&& m) = funct7Of w &&& funct7Of m := by
  refine ⟨?_, ?_, ?_, ?_, ?_, ?_⟩ <;> exact BitVec.extractLsb'_and

/-- Every row reads the whole opcode and no register field, and its pattern has no bit outside its mask. -/
theorem opcodeRows_masks : ∀ row ∈ opcodeRows, opcodeOf row.mask = BitVec.allOnes 7 ∧ rdOf row.mask = 0 ∧
    rs1Of row.mask = 0 ∧ rs2Of row.mask = 0 ∧ row.pattern &&& row.mask = row.pattern := by decide

/-- A row looks at the opcode, and at as much of funct3 and funct7 as its mask covers. -/
theorem row_matches_iff {row : OpcodeRow} (hr : row ∈ opcodeRows) {w : Word} :
    w &&& row.mask = row.pattern ↔ opcodeOf w = opcodeOf row.pattern ∧
      funct3Of w &&& funct3Of row.mask = funct3Of row.pattern &&& funct3Of row.mask ∧
      funct7Of w &&& funct7Of row.mask = funct7Of row.pattern &&& funct7Of row.mask := by
  obtain ⟨hop, hrd, hrs1, hrs2, hp⟩ := opcodeRows_masks row hr
  obtain ⟨wop, wrd, w3, wrs1, wrs2, w7⟩ := fields_and w row.mask
  obtain ⟨pop, prd, p3, prs1, prs2, p7⟩ := fields_and row.pattern row.mask
  have hmasked : w &&& row.mask = row.pattern ↔ w &&& row.mask = row.pattern &&& row.mask := by rw [hp]
  rw [hmasked, word_eq_iff_fields, wop, wrd, w3, wrs1, wrs2, w7, pop, prd, p3, prs1, prs2, p7, hop, hrd, hrs1, hrs2,
    BitVec.and_allOnes, BitVec.and_allOnes]
  simp

/-! ## A word that decodes matches its mnemonic's row -/

section
variable {w : Word} {mn : Mnemonic} {f7 : BitVec 7} {f3 : BitVec 3} {op : BitVec 7}

/-- A field that the mask leaves out is not looked at. -/
theorem and_eq_and_of_zero {n : Nat} {m : BitVec n} (hm : m = 0#n) (x y : BitVec n) : x &&& m = y &&& m := by
  rw [hm, BitVec.and_zero, BitVec.and_zero]

/-- A row of the formats U and J reads the opcode alone. -/
theorem exists_row_of_opcode (hr : ⟨mn, 0x7F#32, encodeU 0 0 op⟩ ∈ opcodeRows) (hop : opcodeOf w = op) :
    ∃ row ∈ opcodeRows, row.mn = mn ∧ w &&& row.mask = row.pattern :=
  ⟨_, hr, rfl, (row_matches_iff hr).mpr ⟨hop.trans (opcodeOf_encodeU ..).symm,
    and_eq_and_of_zero (show funct3Of 0x7F#32 = 0#3 by decide) _ _,
    and_eq_and_of_zero (show funct7Of 0x7F#32 = 0#7 by decide) _ _⟩⟩

/-- A row of the formats I, S and B reads the opcode and funct3. -/
theorem exists_row_of_funct3 (hr : ⟨mn, 0x707F#32, encodeI 0 0 f3 0 op⟩ ∈ opcodeRows) (hop : opcodeOf w = op)
    (h3 : funct3Of w = f3) : ∃ row ∈ opcodeRows, row.mn = mn ∧ w &&& row.mask = row.pattern :=
  ⟨_, hr, rfl, (row_matches_iff hr).mpr ⟨hop.trans (opcodeOf_encodeI ..).symm,
    congrArg (· &&& _) (h3.trans (funct3Of_encodeI ..).symm),
    and_eq_and_of_zero (show funct7Of 0x707F#32 = 0#7 by decide) _ _⟩⟩

/-- A row of the format R, or of a shift by an immediate, reads the opcode, funct3 and funct7. -/
theorem exists_row_of_funct7 (hr : ⟨mn, 0xFE00707F#32, encodeR f7 0 0 f3 0 op⟩ ∈ opcodeRows) (hop : opcodeOf w = op)
    (h3 : funct3Of w = f3) (h7 : funct7Of w = f7) :
    ∃ row ∈ opcodeRows, row.mn = mn ∧ w &&& row.mask = row.pattern :=
  ⟨_, hr, rfl, (row_matches_iff hr).mpr ⟨hop.trans (opcodeOf_encodeR ..).symm,
    congrArg (· &&& _) (h3.trans (funct3Of_encodeR ..).symm),
    congrArg (· &&& _) (h7.trans (funct7Of_encodeR ..).symm)⟩⟩

end

/-- The row of an instruction's mnemonic matches its word. -/
theorem exists_row_of_encode (i : Instr) :
    ∃ row ∈ opcodeRows, row.mn = i.drec.mn ∧ encode i &&& row.mask = row.pattern := by
  cases i with
  | halt => decide
  | lui | auipc => exact exists_row_of_opcode (by simp only [Instr.drec]; decide) (opcodeOf_encodeU ..)
  | jal => exact exists_row_of_opcode (by simp only [Instr.drec]; decide) (opcodeOf_encodeJ ..)
  | beq | bne | blt | bge | bltu | bgeu =>
    exact exists_row_of_funct3 (by simp only [Instr.drec]; decide) (opcodeOf_encodeB ..) (funct3Of_encodeB ..)
  | sb | sh | sw =>
    exact exists_row_of_funct3 (by simp only [Instr.drec]; decide) (opcodeOf_encodeS ..) (funct3Of_encodeS ..)
  | jalr | lb | lh | lw | lbu | lhu | addi | slti | sltiu | xori | ori | andi =>
    exact exists_row_of_funct3 (by simp only [Instr.drec]; decide) (opcodeOf_encodeI ..) (funct3Of_encodeI ..)
  | slli | srli | srai | add | sub | sll | slt | sltu | xor | srl | sra | or | and =>
    exact exists_row_of_funct7 (by simp only [Instr.drec]; decide) (opcodeOf_encodeR ..) (funct3Of_encodeR ..)
      (funct7Of_encodeR ..)

/-! ## A word that does not decode matches no row -/

section
variable {row : OpcodeRow} {w : Word}

/-- The rows of the formats I, S, B and R, and the shifts, read all of funct3. -/
theorem row_funct3 (hr : row ∈ opcodeRows) (hm : w &&& row.mask = row.pattern)
    (hop : opcodeOf w ∉ [0x37#7, 0x17#7, 0x6F#7]) : funct3Of w = funct3Of row.pattern := by
  have reads : ∀ row ∈ opcodeRows, opcodeOf row.pattern ∉ [0x37#7, 0x17#7, 0x6F#7] →
      funct3Of row.mask = BitVec.allOnes 3 := by decide
  obtain ⟨heq, h3, -⟩ := (row_matches_iff hr).mp hm
  simpa only [reads row hr (heq ▸ hop), BitVec.and_allOnes] using h3

/-- The rows of the format R, and the shifts by an immediate, read all of funct7. -/
theorem row_funct7 (hr : row ∈ opcodeRows) (hm : w &&& row.mask = row.pattern)
    (hop : opcodeOf w = 0x33#7 ∨ opcodeOf w = 0x13#7 ∧ funct3Of w ∈ [1#3, 5#3]) :
    funct7Of w = funct7Of row.pattern := by
  have reads : ∀ row ∈ opcodeRows, opcodeOf row.pattern = 0x33#7 ∨
      opcodeOf row.pattern = 0x13#7 ∧ funct3Of row.pattern ∈ [1#3, 5#3] →
      funct7Of row.mask = BitVec.allOnes 7 := by decide
  obtain ⟨heq, -, h7⟩ := (row_matches_iff hr).mp hm
  have h3 := row_funct3 hr hm (by rcases hop with h | ⟨h, -⟩ <;> simp [h])
  rw [heq, h3] at hop
  simpa only [reads row hr hop, BitVec.and_allOnes] using h7

/-- A matched word has a funct3 that the table has beside its opcode. -/
theorem funct3_mem_of_row {op : BitVec 7} {l : List (BitVec 3)} (hr : row ∈ opcodeRows)
    (hm : w &&& row.mask = row.pattern) (hw : opcodeOf w = op) (hop : op ∉ [0x37#7, 0x17#7, 0x6F#7])
    (table : ∀ row ∈ opcodeRows, opcodeOf row.pattern = op → funct3Of row.pattern ∈ l) : funct3Of w ∈ l := by
  obtain ⟨heq, -⟩ := (row_matches_iff hr).mp hm
  exact row_funct3 hr hm (hw ▸ hop) ▸ table row hr (heq.symm.trans hw)

/-- No row matches a word that is rejected for a reason that holds of it: the table has no row with such fields. -/
theorem not_matches_of_holds {e : DecodeError} (he : e.Holds w) (hr : row ∈ opcodeRows) :
    w &&& row.mask ≠ row.pattern := by
  intro hm
  obtain ⟨hop, -⟩ := (row_matches_iff hr).mp hm
  cases e with
  | truncated => exact he
  | notWordForm =>
    have table : ∀ row ∈ opcodeRows, (opcodeOf row.pattern).extractLsb' 0 2 = 3#2 := by decide
    exact he (hop ▸ table row hr)
  | majorOpcode =>
    have table : ∀ row ∈ opcodeRows, opcodeOf row.pattern ∈
        [0x37#7, 0x17#7, 0x6F#7, 0x67#7, 0x63#7, 0x03#7, 0x23#7, 0x13#7, 0x33#7] := by decide
    exact he (hop ▸ table row hr)
  | jalrFunct3 | branchFunct3 | loadFunct3 | storeFunct3 =>
    obtain ⟨hw, hn⟩ := he
    exact hn (funct3_mem_of_row hr hm hw (by decide) (by decide))
  | shiftFunct7 =>
    have table : ∀ row ∈ opcodeRows, opcodeOf row.pattern = 0x13#7 → funct3Of row.pattern ∈ [1#3, 5#3] →
        (funct3Of row.pattern, funct7Of row.pattern) ∈ [(1#3, 0#7), (5#3, 0#7), (5#3, 32#7)] := by decide
    obtain ⟨hw, hs, hn⟩ := he
    rw [row_funct7 hr hm (.inr ⟨hw, hs⟩)] at hn
    rw [row_funct3 hr hm (by simp [hw])] at hs hn
    exact hn (table row hr (hop.symm.trans hw) hs)
  | registerFunct7 =>
    have table : ∀ row ∈ opcodeRows, opcodeOf row.pattern = 0x33#7 → (funct3Of row.pattern, funct7Of row.pattern) ∈
        [(0#3, 0#7), (0#3, 32#7), (1#3, 0#7), (2#3, 0#7), (3#3, 0#7), (4#3, 0#7), (5#3, 0#7), (5#3, 32#7), (6#3, 0#7),
          (7#3, 0#7)] := by decide
    obtain ⟨hw, hn⟩ := he
    rw [row_funct7 hr hm (.inl hw), row_funct3 hr hm (by simp [hw])] at hn
    exact hn (table row hr (hop.symm.trans hw))

end

/-! ## The decoder against the table -/

/-- A mnemonic has one row at most, and INVALID has none (R112). -/
theorem opcodeRows_mn : ∀ r1 ∈ opcodeRows, r1.mn ≠ .invalid ∧ ∀ r2 ∈ opcodeRows, r1.mn = r2.mn → r1 = r2 := by decide

/-- Two rows differ in a bit that both read. -/
theorem opcodeRows_separated : ∀ r1 ∈ opcodeRows, ∀ r2 ∈ opcodeRows,
    r1.pattern &&& r2.mask = r2.pattern &&& r1.mask → r1 = r2 := by decide

theorem row_unique {r1 r2 : OpcodeRow} (h1 : r1 ∈ opcodeRows) (h2 : r2 ∈ opcodeRows) {w : Word}
    (hw1 : w &&& r1.mask = r1.pattern) (hw2 : w &&& r2.mask = r2.pattern) : r1 = r2 := by
  refine opcodeRows_separated r1 h1 r2 h2 ?_
  rw [← hw1, ← hw2, BitVec.and_assoc, BitVec.and_assoc, BitVec.and_comm r1.mask]

/-- A word either matches the row of the mnemonic it decodes to, or is INVALID and matches no row. -/
theorem decodeRecord_cases (w : Word) :
    (∃ row ∈ opcodeRows, row.mn = (decodeRecord w).mn ∧ w &&& row.mask = row.pattern) ∨
      (decodeRecord w).mn = .invalid ∧ ∀ row ∈ opcodeRows, w &&& row.mask ≠ row.pattern := by
  rcases h : decode w with e | i
  · exact .inr ⟨by rw [decodeRecord_of_error h], fun _ hr => not_matches_of_holds (holds_of_decode h) hr⟩
  · obtain ⟨rfl, -⟩ := isWordOf_decode h
    rw [decodeRecord_of_ok h]
    exact .inl (exists_row_of_encode i)

/-- Settles O3: a word has one row at most, and the decoder answers its mnemonic. -/
theorem decoderFollowsOpcodeTable : Obligations.DecoderFollowsOpcodeTable := by
  refine ⟨fun row hr w => ?_, fun w => ?_, fun r1 h1 r2 h2 w hw1 hw2 => row_unique h1 h2 hw1 hw2, by decide⟩
  · obtain ⟨hvalid, hmn⟩ := opcodeRows_mn row hr
    rcases decodeRecord_cases w with ⟨row', hr', hd, hw⟩ | ⟨hd, hn⟩
    · exact ⟨fun h => hmn row' hr' (h.symm.trans hd.symm) ▸ hw, fun h => row_unique hr hr' h hw ▸ hd.symm⟩
    · exact ⟨fun h => absurd (h.symm.trans hd) hvalid, fun h => absurd h (hn row hr)⟩
  · rcases decodeRecord_cases w with ⟨row, hr, hd, hw⟩ | ⟨hd, hn⟩
    · exact ⟨fun h => absurd (hd.trans h) (opcodeRows_mn row hr).1, fun h => absurd hw (h row hr)⟩
    · exact ⟨fun _ => hn, fun _ => hd⟩

end Sys2Proof.Machine
end

section
/-! SUPPORT. The run of an INVALID word from a drained machine (30_encoding.md R118; 60_exceptions.md R423, R428). -/

namespace Sys2Proof.Machine

/-- A step whose fetched word is of no row delivers its INVALID record (R118). -/
theorem step_of_invalid {s : State} {w : Word} {e : DecodeError} (hw : s.fetchWord = some w)
    (hd : decode w = .error e) : step s = enterInvalid w s := by
  unfold step
  rw [hw]
  simp only [hd]

/-- With nothing behind the latch, a step whose issue aborts does so whatever the fetch port delivers. -/
theorem step_of_issue_error {h : Nat} {t f : State} {a : Abort} (hs : t.status = .running) (hh : t.halt = false)
    (hf : flush t = .ok f) (hb : BackEmpty h f) (hi : issue f = .error a) : step t = .next (f.abort a) := by
  obtain ⟨hc, hl, hst⟩ := hb.units
  exact step_of_tick hs fun _ => tick_aborts hh hf (by simp [execute, hc, hl, hst, hi, bind, Except.bind])

/-- Settles O15: nothing is behind the latch, so the INVALID record enters alone; the next tick's issue aborts on it,
whatever the fetch port delivers. -/
theorem invalidWordAborts : Obligations.InvalidWordAborts := by
  intro s w e hd hc hw he
  have hstep1 : step s = .next (frontMerged (setFull s) ⟨[], none, none⟩ (some (invalidRecord w (setFull s)))) :=
    (step_of_invalid hw he).trans (hd.enter_eq hc _)
  generalize ht1 : frontMerged _ _ _ = t1 at hstep1
  have hu : Undisturbed s 1 t1 := ht1 ▸ (hd.undisturbed.flush hd.flush).frontMerged _ _
  have hback : BackEmpty s.rob.head t1 := ht1 ▸ hd.backEmpty.setFull.merged _ _
  have hpc : t1.pc = s.pc + 4 := by rw [← ht1]; rfl
  have hlatch : t1.latch = none := by rw [← ht1]; rfl
  have hissue : issue (setFull t1) = .error (.unclassifiable w s.pc (s.cycle + 1)) := by
    rw [← hu.cycle, ← ht1]; rfl
  have hflush : flush t1 = .ok (setFull t1) := flush_of_quiet hu.clear hlatch hback.bus
  have hstep2 := step_of_issue_error hu.status hu.halt hflush hback.setFull hissue
  exact ⟨t1, _, hstep1, hu.status, hpc, hstep2, rfl, hu.x, hu.mem⟩

end Sys2Proof.Machine
end

section
/-! SUPPORT. What a Flush detects and recomputes: the halt of step F0, the full flags of step F8, the squash of step F1;
and the step of a decoded word (40_clock_and_bus.md R134, R137; 48_reorder_commit.md R395; 41_issue_unit.md R161). -/

namespace Sys2Proof.Machine

/-- Settles O6: the word at `pc` is what the step decodes. -/
theorem stepRunsDecodedInstruction : Obligations.StepRunsDecodedInstruction := fun _ _ _ hw hd =>
  step_of_fetchWord hw hd

/-! ## The halt (R134) -/

/-- With the halt flag up, a tick ends the run before its Flush, whatever its port would deliver. -/
theorem tick_of_halt {port : FetchPort} {s : State} (h : s.halt = true) : tick port s = haltedState s := by
  simp [tick, h]

theorem everyTickTo_haltedState {s : State} (hs : s.status = .running) (hh : s.halt = true) :
    EveryTickTo s (haltedState s) :=
  (step_and_exec_of_tickOutcome (P := fun o => o = .next (haltedState s)) fun _ => by
    rw [tickOutcome_of_running hs, tick_of_halt hh]).symm

/-- Settles O9: every tick with the halt flag up is the halt itself. -/
theorem haltIsDetectedAtFlush : Obligations.HaltIsDetectedAtFlush := fun _ hs hh =>
  (everyTickTo_haltedState hs hh).symm

/-! ## The full flags (R137) -/

/-- A completed Flush leaves the flags of the structures it leaves. -/
theorem flush_full {s f : State} (h : flush s = .ok f) : f.full = fullFlags f := by
  rcases flush_eq_ok h with ⟨-, rfl⟩ | ⟨-, s', -, rfl⟩ <;> rfl

/-- A bank is full exactly where no slot of it is free (42_reservation_stations.md R212). -/
theorem fullFlags_bank_iff (f : State) (b : Bank) : (fullFlags f).bank b = true ↔ none ∉ f.rs.view b := by
  have hfull : ∀ {α : Type} (toOp : α → Op) (bank : List (Option (RSEntry α))),
      bankFull bank = true ↔ none ∉ bank.map (Option.map fun e => e.withOp (toOp e.op)) := fun toOp bank => by
    rw [← Bool.not_eq_false, bankFull_eq_false_iff]
    simp
  cases b
  · exact hfull _ _
  · exact hfull _ _
  · exact hfull _ _
  · exact hfull _ _
  · exact hfull _ _

/-- Settles O33: the flags are recomputed from the structures of the flushed state, after a squash too. -/
theorem fullFlagsAreOfFlushedState : Obligations.FullFlagsAreOfFlushedState := by
  intro s f h
  rw [flush_full h]
  exact ⟨by simp [fullFlags], fullFlags_bank_iff f, by simp [fullFlags], by simp [fullFlags]⟩

/-! ## The squash (R395) -/

theorem flush_of_clear {s : State} (h : s.clear = true) : flush s = .ok (setFull (squash s)) := by
  simp [flush, h]

/-- Nothing is behind the latch of a squashed machine, whose reorder buffer starts again at index 0. -/
theorem squash_backEmpty (s : State) : BackEmpty 0 (squash s) := by constructor <;> rfl

/-- Settles O34: the Flush is the squash, whose fields are read off, and which leaves room everywhere. -/
theorem squashFieldByField : Obligations.SquashFieldByField := by
  intro s hc hcfg
  have hview : ∀ b, (squash s).rs.view b = List.replicate (s.cfg.rsCap b) none := Banks.view_empty s.cfg
  have hempty : ∀ b, ((squash s).rs.view b).length = s.cfg.rsCap b ∧ ∀ e ∈ (squash s).rs.view b, e = none := fun b => by
    rw [hview]
    exact ⟨List.length_replicate, fun _ => List.eq_of_mem_replicate⟩
  have htags : ∀ r, (squash s).tagOf r = none := State.tagOf_of_replicate rfl
  have hfull : (setFull (squash s)).full = FullFlags.none := (squash_backEmpty s).fullFlags hcfg
  exact ⟨_, flush_of_clear hc, rfl, rfl, rfl, rfl, rfl, rfl, hempty, rfl, rfl, rfl, rfl, rfl, rfl, htags, rfl, rfl, rfl,
    rfl, rfl, rfl, rfl, hfull⟩

end Sys2Proof.Machine
end

section
/-! SUPPORT. What one Execute puts on the bus, by kind, and what it copies (40_clock_and_bus.md R133, R146). -/

namespace Sys2Proof.Machine

/-! ## The kinds of message of each unit, in the order of the bus -/

theorem commit_kinds {f : State} {c : Commit} (h : commit f = .ok c) :
    ∃ k, (k = .commitReg ∨ k = .commitMem) ∧ (c.msgs.map Msg.kind).Sublist [k] := by
  rcases commit_msgs h with hm | ⟨v, hm⟩ | ⟨v, hm⟩ <;> rw [hm]
  · exact ⟨.commitReg, .inl rfl, List.nil_sublist _⟩
  · exact ⟨.commitReg, .inl rfl, .refl _⟩
  · exact ⟨.commitMem, .inr rfl, .refl _⟩

theorem unitStep_kinds {α : Type} (result : α → Word → Word → Word) (lat : Nat) (st : Stage α)
    (bank : List (Option (RSEntry α))) :
    ((unitStep result lat st bank).msgs.map Msg.kind).Sublist [.writeBack] := by
  rcases unitStep_msgs result lat st bank with hm | ⟨d, v, hm⟩ <;> rw [hm]
  · exact List.nil_sublist _
  · exact .refl _

theorem loadStage_kinds {f : State} {l : LoadOut} (h : loadStage f = .ok l) :
    (l.msgs.map Msg.kind).Sublist [.writeBack] := by
  rcases loadStage_cases h with ⟨_, _, -, -, rfl⟩ | ⟨_, _, _, -, -, -, rfl⟩ | ⟨_, _, -, -, -, rfl⟩ | ⟨-, -, rfl⟩
  · exact List.nil_sublist _
  · exact .refl _
  · exact List.nil_sublist _
  · exact List.nil_sublist _

theorem storeStage_kinds {f : State} {o : StoreOut} (h : storeStage f = .ok o) :
    (o.msgs.map Msg.kind).Sublist [.storeSuccess] := by
  rcases storeStage_cases h with ⟨_, -, -, rfl⟩ | ⟨_, _, _, _, -, -, -, -, rfl⟩ | ⟨_, _, -, -, -, rfl⟩ | ⟨-, -, rfl⟩
  · exact List.nil_sublist _
  · exact .refl _
  · exact List.nil_sublist _
  · exact List.nil_sublist _

theorem dispatchLs_kinds (f : State) : ((dispatchLs f).2.map Msg.kind).Sublist [.getAddr, .writeBack] := by
  rcases dispatchLs_cases f with ⟨-, h⟩ | ⟨r, bank, -, h⟩ <;> rw [h]
  · exact List.nil_sublist _
  · rcases dispatchMsgs_cases r with ⟨o, -, hm⟩ | ⟨o, -, hm⟩ <;> rw [hm]
    · exact List.sublist_append_left [MsgKind.getAddr] [.writeBack]
    · exact .refl _

/-- The most that one Execute can emit, kind by kind, where commit's message has the kind `k` (R146). -/
def busKinds (k : MsgKind) : List MsgKind :=
  [k] ++ [.writeBack] ++ [.writeBack] ++ [.writeBack] ++ [.writeBack] ++ [.writeBack] ++ [.storeSuccess] ++
    [.getAddr, .writeBack]

theorem emitted_kinds {f : State} {c : Commit} {l : LoadOut} {st : StoreOut} (hc : commit f = .ok c)
    (hl : loadStage f = .ok l) (hs : storeStage f = .ok st) :
    ∃ k, (k = .commitReg ∨ k = .commitMem) ∧ ((emitted f c l st).map Msg.kind).Sublist (busKinds k) := by
  obtain ⟨k, hk, hcommit⟩ := commit_kinds hc
  refine ⟨k, hk, ?_⟩
  simp only [emitted, List.map_append]
  exact (((((((hcommit.append (unitStep_kinds ..)).append (unitStep_kinds ..)).append (unitStep_kinds ..)).append
    (unitStep_kinds ..)).append (loadStage_kinds hl)).append (storeStage_kinds hs)).append (dispatchLs_kinds f))

/-- One Execute emits at most nine messages, so no admitted bus overflows (60_exceptions.md R422). -/
theorem emitted_length_le {f : State} {c : Commit} {l : LoadOut} {st : StoreOut} (hc : commit f = .ok c)
    (hl : loadStage f = .ok l) (hs : storeStage f = .ok st) : (emitted f c l st).length ≤ 9 := by
  obtain ⟨k, -, h⟩ := emitted_kinds hc hl hs
  simpa [busKinds] using h.length_le

/-- Messages of some kinds are no more than those kinds are in a list of kinds. -/
theorem filter_kind_length_le {ms : List Msg} {ks : List MsgKind} (h : (ms.map Msg.kind).Sublist ks)
    (p : MsgKind → Bool) : (ms.filter fun m => p m.kind).length ≤ (ks.filter p).length := by
  have hle := (h.filter p).length_le
  rwa [List.filter_map, List.length_map] at hle

/-- Settles O53: the merge copies what no unit writes, and the kinds of the messages are among those of R146. -/
theorem executeBoundsAndFrame : Obligations.ExecuteBoundsAndFrame := by
  intro s f t h
  obtain ⟨c, l, st, i, r, hx⟩ := h.executed
  obtain ⟨k, hk, hkinds⟩ := emitted_kinds hx.commit hx.load hx.store
  have hlen := emitted_length_le hx.commit hx.load hx.store
  obtain rfl := hx.merged
  have hbound := filter_kind_length_le hkinds
  refine ⟨rfl, rfl, rfl, rfl, hlen, (hbound (· == .writeBack)).trans ?_, (hbound (· == .getAddr)).trans ?_,
    (hbound fun k => k == .commitReg || k == .commitMem).trans ?_, (hbound (· == .storeSuccess)).trans ?_⟩ <;>
    rcases hk with rfl | rfl <;> decide

end Sys2Proof.Machine
end

section
/-! SUPPORT. What the fetch port delivers: the canonical record of the word, by the table of 41_issue_unit.md R163, in a
step and in an `exec` alike, and what fetch makes of it (R160 to R165). -/

namespace Sys2Proof.Machine

/-! ## The record each instruction enters with is the canonical one (R163) -/

/-- The sentinel word is the sentinel's alone (43_addsub.md R243; log 9). -/
theorem encode_eq_haltWord_iff {i : Instr} (h : i.wellFormed = true) : encode i = haltWord ↔ i = .halt := by
  refine ⟨fun hw => ?_, fun hi => hi ▸ rfl⟩
  have hd := decode_encode h
  rw [hw] at hd
  exact Except.ok.inj (hd.symm.trans (decode_encode (i := .halt) rfl))

theorem canon_of_ne_haltWord {w : Word} (h : w ≠ haltWord) (d : DRec) (pc : Word) (p : Bool) :
    canon d w pc p = ⟨w, pc, d.mn, d.cls, opOf d.mn, canonRd d, canonSrc1 d pc, canonSrc2 d, d.imm,
      if d.cls = .branch then some p else none, false⟩ := if_neg h

/-- Each meaning enters the record that the table makes of the decoder's operands, class by class. -/
theorem exec_eq_enter_fetchedRecord {i : Instr} (h : i.wellFormed = true) (s : State) :
    exec i s = enter (fetchedRecord i) s := by
  by_cases hi : i = .halt
  · subst hi
    rfl
  · have hrec : fetchedRecord i = fun f => ⟨encode i, f.pc, i.drec.mn, i.drec.cls, opOf i.drec.mn, canonRd i.drec,
        canonSrc1 i.drec f.pc, canonSrc2 i.drec, i.drec.imm,
        if i.drec.cls = .branch then some (predict f.cfg.predictor f.pred f.pc) else none, false⟩ :=
      funext fun f => canon_of_ne_haltWord (mt (encode_eq_haltWord_iff h).mp hi) ..
    rw [hrec]
    cases i with
    | halt => exact absurd rfl hi
    | _ => rfl

/-- A word of no row enters with the canonical record of its decoded record, which is INVALID (30_encoding.md R118). -/
theorem invalidRecord_eq_canon {w : Word} {e : DecodeError} (h : decode w = .error e) (f : State) (p : Bool) :
    invalidRecord w f = canon (decodeRecord w) w f.pc p := by
  have hne : w ≠ haltWord := by
    rintro rfl
    exact nomatch h.symm.trans (decode_encode (i := .halt) rfl)
  rw [canon_of_ne_haltWord hne, decodeRecord_of_error h]
  rfl

/-! ## What a tick's port delivers -/

/-- The record the port delivers for a word (R161, R163, R164). -/
def deliveredRecord (w : Word) (f : State) : IRec :=
  canon (decodeRecord w) w f.pc (predict f.cfg.predictor f.pred f.pc)

theorem fetchedRecord_eq_delivered {i : Instr} (h : i.wellFormed = true) :
    fetchedRecord i = deliveredRecord (encode i) := by
  funext f
  unfold fetchedRecord deliveredRecord
  rw [decodeRecord_of_ok (decode_encode h)]

/-- A tick that delivers `w`, decoded as `d`, is the tick that enters its canonical record, and `d` is what the decoder
makes of `w`. -/
theorem Delivers.enters {d : DRec} {w : Word} {s t : State} (h : Delivers d w s t) :
    d = decodeRecord w ∧ enter (deliveredRecord w) s = .next t := by
  have hexec : ∀ i : Instr, i.wellFormed = true → exec i s = .next t → enter (deliveredRecord (encode i)) s = .next t :=
    fun i hi he => by rw [← fetchedRecord_eq_delivered hi, ← exec_eq_enter_fetchedRecord hi, he]
  rcases h with ⟨hw, rfl, hstep⟩ | ⟨i, hi, rfl, rfl, he⟩
  · refine ⟨rfl, ?_⟩
    rcases hd : decode w with e | i
    · have hrec : invalidRecord w = deliveredRecord w := funext fun f => invalidRecord_eq_canon hd f _
      rw [← hrec, ← hstep, step_of_invalid hw hd]
      rfl
    · obtain ⟨rfl, hi⟩ := isWordOf_decode hd
      exact hexec i hi (step_of_fetchWord hw hd ▸ hstep)
  · exact ⟨(decodeRecord_of_ok (decode_encode hi)).symm, hexec i hi he⟩

/-! ## What fetch makes of the record (R162, R165) -/

theorem decodeRecord_haltWord : decodeRecord haltWord = Instr.halt.drec :=
  decodeRecord_of_ok (decode_encode (i := .halt) rfl)

/-- R162. -/
theorem fetchNextPc_delivered (w : Word) (f : State) :
    fetchNextPc (deliveredRecord w f) = tableNextPc (decodeRecord w) f.pc (predict f.cfg.predictor f.pred f.pc) := by
  unfold deliveredRecord
  by_cases hw : w = haltWord
  · rw [hw, decodeRecord_haltWord]
    rfl
  · rw [canon_of_ne_haltWord hw]
    by_cases hb : (decodeRecord w).cls = .branch <;> simp [fetchNextPc, tableNextPc, hb]

theorem opOf_eq_jalr_iff (mn : Mnemonic) : opOf mn = some (.add .jalr) ↔ mn = .jalr := by
  cases mn <;> decide

/-- R165. -/
theorem fetchStalls_delivered (w : Word) (f : State) :
    fetchStalls (deliveredRecord w f) = decide ((decodeRecord w).mn = .jalr ∨ w = haltWord) := by
  unfold deliveredRecord
  by_cases hw : w = haltWord
  · simp [hw, canon, fetchStalls]
  · rw [canon_of_ne_haltWord hw]
    simp [fetchStalls, hw, ← opOf_eq_jalr_iff, Bool.beq_eq_decide_eq]

theorem stallsFetch_iff {i : Instr} (h : i.wellFormed = true) :
    stallsFetch i = decide (i.drec.mn = .jalr ∨ encode i = haltWord) := by
  by_cases hi : i = .halt
  · subst hi
    rfl
  · simp only [mt (encode_eq_haltWord_iff h).mp hi, or_false]
    cases i with
    | halt => exact absurd rfl hi
    | _ => rfl

end Sys2Proof.Machine
end

section
/-! SUPPORT. The parts of the next state that fetch writes: the queue's tail, the stall, the next pc (40_clock_and_bus.md
R133, R138; 41_issue_unit.md R160 to R165). -/

namespace Sys2Proof.Machine

/-! ## The tick of a known port -/

theorem fetchGate_iff {f : State} : fetchGate f = true ↔ FetchOpen f := by
  simp [fetchGate, FetchOpen]

theorem fetchGate_eq_false_iff {f : State} : fetchGate f = false ↔ ¬ FetchOpen f := by
  rw [← fetchGate_iff, Bool.not_eq_true]

/-- The Execute of a completed tick is the one its port makes. -/
theorem Ticks.execute {s f t : State} {port : FetchPort} (h : Ticks s f t) (hp : tickOutcome port s = .next t) :
    execute port f = .ok t := by
  obtain ⟨-, rfl⟩ := tickOutcome_eq_next hp
  have hgoes := h.goes
  rcases tick_cases port s with ⟨-, ht⟩ | ⟨-, a, -, ht⟩ | ⟨-, f', a, -, -, ht⟩ | ⟨-, f', t, hf, he, ht⟩
  · simp [ht] at hgoes
  · simp [ht] at hgoes
  · simp [ht] at hgoes
  · obtain rfl : f' = f := Except.ok.inj (hf.symm.trans h.flushed)
    rw [ht, he]

/-- With the fetch gate open, the record delivered is what the Execute fetches. -/
theorem Ticks.executed_of_delivers {s f t : State} {d : DRec} {w : Word} (h : Ticks s f t) (ho : FetchOpen f)
    (hd : Delivers d w s t) : ∃ c l st i, Executed f t c l st i (some (deliveredRecord w f)) := by
  obtain ⟨-, he⟩ := hd.enters
  obtain ⟨c, l, st, i, r, hr, hx⟩ := execute_executed (h.execute he)
  obtain rfl := Except.ok.inj (hr.symm.trans (fetch_of_open (fetchGate_iff.mpr ho) rfl))
  exact ⟨c, l, st, i, hx⟩

/-- With the fetch gate closed, nothing is fetched. -/
theorem Ticks.executed_of_closed {s f t : State} (h : Ticks s f t) (hc : ¬ FetchOpen f) :
    ∃ c l st i, Executed f t c l st i none := by
  obtain ⟨-, -, f', port, hf, -, he⟩ := h.next.phases h.goes
  obtain rfl : f' = f := Except.ok.inj (hf.symm.trans h.flushed)
  obtain ⟨c, l, st, i, r, hr, hx⟩ := execute_executed he
  obtain rfl := Except.ok.inj (hr.symm.trans (fetch_of_closed (fetchGate_eq_false_iff.mpr hc)))
  exact ⟨c, l, st, i, hx⟩

section
variable {f t : State} {c : Commit} {l : LoadOut} {st : StoreOut} {i : IssueOut} {r : Option IRec}

/-! ## The instruction queue and the stall -/

/-- Issue takes the head exactly where it fills the latch (41_issue_unit.md R170, R177). -/
theorem issue_iq {o : IssueOut} (h : issue f = .ok o) : o.iq = if o.latch = none then f.iq else f.iq.tail := by
  rcases issue_effect h with ⟨hq, hl, -⟩ | ⟨rec, rest, op, hq, -, -, rfl⟩
  · rw [hl, if_pos rfl, hq]
  · simp [hq]

theorem nextIq_eq (i : IssueOut) (r : Option IRec) : nextIq i r = i.iq ++ r.toList := by
  cases r <;> simp [nextIq]

theorem Executed.iq (h : Executed f t c l st i r) :
    t.iq = (if t.latch = none then f.iq else f.iq.tail) ++ r.toList := by
  rw [h.merged, merge_iq, merge_latch, nextIq_eq, ← issue_iq h.issue]

theorem Executed.stall_of_fetched {x : IRec} (h : Executed f t c l st i (some x)) (hs : f.stall = false) :
    t.stall = fetchStalls x := by
  rw [h.merged, merge_stall, nextStall, hs]
  cases fetchStalls x <;> rfl

theorem Executed.stall_of_not_fetched (h : Executed f t c l st i none) (ht : t.stall = true) : f.stall = true := by
  rw [h.merged, merge_stall, nextStall] at ht
  exact (Bool.and_eq_true_iff.mp ht).1

end

/-- Settles O13: by the fetch gate, what the Execute fetches is the delivered record or nothing. -/
theorem fetchAppendsCanonicalRecord : Obligations.FetchAppendsCanonicalRecord := by
  intro s f t h
  refine ⟨fun ho d w hd => ?_, fun hc => ?_⟩
  · obtain ⟨rfl, -⟩ := hd.enters
    obtain ⟨c, l, st, i, hx⟩ := h.executed_of_delivers ho hd
    obtain ⟨hs, -⟩ := ho
    exact ⟨hx.iq, (hx.stall_of_fetched hs).trans (fetchStalls_delivered w f)⟩
  · obtain ⟨c, l, st, i, hx⟩ := h.executed_of_closed hc
    exact ⟨by simpa using hx.iq, hx.stall_of_not_fetched⟩

/-! ## The next pc -/

section
variable {f t : State} {c : Commit} {l : LoadOut} {st : StoreOut} {i : IssueOut} {r : Option IRec}

/-- Commit redirects fetch for a JALR and for a mispredicted branch, and for nothing else (48_reorder_commit.md R388,
R389). -/
theorem commitHead_redirect {e : RobEntry} {rest : List RobEntry} (he : f.rob.entries = e :: rest)
    (hw : e.state = .write) : (commitHead f e).redirect = redirectOf f := by
  rcases commitHead_cases f e with ⟨hh, hc⟩ | ⟨hh, hop, hc⟩ | ⟨hh, ⟨o, hop, hb⟩, hc⟩ | ⟨hh, hs, hc⟩ |
    ⟨hh, hj, hb, hs, hc⟩ <;> rw [hc]
  · simp [commitHalt, Commit.nothing, redirectOf, he, hh]
  · simp [commitJalr, redirectOf, he, hw, hh, hop]
  · by_cases hp : e.instr.pred = some e.outcome <;>
      simp_all [commitBranch, redirectOf, RobEntry.outcome, correctedTarget, branchTarget]
  · obtain ⟨o, hop⟩ : ∃ o, e.instr.op = some (.ls (.store o)) := by
      unfold RobEntry.isStore at hs
      split at hs
      · exact ⟨_, ‹_›⟩
      · cases hs
    simp [commitStore, Commit.nothing, redirectOf, he, hop]
  · have hnone : redirectOf f = none := by
      unfold redirectOf
      rw [he]
      split
      · cases ‹_›
      · rename_i heq
        cases heq
        split
        · split
          · exact absurd ‹_› hj
          · rename_i o hop
            simp [hb o hop]
          · rfl
        · rfl
    rw [hnone]
    rfl

theorem commit_redirect (h : commit f = .ok c) : c.redirect = redirectOf f := by
  have hnone : ∀ e rest, f.rob.entries = e :: rest → e.state ≠ .write → redirectOf f = none := fun e rest he hw => by
    simp [redirectOf, he, hw]
  rcases commit_cases h with ⟨he, rfl⟩ | ⟨e, rest, he, hi, rfl⟩ | ⟨e, rest, he, hw, -, rfl⟩ | ⟨e, rest, he, hw, rfl⟩
  · simp [redirectOf, he, Commit.nothing]
  · exact (hnone e rest he (by simp [hi])).symm
  · exact (hnone e rest he (by simp [hw])).symm
  · exact commitHead_redirect he hw

theorem nextPc_eq (f : State) (c : Commit) (r : Option IRec) :
    nextPc f c r = c.redirect.getD ((r.map fetchNextPc).getD f.pc) := by
  unfold nextPc
  cases c.redirect <;> cases r <;> rfl

/-- R138. -/
theorem Executed.pc (h : Executed f t c l st i r) :
    t.pc = (redirectOf f).getD ((r.map fetchNextPc).getD f.pc) := by
  rw [h.merged, merge_pc, nextPc_eq, commit_redirect h.commit]

end

/-- Settles O14: the redirect is commit's, and the record fetched, if any, is the delivered one. -/
theorem nextPcByPriority : Obligations.NextPcByPriority := by
  intro s f t h
  refine ⟨fun target hr => ?_, fun hr => ⟨fun ho d w hd => ?_, fun hc => ?_⟩⟩
  · obtain ⟨c, l, st, i, r, hx⟩ := h.executed
    rw [hx.pc, hr]
    rfl
  · obtain ⟨rfl, -⟩ := hd.enters
    obtain ⟨c, l, st, i, hx⟩ := h.executed_of_delivers ho hd
    rw [hx.pc, hr]
    exact fetchNextPc_delivered w f
  · obtain ⟨c, l, st, i, hx⟩ := h.executed_of_closed hc
    rw [hx.pc, hr]
    rfl

/-! ## The drained machine -/

/-- The state in which a record alone has entered the drained machine. -/
def withRecord (s : State) (x : IRec) : State :=
  { s with iq := [x], pc := fetchNextPc x, stall := fetchStalls x, cycle := s.cycle + 1, full := FullFlags.none }

/-- With nothing behind the latch, a tick changes what issue and fetch write, and nothing else. -/
theorem BackEmpty.frontMerged_eq {h : Nat} {f : State} (hb : BackEmpty h f) (i : IssueOut) (r : Option IRec) :
    frontMerged f i r = { f with
      tag := nextTags f (Commit.nothing f) i
      pc := nextPc f (Commit.nothing f) r
      stall := nextStall f (Commit.nothing f) r
      cycle := f.cycle + 1
      iq := nextIq i r
      latch := i.latch } := by
  have hrs := (hb.merged i r).rs.trans hb.rs.symm
  have hfu := (hb.merged i r).fu.trans hb.fu.symm
  simp only [frontMerged, merge_rs, merge_fu] at hrs hfu
  simp only [frontMerged, merge, State.mk.injEq]
  exact ⟨trivial, rfl, trivial, trivial, trivial, trivial, Bool.or_false _, Bool.or_false _, trivial, trivial, trivial,
    hrs, hfu, hb.lq.symm, hb.sq.symm, hb.ldst.symm, hb.stst.symm, rfl, hb.bus.symm, trivial, rfl, trivial⟩

/-- The record enters alone, and every structure has room. -/
theorem Drained.frontMerged_eq {s : State} (hd : Drained s) (hc : s.cfg.wf) (x : IRec) :
    frontMerged (setFull s) ⟨[], none, none⟩ (some x) = withRecord s x := by
  have hstall : nextStall (setFull s) (Commit.nothing (setFull s)) (some x) = fetchStalls x := by
    simp [nextStall, hd.stall]
  have hfull : fullFlags s = FullFlags.none := hd.backEmpty.fullFlags hc
  rw [hd.backEmpty.setFull.frontMerged_eq, hstall, withRecord, ← hfull, ← hd.latch]
  rfl

theorem Drained.exec_eq {s : State} {i : Instr} (hd : Drained s) (hc : s.cfg.wf) (hi : i.wellFormed = true) :
    exec i s = .next (withRecord s (fetchedRecord i s)) := by
  rw [exec_eq_enter_fetchedRecord hi, hd.enter_eq hc, hd.frontMerged_eq hc]
  rfl

/-- Settles O12: the record that enters is canonical, and fetch chooses its next pc and its stall by it. -/
theorem execEntersDrainedPipeline : Obligations.ExecEntersDrainedPipeline := by
  intro i s hi hd hc
  have hdec : decodeRecord (encode i) = i.drec := decodeRecord_of_ok (decode_encode hi)
  have hpc : fetchNextPc (fetchedRecord i s) = tableNextPc i.drec s.pc (predict s.cfg.predictor s.pred s.pc) := by
    rw [fetchedRecord_eq_delivered hi, fetchNextPc_delivered, hdec]
  have hstall : fetchStalls (fetchedRecord i s) = stallsFetch i := by
    rw [fetchedRecord_eq_delivered hi, fetchStalls_delivered, hdec, stallsFetch_iff hi]
  rw [hd.exec_eq hc hi, withRecord, hpc, hstall]
  rfl

end Sys2Proof.Machine
end

section
/-! SUPPORT. Why a Flush can abort at all: the latch's entries always have room, so only the checks of the bus messages
against the structures are left (60_exceptions.md R422, R425; 40_clock_and_bus.md R131, R137). -/

namespace Sys2Proof.Machine

/-! ## The reactions that abort, one unit each -/

theorem onWriteBack_eq_error {s : State} {m : Msg} {a : Abort} (h : onWriteBack s m = .error a) :
    m.kind = .writeBack ∧ s.robAt m.idx = none ∧ a = .protocolViolation (.writeBackDead m.idx m.data) s.cycle := by
  unfold onWriteBack at h
  split at h
  · split at h <;> cases h
    exact ⟨‹_›, ‹_›, rfl⟩
  all_goals cases h

theorem headAwaitsStore_of_headWaits {s : State} {i : Nat} (h : HeadWaits s i) : headAwaitsStore s i = true := by
  obtain ⟨e, rest, he, rfl, hw⟩ := h
  simp [headAwaitsStore, he, hw]

theorem onStoreSuccess_eq_error {s : State} {m : Msg} {a : Abort} (h : onStoreSuccess s m = .error a) :
    m.kind = .storeSuccess ∧ ¬ HeadWaits s m.idx ∧ a = .protocolViolation (.storeSuccessMismatch m.idx) s.cycle := by
  unfold onStoreSuccess at h
  split at h
  · split at h <;> cases h
    exact ⟨‹_›, fun hw => absurd (headAwaitsStore_of_headWaits hw) ‹_›, rfl⟩
  all_goals cases h

theorem onGetAddr_eq_error {s : State} {m : Msg} {a : Abort} (h : onGetAddr s m = .error a) :
    m.kind = .getAddr ∧ lsbMatches s m.idx ≠ 1 ∧
      a = .protocolViolation (.getAddrWithoutEntry m.idx m.data) s.cycle := by
  unfold onGetAddr at h
  split at h
  · split at h <;> cases h
    exact ⟨‹_›, ‹_›, rfl⟩
  all_goals cases h

theorem onCommitMem_eq_error {s : State} {m : Msg} {a : Abort} (h : onCommitMem s m = .error a) :
    m.kind = .commitMem ∧ (∀ e rest, s.sq = e :: rest → ¬ (e.dest = m.idx ∧ e.ready = true)) ∧
      a = .protocolViolation (.commitMemMismatch m.idx m.data) s.cycle := by
  unfold onCommitMem at h
  split at h
  · split at h
    · rename_i hk _ e rest hq
      split at h <;> cases h
      refine ⟨hk, fun e' rest' hq' => ?_, rfl⟩
      cases hq.symm.trans hq'
      assumption
    · rename_i hk _ hq
      cases h
      exact ⟨hk, fun e' rest' hq' => by simp [hq] at hq', rfl⟩
  all_goals cases h

/-- A check of a bus message failed (R425). -/
def BusMismatch (a : Abort) : Prop := ∃ p c, a = .protocolViolation p c ∧ p ≠ .storeStageWithoutHead

theorem absorbAll_busMismatch {g : State → Msg → Except Abort State} {s : State} {ms : List Msg} {a : Abort}
    (hg : ∀ s m, g s m = .error a → BusMismatch a) (h : absorbAll g s ms = .error a) : BusMismatch a := by
  obtain ⟨s', m, -, -, he⟩ := absorbAll_error (P := fun _ => True) (fun _ _ _ _ _ => trivial) trivial h
  exact hg s' m he

/-! ## The insertions that abort: there is no room (R422) -/

theorem insertRob_eq_error {s : State} {a : Abort} (h : insertRob s = .error a) :
    ∃ l, s.latch = some l ∧ ¬ s.rob.entries.length < s.cfg.robCap ∧
      a = .structuralOverflow .reorderBuffer s.cycle := by
  unfold insertRob at h
  split at h
  · cases h
  · split at h <;> cases h
    exact ⟨_, ‹_›, ‹_›, rfl⟩

theorem insertLsb_eq_error {s : State} {a : Abort} (h : insertLsb s = .error a) :
    ∃ l o, s.latch = some l ∧ ¬ queueHasRoom s l.lsbEntry ∧ a = .structuralOverflow o s.cycle := by
  unfold insertLsb at h
  split at h
  · cases h
  · rename_i l hl
    split at h
    · cases h
    all_goals
      rename_i e he
      split at h <;> cases h
      exact ⟨l, _, hl, he ▸ ‹_›, rfl⟩

theorem insertRs_eq_error {s : State} {a : Abort} (h : insertRs s = .error a) :
    ∃ l, s.latch = some l ∧ ¬ bankHasRoom s.rs l.rsEntry.op.bank ∧
      a = .structuralOverflow (.reservationBank l.rsEntry.op.bank) s.cycle := by
  unfold insertRs at h
  split at h
  · cases h
  · rename_i l hl
    refine ⟨l, hl, ?_⟩
    split at h <;> rename_i o ho <;> rw [ho] <;> split at h <;> cases h <;>
      exact ⟨insertFree_eq_none_iff.mp ‹_›, rfl⟩

/-! ## The Flush that aborts -/

theorem flush_eq_error {s : State} {a : Abort} (h : flush s = .error a) : flushUnits s = .error a := by
  unfold flush at h
  split at h
  · cases h
  · rcases hu : flushUnits s with b | s' <;> simp [hu, bind, Except.bind, pure, Except.pure] at h
    rw [h]

/-- An abandoned Flush: the first unit that aborts, and what the units before it left. -/
theorem flushUnits_eq_error {s : State} {a : Abort} (h : flushUnits s = .error a) :
    absorbAll onWriteBack s s.bus = .error a ∨ ∃ s₁, absorbAll onWriteBack s s.bus = .ok s₁ ∧
      (absorbAll onStoreSuccess s₁ s.bus = .error a ∨ ∃ s₂, absorbAll onStoreSuccess s₁ s.bus = .ok s₂ ∧
        (insertRob s₂ = .error a ∨ ∃ s₃, insertRob s₂ = .ok s₃ ∧
          (insertLsb s₃ = .error a ∨ ∃ s₄, insertLsb s₃ = .ok s₄ ∧
            (absorbAll onGetAddr s₄ s.bus = .error a ∨ ∃ s₅, absorbAll onGetAddr s₄ s.bus = .ok s₅ ∧
              (absorbAll onCommitMem s₅ s.bus = .error a ∨ ∃ s₆, absorbAll onCommitMem s₅ s.bus = .ok s₆ ∧
                insertRs s₆ = .error a))))) := by
  unfold flushUnits at h
  rcases h₁ : absorbAll onWriteBack s s.bus with b | s₁ <;> simp [h₁, bind, Except.bind] at h ⊢
  · exact h
  rcases h₂ : absorbAll onStoreSuccess s₁ s.bus with b | s₂ <;> simp [h₂] at h ⊢
  · exact h
  rcases h₃ : insertRob s₂ with b | s₃ <;> simp [h₃] at h ⊢
  · exact h
  rcases h₄ : insertLsb s₃ with b | s₄ <;> simp [h₄] at h ⊢
  · exact h
  rcases h₅ : absorbAll onGetAddr s₄ s.bus with b | s₅ <;> simp [h₅] at h ⊢
  · exact h
  rcases h₆ : absorbAll onCommitMem s₅ s.bus with b | s₆ <;> simp [h₆] at h ⊢
  · exact h
  rcases h₇ : insertRs s₆ with b | s₇ <;> simp [h₇, pure, Except.pure] at h ⊢
  exact h

/-! ## The latch always fits (R137) -/

/-- The room the latch needs, part by part. -/
theorem CapacityInv.room {s : State} (h : CapacityInv s) {l : Latch} (hl : s.latch = some l) :
    s.rob.entries.length < s.cfg.robCap ∧ bankHasRoom s.rs l.rsEntry.op.bank ∧ queueHasRoom s l.lsbEntry := by
  have hfits := h.latch
  simpa only [latchFits, hl] using hfits

theorem queueHasRoom_congr {s t : State} (hl : t.lq = s.lq) (hs : t.sq = s.sq) (hc : t.cfg = s.cfg)
    (e : Option LsbEntry) : queueHasRoom t e ↔ queueHasRoom s e := by
  unfold queueHasRoom
  rw [hl, hs, hc]

/-- Which absorption abandons the Flush of a machine within its capacities: the two of the reorder buffer, or one of the
two of the load/store buffer, in the queues that the latch's entry has joined. -/
theorem flushUnits_mismatch {s : State} {a : Abort} (hcap : CapacityInv s) (h : flushUnits s = .error a) :
    absorbAll onWriteBack s s.bus = .error a ∨
    (∃ s₁, absorbAll onWriteBack s s.bus = .ok s₁ ∧ absorbAll onStoreSuccess s₁ s.bus = .error a) ∨
    ∃ s₄, s₄.lq = loadsInserted s ∧ s₄.sq = storesInserted s ∧
      (absorbAll onGetAddr s₄ s.bus = .error a ∨
        ∃ s₅, absorbAll onGetAddr s₄ s.bus = .ok s₅ ∧ absorbAll onCommitMem s₅ s.bus = .error a) := by
  rcases flushUnits_eq_error h with h | ⟨s₁, h₁, h⟩
  · exact .inl h
  rcases h with h | ⟨s₂, h₂, h⟩
  · exact .inr (.inl ⟨s₁, h₁, h⟩)
  obtain ⟨es, rfl, hes⟩ := absorb_onWriteBack_frame h₁
  obtain ⟨-, -, -, hlen, -⟩ := absorb_onStoreSuccess_live (s := { s with rob := ⟨s.rob.head, es⟩ }) hcap.head h₂
  obtain ⟨r, rfl⟩ := absorb_onStoreSuccess_frame h₂
  rcases h with h | ⟨s₃, h₃, h⟩
  · obtain ⟨l, hl, hfull, -⟩ := insertRob_eq_error h
    obtain ⟨hroom, -, -⟩ := hcap.room hl
    exact absurd (hlen.trans_lt (hes.trans_lt hroom)) hfull
  obtain ⟨r', rfl⟩ := insertRob_frame h₃
  rcases h with h | ⟨s₄, h₄, h⟩
  · obtain ⟨l, -, hl, hfull, -⟩ := insertLsb_eq_error h
    obtain ⟨-, -, hroom⟩ := hcap.room hl
    exact absurd ((queueHasRoom_congr rfl rfl rfl _).mpr hroom) hfull
  obtain ⟨rfl, -, -⟩ := insertLsb_queues (s := { s with rob := r' }) hcap.lq hcap.sq h₄
  refine .inr (.inr ⟨_, rfl, rfl, h.imp_right ?_⟩)
  rintro ⟨s₅, h₅, h | ⟨s₆, h₆, h⟩⟩
  · exact ⟨s₅, h₅, h⟩
  obtain ⟨u, v, rfl, -, -⟩ := absorb_onGetAddr_frame h₅
  obtain ⟨q, rfl, -⟩ := absorb_onCommitMem_queue h₆
  obtain ⟨l, hl, hfull, -⟩ := insertRs_eq_error h
  obtain ⟨-, hroom, -⟩ := hcap.room hl
  exact absurd hroom hfull

end Sys2Proof.Machine
end

section
/-! SUPPORT. In a machine of both invariants every message on the bus is for what it says, so that no Flush aborts
(60_exceptions.md R422, R425; 10_state.md R44). -/

namespace Sys2Proof.Machine

section
variable {s : State} {a : Abort}

/-! ## WriteBack: the index is live (R383) -/

/-- Which indices are live depends on the head and the number of entries alone. -/
theorem State.robAt_eq_none_congr {s t : State} (hc : t.cfg = s.cfg) (hh : t.rob.head = s.rob.head)
    (hl : t.rob.entries.length = s.rob.entries.length) (i : Nat) : t.robAt i = none ↔ s.robAt i = none := by
  unfold State.robAt State.robOffset
  rw [hc, hh]
  by_cases hi : i < s.cfg.robCap
  · simp [hi, hl]
  · simp [hi]

theorem absorb_onWriteBack_fits (hs : Inv s) (hi : InFlightInv s) :
    absorbAll onWriteBack s s.bus ≠ .error a := fun h => by
  obtain ⟨t, m, ⟨hc, hh, hl⟩, hm, he⟩ := absorbAll_error
    (P := fun t => t.cfg = s.cfg ∧ t.rob.head = s.rob.head ∧ t.rob.entries.length = s.rob.entries.length)
    (by
      rintro t m t' ⟨hc, hh, hl⟩ ht
      rcases onWriteBack_eq_ok ht with ⟨-, rfl⟩ | ⟨-, e, -, rfl⟩
      · exact ⟨hc, hh, hl⟩
      · exact ⟨hc, hh, by simpa using hl⟩) ⟨rfl, rfl, rfl⟩ h
  obtain ⟨hk, hdead, -⟩ := onWriteBack_eq_error he
  obtain ⟨e, hlive, -⟩ := hi.results m.idx (mem_sent.mpr ⟨m, hm, hk, rfl⟩)
  rw [State.mem_live_iff hs.capacity.head hs.capacity.rob] at hlive
  rw [State.robAt_eq_none_congr hc hh hl, hlive] at hdead
  cases hdead

/-! ## StoreSuccess: the head waits for its store (R384) -/

/-- A unit reacts to the messages of its kind alone. -/
theorem absorbAll_eq_filter {g : State → Msg → Except Abort State} {k : MsgKind}
    (hg : ∀ s m, m.kind ≠ k → g s m = .ok s) (s : State) (ms : List Msg) :
    absorbAll g s ms = absorbAll g s (ms.filter fun m => m.kind == k) := by
  induction ms generalizing s with
  | nil => rfl
  | cons m ms ih =>
    by_cases hm : m.kind = k
    · rw [List.filter_cons_of_pos (by simpa using hm), absorbAll, absorbAll]
      cases g s m with
      | ok s' => exact ih s'
      | error a => rfl
    · rw [List.filter_cons_of_neg (by simpa using hm), absorbAll, hg s m hm]
      exact ih s

theorem onStoreSuccess_of_other (s : State) (m : Msg) (h : m.kind ≠ .storeSuccess) : onStoreSuccess s m = .ok s := by
  unfold onStoreSuccess
  split
  · exact absurd ‹_› h
  all_goals rfl

/-- The head that waits for its store is announced by no WriteBack, so it still waits after they are absorbed. -/
theorem HeadWaits.absorb_onWriteBack {s₁ : State} {i : Nat} (hw : HeadWaits s i) (hs : Inv s) (hi : InFlightInv s)
    (h : absorbAll onWriteBack s s.bus = .ok s₁) : HeadWaits s₁ i := by
  obtain ⟨rfl, e, rest, hl, hst⟩ := hw.live
  obtain ⟨g, hg, hlive⟩ := absorb_onWriteBack_live hs.capacity.head hs.capacity.rob h
  have hnot : s.rob.head ∉ sent s.bus .writeBack := fun hm => by
    obtain ⟨e', he', hissue, -⟩ := hi.results _ hm
    cases hs.capacity.live_unique (hl ▸ List.mem_cons_self) he'
    simp [hst] at hissue
  rw [hl] at hlive
  exact headWaits_of_live hlive (by simp [hg.state, hnot, hst])

theorem absorb_onStoreSuccess_fits {s₁ : State} (hs : Inv s) (hi : InFlightInv s)
    (h₁ : absorbAll onWriteBack s s.bus = .ok s₁) : absorbAll onStoreSuccess s₁ s.bus ≠ .error a := fun h => by
  rw [absorbAll_eq_filter onStoreSuccess_of_other] at h
  rcases hi.performed with hn | ⟨i, hsent, hw⟩
  · rw [List.map_eq_nil_iff.mp hn] at h
    cases h
  · obtain ⟨m, hm, rfl⟩ := List.map_eq_singleton_iff.mp hsent
    rw [hm, absorbAll] at h
    split at h
    · cases h
    · obtain ⟨-, hno, -⟩ := onStoreSuccess_eq_error ‹_›
      exact hno (hw.absorb_onWriteBack hs hi h₁)

/-! ## GetAddr: one queued entry has the index (R334) -/

theorem lsbMatches_eq_count (t : State) (i : Nat) :
    lsbMatches t i = (t.lq.map LoadEntry.dest ++ t.sq.map StoreEntry.dest).count i := by
  simp [lsbMatches, List.count_eq_length_filter, List.filter_map, Function.comp_def]

/-- A GetAddr on the bus is for one entry of the queues, which the latch's entry, of another index, has joined. -/
theorem count_of_getAddr (hs : Inv s) (hi : InFlightInv s) {i : Nat} (h : i ∈ sent s.bus .getAddr) :
    ((loadsInserted s).map LoadEntry.dest ++ (storesInserted s).map StoreEntry.dest).count i = 1 := by
  have hunknown : i ∈ addressUnknown s := hi.addresses.mem_iff.mp (List.mem_append_right _ h)
  have hmem : i ∈ s.lq.map LoadEntry.dest ++ s.sq.map StoreEntry.dest :=
    ((List.filter_sublist.map _).append (List.filter_sublist.map _)).subset hunknown
  have hnodup : (s.lq.map LoadEntry.dest ++ s.sq.map StoreEntry.dest).Nodup := by
    refine (memory_dests_nodup hs.capacity hi).sublist (List.Sublist.append_right ?_ _)
    exact (List.sublist_append_right _ _).map _
  have hlatched : ∀ p : Nat × RobEntry → Bool, ((s.latched.filter p).map Prod.fst).count i = 0 := fun p => by
    obtain ⟨e, he⟩ := live_of_getAddr hi h
    rw [List.count_eq_zero]
    intro hm
    obtain ⟨q, hq, rfl⟩ := List.mem_map.mp hm
    obtain ⟨l, hl, rfl⟩ := State.mem_latched.mp (List.mem_of_mem_filter hq)
    exact latch_not_live hs hl he
  obtain ⟨newLoads, hloads, -, hld⟩ := loadsInserted_eq hi.latch
  obtain ⟨newStores, hstores, -, hsd⟩ := storesInserted_eq hi.latch
  have hcount := List.count_eq_one_of_mem hnodup hmem
  rw [List.count_append] at hcount
  simp only [hloads, hstores, List.map_append, List.count_append, hld, hsd, hlatched]
  omega

theorem absorb_onGetAddr_fits {s₄ : State} (hs : Inv s) (hi : InFlightInv s) (hlq : s₄.lq = loadsInserted s)
    (hsq : s₄.sq = storesInserted s) : absorbAll onGetAddr s₄ s.bus ≠ .error a := fun h => by
  obtain ⟨t, m, ⟨hl, hst⟩, hm, he⟩ := absorbAll_error
    (P := fun t => t.lq.map LoadEntry.dest = s₄.lq.map LoadEntry.dest ∧
      t.sq.map StoreEntry.dest = s₄.sq.map StoreEntry.dest)
    (by
      rintro t m t' ⟨hl, hst⟩ ht
      rcases onGetAddr_eq_ok ht with ⟨-, rfl⟩ | ⟨-, -, rfl⟩
      · exact ⟨hl, hst⟩
      · have hdest : LoadEntry.dest ∘ LoadEntry.resolve m.idx m.data = LoadEntry.dest :=
          funext fun e => And.left (LoadEntry.resolve_ready _ _ e)
        have hdest' : StoreEntry.dest ∘ StoreEntry.resolve m.idx m.data = StoreEntry.dest :=
          funext fun e => And.left (StoreEntry.resolve_ready _ _ e)
        exact ⟨by rw [List.map_map, hdest, hl], by rw [List.map_map, hdest', hst]⟩) ⟨rfl, rfl⟩ h
  obtain ⟨hk, hno, -⟩ := onGetAddr_eq_error he
  rw [lsbMatches_eq_count, hl, hst, hlq, hsq] at hno
  exact hno (count_of_getAddr hs hi (mem_sent.mpr ⟨m, hm, hk, rfl⟩))

/-! ## CommitMem: the head store has the index and its address (R335) -/

/-- The head of the store queue has an index and its address. -/
def HeadStoreReady (q : List StoreEntry) (i : Nat) : Prop := ∃ e rest, q = e :: rest ∧ e.dest = i ∧ e.ready = true

/-- A head of the reorder buffer that waits for its store, not yet performed, is the head of the store queue. -/
theorem HeadWaits.headStoreReady {i : Nat} (hw : HeadWaits s i) (hs : Inv s) (hi : InFlightInv s)
    (hn : sent s.bus .storeSuccess = []) : HeadStoreReady s.sq i := by
  obtain ⟨rfl, r, rest, hl, hst⟩ := hw.live
  have hmem : (s.rob.head, r) ∈ s.live := hl ▸ List.mem_cons_self
  obtain ⟨-, -, -, hstore⟩ := hs.records.rob r (State.mem_entries_iff.mpr ⟨_, hmem⟩)
  have hdests : s.sq.map StoreEntry.dest = s.rob.head ::
      (rest.filter fun p => p.2.isStore && !(sent s.bus .storeSuccess).contains p.1).map Prod.fst := by
    rw [hi.stores]
    simp [storesHeld, hl, hstore hst, hn]
  obtain ⟨e, q, hq, hd, -⟩ := List.map_eq_cons_iff.mp hdests
  exact ⟨e, q, hq, hd, hi.ready e (hq ▸ List.mem_cons_self) r (hd ▸ hmem) (by simp [hst])⟩

theorem absorb_onCommitMem_fits {s₄ s₅ : State} (hs : Inv s) (hi : InFlightInv s) (hsq : s₄.sq = storesInserted s)
    (h₅ : absorbAll onGetAddr s₄ s.bus = .ok s₅) : absorbAll onCommitMem s₅ s.bus ≠ .error a := fun h => by
  have hready : ∀ i, i ∈ sent s.bus .commitMem → i = s.rob.head ∧ HeadStoreReady s₅.sq i := fun i hm => by
    obtain ⟨hw, hn⟩ := hi.released i hm
    obtain ⟨e, rest, hq, hd, hr⟩ := hw.headStoreReady hs hi hn
    obtain ⟨new, hnew, -⟩ := storesInserted_eq hi.latch
    obtain ⟨u, v, rfl, -, hv⟩ := absorb_onGetAddr_queues h₅
    obtain ⟨hve, -⟩ := hv e
    obtain ⟨hhead, -⟩ := hw.live
    exact ⟨hhead, v e, (rest ++ new).map v, by simp [hsq, hnew, hq], hve.dest.trans hd, by simp [hve.ready, hr]⟩
  obtain ⟨t, m, hP, hm, he⟩ := absorbAll_error
    (P := fun t => HeadStoreReady s₅.sq s.rob.head → HeadStoreReady t.sq s.rob.head)
    (by
      rintro t m t' hP ht hhead
      rcases onCommitMem_eq_ok ht with ⟨-, rfl⟩ | ⟨-, e, rest, hq, -, -, rfl⟩
      · exact hP hhead
      · obtain ⟨e', rest', hq', hd, hr⟩ := hP hhead
        cases hq.symm.trans hq'
        exact ⟨_, rest, rfl, hd, hr⟩) id h
  obtain ⟨hk, hno, -⟩ := onCommitMem_eq_error he
  obtain ⟨hidx, hhead⟩ := hready m.idx (mem_sent.mpr ⟨m, hm, hk, rfl⟩)
  obtain ⟨e, rest, hq, hd, hr⟩ := hP (hidx ▸ hhead)
  exact hno e rest hq ⟨hd.trans hidx.symm, hr⟩

/-! ## The Flush -/

/-- Within its capacities a machine's Flush is abandoned by a message that does not fit, and by nothing else. -/
theorem flush_busMismatch (hcap : CapacityInv s) (h : flush s = .error a) : BusMismatch a := by
  rcases flushUnits_mismatch hcap (flush_eq_error h) with h | ⟨s₁, -, h⟩ | ⟨s₄, -, -, h | ⟨s₅, -, h⟩⟩
  · refine absorbAll_busMismatch (fun t m he => ?_) h
    obtain ⟨-, -, rfl⟩ := onWriteBack_eq_error he
    exact ⟨_, _, rfl, by simp⟩
  · refine absorbAll_busMismatch (fun t m he => ?_) h
    obtain ⟨-, -, rfl⟩ := onStoreSuccess_eq_error he
    exact ⟨_, _, rfl, by simp⟩
  · refine absorbAll_busMismatch (fun t m he => ?_) h
    obtain ⟨-, -, rfl⟩ := onGetAddr_eq_error he
    exact ⟨_, _, rfl, by simp⟩
  · refine absorbAll_busMismatch (fun t m he => ?_) h
    obtain ⟨-, -, rfl⟩ := onCommitMem_eq_error he
    exact ⟨_, _, rfl, by simp⟩

/-- The Flush of a machine of both invariants completes. -/
theorem flush_completes (hs : Inv s) (hi : InFlightInv s) : flush s ≠ .error a := fun h => by
  rcases flushUnits_mismatch hs.capacity (flush_eq_error h) with h | ⟨s₁, h₁, h⟩ | ⟨s₄, hlq, hsq, h | ⟨s₅, h₅, h⟩⟩
  · exact absorb_onWriteBack_fits hs hi h
  · exact absorb_onStoreSuccess_fits hs hi h₁ h
  · exact absorb_onGetAddr_fits hs hi hlq hsq h
  · exact absorb_onCommitMem_fits hs hi hsq h₅ h

end

end Sys2Proof.Machine
end

section
/-! SUPPORT. The aborts that are left to an Execute of a flushed state of the invariant, and so to a tick: accesses
outside memory and INVALID words (60_exceptions.md R422 to R426; 40_clock_and_bus.md R137). -/

namespace Sys2Proof.Machine

/-- Commit aborts exactly on the combinations that R392 leaves over. -/
theorem commit_error {f : State} {a : Abort} (h : commit f = .error a) :
    ∃ e rest, f.rob.entries = e :: rest ∧ (e.state = .exec ∨ e.state = .waitSt ∧ e.isStore = false) ∧
      a = .unreachable f.rob.head f.cycle := by
  unfold commit at h
  split at h
  · cases h
  · rename_i e rest he
    split at h
    · cases h
    · cases h
      exact ⟨e, rest, he, .inl ‹_›, rfl⟩
    · cases h
    · split at h <;> cases h
      exact ⟨e, rest, he, .inr ⟨‹_›, by simpa using ‹¬ e.isStore = true›⟩, rfl⟩

theorem fetch_error {port : FetchPort} {f : State} {a : Abort} (h : fetch port f = .error a) : port f = .error a := by
  unfold fetch at h
  split at h
  · split at h <;> cases h
    assumption
  · cases h

/-- An abort that a program can reach: an access outside memory, or an INVALID word (R423, R424). -/
def ProgramAbort (a : Abort) : Prop :=
  (∃ addr n u c, a = .memoryOutOfRange addr n u c) ∨ ∃ w pc c, a = .unclassifiable w pc c

/-- The port delivers a record, or aborts where a program can. -/
def DeliversOrProgramAbort (port : FetchPort) : Prop := ∀ f a, port f = .error a → ProgramAbort a

/-- Every step and every `exec` is a tick with such a port. -/
theorem TickTo.port_aborts {s t : State} (h : TickTo s t) :
    ∃ port, DeliversOrProgramAbort port ∧ tickOutcome port s = .next t := by
  have hrecord : ∀ record : State → IRec, DeliversOrProgramAbort fun f => .ok (record f) := fun _ _ _ h => nomatch h
  have hexec : ∀ i, exec i s = .next t →
      ∃ port, DeliversOrProgramAbort port ∧ tickOutcome port s = .next t := fun i hi => by
    obtain ⟨record, he⟩ := exec_eq_enter i s
    exact ⟨_, hrecord record, he.symm.trans hi⟩
  rcases h with h | ⟨i, hi⟩
  · unfold step at h
    split at h
    · refine ⟨_, fun f a ha => ?_, h⟩
      cases ha
      exact .inl ⟨_, _, _, _, rfl⟩
    · split at h
      · exact hexec _ h
      · exact ⟨_, hrecord _, h⟩
  · exact hexec i hi

/-- The Execute of a flushed state of the invariant aborts only where a program can. -/
theorem execute_programAbort {port : FetchPort} {f : State} {a : Abort} (hf : FlushedInv f)
    (hp : DeliversOrProgramAbort port) (h : execute port f = .error a) : ProgramAbort a := by
  rcases execute_eq_error h with h | ⟨⟨c, hc⟩, h⟩
  · obtain ⟨e, rest, he, hst, -⟩ := commit_error h
    obtain ⟨-, -, hexec, hwait⟩ := hf.records.rob e (by simp [he])
    rcases hst with hst | ⟨hst, hno⟩
    · exact absurd hst hexec
    · simp [hwait hst] at hno
  rcases h with h | ⟨⟨l, hl⟩, h⟩
  · obtain ⟨_, _, -, -, -, rfl⟩ := loadStage_error h
    exact .inl ⟨_, _, _, _, rfl⟩
  rcases h with h | ⟨⟨st, hs⟩, h⟩
  · obtain ⟨rem, hb, -, ⟨hq, -⟩ | ⟨_, _, -, -, rfl⟩⟩ := storeStage_error h
    · have hok := hf.stages.stst
      simp [storeStageOk, hb, hq] at hok
    · exact .inl ⟨_, _, _, _, rfl⟩
  rcases h with h | ⟨-, h⟩
  · obtain ⟨_, _, -, -, rfl⟩ := issue_error h
    exact .inr ⟨_, _, _, rfl⟩
  rcases h with h | ⟨-, c, l, st, hc, hl, hs, hfull, -⟩
  · exact hp f a (fetch_error h)
  · have hlen := emitted_length_le hc hl hs
    obtain ⟨-, -, -, -, -, hbus, -⟩ := hf.capacity.cfg
    omega

theorem flush_status {s f : State} (h : flush s = .ok f) : f.status = s.status := by
  rcases flush_eq_ok h with ⟨-, rfl⟩ | ⟨hc, -⟩
  · rfl
  · exact (flush_frame hc h).status

/-- A tick of the invariant that aborts does so where a program can, or in its Flush, on a message that does not fit. -/
theorem TickTo.abort_cases {s t : State} {a : Abort} (h : TickTo s t) (hs : Inv s) (ha : t.status = .aborted a) :
    ProgramAbort a ∨ (flush s = .error a ∧ BusMismatch a) := by
  obtain ⟨port, hp, ho⟩ := h.port_aborts
  obtain ⟨hrun, rfl⟩ := tickOutcome_eq_next ho
  rcases tick_cases port s with ⟨-, ht⟩ | ⟨-, b, hf, ht⟩ | ⟨hh, f, b, hf, he, ht⟩ | ⟨-, f, t, hf, he, ht⟩ <;>
    rw [ht] at ha
  · cases ha
  · cases ha
    exact .inr ⟨hf, flush_busMismatch hs.capacity hf⟩
  · cases ha
    exact .inl (execute_programAbort (flush_flushedInv hs hh hf) hp he)
  · obtain ⟨c, l, st, i, r, -, hx⟩ := execute_executed he
    rw [hx.merged, merge_status, flush_status hf, hrun] at ha
    cases ha

/-- Settles O58: what is left to a tick of the invariant is what programs reach, and, without the second invariant, a
message that does not fit. -/
theorem consistencyAbortsNeverRaised : Obligations.ConsistencyAbortsNeverRaised := by
  intro s t a hs hrun h ha
  rcases h.abort_cases hs ha with (⟨_, _, _, _, rfl⟩ | ⟨_, _, _, rfl⟩) | ⟨hf, p, c, rfl, hp⟩
  · simp
  · simp
  · refine ⟨by simp, by simp, fun c' hc' => ?_, fun hi => absurd hf (flush_completes hs hi)⟩
    cases hc'
    exact hp rfl

end Sys2Proof.Machine
end

section
/-! SUPPORT. The halt sentinel alone in a drained machine of the reference timing: it issues, is dispatched, computes and
commits, one tick each, while fetch stands still (41_issue_unit.md R165; 43_addsub.md R231, R243; 48_reorder_commit.md
R383, R386). -/

namespace Sys2Proof.Machine

/-- `n` ticks after a drained machine `s`, only the sentinel is in flight: in the instruction queue, in the latch, in the
reorder buffer, in the add stage or, as its result, on the bus. -/
structure SentinelRun (s : State) (n : Nat) (iq : List IRec) (latch : Option Latch) (entries : List RobEntry)
    (add : Stage AddOp) (bus : List Msg) (t : State) : Prop where
  undisturbed : Undisturbed s n t
  iq : t.iq = iq
  latch : t.latch = latch
  rob : t.rob = ⟨s.rob.head, entries⟩
  rs : t.rs = Banks.empty t.cfg
  fu : t.fu = { Stages.allIdle with add := add }
  bus : t.bus = bus
  lq : t.lq = []
  sq : t.sq = []
  ldst : t.ldst = .idle
  stst : t.stst = .idle
  pc : t.pc = s.pc + 4
  stall : t.stall = true
  tags : ∀ r, r ≠ 10 → t.tagOf r = none

/-- The latch with the sentinel as its record in a drained machine issues. -/
def sentinelLatch (s : State) : Latch :=
  ⟨s.rob.head, issuedEntry (haltRecord s), sentinelEntry (.add .add) s.rob.head, none⟩

/-! ## Entry -/

theorem Drained.exec_halt {s : State} (hd : Drained s) (hc : s.cfg.wf) :
    exec .halt s = .next (withRecord s (haltRecord s)) := hd.exec_eq hc rfl

theorem Drained.sentinelRun {s : State} (hd : Drained s) :
    SentinelRun s 1 [haltRecord s] none [] .idle [] (withRecord s (haltRecord s)) where
  undisturbed := ⟨rfl, rfl, rfl, rfl, rfl, hd.status, hd.clear, hd.halt⟩
  iq := rfl
  latch := hd.latch
  rob := hd.backEmpty.rob
  rs := hd.rs
  fu := hd.fu
  bus := hd.bus
  lq := hd.lq
  sq := hd.sq
  ldst := hd.ldst
  stst := hd.stst
  pc := rfl
  stall := rfl
  tags := fun r _ => State.tagOf_of_replicate hd.tag r

/-! ## One tick -/

section
variable {s t f : State} {n : Nat} {iq : List IRec} {latch : Option Latch} {entries : List RobEntry}
  {add : Stage AddOp} {bus : List Msg}

/-- Issue renames no register but the sentinel's destination, so the other tags stay clear. -/
theorem tagOf_nextTags_none {c : Commit} {i : IssueOut} {u : State} (hf : ∀ r, r ≠ 10 → f.tagOf r = none)
    (hw : c.write = none) (hn : ∀ p, i.rename = some p → p.1 = 10) (hu : u.tag = nextTags f c i) :
    ∀ r, r ≠ 10 → u.tagOf r = none := by
  intro r hr
  rw [← hf r hr]
  have hclear : clearedTags f c = f.tag := by simp [clearedTags, hw]
  rw [nextTags, hclear] at hu
  rcases hi : i.rename with _ | ⟨d, m⟩
  · rw [hi] at hu
    exact State.tagOf_congr hu r
  · obtain rfl : d = 10 := hn _ hi
    rw [hi] at hu
    exact (State.tagOf_of_writeTag (s := f) hu r).trans (if_neg fun h => hr h.1)

/-- One tick of the run: what the flushed state's add stage and issue unit do is what changes; the memory stages and
fetch stand still. -/
theorem SentinelRun.step_eq_merge {c : Commit} {i : IssueOut} {add' : Stage AddOp} {done : List Msg}
    (h : SentinelRun s n iq latch entries add bus t) (hc : s.cfg.wf) (hflush : flush t = .ok f)
    (hlq : f.lq = []) (hsq : f.sq = []) (hcommit : commit f = .ok c) (hwrite : c.msgs = [])
    (hissue : issue f = .ok i) (hdisp : Dispatches f add' done []) (hdone : done.length ≤ 1) :
    step t = .next (merge f c ⟨.idle, [], []⟩ ⟨.idle, [], f.mem, []⟩ i none done) := by
  have hframe := flush_frame h.undisturbed.clear hflush
  have hload : loadStage f = .ok ⟨.idle, [], []⟩ := by
    rw [loadStage_holds (hframe.ldst.trans h.ldst) (by simp [hlq]), hlq]
  have hstore : storeStage f = .ok ⟨.idle, [], f.mem, []⟩ := by
    rw [storeStage_holds (hframe.stst.trans h.stst) (by simp [hsq]), hsq]
  obtain ⟨-, -, -, -, -, hbus, -⟩ := hc
  refine step_of_units h.undisturbed.status h.undisturbed.halt hflush (hframe.stall.trans h.stall) hcommit hload hstore
    hissue ?_ ?_
  · simp [hdisp.emitted, hwrite]
  · rw [hframe.cfg, h.undisturbed.cfg]
    omega

/-- The sentinel does not commit in the tick: only it is in flight afterwards too. -/
theorem SentinelRun.tick {i : IssueOut} {es : List RobEntry} {add' : Stage AddOp} {done : List Msg}
    (h : SentinelRun s n iq latch entries add bus t) (hc : s.cfg.wf) (hflush : flush t = .ok f)
    (hlq : f.lq = []) (hsq : f.sq = []) (hrob : f.rob = ⟨s.rob.head, es⟩)
    (hcommit : commit f = .ok (Commit.nothing f)) (hissue : issue f = .ok i)
    (hn : ∀ p, i.rename = some p → p.1 = 10) (hdisp : Dispatches f add' done []) (hdone : done.length ≤ 1) :
    ∃ u, step t = .next u ∧ SentinelRun s (n + 1) i.iq i.latch es add' done u := by
  have hframe := flush_frame h.undisturbed.clear hflush
  refine ⟨_, h.step_eq_merge hc hflush hlq hsq hcommit rfl hissue hdisp hdone,
    (h.undisturbed.flush hflush).merge (Commit.quiet_nothing f) rfl, rfl, rfl, hrob, hdisp.rs .., hdisp.fu .., rfl, rfl,
    rfl, rfl, rfl, hframe.pc.trans h.pc, ?_, ?_⟩
  · show (f.stall && true) = true
    rw [hframe.stall, h.stall]
    rfl
  · exact tagOf_nextTags_none (fun r hr => (State.tagOf_congr hframe.tag r).trans (h.tags r hr)) rfl hn rfl

theorem SentinelRun.backEmpty (h : SentinelRun s n iq latch [] .idle [] t) : BackEmpty s.rob.head t :=
  ⟨h.rs, h.fu, h.lq, h.sq, h.ldst, h.stst, h.rob, h.bus⟩

/-! ## The ticks -/

/-- The sentinel issues with both operands read: x0 and the immediate are values. -/
theorem SentinelRun.issued (h : SentinelRun s n [haltRecord s] none [] .idle [] t) (hc : s.cfg.wf)
    (hhead : s.rob.head < s.cfg.robCap) :
    ∃ u, step t = .next u ∧ SentinelRun s (n + 1) [] (some (sentinelLatch s)) [] .idle [] u := by
  have hct : t.cfg.wf := h.undisturbed.cfg ▸ hc
  have hflush : flush t = .ok (setFull t) := flush_of_quiet h.undisturbed.clear h.latch h.bus
  have hrob : (setFull t).rob = ⟨s.rob.head, []⟩ := h.rob
  have htail : (setFull t).robTail = s.rob.head := by
    simp [State.robTail, h.rob, h.undisturbed.cfg, Nat.mod_eq_of_lt hhead]
  have hissue : issue (setFull t) = .ok ⟨[], some (sentinelLatch s), some (10, s.rob.head)⟩ := by
    rw [issue_of_gate (f := setFull t) h.iq rfl (issueGate_of_room (h.backEmpty.fullFlags hct) (.add .add)), latchOf,
      htail]
    rfl
  exact h.tick hc hflush h.lq h.sq hrob (commit_of_empty (congrArg Rob.entries hrob)) hissue
    (fun p hp => (Option.some.inj hp) ▸ rfl) h.backEmpty.setFull.dispatches (Nat.zero_le _)

/-- The latched sentinel joins the reorder buffer and its bank, which dispatches it in the same tick. -/
theorem SentinelRun.dispatched (h : SentinelRun s n [] (some (sentinelLatch s)) [] .idle [] t) (hc : s.cfg.wf) :
    ∃ u, step t = .next u ∧
      SentinelRun s (n + 1) [] none [issuedEntry (haltRecord s)] (.busy s.cfg.latAdd .add 0 255 s.rob.head) [] u := by
  have hct : t.cfg.wf := h.undisturbed.cfg ▸ hc
  obtain ⟨-, hcap, -⟩ := id hct
  have hflush := flush_of_steps h.undisturbed.clear h.bus rfl rfl (insertRob_of_room h.latch h.rob hcap)
    (insertLsb_of_none h.latch rfl) rfl rfl (insertRs_of_sentinel h.latch rfl h.rs hct)
  generalize hf : setFull _ = f at hflush
  have hframe := flush_frame h.undisturbed.clear hflush
  have hrob : f.rob = ⟨s.rob.head, [issuedEntry (haltRecord s)]⟩ := by simp [← hf, sentinelLatch]
  have hlq : f.lq = [] := by simp [← hf, h.lq]
  have hsq : f.sq = [] := by simp [← hf, h.sq]
  have hrs : f.rs = { Banks.empty f.cfg with
      add := some (sentinelEntry .add s.rob.head) :: List.replicate (f.cfg.rsCapAdd - 1) none } := by
    simp [← hf, clearLatchAndBus, wakeAll, h.rs, h.bus, Banks.empty]
  have hdisp := dispatches_of_sentinel (hframe.cfg ▸ hct) hrs (hframe.fu.trans h.fu)
  rw [hframe.cfg, h.undisturbed.cfg] at hdisp
  exact h.tick hc hflush hlq hsq hrob (commit_of_issue (congrArg Rob.entries hrob) rfl)
    (issue_of_nil (hframe.iq.trans h.iq)) (fun _ hp => nomatch hp) hdisp (Nat.zero_le _)

/-- The add stage delivers the sentinel's result. -/
theorem SentinelRun.computed
    (h : SentinelRun s n [] none [issuedEntry (haltRecord s)] (.busy 1 .add 0 255 s.rob.head) [] t) (hc : s.cfg.wf) :
    ∃ u, step t = .next u ∧
      SentinelRun s (n + 1) [] none [issuedEntry (haltRecord s)] .idle [⟨.writeBack, s.rob.head, 255⟩] u := by
  have hflush : flush t = .ok (setFull t) := flush_of_quiet h.undisturbed.clear h.latch h.bus
  have hrob : (setFull t).rob = ⟨s.rob.head, [issuedEntry (haltRecord s)]⟩ := h.rob
  have hdisp : Dispatches (setFull t) .idle [⟨.writeBack, s.rob.head, 255⟩] [] := dispatches_of_result h.rs h.fu
  exact h.tick hc hflush h.lq h.sq hrob (commit_of_issue (congrArg Rob.entries hrob) rfl) (issue_of_nil h.iq)
    (fun _ hp => nomatch hp) hdisp (Nat.le_refl _)

/-- The sentinel, complete at the head, commits: the halt flag goes up, and no register and no memory is written. -/
theorem SentinelRun.halts
    (h : SentinelRun s n [] none [issuedEntry (haltRecord s)] .idle [⟨.writeBack, s.rob.head, 255⟩] t) (hc : s.cfg.wf)
    (hhead : s.rob.head < s.cfg.robCap) :
    ∃ u, step t = .next u ∧ u.halt = true ∧ u.status = .running ∧ u.clear = false ∧ u.x = s.x ∧ u.mem = s.mem ∧
      u.pred = s.pred ∧ u.cfg = s.cfg ∧ u.pc = s.pc + 4 ∧ u.cycle = s.cycle + (n + 1) ∧ u.lq = [] ∧ u.sq = [] ∧
      ∀ r, r ≠ 10 → u.tagOf r = none := by
  have hcap : t.rob.head < t.cfg.robCap := by rwa [h.rob, h.undisturbed.cfg]
  have hrobt : t.robAt s.rob.head = some (issuedEntry (haltRecord s)) := by
    have hat := State.robAt_head (congrArg Rob.entries h.rob) hcap
    rwa [h.rob] at hat
  have hflush := flush_of_writeBack h.undisturbed.clear h.latch h.bus hrobt
  generalize hf : setFull _ = f at hflush
  have hu := h.undisturbed.flush hflush
  have hframe := flush_frame h.undisturbed.clear hflush
  have hoff : t.robOffset s.rob.head = 0 := by
    rw [h.rob] at hcap
    simp [State.robOffset_eq t hcap (by rwa [h.rob]), h.rob]
  have hentries : f.rob.entries = [{ issuedEntry (haltRecord s) with state := .write, value := 255 }] := by
    simp [← hf, hoff, h.rob]
  have hlq : f.lq = [] := by simp [← hf, h.lq]
  have hsq : f.sq = [] := by simp [← hf, h.sq]
  have hrs : f.rs = Banks.empty f.cfg := by simp [← hf, h.rs, Banks.empty, wakeBank_replicate]
  have hdisp : Dispatches f .idle [] [] :=
    dispatches_of_parts hrs (hframe.fu.trans h.fu) (unitStep_of_empty ..) (dispatchLs_of_empty (by rw [hrs]))
  have hcommit : commit f = .ok (commitHalt f) := by
    simp [commit, hentries, commitHead, issuedEntry, haltRecord]
  refine ⟨_, h.step_eq_merge hc hflush hlq hsq hcommit rfl (issue_of_nil (hframe.iq.trans h.iq)) hdisp (Nat.zero_le _),
    Bool.or_true _, hu.status, ?_, hu.x, hu.mem, hu.pred, hu.cfg, hframe.pc.trans h.pc, ?_, rfl, rfl, ?_⟩
  · show (f.clear || false) = false
    rw [hu.clear]
    rfl
  · exact congrArg (· + 1) hu.cycle
  · exact tagOf_nextTags_none (c := commitHalt f) (i := ⟨[], none, none⟩)
      (fun r hr => (State.tagOf_congr hframe.tag r).trans (h.tags r hr)) rfl (fun _ hp => nomatch hp) rfl

end

/-- Settles O25: the sentinel enters, and one tick each issues it, dispatches it, computes it and commits it; the tick
after that detects the halt flag. -/
theorem sentinelHaltsTheRun : Obligations.SentinelHaltsTheRun := by
  intro s hd ht
  obtain ⟨hc, -, -, hlat, -⟩ := ht.sizes
  obtain ⟨t2, hstep1, h2⟩ := hd.sentinelRun.issued hc hd.head
  obtain ⟨t3, hstep2, h3⟩ := h2.dispatched hc
  rw [hlat] at h3
  obtain ⟨t4, hstep3, h4⟩ := h3.computed hc
  obtain ⟨t5, hstep4, hhalt, hstatus, hclear, hx, hmem, hpred, hcfg, hpc, hcycle, hlq, hsq, htags⟩ :=
    h4.halts hc hd.head
  have hreach := reaches_step hstep1 (reaches_step hstep2 (reaches_step hstep3 (reaches_one hstep4)))
  obtain ⟨hdetect, -⟩ := everyTickTo_haltedState hstatus hhalt
  have hcode : (haltedState t5).status = .halted ((s.reg 10).setWidth 8) := by
    rw [← State.reg_congr hx]
    rfl
  exact ⟨_, t5, _, hd.exec_halt hc, rfl, hreach, hstatus, hhalt, hclear, hdetect, hcode, hx, hmem, hpred, hcfg, hpc,
    hcycle, hlq, hsq, htags⟩

end Sys2Proof.Machine
end

section
/-! SUPPORT. The issue unit in a completed tick, an INVALID head, and the issued entry in the Flush that follows
(41_issue_unit.md R170 to R177; 48_reorder_commit.md R381). -/

namespace Sys2Proof.Machine

/-! ## The INVALID head (R171) -/

theorem issue_of_invalid {f : State} {i : IRec} {rest : List IRec} (hq : f.iq = i :: rest) (ho : i.op = none) :
    issue f = .error (.unclassifiable i.word i.pc f.cycle) := by
  simp [issue, hq, ho]

/-- Where commit and the memory stages answer, an abort of issue is the abort of the Execute, which ends before its fetch
is looked at (60_exceptions.md R428). -/
theorem execute_of_issue_error {port : FetchPort} {f : State} {a : Abort} (hc : ∃ c, commit f = .ok c)
    (hl : ∃ l, loadStage f = .ok l) (hs : ∃ o, storeStage f = .ok o) (hi : issue f = .error a) :
    execute port f = .error a := by
  obtain ⟨c, hc⟩ := hc
  obtain ⟨l, hl⟩ := hl
  obtain ⟨o, hs⟩ := hs
  simp [execute, hc, hl, hs, hi, bind, Except.bind]

/-- Settles O46: issue aborts before it looks at its gate, so every tick aborts, whatever its fetch port delivers. -/
theorem invalidHeadAborts : Obligations.InvalidHeadAborts := by
  intro s f I rest hs hh hflush hq ho hc hl hst
  have htick : ∀ port, tick port s = f.abort (.unclassifiable I.word I.pc f.cycle) := fun _ =>
    tick_aborts hh hflush (execute_of_issue_error hc hl hst (issue_of_invalid hq ho))
  exact (step_and_exec_of_tickOutcome (P := fun o => o = .next (f.abort (.unclassifiable I.word I.pc f.cycle)))
    fun port => by rw [tickOutcome_of_running hs, htick port]).symm

/-! ## The issue gate (R170) -/

theorem fullFlags_bank_eq_false_iff (f : State) (b : Bank) : (fullFlags f).bank b = false ↔ bankHasRoom f.rs b := by
  cases b <;> exact bankFull_eq_false_iff

/-- By the full flags of its Flush the gate is open exactly where the structures have room. -/
theorem issueGate_iff {f : State} (hfull : f.full = fullFlags f) (op : Op) : issueGate f op = true ↔ CanIssue f op := by
  have hbank : (!(fullFlags f).bank op.bank) = true ↔ bankHasRoom f.rs op.bank := by
    rw [Bool.not_eq_true', fullFlags_bank_eq_false_iff]
  have hrob : (!(fullFlags f).rob) = true ↔ f.rob.entries.length ≠ f.cfg.robCap := by simp [fullFlags]
  unfold issueGate CanIssue
  rw [hfull, Bool.and_eq_true, Bool.and_eq_true, hrob, hbank, and_assoc]
  rcases op with o | o | o | o | (o | o) <;> simp [fullFlags]

theorem issue_of_closed {f : State} {i : IRec} {rest : List IRec} {op : Op} (hq : f.iq = i :: rest)
    (ho : i.op = some op) (hg : issueGate f op = false) : issue f = .ok ⟨i :: rest, none, none⟩ := by
  simp [issue, hq, ho, hg]

/-! ## The entries handed over (R173, R175) -/

/-- The operand read at issue: a value, or the producer's tag; x0 has no producer and reads 0 (10_state.md R21). -/
theorem operandRead_readSource (f : State) (src : Source) : OperandRead f src (readSource f src) where
  value := by
    rintro v rfl
    rfl
  zero := by
    rintro rfl
    rfl
  register := by
    rintro r - rfl htag
    simp [readSource, htag]
  pending := by
    rintro r q - rfl htag
    simp [readSource, htag]

theorem lsbEntryOf_eq (op : Op) (n : Nat) : lsbEntryOf op n = lsbEntryFor op n 0 := by
  rcases op with o | o | o | o | (o | o) <;> rfl

section
variable {f t : State} {c : Commit} {l : LoadOut} {st : StoreOut} {i : IssueOut} {r : Option IRec}

theorem Executed.latch (h : Executed f t c l st i r) : t.latch = i.latch := by
  rw [h.merged, merge_latch]

/-- Fetch appends one record at most to what issue leaves. -/
theorem Executed.iq_behind (h : Executed f t c l st i r) : t.iq = i.iq ∨ ∃ x, t.iq = i.iq ++ [x] := by
  rw [h.merged, merge_iq]
  cases r with
  | none => exact .inl rfl
  | some x => exact .inr ⟨x, rfl⟩

/-- A renamed register carries the new tag, whatever commit clears (R176; 40_clock_and_bus.md R139). -/
theorem Executed.tagOf_renamed {d : RegIdx} {n : Nat} (h : Executed f t c l st i r) (hren : i.rename = some (d, n))
    (hd : d ≠ 0) : t.tagOf d = some n := by
  rw [tagOf_nextTags (f := f) (c := c) (i := i) (by rw [h.merged, merge_tag]), hren]
  exact if_pos ⟨rfl, hd⟩

end

/-- Settles O45: the completed tick's issue is the unit's answer in the flushed state, whose gate is read in the
structures; fetch only appends behind what it leaves. -/
theorem issueHandsOverTheHead : Obligations.IssueHandsOverTheHead := by
  intro s f t h
  obtain ⟨c, l, st, i, r, hx⟩ := h.executed
  have hgate := issueGate_iff (flush_full h.flushed)
  refine ⟨fun hq => ?_, fun I rest op hq hop => ⟨fun hcan => ?_, fun hcan => ?_⟩⟩
  · obtain rfl := Except.ok.inj (hx.issue.symm.trans (issue_of_nil hq))
    exact hx.latch
  · obtain rfl := Except.ok.inj (hx.issue.symm.trans (issue_of_gate hq hop ((hgate op).mpr hcan)))
    refine ⟨⟨_, _, 0, operandRead_readSource f I.src1, operandRead_readSource f I.src2, ?_⟩, hx.iq_behind,
      fun d hd hrd => hx.tagOf_renamed (by rw [hrd]; rfl) hd⟩
    rw [hx.latch, ← lsbEntryOf_eq]
    rfl
  · have hclosed : issueGate f op = false := by rwa [← Bool.not_eq_true, hgate]
    obtain rfl := Except.ok.inj (hx.issue.symm.trans (issue_of_closed hq hop hclosed))
    exact ⟨hx.latch, hx.iq_behind⟩

/-! ## The insertion of the issued entry (48_reorder_commit.md R381) -/

/-- Where the youngest live entry has index `i`, the tail is the index behind it. -/
theorem State.robTail_of_live_append {s : State} (hh : s.rob.head < s.cfg.robCap) {older : List (Nat × RobEntry)}
    {i : Nat} {e : RobEntry} (h : s.live = older ++ [(i, e)]) : s.robTail = (i + 1) % s.cfg.robCap := by
  have hlen : s.rob.entries.length = older.length + 1 := by
    simpa [State.live] using congrArg List.length h
  have hlast : s.live[older.length]? = some (i, e) := by simp [h]
  rw [State.live, getElem?_liveFrom hh] at hlast
  obtain ⟨e', -, he'⟩ := Option.map_eq_some_iff.mp hlast
  obtain ⟨rfl, -⟩ := Prod.mk.inj he'
  rw [State.robTail, hlen, Nat.mod_add_mod, Nat.add_assoc]

/-- Settles O37: the Flush puts the latched entry behind the live ones, under the index that was the tail at its issue. -/
theorem issuedEntryIsInsertedAtItsIndex : Obligations.IssuedEntryIsInsertedAtItsIndex := by
  intro s f l hinv hclear hl hflush
  obtain ⟨-, ⟨hc, -⟩ | ⟨-, hf⟩⟩ := flush_flushed hinv.capacity hinv.records hflush
  · simp [hclear] at hc
  obtain ⟨hhead, hcount, g, -, -, hlive⟩ := hf.rob
  rw [State.latched_of_some hl] at hlive
  obtain ⟨-, hstate, -⟩ := hinv.records.latch l hl
  have hmem : (l.idx, l.robEntry) ∈ f.live := by simp [hlive]
  exact ⟨(State.mem_live_iff hhead hcount).mp hmem, hstate,
    hf.frame.cfg ▸ State.robTail_of_live_append hhead hlive⟩

end Sys2Proof.Machine
end

section
/-! SUPPORT. JALR alone in a drained machine of the reference timing: it issues with its base read, is dispatched, computes
the target and commits, one tick each, while fetch stands still until the commit redirects it (41_issue_unit.md R165;
43_addsub.md R231, R237; 48_reorder_commit.md R383, R388, R391). -/

namespace Sys2Proof.Machine

/-! ## The register file after an Execute, register by register -/

section
variable {f u : State} {c : Commit}

/-- A tag of the next state is the rename, or one that commit's clear left. -/
theorem tagOf_nextTags_eq_some {i : IssueOut} {q : RegIdx} {m : Nat} (hu : u.tag = nextTags f c i)
    (h : u.tagOf q = some m) : i.rename = some (q, m) ∨ clearedTagOf f c.write q = some m := by
  rw [tagOf_nextTags hu] at h
  rcases hren : i.rename with _ | ⟨d, n⟩ <;> rw [hren] at h
  · exact .inr h
  · simp only at h
    split at h
    · rename_i hq
      obtain ⟨rfl, -⟩ := hq
      exact .inl (by rw [Option.some.inj h])
    · exact .inr h

/-- The entry's destination, if it has one, is written, and no other register (R391). -/
theorem reg_of_commitWrite {e : RobEntry} {v : Word} (hw : c.write = commitWrite f e v) (hu : u.x = nextValues f c)
    (q : RegIdx) : u.reg q = if e.rd = some q ∧ q ≠ 0 then v else f.reg q := by
  rw [nextValues, hw, commitWrite] at hu
  rcases hrd : e.rd with _ | d <;> rw [hrd] at hu
  · rw [State.reg_congr hu, if_neg (by simp)]
  · refine (State.reg_of_writeValue hu q).trans (if_congr ?_ rfl rfl)
    rw [Option.some.injEq, eq_comm]

end

/-! ## One tick -/

/-- The record JALR enters with (41_issue_unit.md R163). -/
def jalrRecord (s : State) (rd rs1 : RegIdx) (imm : BitVec 12) : IRec :=
  immediateRecord (.jalr rd rs1 imm) .jalr .other (.add .jalr) rd rs1 (sext12 imm) s

/-- `n` ticks after a drained machine `s`, only a JALR with record `r` is in flight: in the instruction queue, in the
latch, in the reorder buffer, in the add stage or, as its result, on the bus; fetch is stalled, and no register but its
destination carries a tag. -/
structure JalrRun (s : State) (r : IRec) (n : Nat) (iq : List IRec) (latch : Option Latch) (entries : List RobEntry)
    (add : Stage AddOp) (bus : List Msg) (t : State) : Prop where
  undisturbed : Undisturbed s n t
  iq : t.iq = iq
  latch : t.latch = latch
  rob : t.rob = ⟨s.rob.head, entries⟩
  rs : t.rs = Banks.empty t.cfg
  fu : t.fu = { Stages.allIdle with add := add }
  bus : t.bus = bus
  lq : t.lq = []
  sq : t.sq = []
  ldst : t.ldst = .idle
  stst : t.stst = .idle
  stall : t.stall = true
  tags : ∀ q m, t.tagOf q = some m → r.rd = some q ∧ m = s.rob.head

/-- The latch with the JALR, as a drained machine issues it. -/
def jalrLatch (s : State) (r : IRec) (a b : Word) : Latch :=
  ⟨s.rob.head, issuedEntry r, memoryEntry r (.add .jalr) s.rob.head a b, none⟩

section
variable {s t f : State} {r : IRec} {a b : Word} {n : Nat} {iq : List IRec} {latch : Option Latch}
  {entries : List RobEntry} {add : Stage AddOp} {bus : List Msg}

/-- One tick of the run: what the flushed state's add stage, issue unit and commit do is what changes; the memory stages
and fetch stand still. -/
theorem JalrRun.step_eq_merge {c : Commit} {i : IssueOut} {add' : Stage AddOp} {done : List Msg}
    (h : JalrRun s r n iq latch entries add bus t) (hc : s.cfg.wf) (hflush : flush t = .ok f) (hlq : f.lq = [])
    (hsq : f.sq = []) (hcommit : commit f = .ok c) (hissue : issue f = .ok i) (hdisp : Dispatches f add' done [])
    (hmsgs : (c.msgs ++ done).length ≤ 1) :
    step t = .next (merge f c ⟨.idle, [], []⟩ ⟨.idle, [], f.mem, []⟩ i none (c.msgs ++ done)) := by
  have hframe := flush_frame h.undisturbed.clear hflush
  have hload : loadStage f = .ok ⟨.idle, [], []⟩ := by
    rw [loadStage_holds (hframe.ldst.trans h.ldst) (by simp [hlq]), hlq]
  have hstore : storeStage f = .ok ⟨.idle, [], f.mem, []⟩ := by
    rw [storeStage_holds (hframe.stst.trans h.stst) (by simp [hsq]), hsq]
  obtain ⟨-, -, -, -, -, hbus, -⟩ := hc
  refine step_of_units h.undisturbed.status h.undisturbed.halt hflush (hframe.stall.trans h.stall) hcommit hload hstore
    hissue (by simp [hdisp.emitted]) ?_
  rw [hframe.cfg, h.undisturbed.cfg]
  omega

/-- The JALR does not commit in the tick: only it is in flight afterwards too. -/
theorem JalrRun.tick {i : IssueOut} {es : List RobEntry} {add' : Stage AddOp} {done : List Msg}
    (h : JalrRun s r n iq latch entries add bus t) (hc : s.cfg.wf) (hflush : flush t = .ok f) (hlq : f.lq = [])
    (hsq : f.sq = []) (hrob : f.rob = ⟨s.rob.head, es⟩) (hcommit : commit f = .ok (Commit.nothing f))
    (hissue : issue f = .ok i) (hren : ∀ q m, i.rename = some (q, m) → r.rd = some q ∧ m = s.rob.head)
    (hdisp : Dispatches f add' done []) (hdone : done.length ≤ 1) :
    ∃ u, step t = .next u ∧ JalrRun s r (n + 1) i.iq i.latch es add' done u := by
  have hframe := flush_frame h.undisturbed.clear hflush
  refine ⟨_, h.step_eq_merge hc hflush hlq hsq hcommit hissue hdisp hdone,
    (h.undisturbed.flush hflush).merge (Commit.quiet_nothing f) rfl, rfl, rfl, hrob, hdisp.rs .., hdisp.fu .., rfl, rfl,
    rfl, rfl, rfl, ?_, fun q m hq => ?_⟩
  · rw [merge_stall, nextStall, hframe.stall, h.stall]
    rfl
  · rcases tagOf_nextTags_eq_some (merge_tag ..) hq with hnew | hold
    · exact hren q m hnew
    · exact h.tags q m ((State.tagOf_congr hframe.tag q).symm.trans hold)

/-! ## The ticks -/

theorem Drained.exec_jalr (hd : Drained s) (hc : s.cfg.wf) (rd rs1 : RegIdx) (imm : BitVec 12) :
    exec (.jalr rd rs1 imm) s = .next (withRecord s (jalrRecord s rd rs1 imm)) :=
  (hd.enter_eq hc _).trans (congrArg _ (hd.frontMerged_eq hc _))

theorem Drained.jalrRun (hd : Drained s) (rd rs1 : RegIdx) (imm : BitVec 12) :
    JalrRun s (jalrRecord s rd rs1 imm) 1 [jalrRecord s rd rs1 imm] none [] .idle []
      (withRecord s (jalrRecord s rd rs1 imm)) where
  undisturbed := ⟨rfl, rfl, rfl, rfl, rfl, hd.status, hd.clear, hd.halt⟩
  iq := rfl
  latch := hd.latch
  rob := hd.backEmpty.rob
  rs := hd.rs
  fu := hd.fu
  bus := hd.bus
  lq := hd.lq
  sq := hd.sq
  ldst := hd.ldst
  stst := hd.stst
  stall := rfl
  tags := fun q m hq => by
    rw [State.tagOf_of_replicate (s := withRecord s _) hd.tag] at hq
    cases hq

/-- The JALR issues with both operands read, before its own rename (R173, R176). -/
theorem JalrRun.issued (h : JalrRun s r n [r] none [] .idle [] t) (hc : s.cfg.wf) (hhead : s.rob.head < s.cfg.robCap)
    (htag : t.tag = s.tag) (hop : r.op = some (.add .jalr)) (ha : readSource s r.src1 = .value a)
    (hb : readSource s r.src2 = .value b) :
    ∃ u, step t = .next u ∧ JalrRun s r (n + 1) [] (some (jalrLatch s r a b)) [] .idle [] u := by
  have hback : BackEmpty s.rob.head t := ⟨h.rs, h.fu, h.lq, h.sq, h.ldst, h.stst, h.rob, h.bus⟩
  have hflush : flush t = .ok (setFull t) := flush_of_quiet h.undisturbed.clear h.latch h.bus
  have htail : (setFull t).robTail = s.rob.head := by
    simp [State.robTail, h.rob, h.undisturbed.cfg, Nat.mod_eq_of_lt hhead]
  have hread : ∀ src, readSource (setFull t) src = readSource s src := fun src =>
    readSource_congr (s := s) (t := setFull t) h.undisturbed.x htag src
  have hlatch : latchOf (setFull t) r (.add .jalr) = jalrLatch s r a b := by
    rw [latchOf, htail, hread, hread, ha, hb]
    rfl
  have hissue := issue_of_gate (f := setFull t) h.iq hop
    (issueGate_of_room (hback.fullFlags (h.undisturbed.cfg ▸ hc)) (.add .jalr))
  rw [hlatch, htail] at hissue
  refine h.tick hc hflush h.lq h.sq h.rob (commit_of_empty (congrArg Rob.entries h.rob)) hissue (fun q m hq => ?_)
    hback.setFull.dispatches (Nat.zero_le _)
  obtain ⟨d, hd, hdm⟩ := Option.map_eq_some_iff.mp hq
  obtain ⟨rfl, rfl⟩ := Prod.mk.inj hdm
  exact ⟨hd, rfl⟩

/-- The latched entry takes the first slot of the empty ADD bank (R203). -/
theorem insertRs_of_jalr {l : Latch} {m : Nat} (hl : t.latch = some l)
    (he : l.rsEntry = memoryEntry r (.add .jalr) m a b) (hrs : t.rs = Banks.empty t.cfg) (hc : t.cfg.wf) :
    insertRs t = .ok { t with rs := { t.rs with
      add := some (memoryEntry r .jalr m a b) :: List.replicate (t.cfg.rsCapAdd - 1) none } } := by
  obtain ⟨-, -, ⟨hadd, -⟩, -⟩ := hc
  simp only [insertRs, hl, he, arriving_of_isReady (memoryEntry_isReady r _ m a b), hrs, Banks.empty,
    replicate_of_pos hadd]
  rfl

/-- The idle add stage takes the JALR from its bank (R207). -/
theorem dispatches_of_jalr {m : Nat} (hc : f.cfg.wf) (hrs : f.rs = { Banks.empty f.cfg with
      add := some (memoryEntry r .jalr m a b) :: List.replicate (f.cfg.rsCapAdd - 1) none })
    (hfu : f.fu = Stages.allIdle) : Dispatches f (.busy f.cfg.latAdd .jalr a b m) [] [] := by
  obtain ⟨-, -, ⟨hadd, -⟩, -⟩ := hc
  have htake : ∀ rest, takeReady (some (memoryEntry r AddOp.jalr m a b) :: rest) =
      some (⟨.jalr, m, a, b, r.imm⟩, none :: rest) := fun _ => rfl
  refine dispatches_of_parts hrs hfu ?_ (dispatchLs_of_empty (by rw [hrs]))
  simp [unitStep, htake, Banks.empty, ← replicate_of_pos hadd]

/-- The latched JALR joins the reorder buffer and its bank, which dispatches it in the same tick. -/
theorem JalrRun.dispatched (h : JalrRun s r n [] (some (jalrLatch s r a b)) [] .idle [] t) (hc : s.cfg.wf) :
    ∃ u, step t = .next u ∧
      JalrRun s r (n + 1) [] none [issuedEntry r] (.busy s.cfg.latAdd .jalr a b s.rob.head) [] u := by
  have hct : t.cfg.wf := h.undisturbed.cfg ▸ hc
  obtain ⟨-, hcap, -⟩ := id hct
  have hflush := flush_of_steps h.undisturbed.clear h.bus rfl rfl (insertRob_of_room h.latch h.rob hcap)
    (insertLsb_of_none h.latch rfl) rfl rfl (insertRs_of_jalr h.latch rfl h.rs hct)
  generalize hf : setFull _ = f at hflush
  have hframe := flush_frame h.undisturbed.clear hflush
  have hrob : f.rob = ⟨s.rob.head, [issuedEntry r]⟩ := by simp [← hf, jalrLatch]
  have hlq : f.lq = [] := by simp [← hf, h.lq]
  have hsq : f.sq = [] := by simp [← hf, h.sq]
  have hrs : f.rs = { Banks.empty f.cfg with
      add := some (memoryEntry r .jalr s.rob.head a b) :: List.replicate (f.cfg.rsCapAdd - 1) none } := by
    simp [← hf, clearLatchAndBus, wakeAll, h.rs, h.bus, Banks.empty]
  have hdisp := dispatches_of_jalr (hframe.cfg ▸ hct) hrs (hframe.fu.trans h.fu)
  rw [hframe.cfg, h.undisturbed.cfg] at hdisp
  exact h.tick hc hflush hlq hsq hrob (commit_of_issue (congrArg Rob.entries hrob) rfl)
    (issue_of_nil (hframe.iq.trans h.iq)) (fun _ _ hp => nomatch hp) hdisp (Nat.zero_le _)

/-- The add stage delivers the target: the sum with bit 0 clear (R232). -/
theorem JalrRun.computed (h : JalrRun s r n [] none [issuedEntry r] (.busy 1 .jalr a b s.rob.head) [] t)
    (hc : s.cfg.wf) :
    ∃ u, step t = .next u ∧
      JalrRun s r (n + 1) [] none [issuedEntry r] .idle [⟨.writeBack, s.rob.head, (a + b) &&& 0xFFFFFFFE#32⟩] u := by
  have hflush : flush t = .ok (setFull t) := flush_of_quiet h.undisturbed.clear h.latch h.bus
  have hdisp : Dispatches (setFull t) .idle [⟨.writeBack, s.rob.head, (a + b) &&& 0xFFFFFFFE#32⟩] [] :=
    dispatches_of_parts h.rs h.fu (by simp [unitStep, addResult, Banks.empty])
      (dispatchLs_of_empty (by rw [setFull_rs, h.rs]; rfl))
  exact h.tick hc hflush h.lq h.sq h.rob (commit_of_issue (congrArg Rob.entries h.rob) rfl) (issue_of_nil h.iq)
    (fun _ _ hp => nomatch hp) hdisp (Nat.le_refl _)

/-- The Flush that absorbs the result: the entry is complete at the head, and nothing else is in flight (R383). -/
theorem JalrRun.flush_result {v : Word}
    (h : JalrRun s r n [] none [issuedEntry r] .idle [⟨.writeBack, s.rob.head, v⟩] t)
    (hhead : s.rob.head < s.cfg.robCap) :
    ∃ f, flush t = .ok f ∧ f.rob = ⟨s.rob.head, [{ issuedEntry r with state := .write, value := v }]⟩ ∧
      f.lq = [] ∧ f.sq = [] ∧ f.rs = Banks.empty f.cfg := by
  have hcap : t.rob.head < t.cfg.robCap := by rwa [h.rob, h.undisturbed.cfg]
  have hat := State.robAt_head (congrArg Rob.entries h.rob) hcap
  rw [h.rob] at hat
  have hoff : t.robOffset s.rob.head = 0 := by
    rw [h.rob] at hcap
    simp [State.robOffset_eq t hcap (by rwa [h.rob]), h.rob]
  refine ⟨_, flush_of_writeBack h.undisturbed.clear h.latch h.bus hat, ?_, ?_, ?_, ?_⟩
  · simp [State.robModify, hoff, h.rob]
  · simp [h.lq]
  · simp [h.sq]
  · simp [h.rs, Banks.empty, wakeBank_replicate]

theorem commit_of_jalr {e : RobEntry} {rest : List RobEntry} (h : f.rob.entries = e :: rest) (he : e.state = .write)
    (hop : e.instr.op = some (.add .jalr)) (hhalt : e.instr.isHalt = false) : commit f = .ok (commitJalr f e) := by
  simp [commit, h, he, commitHead, hop, hhalt]

/-- The state after the commit of the JALR: linked, redirected, no longer stalled, and nothing in flight. -/
structure JalrCommitted (s : State) (r : IRec) (n : Nat) (target : Word) (t : State) : Prop where
  status : t.status = .running
  pc : t.pc = target
  stall : t.stall = false
  regs : ∀ q, t.reg q = if r.rd = some q ∧ q ≠ 0 then r.pc + 4 else s.reg q
  mem : t.mem = s.mem
  pred : t.pred = s.pred
  cfg : t.cfg = s.cfg
  cycle : t.cycle = s.cycle + n
  clear : t.clear = false
  halt : t.halt = false
  iq : t.iq = []
  latch : t.latch = none
  entries : t.rob.entries = []
  lq : t.lq = []
  sq : t.sq = []
  ldst : t.ldst = .idle
  stst : t.stst = .idle
  tags : ∀ q, t.tagOf q = none

/-- The complete JALR commits (R388): only its own tag could be set, and its commit clears that. -/
theorem JalrRun.commits {v : Word} (h : JalrRun s r n [] none [issuedEntry r] .idle [⟨.writeBack, s.rob.head, v⟩] t)
    (hc : s.cfg.wf) (hhead : s.rob.head < s.cfg.robCap) (hop : r.op = some (.add .jalr)) (hhalt : r.isHalt = false) :
    ∃ u, step t = .next u ∧ JalrCommitted s r (n + 1) v u := by
  obtain ⟨f, hflush, hrob, hlq, hsq, hrs⟩ := h.flush_result hhead
  have hu := h.undisturbed.flush hflush
  have hframe := flush_frame h.undisturbed.clear hflush
  have hdisp : Dispatches f .idle [] [] :=
    dispatches_of_parts hrs (hframe.fu.trans h.fu) (unitStep_of_empty ..) (dispatchLs_of_empty (by rw [hrs]))
  have hcommit := commit_of_jalr (congrArg Rob.entries hrob) rfl hop hhalt
  refine ⟨_, h.step_eq_merge hc hflush hlq hsq hcommit (issue_of_nil (hframe.iq.trans h.iq)) hdisp (Nat.le_refl _), {
    status := hu.status
    pc := rfl
    stall := Bool.and_false _
    regs := fun q => ?_
    mem := hu.mem
    pred := hu.pred
    cfg := hu.cfg
    cycle := congrArg (· + 1) hu.cycle
    clear := (Bool.or_false _).trans hu.clear
    halt := (Bool.or_false _).trans hu.halt
    iq := rfl
    latch := rfl
    entries := congrArg (fun b => b.entries.tail) hrob
    lq := rfl
    sq := rfl
    ldst := rfl
    stst := rfl
    tags := fun q => ?_ }⟩
  · rw [reg_of_commitWrite (f := f) rfl (merge_x ..), State.reg_congr hu.x]
    rfl
  · by_contra hne
    obtain ⟨m, hm⟩ := Option.ne_none_iff_exists'.mp hne
    rcases tagOf_nextTags_eq_some (merge_tag ..) hm with hnew | hold
    · cases hnew
    · obtain ⟨hfq, hother⟩ := clearedTagOf_eq_some hold
      obtain ⟨hrd, rfl⟩ := h.tags q m ((State.tagOf_congr hframe.tag q).symm.trans hfq)
      refine hother (r.pc + 4) ?_
      simp [commitJalr, commitWrite, issuedEntry, hrd, hrob]

end

/-- x0 apart, `rd*` is `rd` (41_issue_unit.md R163). -/
theorem destOf_eq_some_iff {rd q : RegIdx} (hq : q ≠ 0) : destOf rd = some q ↔ q = rd := by
  unfold destOf
  split
  · rename_i hrd
    simpa [hrd] using hq
  · rw [Option.some.injEq, eq_comm]

/-- Settles O20: the JALR enters, and one tick each issues it, dispatches it, computes its target and commits it. -/
theorem jalrLinksAndJumps : Obligations.JalrLinksAndJumps := by
  intro s rd rs1 imm hd ht
  obtain ⟨hc, -, -, hlat, -⟩ := ht.sizes
  obtain ⟨t2, hstep1, h2⟩ := (hd.jalrRun rd rs1 imm).issued hc hd.head rfl rfl (hd.readSource_reg rs1) rfl
  obtain ⟨t3, hstep2, h3⟩ := h2.dispatched hc
  rw [hlat] at h3
  obtain ⟨t4, hstep3, h4⟩ := h3.computed hc
  obtain ⟨t5, hstep4, h5⟩ := h4.commits hc hd.head rfl rfl
  have hreach := reaches_step hstep1 (reaches_step hstep2 (reaches_step hstep3 (reaches_one hstep4)))
  have hregs : ∀ q, t5.reg q = if q = rd ∧ q ≠ 0 then s.pc + 4 else s.reg q := fun q =>
    (h5.regs q).trans (if_congr (and_congr_left destOf_eq_some_iff) rfl rfl)
  exact ⟨_, t5, hd.exec_jalr hc rd rs1 imm, rfl, hreach, h5.status, h5.pc, h5.stall, hregs, h5.mem, h5.pred, h5.cfg,
    h5.cycle, h5.clear, h5.halt, h5.iq, h5.latch, h5.entries, h5.lq, h5.sq, h5.ldst, h5.stst, h5.tags⟩

end Sys2Proof.Machine
end

section
/-! SUPPORT. The banks through a Flush, slot by slot: which slot the arriving entry takes, what the bus and the lookup
ports make of the operands (42_reservation_stations.md R203, R205, R206; 48_reorder_commit.md R394). -/

namespace Sys2Proof.Machine

/-! ## Operands and the bus (R205) -/

/-- The value a bus announces is the one it answers. -/
theorem busValue_of_announced {bus : List Msg} {q : Nat} {v : Word} (h : Announced bus q v) :
    busValue bus q = some v := by
  obtain ⟨hsent, honly⟩ := h
  rcases hb : busValue bus q with _ | w
  · rw [busValue_eq_none_iff] at hb
    rcases hsent with hm | hm
    · exact absurd rfl (hb _ hm (.inl rfl))
    · exact absurd rfl (hb _ hm (.inr rfl))
  · obtain ⟨m, hm, hk, hi, rfl⟩ := busValue_eq_some hb
    rw [honly m hm hk hi]

theorem unannounced_iff {bus : List Msg} {q : Nat} : Unannounced bus q ↔ busValue bus q = none :=
  busValue_eq_none_iff.symm

@[simp] theorem wakeOperand_value (bus : List Msg) (v : Word) : wakeOperand bus (.value v) = .value v := rfl

theorem wakeOperand_of_announced {bus : List Msg} {q : Nat} {v : Word} (h : Announced bus q v) :
    wakeOperand bus (.pending q) = .value v := by
  simp [wakeOperand, busValue_of_announced h]

theorem wakeOperand_of_unannounced {bus : List Msg} {q : Nat} (h : Unannounced bus q) :
    wakeOperand bus (.pending q) = .pending q :=
  wakeOperand_eq_pending_iff.mpr ⟨rfl, unannounced_iff.mp h⟩

theorem wakesFrom_wakeOperand (bus : List Msg) (o : Operand) : WakesFrom bus o (wakeOperand bus o) where
  resolved := by
    rintro v rfl
    rfl
  woken := by
    rintro q v rfl h
    exact wakeOperand_of_announced h
  asleep := by
    rintro q rfl h
    exact wakeOperand_of_unannounced h

/-! ## Operands and the lookup ports (R206, R394) -/

@[simp] theorem portOperand_value (s : State) (v : Word) : portOperand s (.value v) = .value v := rfl

theorem portOperand_of_write {s : State} {q : Nat} {e : RobEntry} (he : s.robAt q = some e) (hw : e.state = .write) :
    portOperand s (.pending q) = .value e.value := by
  simp [portOperand, State.lookup, he, hw]

theorem portOperand_of_not_write {s : State} {q : Nat} (h : ∀ e, s.robAt q = some e → e.state ≠ .write) :
    portOperand s (.pending q) = .pending q :=
  portOperand_eq_pending_iff.mpr ⟨rfl, State.lookup_eq_none_iff.mpr h⟩

/-- What an arriving operand is after its Flush: the bus comes first, then the lookup port. -/
structure ArrivesFrom (bus : List Msg) (f : State) (o o' : Operand) : Prop where
  resolved : ∀ v, o = .value v → o' = .value v
  announced : ∀ q, o = .pending q → ∀ v, Announced bus q v → o' = .value v
  written : ∀ q, o = .pending q → Unannounced bus q → ∀ e, f.robAt q = some e → e.state = .write →
    o' = .value e.value
  waits : ∀ q, o = .pending q → Unannounced bus q → (∀ e, f.robAt q = some e → e.state ≠ .write) →
    o' = .pending q

/-- An arriving operand is woken on its way in, looked up, and snoops the bus once more in its slot (R205, R206). -/
theorem arrivesFrom_wake_port_wake (bus : List Msg) (f : State) (o : Operand) :
    ArrivesFrom bus f o (wakeOperand bus (portOperand f (wakeOperand bus o))) where
  resolved := by
    rintro v rfl
    rfl
  announced := by
    rintro q rfl v h
    rw [wakeOperand_of_announced h, portOperand_value, wakeOperand_value]
  written := by
    rintro q rfl h e he hw
    rw [wakeOperand_of_unannounced h, portOperand_of_write he hw, wakeOperand_value]
  waits := by
    rintro q rfl h hport
    rw [wakeOperand_of_unannounced h, portOperand_of_not_write hport, wakeOperand_of_unannounced h]

/-! ## The arriving entry joins its bank (R203) -/

/-- The banks `rs'` are `rs` with the entry `e` in slot `k`, the free one with the lowest index of its bank. -/
structure JoinsBank (rs rs' : Banks) (e : RSEntry Op) (k : Nat) : Prop where
  free : FirstFree (rs.view e.op.bank) k
  placed : rs'.view e.op.bank = (rs.view e.op.bank).set k (some e)
  others : ∀ b, b ≠ e.op.bank → rs'.view b = rs.view b

theorem FirstFree.lt_length {α : Type} {bank : List (Option α)} {k : Nat} (h : FirstFree bank k) : k < bank.length := by
  obtain ⟨hslot, -⟩ := h
  obtain ⟨hlt, -⟩ := List.getElem?_eq_some_iff.mp hslot
  exact hlt

theorem JoinsBank.slot {rs rs' : Banks} {e : RSEntry Op} {k : Nat} (h : JoinsBank rs rs' e k) :
    (rs'.view e.op.bank)[k]? = some (some e) := by
  rw [h.placed, List.getElem?_set_self h.free.lt_length]

/-- The arriving entry displaces none: its slot was free. -/
theorem JoinsBank.keeps_busy {rs rs' : Banks} {e x : RSEntry Op} {k j : Nat} {b : Bank} (h : JoinsBank rs rs' e k)
    (hx : (rs.view b)[j]? = some (some x)) : (rs'.view b)[j]? = some (some x) := by
  by_cases hb : b = e.op.bank
  · subst hb
    obtain ⟨hfree, -⟩ := h.free
    have hjk : k ≠ j := by
      rintro rfl
      cases hfree.symm.trans hx
    rw [h.placed, List.getElem?_set_ne hjk, hx]
  · rw [h.others b hb, hx]

/-- Insertion into one bank, under the common operation type. -/
theorem insertFree_view {α : Type} (toOp : α → Op) {e : RSEntry Op} {o : α} {bank b : List (Option (RSEntry α))}
    (ho : e.op = toOp o) (h : insertFree (e.withOp o) bank = some b) :
    ∃ k, FirstFree (bank.map (Option.map fun e => e.withOp (toOp e.op))) k ∧
      b.map (Option.map fun e => e.withOp (toOp e.op)) =
        (bank.map (Option.map fun e => e.withOp (toOp e.op))).set k (some e) := by
  obtain ⟨k, hk, hlow, rfl⟩ := insertFree_eq_some h
  refine ⟨k, ⟨by simp [hk], fun j hj hfree => hlow j hj ?_⟩, ?_⟩
  · simpa using hfree
  · rw [List.map_set, Option.map_some, RSEntry.withOp_op, RSEntry.withOp_withOp, RSEntry.withOp_self ho]

theorem joinsBank_of_view {rs rs' : Banks} {e : RSEntry Op} {b : Bank} (hb : e.op.bank = b)
    (hjoin : ∃ k, FirstFree (rs.view b) k ∧ rs'.view b = (rs.view b).set k (some e))
    (ho : ∀ b', b' ≠ b → rs'.view b' = rs.view b') : ∃ k, JoinsBank rs rs' e k := by
  subst hb
  obtain ⟨k, hfree, hset⟩ := hjoin
  exact ⟨k, hfree, hset, ho⟩

/-- Step F5 puts the arriving entry into the bank of its operation and leaves the other banks alone. -/
theorem insertRs_joinsBank {s s' : State} {l : Latch} (hl : s.latch = some l) (h : insertRs s = .ok s') :
    ∃ k, JoinsBank s.rs s'.rs (arriving s l.rsEntry) k := by
  rcases insertRs_eq_ok h with ⟨hn, -⟩ | ⟨l', hl', h⟩
  · simp [hn] at hl
  · cases hl.symm.trans hl'
    rcases h with ⟨o, b, ho, hb, rfl⟩ | ⟨o, b, ho, hb, rfl⟩ | ⟨o, b, ho, hb, rfl⟩ | ⟨o, b, ho, hb, rfl⟩ |
      ⟨o, b, ho, hb, rfl⟩
    · exact joinsBank_of_view (b := .add) (congrArg Op.bank ho) (insertFree_view .add ho hb)
        (by rintro (_ | _) <;> simp [Banks.view])
    · exact joinsBank_of_view (b := .cmp) (congrArg Op.bank ho) (insertFree_view .cmp ho hb)
        (by rintro (_ | _) <;> simp [Banks.view])
    · exact joinsBank_of_view (b := .log) (congrArg Op.bank ho) (insertFree_view .log ho hb)
        (by rintro (_ | _) <;> simp [Banks.view])
    · exact joinsBank_of_view (b := .shf) (congrArg Op.bank ho) (insertFree_view .shf ho hb)
        (by rintro (_ | _) <;> simp [Banks.view])
    · exact joinsBank_of_view (b := .ls) (congrArg Op.bank ho) (insertFree_view .ls ho hb)
        (by rintro (_ | _) <;> simp [Banks.view])

/-! ## The banks of the flushed state -/

/-- Wakeup under the common operation type: it does not look at the operation. -/
theorem wakeAll_view (s : State) (b : Bank) : (wakeAll s).rs.view b = wakeBank s.bus (s.rs.view b) := by
  have hwake : ∀ {α : Type} (toOp : α → Op) (bank : List (Option (RSEntry α))),
      (wakeBank s.bus bank).map (Option.map fun e => e.withOp (toOp e.op)) =
        wakeBank s.bus (bank.map (Option.map fun e => e.withOp (toOp e.op))) := by
    intro α toOp bank
    simp only [wakeBank, List.map_map]
    refine List.map_congr_left fun slot _ => ?_
    cases slot <;> rfl
  cases b <;> exact hwake _ _

theorem getElem?_wakeBank {α : Type} {bus : List Msg} {bank : List (Option (RSEntry α))} {k : Nat} {e : RSEntry α}
    (h : bank[k]? = some (some e)) : (wakeBank bus bank)[k]? = some (some (e.wake bus)) := by
  simp [wakeBank, h]

/-- The steps F2 to F4 of a Flush leave the banks, the latch and the bus to F5 and F6 as they were. -/
theorem flushUnits_insertRs {s s' : State} (h : flushUnits s = .ok s') :
    ∃ s₆ s₇, s₆.rs = s.rs ∧ s₆.latch = s.latch ∧ s₆.bus = s.bus ∧ insertRs s₆ = .ok s₇ ∧
      s' = clearLatchAndBus (wakeAll s₇) := by
  obtain ⟨s₁, s₂, s₃, s₄, s₅, s₆, s₇, h₁, h₂, h₃, h₄, h₅, h₆, h₇, rfl⟩ := flushUnits_eq_ok h
  have hsame : s₆.rs = s.rs ∧ s₆.latch = s.latch ∧ s₆.bus = s.bus := by
    obtain ⟨es, rfl, -⟩ := absorb_onWriteBack_frame h₁
    obtain ⟨r, rfl⟩ := absorb_onStoreSuccess_frame h₂
    obtain ⟨r', rfl⟩ := insertRob_frame h₃
    obtain ⟨lq, sq, rfl⟩ := insertLsb_frame h₄
    obtain ⟨g, g', rfl, -, -⟩ := absorb_onGetAddr_frame h₅
    obtain ⟨sq', rfl, -⟩ := absorb_onCommitMem_queue h₆
    exact ⟨rfl, rfl, rfl⟩
  obtain ⟨hrs, hlatch, hbus⟩ := hsame
  exact ⟨s₆, s₇, hrs, hlatch, hbus, h₇, rfl⟩

/-- A Flush without a squash: the latched entry joins its bank, its operands read through the ports of the flushed
reorder buffer, and every busy slot snoops the bus. -/
theorem flush_banks {s f : State} (hc : s.clear = false) (hf : flush s = .ok f) :
    ∃ rs : Banks, (∀ b, f.rs.view b = wakeBank s.bus (rs.view b)) ∧ (s.latch = none → rs = s.rs) ∧
      ∀ l, s.latch = some l → ∃ k, JoinsBank s.rs rs ((l.rsEntry.wake s.bus).port f) k := by
  rcases flush_eq_ok hf with ⟨hclear, -⟩ | ⟨-, f', hu, rfl⟩
  · simp [hc] at hclear
  obtain ⟨s₆, s₇, hrs, hlatch, hbus, h₇, rfl⟩ := flushUnits_insertRs hu
  rw [← hrs, ← hlatch, ← hbus]
  obtain ⟨rs, rfl⟩ := insertRs_frame h₇
  refine ⟨rs, wakeAll_view _, fun hl => ?_, fun l hl => ?_⟩
  · rcases insertRs_eq_ok h₇ with ⟨-, heq⟩ | ⟨l, hl', -⟩
    · exact congrArg State.rs heq
    · cases hl.symm.trans hl'
  · have hport : (l.rsEntry.wake s₆.bus).port (setFull (clearLatchAndBus (wakeAll { s₆ with rs := rs }))) =
        arriving s₆ l.rsEntry := RSEntry.port_congr rfl rfl _
    rw [hport]
    exact insertRs_joinsBank hl h₇

/-- Settles O39: no arrival displaces a busy slot, and each operand of the slot snoops the bus. -/
theorem everyBusySlotSnoopsTheBus : Obligations.EveryBusySlotSnoopsTheBus := by
  intro s f b k e hc hf he
  obtain ⟨rs, hview, hnone, hsome⟩ := flush_banks hc hf
  have hkept : (rs.view b)[k]? = some (some e) := by
    rcases hl : s.latch with _ | l
    · rw [hnone hl, he]
    · obtain ⟨_, hjoin⟩ := hsome l hl
      exact hjoin.keeps_busy he
  exact ⟨e.wake s.bus, hview b ▸ getElem?_wakeBank hkept, rfl, rfl, rfl, wakesFrom_wakeOperand _ _,
    wakesFrom_wakeOperand _ _⟩

/-- Settles O40: the entry joins its bank in the lowest free slot, and snoops the bus there with the others. -/
theorem arrivingEntryTakesLowestFreeSlot : Obligations.ArrivingEntryTakesLowestFreeSlot := by
  intro s f l hc hl hf
  obtain ⟨rs, hview, -, hsome⟩ := flush_banks hc hf
  obtain ⟨k, hjoin⟩ := hsome l hl
  refine ⟨k, ((l.rsEntry.wake s.bus).port f).wake s.bus, hjoin.free, hview _ ▸ getElem?_wakeBank hjoin.slot, rfl, rfl,
    rfl, fun o o' ho => ?_⟩
  have harrives : ArrivesFrom s.bus f o o' := by
    rcases ho with ⟨rfl, rfl⟩ | ⟨rfl, rfl⟩ <;> exact arrivesFrom_wake_port_wake _ _ _
  exact ⟨harrives.resolved, fun q hq => ⟨harrives.announced q hq, harrives.written q hq, harrives.waits q hq⟩⟩

end Sys2Proof.Machine
end

section
/-! SUPPORT. Dispatch in a completed tick: the arithmetic stages with their banks, and the LS bank
(42_reservation_stations.md R207 to R210; 43_addsub.md R231; 47_load_store.md R331). -/

namespace Sys2Proof.Machine

/-! ## Ready entries (10_state.md R32) -/

theorem RSEntry.ready_of_values {α : Type} {e : RSEntry α} {a b : Word} (hj : e.j = .value a) (hk : e.k = .value b) :
    e.ready = some ⟨e.op, e.dest, a, b, e.imm⟩ := by
  simp [RSEntry.ready, hj, hk]

theorem RSEntry.ready_eq_none_iff {α : Type} {e : RSEntry α} : e.ready = none ↔ ¬ e.isReady := by
  unfold RSEntry.ready RSEntry.isReady
  cases e.j <;> cases e.k <;> simp

theorem takeReady_of_noneReady {α : Type} {bank : List (Option (RSEntry α))} (h : NoneReady bank) :
    takeReady bank = none :=
  takeReady_eq_none_iff.mpr fun e he => RSEntry.ready_eq_none_iff.mpr (h e he)

/-- The ready entry with the lowest slot index is unique. -/
theorem FirstReady.unique {α : Type} {bank : List (Option (RSEntry α))} {k k' : Nat} {e e' : RSEntry α}
    (h : FirstReady bank k e) (h' : FirstReady bank k' e') : k = k' ∧ e = e' := by
  obtain ⟨hslot, hready, hlow⟩ := h
  obtain ⟨hslot', hready', hlow'⟩ := h'
  obtain rfl : k = k' := by
    rcases Nat.lt_trichotomy k k' with hlt | heq | hlt
    · exact absurd hready (hlow' k hlt e hslot)
    · exact heq
    · exact absurd hready' (hlow k' hlt e' hslot')
  cases hslot.symm.trans hslot'
  exact ⟨rfl, rfl⟩

/-- What is dispatched is the ready entry with the lowest slot index. -/
theorem firstReady_of_takeReady {α : Type} {bank b : List (Option (RSEntry α))} {r : Ready α}
    (h : takeReady bank = some (r, b)) : ∃ k e, FirstReady bank k e ∧ e.ready = some r ∧ b = bank.set k none := by
  obtain ⟨k, e, hk, hr, hlow, hb⟩ := takeReady_eq_some h
  have hready : e.isReady := by
    by_contra hn
    simp [RSEntry.ready_eq_none_iff.mpr hn] at hr
  exact ⟨k, e, ⟨hk, hready, fun j hj e' he' => RSEntry.ready_eq_none_iff.mp (hlow j hj e' he')⟩, hr, hb⟩

theorem takeReady_of_firstReady {α : Type} {bank : List (Option (RSEntry α))} {k : Nat} {e : RSEntry α} {a b : Word}
    (h : FirstReady bank k e) (hj : e.j = .value a) (hk : e.k = .value b) :
    takeReady bank = some (⟨e.op, e.dest, a, b, e.imm⟩, bank.set k none) := by
  rcases ht : takeReady bank with _ | ⟨r, bank'⟩
  · obtain ⟨hslot, hready, -⟩ := h
    have hnone := takeReady_eq_none_iff.mp ht e (List.mem_of_getElem? hslot)
    exact absurd hready (RSEntry.ready_eq_none_iff.mp hnone)
  · obtain ⟨k', e', h', hr, rfl⟩ := firstReady_of_takeReady ht
    obtain ⟨rfl, rfl⟩ := h.unique h'
    cases hr.symm.trans (RSEntry.ready_of_values hj hk)
    rfl

/-! ## The arithmetic stages (R231, R207, R208) -/

/-- A stage step follows the rule of its situation. -/
theorem unitStep_stageRule {α : Type} (result : α → Word → Word → Word) (lat : Nat) (st : Stage α)
    (bank : List (Option (RSEntry α))) :
    StageRule result lat st bank (unitStep result lat st bank).stage (unitStep result lat st bank).bank
      (unitStep result lat st bank).msgs where
  counts := by
    rintro rem op a b d rfl h
    simp [unitStep, h]
  finishes := by
    rintro op a b d rfl
    simp [unitStep]
  waits := by
    rintro rfl h
    simp [unitStep, takeReady_of_noneReady h]
  takes := by
    rintro rfl k e a b h hj hk
    simp [unitStep, takeReady_of_firstReady h hj hk]

/-- Settles O41: each stage makes its step, and their messages stand together on the bus, in unit order. -/
theorem arithmeticStagesStep : Obligations.ArithmeticStagesStep := by
  intro s f t h
  obtain ⟨c, l, st, i, r, hx⟩ := h.executed
  obtain rfl := hx.merged
  refine ⟨_, _, _, _, unitStep_stageRule .., unitStep_stageRule .., unitStep_stageRule .., unitStep_stageRule .., ?_⟩
  exact ⟨c.msgs, l.msgs ++ st.msgs ++ (dispatchLs f).2, by
    simp [emitted, stepAdd, stepCmp, stepLog, stepShf, List.append_assoc]⟩

/-! ## The LS bank (R210, R331) -/

theorem dispatchLs_of_noneReady {f : State} (h : NoneReady f.rs.ls) : dispatchLs f = (f.rs.ls, []) := by
  simp [dispatchLs, takeReady_of_noneReady h]

theorem dispatchLs_of_firstReady {f : State} {k : Nat} {e : RSEntry LsOp} {a b : Word} (h : FirstReady f.rs.ls k e)
    (hj : e.j = .value a) (hk : e.k = .value b) :
    dispatchLs f = (f.rs.ls.set k none, dispatchMsgs ⟨e.op, e.dest, a, b, e.imm⟩) := by
  simp [dispatchLs, takeReady_of_firstReady h hj hk]

theorem kind_mem_of_sublist {ms : List Msg} {ks : List MsgKind} (h : (ms.map Msg.kind).Sublist ks) {m : Msg}
    (hm : m ∈ ms) : m.kind ∈ ks :=
  h.subset (List.mem_map_of_mem hm)

section
variable {f t : State} {c : Commit} {l : LoadOut} {st : StoreOut} {i : IssueOut} {r : Option IRec}

/-- No unit but the LS bank announces an address (40_clock_and_bus.md R146). -/
theorem Executed.getAddr_of_dispatch (h : Executed f t c l st i r) {m : Msg} (hm : m ∈ t.bus)
    (hk : m.kind = .getAddr) : m ∈ (dispatchLs f).2 := by
  have hstage : ∀ {ms : List Msg}, (ms.map Msg.kind).Sublist [.writeBack] → m ∉ ms := fun hs hm => by
    simpa [hk] using kind_mem_of_sublist hs hm
  rw [h.merged, merge_bus, emitted] at hm
  simp only [List.mem_append] at hm
  rcases hm with ((((((hm | hm) | hm) | hm) | hm) | hm) | hm) | hm
  · obtain ⟨k, hcommit, hs⟩ := commit_kinds h.commit
    have hmem := kind_mem_of_sublist hs hm
    rcases hcommit with rfl | rfl <;> simp [hk] at hmem
  · exact absurd hm (hstage (unitStep_kinds ..))
  · exact absurd hm (hstage (unitStep_kinds ..))
  · exact absurd hm (hstage (unitStep_kinds ..))
  · exact absurd hm (hstage (unitStep_kinds ..))
  · exact absurd hm (hstage (loadStage_kinds h.load))
  · have hmem := kind_mem_of_sublist (storeStage_kinds h.store) hm
    simp [hk] at hmem
  · exact hm

/-- The LS bank's messages are the last on the bus (R149). -/
theorem Executed.dispatch_suffix (h : Executed f t c l st i r) : (dispatchLs f).2 <:+ t.bus := by
  rw [h.merged, merge_bus, emitted]
  exact List.suffix_append _ _

theorem Executed.ls_bank (h : Executed f t c l st i r) : t.rs.ls = (dispatchLs f).1 := by
  rw [h.merged, merge_rs]

end

/-- Settles O42: the bank makes its dispatch whatever the stages do, and its messages end the bus. -/
theorem loadStoreBankDispatch : Obligations.LoadStoreBankDispatch := by
  intro s f t h
  obtain ⟨c, l, st, i, r, hx⟩ := h.executed
  refine ⟨fun hnone => ?_, fun k e a b hfirst hj hk => ?_⟩
  · have hd := dispatchLs_of_noneReady hnone
    refine ⟨by rw [hx.ls_bank, hd], fun m hm hkind => ?_⟩
    have hmem := hx.getAddr_of_dispatch hm hkind
    simp [hd] at hmem
  · have hd := dispatchLs_of_firstReady hfirst hj hk
    have hsuffix := hx.dispatch_suffix
    rw [hd] at hsuffix
    refine ⟨by rw [hx.ls_bank, hd], fun o ho => ?_, fun o ho => ?_⟩ <;>
      simpa only [dispatchMsgs, effectiveAddress, ho] using hsuffix

end Sys2Proof.Machine
end

section
/-! SUPPORT. One entry in the empty banks and one arithmetic operation in the idle stages, whichever of the four families it
is of: insertion, dispatch and result (42_reservation_stations.md R203, R207; 43_addsub.md R231, R232; 44_compare_branch.md
R261; 45_logic.md R291; 46_shift.md R311). -/

namespace Sys2Proof.Machine

/-! ## The banks with one entry, the stages with one operation -/

/-- The result of an arithmetic operation by the stage of its family; a memory operation has no such stage. -/
def Op.result : Op → Word → Word → Word
  | .add o => addResult o
  | .cmp o => cmpResult o
  | .log o => logResult o
  | .shf o => shfResult o
  | .ls _ => fun _ _ => 0

/-- The banks with one entry, in the first slot of the bank of its operation. -/
def Banks.holding (c : Config) (e : RSEntry Op) : Banks :=
  match e.op with
  | .add o => { Banks.empty c with add := some (e.withOp o) :: List.replicate (c.rsCapAdd - 1) none }
  | .cmp o => { Banks.empty c with cmp := some (e.withOp o) :: List.replicate (c.rsCapCmp - 1) none }
  | .log o => { Banks.empty c with log := some (e.withOp o) :: List.replicate (c.rsCapLog - 1) none }
  | .shf o => { Banks.empty c with shf := some (e.withOp o) :: List.replicate (c.rsCapShf - 1) none }
  | .ls o => { Banks.empty c with ls := some (e.withOp o) :: List.replicate (c.rsCapLs - 1) none }

/-- The stages with one operation, `rem` ticks from its end, in the stage of its family. -/
def Stages.working (rem : Nat) (op : Op) (a b : Word) (n : Nat) : Stages :=
  match op with
  | .add o => { Stages.allIdle with add := .busy rem o a b n }
  | .cmp o => { Stages.allIdle with cmp := .busy rem o a b n }
  | .log o => { Stages.allIdle with log := .busy rem o a b n }
  | .shf o => { Stages.allIdle with shf := .busy rem o a b n }
  | .ls _ => Stages.allIdle

/-- Every arithmetic stage takes one tick, as in REF (00_scope.md R8). -/
structure SingleTickStages (c : Config) : Prop where
  add : c.latAdd = 1
  cmp : c.latCmp = 1
  log : c.latLog = 1
  shf : c.latShf = 1

/-! ## Insertion (R203) -/

/-- A ready entry takes the first slot of its empty bank as it is. -/
theorem insertRs_eq_holding {t : State} {l : Latch} (hl : t.latch = some l) (hready : l.rsEntry.isReady)
    (hrs : t.rs = Banks.empty t.cfg) (hc : t.cfg.wf) :
    insertRs t = .ok { t with rs := Banks.holding t.cfg l.rsEntry } := by
  obtain ⟨-, -, ⟨hadd, hcmp, hlog, hshf, hls⟩, -⟩ := hc
  simp only [insertRs, hl, arriving_of_isReady hready, hrs, Banks.empty, Banks.holding, replicate_of_pos hadd,
    replicate_of_pos hcmp, replicate_of_pos hlog, replicate_of_pos hshf, replicate_of_pos hls]
  cases l.rsEntry.op <;> rfl

/-- A Flush that only takes in a ready arithmetic entry: behind the live ones in the reorder buffer, and in its bank. -/
theorem flush_of_arrival {t : State} {l : Latch} {n : Nat} {es : List RobEntry} (hclear : t.clear = false)
    (hl : t.latch = some l) (hlsb : l.lsbEntry = none) (hready : l.rsEntry.isReady) (hbus : t.bus = [])
    (hrob : t.rob = ⟨n, es⟩) (hroom : es.length < t.cfg.robCap) (hrs : t.rs = Banks.empty t.cfg) (hc : t.cfg.wf) :
    ∃ f, flush t = .ok f ∧ f.rob = ⟨n, es ++ [l.robEntry]⟩ ∧ f.rs = Banks.holding f.cfg l.rsEntry ∧
      f.lq = t.lq ∧ f.sq = t.sq := by
  have hflush := flush_of_steps hclear hbus rfl rfl (insertRob_of_room hl hrob hroom) (insertLsb_of_none hl hlsb) rfl rfl
    (insertRs_eq_holding hl hready hrs hc)
  refine ⟨_, hflush, rfl, ?_, rfl, rfl⟩
  simp [hbus]

/-- A bank of two slots has room beside one entry. -/
theorem Banks.holding_addHasRoom {c : Config} (h : 1 < c.rsCapAdd) (e : RSEntry Op) :
    bankHasRoom (Banks.holding c e) .add := by
  have hrest : none ∈ List.replicate (c.rsCapAdd - 1) (none : Option (RSEntry AddOp)) :=
    List.mem_replicate.mpr ⟨by omega, rfl⟩
  have hempty : none ∈ List.replicate c.rsCapAdd (none : Option (RSEntry AddOp)) :=
    List.mem_replicate.mpr ⟨by omega, rfl⟩
  unfold bankHasRoom Banks.holding
  cases e.op with
  | add o => exact List.mem_cons_of_mem _ hrest
  | cmp o => exact hempty
  | log o => exact hempty
  | shf o => exact hempty
  | ls o => exact hempty

theorem Banks.holding_ls (c : Config) {e : RSEntry Op} (h : e.op.bank ≠ .ls) :
    (Banks.holding c e).ls = (Banks.empty c).ls := by
  unfold Banks.holding
  cases ho : e.op with
  | ls o => exact absurd (by rw [ho]; rfl) h
  | _ o => rfl

/-! ## Dispatch and result (R207, R231) -/

/-- What the arithmetic stages and the LS bank of a flushed state send, in the unit order (40_clock_and_bus.md R149). -/
def stationMsgs (f : State) : List Msg :=
  (stepAdd f).msgs ++ (stepCmp f).msgs ++ (stepLog f).msgs ++ (stepShf f).msgs ++ (dispatchLs f).2

/-- Where the memory stages are silent, commit and the stations send all there is. -/
theorem emitted_of_silent_memory {f : State} {c : Commit} {l : LoadOut} {st : StoreOut} (hl : l.msgs = [])
    (hst : st.msgs = []) : emitted f c l st = c.msgs ++ stationMsgs f := by
  simp [emitted, stationMsgs, hl, hst]

theorem unitStep_idle_msgs {α : Type} (result : α → Word → Word → Word) (lat : Nat)
    (bank : List (Option (RSEntry α))) : (unitStep result lat .idle bank).msgs = [] := by
  unfold unitStep
  cases takeReady bank <;> rfl

/-- An idle stage takes a ready entry that is alone in its bank. -/
theorem unitStep_takes {α : Type} (result : α → Word → Word → Word) (r : IRec) (o : α) (m : Nat) (a b : Word) {n : Nat}
    (hn : 1 ≤ n) :
    unitStep result 1 .idle (some (memoryEntry r o m a b) :: List.replicate (n - 1) none) =
      ⟨.busy 1 o a b m, List.replicate n none, []⟩ := by
  simp [unitStep, takeReady, RSEntry.ready, memoryEntry, replicate_of_pos hn]

/-- A stage in its last tick delivers its result. -/
theorem unitStep_delivers {α : Type} (result : α → Word → Word → Word) (lat : Nat) (o : α) (a b : Word) (n : Nat)
    (bank : List (Option (RSEntry α))) :
    (unitStep result lat (.busy 1 o a b n) bank).msgs = [⟨.writeBack, n, result o a b⟩] := rfl

section
variable {f : State} {op : Op} {r : IRec} {a b : Word} {n : Nat}

/-- What the units answer is what the banks and stages become (40_clock_and_bus.md R133). -/
theorem stations_of_units {ua : UnitOut AddOp} {uc : UnitOut CmpOp} {ul : UnitOut LogOp} {us : UnitOut ShfOp}
    {um : List (Option (RSEntry LsOp)) × List Msg} (ha : stepAdd f = ua) (hc : stepCmp f = uc) (hl : stepLog f = ul)
    (hs : stepShf f = us) (hm : dispatchLs f = um) (c : Commit) (l : LoadOut) (st : StoreOut) (i : IssueOut)
    (x : Option IRec) (msgs : List Msg) :
    (merge f c l st i x msgs).rs = ⟨ua.bank, uc.bank, ul.bank, us.bank, um.1⟩ ∧
      (merge f c l st i x msgs).fu = ⟨ua.stage, uc.stage, ul.stage, us.stage⟩ := by
  subst ha hc hl hs hm
  exact ⟨rfl, rfl⟩

theorem stepAdd_of_empty (hfu : f.fu.add = .idle) (hrs : f.rs.add = (Banks.empty f.cfg).add) :
    stepAdd f = ⟨.idle, (Banks.empty f.cfg).add, []⟩ := by
  rw [stepAdd, hfu, hrs]
  exact unitStep_of_empty ..

theorem stepCmp_of_empty (hfu : f.fu.cmp = .idle) (hrs : f.rs.cmp = (Banks.empty f.cfg).cmp) :
    stepCmp f = ⟨.idle, (Banks.empty f.cfg).cmp, []⟩ := by
  rw [stepCmp, hfu, hrs]
  exact unitStep_of_empty ..

theorem stepLog_of_empty (hfu : f.fu.log = .idle) (hrs : f.rs.log = (Banks.empty f.cfg).log) :
    stepLog f = ⟨.idle, (Banks.empty f.cfg).log, []⟩ := by
  rw [stepLog, hfu, hrs]
  exact unitStep_of_empty ..

theorem stepShf_of_empty (hfu : f.fu.shf = .idle) (hrs : f.rs.shf = (Banks.empty f.cfg).shf) :
    stepShf f = ⟨.idle, (Banks.empty f.cfg).shf, []⟩ := by
  rw [stepShf, hfu, hrs]
  exact unitStep_of_empty ..

/-- The idle stage of its family takes the one ready entry, which frees its slot. -/
theorem stations_dispatch (hc : f.cfg.wf) (hlat : SingleTickStages f.cfg) (hop : op.bank ≠ .ls)
    (hrs : f.rs = Banks.holding f.cfg (memoryEntry r op n a b)) (hfu : f.fu = Stages.allIdle) (c : Commit) (l : LoadOut)
    (st : StoreOut) (i : IssueOut) (x : Option IRec) (msgs : List Msg) :
    (merge f c l st i x msgs).rs = Banks.empty f.cfg ∧
      (merge f c l st i x msgs).fu = Stages.working 1 op a b n := by
  obtain ⟨-, -, ⟨hadd, hcmp, hlog, hshf, -⟩, -⟩ := hc
  have emptyAdd := stepAdd_of_empty (congrArg Stages.add hfu)
  have emptyCmp := stepCmp_of_empty (congrArg Stages.cmp hfu)
  have emptyLog := stepLog_of_empty (congrArg Stages.log hfu)
  have emptyShf := stepShf_of_empty (congrArg Stages.shf hfu)
  have emptyLs := dispatchLs_of_empty (f := f)
  have rsAdd := congrArg Banks.add hrs
  have rsCmp := congrArg Banks.cmp hrs
  have rsLog := congrArg Banks.log hrs
  have rsShf := congrArg Banks.shf hrs
  have rsLs := congrArg Banks.ls hrs
  cases op with
  | add o =>
    have htakes : stepAdd f = ⟨.busy 1 o a b n, (Banks.empty f.cfg).add, []⟩ := by
      rw [stepAdd, hrs, hfu, hlat.add]
      exact unitStep_takes addResult r o n a b hadd
    exact stations_of_units htakes (emptyCmp rsCmp) (emptyLog rsLog) (emptyShf rsShf) (emptyLs rsLs) c l st i x msgs
  | cmp o =>
    have htakes : stepCmp f = ⟨.busy 1 o a b n, (Banks.empty f.cfg).cmp, []⟩ := by
      rw [stepCmp, hrs, hfu, hlat.cmp]
      exact unitStep_takes cmpResult r o n a b hcmp
    exact stations_of_units (emptyAdd rsAdd) htakes (emptyLog rsLog) (emptyShf rsShf) (emptyLs rsLs) c l st i x msgs
  | log o =>
    have htakes : stepLog f = ⟨.busy 1 o a b n, (Banks.empty f.cfg).log, []⟩ := by
      rw [stepLog, hrs, hfu, hlat.log]
      exact unitStep_takes logResult r o n a b hlog
    exact stations_of_units (emptyAdd rsAdd) (emptyCmp rsCmp) htakes (emptyShf rsShf) (emptyLs rsLs) c l st i x msgs
  | shf o =>
    have htakes : stepShf f = ⟨.busy 1 o a b n, (Banks.empty f.cfg).shf, []⟩ := by
      rw [stepShf, hrs, hfu, hlat.shf]
      exact unitStep_takes shfResult r o n a b hshf
    exact stations_of_units (emptyAdd rsAdd) (emptyCmp rsCmp) (emptyLog rsLog) htakes (emptyLs rsLs) c l st i x msgs
  | ls o => exact absurd rfl hop

theorem stationMsgs_of_idle (hfu : f.fu = Stages.allIdle) (hls : f.rs.ls = (Banks.empty f.cfg).ls) :
    stationMsgs f = [] := by
  simp [stationMsgs, stepAdd, stepCmp, stepLog, stepShf, hfu, Stages.allIdle, unitStep_idle_msgs,
    dispatchLs_of_empty hls]

/-- The stage of its family delivers the result, whatever waits in the banks of the others. -/
theorem stationMsgs_of_working (hop : op.bank ≠ .ls) (hfu : f.fu = Stages.working 1 op a b n)
    (hls : f.rs.ls = (Banks.empty f.cfg).ls) : stationMsgs f = [⟨.writeBack, n, op.result a b⟩] := by
  simp only [stationMsgs, stepAdd, stepCmp, stepLog, stepShf, hfu, dispatchLs_of_empty hls]
  cases op with
  | ls o => exact absurd rfl hop
  | _ o => simp [Stages.working, Stages.allIdle, unitStep_idle_msgs, unitStep_delivers, Op.result]

end

end Sys2Proof.Machine
end

section
/-! SUPPORT. An arithmetic instruction or a conditional branch from a drained machine, tick by tick, until its result is on
the bus; behind it the halt sentinel, which stalls fetch (41_issue_unit.md R165, R172 to R177; 42_reservation_stations.md
R203, R207; 43_addsub.md R231; 48_reorder_commit.md R381, R383). -/

namespace Sys2Proof.Machine

/-! ## The run of one instruction and the sentinel -/

/-- A record of an arithmetic operation whose operands have values in `s`; fetch goes on at `next` behind it. -/
structure ArithRecord (s : State) (r : IRec) (op : Op) (a b next : Word) : Prop where
  classified : r.op = some op
  bank : op.bank ≠ .ls
  src1 : readSource s r.src1 = .value a
  src2 : readSource s r.src2 = .value b
  next : fetchNextPc r = next
  stall : fetchStalls r = false

/-- `n` ticks after a drained machine `s`, an instruction with record `r` and the sentinel behind it, which stood at
`next`, are in flight: the memory side is idle, and no register but the two destinations carries a tag. -/
structure SentinelBehind (s : State) (r : IRec) (next : Word) (n : Nat) (t : State) : Prop where
  undisturbed : Undisturbed s n t
  lq : t.lq = []
  sq : t.sq = []
  ldst : t.ldst = .idle
  stst : t.stst = .idle
  pc : t.pc = next + 4
  stall : t.stall = true
  tags : ∀ q m, q ≠ 10 → t.tagOf q = some m → r.rd = some q ∧ m = s.rob.head

section
variable {s t f : State} {r : IRec} {next : Word} {n : Nat} {c : Commit} {i : IssueOut}

/-- The Execute of such a tick, given what commit and issue do: fetch stands still, the memory stages hold, and the bus
does not overflow. -/
theorem SentinelBehind.step_eq_merge (h : SentinelBehind s r next n t) (hc : s.cfg.wf) (hflush : flush t = .ok f)
    (hlq : f.lq = []) (hsq : f.sq = []) (hcommit : commit f = .ok c) (hissue : issue f = .ok i) :
    step t = .next (merge f c ⟨.idle, [], []⟩ ⟨.idle, [], f.mem, []⟩ i none (c.msgs ++ stationMsgs f)) := by
  have hframe := flush_frame h.undisturbed.clear hflush
  have hload : loadStage f = .ok ⟨.idle, [], []⟩ := by
    rw [loadStage_holds (hframe.ldst.trans h.ldst) (by simp [hlq]), hlq]
  have hstore : storeStage f = .ok ⟨.idle, [], f.mem, []⟩ := by
    rw [storeStage_holds (hframe.stst.trans h.stst) (by simp [hsq]), hsq]
  have hsent := emitted_of_silent_memory (f := f) (c := c) (l := ⟨.idle, [], []⟩) (st := ⟨.idle, [], f.mem, []⟩) rfl rfl
  have hlen := emitted_length_le hcommit hload hstore
  obtain ⟨-, -, -, -, -, hbus, -⟩ := hc
  refine step_of_units h.undisturbed.status h.undisturbed.halt hflush (hframe.stall.trans h.stall) hcommit hload hstore
    hissue hsent ?_
  rw [hframe.cfg, h.undisturbed.cfg, ← hsent]
  exact hlen.trans hbus

/-- A tick that commits nothing and renames no register but x10 keeps the run. -/
theorem SentinelBehind.merge {msgs : List Msg} (h : SentinelBehind s r next n t) (hflush : flush t = .ok f)
    (hren : ∀ p, i.rename = some p → p.1 = 10) :
    SentinelBehind s r next (n + 1)
      (merge f (Commit.nothing f) ⟨.idle, [], []⟩ ⟨.idle, [], f.mem, []⟩ i none msgs) where
  undisturbed := (h.undisturbed.flush hflush).merge (Commit.quiet_nothing f) rfl
  lq := rfl
  sq := rfl
  ldst := rfl
  stst := rfl
  pc := (flush_frame h.undisturbed.clear hflush).pc.trans h.pc
  stall := by
    rw [merge_stall, nextStall, (flush_frame h.undisturbed.clear hflush).stall, h.stall]
    rfl
  tags := fun q m hq htag => by
    rcases tagOf_nextTags_eq_some (merge_tag ..) htag with hnew | hold
    · exact absurd (hren _ hnew) hq
    · exact h.tags q m hq ((State.tagOf_congr (flush_frame h.undisturbed.clear hflush).tag q).symm.trans hold)

end

/-- REF has room for the sentinel beside one entry in the ADD bank, and its stages take one tick. -/
theorem RefTiming.stations {s : State} (h : RefTiming s) : 1 < s.cfg.rsCapAdd ∧ SingleTickStages s.cfg := by
  obtain ⟨k, hk⟩ := h
  rw [hk]
  exact ⟨(by decide : 1 < Config.ref.rsCapAdd), rfl, rfl, rfl, rfl⟩

/-! ## Entry and issue -/

/-- The record alone is in the instruction queue, and fetch stands at `next`, which JAL chooses itself (R162); else as
`Fetched`. -/
structure ArithFetched (s : State) (r : IRec) (next : Word) (t : State) : Prop where
  undisturbed : Undisturbed s 1 t
  back : BackEmpty s.rob.head t
  latch : t.latch = none
  iq : t.iq = [r]
  pc : t.pc = next
  stall : t.stall = false
  tag : t.tag = s.tag

/-- The instruction is in the latch, and the sentinel alone in the instruction queue. -/
structure ArithIssued (s : State) (r : IRec) (op : Op) (a b next : Word) (t : State) : Prop where
  run : SentinelBehind s r next 2 t
  rs : t.rs = Banks.empty t.cfg
  fu : t.fu = Stages.allIdle
  rob : t.rob = ⟨s.rob.head, []⟩
  bus : t.bus = []
  latch : t.latch = some ⟨s.rob.head, issuedEntry r, memoryEntry r op s.rob.head a b, none⟩
  iq : ∃ f, t.iq = [haltRecord f]

/-- The instruction is in the stage of its family, and the sentinel in the latch. -/
structure ArithDispatched (s : State) (r : IRec) (op : Op) (a b next : Word) (t : State) : Prop where
  run : SentinelBehind s r next 3 t
  rs : t.rs = Banks.empty t.cfg
  fu : t.fu = Stages.working 1 op a b s.rob.head
  rob : t.rob = ⟨s.rob.head, [issuedEntry r]⟩
  bus : t.bus = []
  latch : ∃ e, t.latch = some ⟨nextIndex s, e, sentinelEntry (.add .add) (nextIndex s), none⟩
  iq : t.iq = []

/-- The result is on the bus, and the sentinel behind the instruction in the reorder buffer. -/
structure ArithComputed (s : State) (r : IRec) (v next : Word) (t : State) : Prop where
  run : SentinelBehind s r next 4 t
  rob : ∃ e, t.rob = ⟨s.rob.head, [issuedEntry r, e]⟩
  bus : t.bus = [⟨.writeBack, s.rob.head, v⟩]
  latch : t.latch = none
  iq : t.iq = []

section
variable {s t : State} {r : IRec} {op : Op} {a b next v : Word}

theorem Drained.arithFetched (hd : Drained s) (hr : ArithRecord s r op a b next) :
    ArithFetched s r next (frontMerged (setFull s) ⟨[], none, none⟩ (some r)) where
  undisturbed := (hd.undisturbed.flush hd.flush).frontMerged _ _
  back := hd.backEmpty.setFull.merged _ _
  latch := rfl
  iq := rfl
  pc := hr.next
  stall := by simp [frontMerged, nextStall, hr.stall, hd.stall]
  tag := rfl

theorem lsbEntryOf_eq_none (h : op.bank ≠ .ls) (n : Nat) : lsbEntryOf op n = none := by
  cases op with
  | ls o => exact absurd rfl h
  | _ o => rfl

/-- The sentinel is fetched, and the instruction issues with its operands read. -/
theorem ArithFetched.step (h : ArithFetched s r next t) (hd : Drained s) (hr : ArithRecord s r op a b next)
    (hc : s.cfg.wf) (hiq : 1 < s.cfg.iqCap) (hsent : SentinelAt s next) :
    ∃ u, step t = .next u ∧ ArithIssued s r op a b next u := by
  obtain ⟨hu, hback, hlatch, hq, hpc, hstall, htag⟩ := h
  have hword : t.fetchWord = some haltWord := by
    unfold State.fetchWord
    rw [hu.mem, hu.cfg, hpc]
    exact hsent
  have hflush : flush t = .ok (setFull t) := flush_of_quiet hu.clear hlatch hback.bus
  have hgate : fetchGate (setFull t) = true := by simpa [fetchGate, hstall, hq, hu.cfg] using hiq
  have htail : (setFull t).robTail = s.rob.head := by
    simp [State.robTail, hback.rob, hu.cfg, Nat.mod_eq_of_lt hd.head]
  have hsrc : ∀ src, readSource (setFull t) src = readSource s src := fun src =>
    readSource_congr (s := s) (t := setFull t) hu.x htag src
  have hentries : latchOf (setFull t) r op =
      ⟨s.rob.head, issuedEntry r, memoryEntry r op s.rob.head a b, none⟩ := by
    simp [latchOf, htail, hsrc, hr.src1, hr.src2, issuedEntry, memoryEntry, lsbEntryOf_eq_none hr.bank]
  have hissue := issue_of_gate (f := setFull t) hq hr.classified
    (issueGate_of_room (hback.fullFlags (hu.cfg ▸ hc)) op)
  rw [hentries, htail] at hissue
  have hexec := hback.setFull.execute hissue (fetch_of_open (port := fun f => .ok (haltRecord f)) hgate rfl)
  have hstep := (step_of_fetchWord hword (by decide : decode haltWord = .ok .halt)).trans
    ((tickOutcome_of_running hu.status).trans (congrArg _ (tick_completes hu.halt hflush hexec)))
  refine ⟨_, hstep, ⟨(hu.flush hflush).frontMerged _ _, rfl, rfl, rfl, rfl, congrArg (· + 4) hpc, rfl, ?_⟩,
    (hback.setFull.merged _ _).rs, (hback.setFull.merged _ _).fu, hback.rob, rfl, rfl, ⟨_, rfl⟩⟩
  intro q m _ hqm
  rcases tagOf_nextTags_eq_some (merge_tag ..) hqm with hnew | hold
  · obtain ⟨d, hrd, hdm⟩ := Option.map_eq_some_iff.mp hnew
    obtain ⟨rfl, rfl⟩ := Prod.mk.inj hdm
    exact ⟨hrd, rfl⟩
  · have hnone : t.tagOf q = none := State.tagOf_of_replicate (htag.trans hd.tag) q
    exact nomatch hnone.symm.trans hold

/-! ## Dispatch and result -/

/-- The instruction joins the structures and is dispatched in one tick; the sentinel issues. -/
theorem ArithIssued.step (h : ArithIssued s r op a b next t) (hop : op.bank ≠ .ls) (hc : s.cfg.wf)
    (hcap : 1 < s.cfg.robCap) (hslots : 1 < s.cfg.rsCapAdd) (hlat : SingleTickStages s.cfg) :
    ∃ u, step t = .next u ∧ ArithDispatched s r op a b next u := by
  obtain ⟨hrun, hrs, hfu, hrob, hbus, hlatch, ⟨f₀, hq⟩⟩ := h
  have hct : t.cfg = s.cfg := hrun.undisturbed.cfg
  have hroom : 0 < t.cfg.robCap := by
    rw [hct]
    omega
  obtain ⟨f, hflush, hfrob, hfrs, hflq, hfsq⟩ := flush_of_arrival hrun.undisturbed.clear hlatch rfl
    (memoryEntry_isReady r op _ a b) hbus hrob hroom hrs (hct ▸ hc)
  have hframe := flush_frame hrun.undisturbed.clear hflush
  have hcf : f.cfg = s.cfg := hframe.cfg.trans hct
  have hgate : issueGate f (.add .add) = true := by
    refine (issueGate_iff (flush_full hflush) _).mpr ⟨?_, ?_, trivial⟩
    · rw [hfrob, hcf]
      show 1 ≠ s.cfg.robCap
      omega
    · rw [hfrs]
      exact Banks.holding_addHasRoom (hcf ▸ hslots) _
  have htail : f.robTail = nextIndex s := by simp [State.robTail, hfrob, hcf, nextIndex]
  have hlatchOf : latchOf f (haltRecord f₀) (.add .add) =
      ⟨nextIndex s, issuedEntry (haltRecord f₀), sentinelEntry (.add .add) (nextIndex s), none⟩ := by
    rw [latchOf, htail]
    rfl
  have hissue := issue_of_gate (hframe.iq.trans hq) (rfl : (haltRecord f₀).op = some (.add .add)) hgate
  rw [hlatchOf] at hissue
  have hstep := hrun.step_eq_merge hc hflush (hflq.trans hrun.lq) (hfsq.trans hrun.sq)
    (commit_of_issue (congrArg Rob.entries hfrob) rfl) hissue
  have hffu : f.fu = Stages.allIdle := hframe.fu.trans hfu
  obtain ⟨hurs, hufu⟩ := stations_dispatch (hcf ▸ hc) (hcf ▸ hlat) hop hfrs hffu (Commit.nothing f) ⟨.idle, [], []⟩
    ⟨.idle, [], f.mem, []⟩ _ none _
  refine ⟨_, hstep, hrun.merge hflush fun p hp => (Option.some.inj hp) ▸ rfl, hurs, hufu, hfrob, ?_, ⟨_, rfl⟩, rfl⟩
  exact stationMsgs_of_idle hffu ((congrArg Banks.ls hfrs).trans (Banks.holding_ls _ hop))

/-- The stage of its family delivers the result while the sentinel joins the structures. -/
theorem ArithDispatched.step (h : ArithDispatched s r op a b next t) (hop : op.bank ≠ .ls) (hc : s.cfg.wf)
    (hcap : 1 < s.cfg.robCap) : ∃ u, step t = .next u ∧ ArithComputed s r (op.result a b) next u := by
  obtain ⟨hrun, hrs, hfu, hrob, hbus, ⟨e, hlatch⟩, hq⟩ := h
  have hct : t.cfg = s.cfg := hrun.undisturbed.cfg
  obtain ⟨f, hflush, hfrob, hfrs, hflq, hfsq⟩ := flush_of_arrival hrun.undisturbed.clear hlatch rfl
    (sentinelEntry_isReady _ _) hbus hrob (hct ▸ hcap) hrs (hct ▸ hc)
  have hframe := flush_frame hrun.undisturbed.clear hflush
  have hmsgs : stationMsgs f = [⟨.writeBack, s.rob.head, op.result a b⟩] :=
    stationMsgs_of_working hop (hframe.fu.trans hfu)
      ((congrArg Banks.ls hfrs).trans (Banks.holding_ls _ (by show Bank.add ≠ .ls; decide)))
  have hstep := hrun.step_eq_merge hc hflush (hflq.trans hrun.lq) (hfsq.trans hrun.sq)
    (commit_of_issue (congrArg Rob.entries hfrob) rfl) (issue_of_nil (hframe.iq.trans hq))
  exact ⟨_, hstep, hrun.merge hflush fun _ hp => (nomatch hp), ⟨e, hfrob⟩, hmsgs, rfl, rfl⟩

/-- Three ticks after its entry an arithmetic instruction with resolved operands has its result on the bus. -/
theorem Drained.arithComputed {i : Instr} {record : State → IRec} (hd : Drained s) (ht : RefTiming s)
    (hsent : SentinelAt s next) (hi : exec i s = enter record s)
    (hr : ArithRecord s (record (setFull s)) op a b next) :
    ∃ t1 t, exec i s = .next t1 ∧ t1.pc = next ∧ Reaches 3 t1 t ∧
      ArithComputed s (record (setFull s)) (op.result a b) next t := by
  obtain ⟨hc, hiq, hrob, -⟩ := ht.sizes
  obtain ⟨hslots, hlat⟩ := ht.stations
  have h1 := hd.arithFetched hr
  obtain ⟨t2, hstep1, h2⟩ := h1.step hd hr hc hiq hsent
  obtain ⟨t3, hstep2, h3⟩ := h2.step hr.bank hc hrob hslots hlat
  obtain ⟨t4, hstep3, h4⟩ := h3.step hr.bank hc hrob
  exact ⟨_, t4, hi.trans (hd.enter_eq hc record), h1.pc,
    reaches_step hstep1 (reaches_step hstep2 (reaches_one hstep3)), h4⟩

end

/-! ## Commit -/

section
variable {s t f : State} {r : IRec} {e : RobEntry} {op : Op} {next v : Word}

/-- The Flush that absorbs the result: the entry is complete at the head, and the memory side still idle (R383). -/
theorem ArithComputed.flush (h : ArithComputed s r v next t) (hhead : s.rob.head < s.cfg.robCap) :
    ∃ f e, flush t = .ok f ∧
      f.rob = ⟨s.rob.head, [{ issuedEntry r with state := .write, value := v }, e]⟩ ∧ f.lq = [] ∧ f.sq = [] := by
  obtain ⟨hrun, ⟨e, hrob⟩, hbus, hlatch, -⟩ := h
  have hcap : t.rob.head < t.cfg.robCap := by rwa [hrob, hrun.undisturbed.cfg]
  have hat := State.robAt_head (congrArg Rob.entries hrob) hcap
  rw [hrob] at hat
  have hoff : t.robOffset s.rob.head = 0 := by
    rw [hrob] at hcap
    simp [State.robOffset_eq t hcap (by rwa [hrob]), hrob]
  refine ⟨_, e, flush_of_writeBack hrun.undisturbed.clear hlatch hbus hat, ?_, ?_, ?_⟩
  · simp [State.robModify, hoff, hrob]
  · simp [hrun.lq]
  · simp [hrun.sq]

theorem commit_of_result {rest : List RobEntry} (h : f.rob.entries = e :: rest) (he : e.state = .write)
    (hop : e.instr.op = some op) (hres : op.isResult = true) (hhalt : e.instr.isHalt = false) :
    commit f = .ok (commitResult f e) := by
  have hhead : commitHead f e = commitResult f e := by
    rcases commitHead_cases f e with ⟨hh, -⟩ | ⟨-, ho, -⟩ | ⟨-, ⟨o, ho, hb⟩, -⟩ | ⟨-, hst, -⟩ | ⟨-, -, -, -, hc⟩
    · exact nomatch hhalt.symm.trans hh
    · obtain rfl := Option.some.inj (hop.symm.trans ho)
      exact nomatch hres
    · obtain rfl := Option.some.inj (hop.symm.trans ho)
      simp [Op.isResult, hb] at hres
    · rw [RobEntry.isStore, hop] at hst
      split at hst
      · rename_i o heq
        obtain rfl := Option.some.inj heq
        exact nomatch hres
      · exact nomatch hst
    · exact hc
  simp [commit, h, he, hhead]

/-- The result commits (R387): it is written to the destination, whose tag only this instruction or the sentinel set. -/
theorem ArithComputed.commits (h : ArithComputed s r v next t) (hc : s.cfg.wf) (hhead : s.rob.head < s.cfg.robCap)
    (hop : r.op = some op) (hres : op.isResult = true) (hhalt : r.isHalt = false) :
    ∃ u, step t = .next u ∧ u.status = .running ∧ (∀ q, u.reg q = if r.rd = some q ∧ q ≠ 0 then v else s.reg q) ∧
      u.mem = s.mem ∧ u.pred = s.pred ∧ u.cfg = s.cfg ∧ u.cycle = s.cycle + 5 ∧ u.clear = false ∧ u.halt = false ∧
      u.lq = [] ∧ u.sq = [] ∧ u.ldst = .idle ∧ u.stst = .idle ∧ ∀ q, q ≠ 10 → u.tagOf q = none := by
  obtain ⟨f, e, hflush, hrob, hlq, hsq⟩ := h.flush hhead
  have hu := h.run.undisturbed.flush hflush
  have hframe := flush_frame h.run.undisturbed.clear hflush
  have hcommit := commit_of_result (congrArg Rob.entries hrob) rfl hop hres hhalt
  have hstep := h.run.step_eq_merge hc hflush hlq hsq hcommit (issue_of_nil (hframe.iq.trans h.iq))
  refine ⟨_, hstep, hu.status, fun q => ?_, hu.mem, hu.pred, hu.cfg, congrArg (· + 1) hu.cycle,
    (Bool.or_false _).trans hu.clear, (Bool.or_false _).trans hu.halt, rfl, rfl, rfl, rfl, fun q hq => ?_⟩
  · rw [reg_of_commitWrite (f := f) rfl (merge_x ..), State.reg_congr hu.x]
    rfl
  · by_contra hne
    obtain ⟨m, hm⟩ := Option.ne_none_iff_exists'.mp hne
    rcases tagOf_nextTags_eq_some (merge_tag ..) hm with hnew | hold
    · exact nomatch hnew
    · obtain ⟨hfq, hother⟩ := clearedTagOf_eq_some hold
      obtain ⟨hrd, rfl⟩ := h.run.tags q m hq ((State.tagOf_congr hframe.tag q).symm.trans hfq)
      refine hother v ?_
      simp [commitResult, commitWrite, issuedEntry, hrd, hrob]

end

/-- An arithmetic instruction from its entry to its commit four ticks later: the result of its family's stage is in its
destination, and nothing else has changed. -/
theorem Drained.arith_retires {s : State} {i : Instr} {record : State → IRec} {op : Op} {a b next : Word} {rd : RegIdx}
    (hd : Drained s) (ht : RefTiming s) (hsent : SentinelAt s next) (hi : exec i s = enter record s)
    (hr : ArithRecord s (record (setFull s)) op a b next) (hres : op.isResult = true)
    (hrd : (record (setFull s)).rd = destOf rd) : RetiresWith i s 4 next rd (op.result a b) := by
  obtain ⟨hc, -⟩ := ht.sizes
  obtain ⟨t1, t4, hexec, hpc, hreach, h4⟩ := hd.arithComputed ht hsent hi hr
  have hhalt : (record (setFull s)).isHalt = false := by
    have hstall := hr.stall
    rw [fetchStalls, Bool.or_eq_false_iff] at hstall
    exact hstall.2
  obtain ⟨t5, hstep4, hstatus, hregs, hrest⟩ := h4.commits hc hd.head hr.classified hres hhalt
  refine ⟨t1, t5, hexec, hpc, reaches_add hreach (reaches_one hstep4), hstatus, fun q => ?_, hrest⟩
  rw [hregs, hrd]
  exact if_congr (and_congr_left destOf_eq_some_iff) rfl rfl

end Sys2Proof.Machine
end

section
/-! SUPPORT. The results of the arithmetic instructions from a drained machine: the record each enters with, and what its
stage computes, in the words of the statements (43_addsub.md R232 to R240; 44_compare_branch.md R261 to R265; 45_logic.md
R291 to R297; 46_shift.md R311 to R317). -/

namespace Sys2Proof.Machine

/-! ## The result functions -/

theorem toNat_addResult_add (a b : Word) : (addResult .add a b).toNat = (a.toNat + b.toNat) % 2 ^ 32 :=
  BitVec.toNat_add a b

theorem toNat_addResult_sub (a b : Word) :
    ((addResult .sub a b).toNat : Int) = ((a.toNat : Int) - b.toNat) % 2 ^ 32 := by
  have ha := a.isLt
  have hb := b.isLt
  have hsub : (addResult .sub a b).toNat = (2 ^ 32 - b.toNat + a.toNat) % 2 ^ 32 := BitVec.toNat_sub a b
  omega

/-- Clearing bit 0 rounds down to an even number. -/
theorem toNat_and_clear_bit0 (w : Word) : (w &&& 0xFFFFFFFE#32).toNat = w.toNat / 2 * 2 := by
  have hmask : 0xFFFFFFFE#32 = BitVec.allOnes 32 <<< 1 := by decide
  have hshift : w &&& 0xFFFFFFFE#32 = w >>> 1 <<< 1 := by rw [hmask, BitVec.shiftLeft_ushiftRight]
  rw [hshift, BitVec.toNat_shiftLeft, BitVec.toNat_ushiftRight, Nat.shiftLeft_eq, Nat.shiftRight_eq_div_pow]
  have hw := w.isLt
  omega

theorem toNat_addResult_jalr (a b : Word) :
    (addResult .jalr a b).toNat = (a.toNat + b.toNat) % 2 ^ 32 / 2 * 2 :=
  (toNat_and_clear_bit0 (a + b)).trans (by rw [BitVec.toNat_add])

theorem cmpResult_slt (a b : Word) : cmpResult .slt a b = if a.toInt < b.toInt then 1 else 0 := by
  simp [cmpResult, boolWord, CmpOp.relation, BitVec.slt]

theorem cmpResult_sltu (a b : Word) : cmpResult .sltu a b = if a.toNat < b.toNat then 1 else 0 := by
  simp [cmpResult, boolWord, CmpOp.relation, BitVec.ult]

/-- The five low bits of the amount (R311). -/
theorem shiftAmount_eq_mod (b : Word) : shiftAmount b = b.toNat % 32 := BitVec.toNat_setWidth 5 b

/-- A 5-bit amount is its own five low bits (R315 to R317). -/
theorem shiftAmount_zext5 (v : BitVec 5) : shiftAmount (zext5 v) = v.toNat := by
  have hv := v.isLt
  rw [shiftAmount_eq_mod, zext5, BitVec.toNat_setWidth]
  omega

/-! ## The records (41_issue_unit.md R163) -/

section
variable {s : State}

theorem Drained.registerRecord (hd : Drained s) (i : Instr) {mn : Mnemonic} (hmn : mn ≠ .jal) {op : Op}
    (hop : op.bank ≠ .ls) (hj : op ≠ .add .jalr) (rd rs1 rs2 : RegIdx) :
    ArithRecord s (registerRecord i mn op rd rs1 rs2 (setFull s)) op (s.reg rs1) (s.reg rs2) (s.pc + 4) where
  classified := rfl
  bank := hop
  src1 := hd.readSource_reg rs1
  src2 := hd.readSource_reg rs2
  next := by simp [fetchNextPc, Machine.registerRecord, hmn]
  stall := by simp [fetchStalls, Machine.registerRecord, hj]

theorem Drained.immediateRecord (hd : Drained s) (i : Instr) {mn : Mnemonic} (hmn : mn ≠ .jal) (cls : OpClass) {op : Op}
    (hop : op.bank ≠ .ls) (hj : op ≠ .add .jalr) (rd rs1 : RegIdx) (imm : Word) :
    ArithRecord s (immediateRecord i mn cls op rd rs1 imm (setFull s)) op (s.reg rs1) imm (s.pc + 4) where
  classified := rfl
  bank := hop
  src1 := hd.readSource_reg rs1
  src2 := rfl
  next := by simp [fetchNextPc, Machine.immediateRecord, hmn]
  stall := by simp [fetchStalls, Machine.immediateRecord, hj]

/-- LUI, AUIPC and JAL add two values; only JAL's record sends fetch to its offset (R162). -/
theorem adderRecord_arith (i : Instr) (mn : Mnemonic) (rd : RegIdx) {src1 : Source} {a : Word} (src2 imm : Word)
    (ha : readSource s src1 = .value a) :
    ArithRecord s (adderRecord i mn rd src1 src2 imm (setFull s)) (.add .add) a src2
      (if mn = .jal then s.pc + imm else s.pc + 4) where
  classified := rfl
  bank := by decide
  src1 := ha
  src2 := rfl
  next := by simp [fetchNextPc, adderRecord]
  stall := rfl

theorem Op.ne_jalr_of_isResult {op : Op} (h : op.isResult = true) : op ≠ .add .jalr := by
  rintro rfl
  exact nomatch h

/-- A register-register instruction leaves its stage's result of the two registers. -/
theorem Drained.register_retires {i : Instr} {rd rs1 rs2 : RegIdx} {v : Word} (hd : Drained s) (ht : RefTiming s)
    (hsent : SentinelAt s (s.pc + 4)) (mn : Mnemonic) (op : Op) (hmn : mn ≠ .jal) (hop : op.bank ≠ .ls)
    (hres : op.isResult = true) (hi : exec i s = enter (Machine.registerRecord i mn op rd rs1 rs2) s)
    (hv : op.result (s.reg rs1) (s.reg rs2) = v) : RetiresWith i s 4 (s.pc + 4) rd v :=
  hv ▸ hd.arith_retires ht hsent hi (hd.registerRecord i hmn hop (Op.ne_jalr_of_isResult hres) rd rs1 rs2) hres rfl

/-- A register-immediate instruction leaves its stage's result of the register and the immediate. -/
theorem Drained.immediate_retires {i : Instr} {rd rs1 : RegIdx} {imm v : Word} (hd : Drained s) (ht : RefTiming s)
    (hsent : SentinelAt s (s.pc + 4)) (mn : Mnemonic) (op : Op) (hmn : mn ≠ .jal) (hop : op.bank ≠ .ls)
    (hres : op.isResult = true) (hi : exec i s = enter (Machine.immediateRecord i mn .arithImm op rd rs1 imm) s)
    (hv : op.result (s.reg rs1) imm = v) : RetiresWith i s 4 (s.pc + 4) rd v :=
  hv ▸ hd.arith_retires ht hsent hi (hd.immediateRecord i hmn _ hop (Op.ne_jalr_of_isResult hres) rd rs1 imm) hres rfl

/-- LUI, AUIPC and JAL leave the sum of two values known at fetch or of x0. -/
theorem Drained.adder_retires {i : Instr} {rd : RegIdx} {a src2 imm : Word} (hd : Drained s) (ht : RefTiming s)
    (mn : Mnemonic) (src1 : State → Source) (hsent : SentinelAt s (if mn = .jal then s.pc + imm else s.pc + 4))
    (ha : readSource s (src1 (setFull s)) = .value a)
    (hi : exec i s = enter (fun f => adderRecord i mn rd (src1 f) src2 imm f) s) :
    RetiresWith i s 4 (if mn = .jal then s.pc + imm else s.pc + 4) rd (a + src2) :=
  hd.arith_retires ht hsent hi (adderRecord_arith i mn rd src2 imm ha) rfl rfl

end

/-! ## The statements -/

/-- Settles O29: the three operations one by one. -/
theorem addSubResultFunction : Obligations.AddSubResultFunction := fun a b =>
  ⟨toNat_addResult_add a b, toNat_addResult_sub a b, toNat_addResult_jalr a b⟩

/-- Settles O5: each word is decoded. -/
theorem exampleWordsDecode : Obligations.ExampleWordsDecode := by
  unfold Obligations.ExampleWordsDecode
  decide

/-- Settles O16: each enters with its operation and the two registers, and its stage's result is the stated value. -/
theorem registerRegisterResults : Obligations.RegisterRegisterResults := by
  intro s rd rs1 rs2 hd ht hsent a b
  have hamount := shiftAmount_eq_mod b
  refine ⟨?_, ?_, ?_, ?_, ?_, ?_, ?_, ?_, ?_, ?_⟩
  · exact hd.register_retires ht hsent .add (.add .add) (by decide) (by decide) rfl rfl rfl
  · exact hd.register_retires ht hsent .sub (.add .sub) (by decide) (by decide) rfl rfl rfl
  · exact hd.register_retires ht hsent .slt (.cmp .slt) (by decide) (by decide) rfl rfl (cmpResult_slt a b)
  · exact hd.register_retires ht hsent .sltu (.cmp .sltu) (by decide) (by decide) rfl rfl (cmpResult_sltu a b)
  · exact hd.register_retires ht hsent .and (.log .and) (by decide) (by decide) rfl rfl rfl
  · exact hd.register_retires ht hsent .or (.log .or) (by decide) (by decide) rfl rfl rfl
  · exact hd.register_retires ht hsent .xor (.log .xor) (by decide) (by decide) rfl rfl rfl
  · exact hd.register_retires ht hsent .sll (.shf .sll) (by decide) (by decide) rfl rfl (congrArg (a <<< ·) hamount)
  · exact hd.register_retires ht hsent .srl (.shf .srl) (by decide) (by decide) rfl rfl (congrArg (a >>> ·) hamount)
  · exact hd.register_retires ht hsent .sra (.shf .sra) (by decide) (by decide) rfl rfl
      (congrArg a.sshiftRight hamount)

/-- Settles O17: each enters with its operation, the register and the sign-extended immediate. -/
theorem registerImmediateResults : Obligations.RegisterImmediateResults := by
  intro s rd rs1 imm hd ht hsent a b
  refine ⟨fun _ => ?_, ?_, ?_, ?_, ?_, ?_⟩
  · exact hd.immediate_retires ht hsent .addi (.add .add) (by decide) (by decide) rfl rfl rfl
  · exact hd.immediate_retires ht hsent .slti (.cmp .slt) (by decide) (by decide) rfl rfl (cmpResult_slt a b)
  · exact hd.immediate_retires ht hsent .sltiu (.cmp .sltu) (by decide) (by decide) rfl rfl (cmpResult_sltu a b)
  · exact hd.immediate_retires ht hsent .andi (.log .and) (by decide) (by decide) rfl rfl rfl
  · exact hd.immediate_retires ht hsent .ori (.log .or) (by decide) (by decide) rfl rfl rfl
  · exact hd.immediate_retires ht hsent .xori (.log .xor) (by decide) (by decide) rfl rfl rfl

/-- Settles O18: the shifts by the 5-bit amount; LUI as a sum with x0, AUIPC as one with the fetch pc. -/
theorem shiftImmediateAndUpperResults : Obligations.ShiftImmediateAndUpperResults := by
  intro s rd rs1 shamt imm hd ht hsent
  have hamount := shiftAmount_zext5 shamt
  refine ⟨?_, ?_, ?_, ?_, ?_⟩
  · exact hd.immediate_retires ht hsent .slli (.shf .sll) (by decide) (by decide) rfl rfl
      (congrArg (s.reg rs1 <<< ·) hamount)
  · exact hd.immediate_retires ht hsent .srli (.shf .srl) (by decide) (by decide) rfl rfl
      (congrArg (s.reg rs1 >>> ·) hamount)
  · exact hd.immediate_retires ht hsent .srai (.shf .sra) (by decide) (by decide) rfl rfl
      (congrArg (s.reg rs1).sshiftRight hamount)
  · have hlui := hd.adder_retires (i := .lui rd imm) ht .lui (fun _ => .reg 0) hsent (hd.readSource_reg 0) rfl
    rwa [State.reg_zero, zero_add] at hlui
  · exact hd.adder_retires ht .auipc (fun f => .val f.pc) hsent rfl rfl

/-- Settles O19: JAL's record sends fetch to the target, and the sum of the fetch pc and 4 is what commits. -/
theorem jalLinksAndJumps : Obligations.JalLinksAndJumps := fun _ _ _ hd ht hsent _ =>
  hd.adder_retires ht .jal (fun f => .val f.pc) hsent rfl rfl

end Sys2Proof.Machine
end

section
/-! SUPPORT. The compare stage and the conditional branches from a drained machine: the eight relations in integers, and
the commit that tells the predictor the outcome and squashes on a wrong guess (44_compare_branch.md R261, R266 to R272;
48_reorder_commit.md R389). -/

namespace Sys2Proof.Machine

/-! ## The relations (R261) -/

theorem relation_blt (a b : Word) : CmpOp.blt.relation a b = decide (a.toInt < b.toInt) := rfl

theorem relation_bltu (a b : Word) : CmpOp.bltu.relation a b = decide (a.toNat < b.toNat) := rfl

theorem relation_bge (a b : Word) : CmpOp.bge.relation a b = decide (b.toInt ≤ a.toInt) :=
  (decide_not (p := a.toInt < b.toInt)).symm.trans (decide_eq_decide.mpr Int.not_lt)

theorem relation_bgeu (a b : Word) : CmpOp.bgeu.relation a b = decide (b.toNat ≤ a.toNat) :=
  (decide_not (p := a.toNat < b.toNat)).symm.trans (decide_eq_decide.mpr Nat.not_lt)

theorem relation_beq (a b : Word) : CmpOp.beq.relation a b = decide (a = b) :=
  beq_eq_decide a b

theorem relation_bne (a b : Word) : CmpOp.bne.relation a b = decide (a ≠ b) :=
  (congrArg not (beq_eq_decide a b)).trans decide_not.symm

/-- The result of a relation that decides `p`. -/
theorem cmpResult_of_relation {o : CmpOp} {a b : Word} {p : Prop} [Decidable p] (h : o.relation a b = decide p) :
    cmpResult o a b = if p then 1 else 0 := by
  rw [cmpResult, h, boolWord]
  exact if_congr decide_eq_true_iff rfl rfl

/-- Settles O30: SLT and SLTU are known from the arithmetic family, the branches have the relations above. -/
theorem compareResultFunction : Obligations.CompareResultFunction := by
  intro a b
  refine ⟨?_, ?_, ?_, ?_, ?_, ?_⟩
  · rintro o (rfl | rfl)
    · exact cmpResult_slt a b
    · exact cmpResult_of_relation (relation_blt a b)
  · rintro o (rfl | rfl)
    · exact cmpResult_sltu a b
    · exact cmpResult_of_relation (relation_bltu a b)
  · exact cmpResult_of_relation (relation_bge a b)
  · exact cmpResult_of_relation (relation_bgeu a b)
  · exact cmpResult_of_relation (relation_beq a b)
  · exact cmpResult_of_relation (relation_bne a b)

/-! ## The commit of a branch (R389) -/

/-- The outcome commit reads off the result is the relation itself. -/
theorem cmpResult_ne_zero (o : CmpOp) (a b : Word) : (cmpResult o a b != 0) = o.relation a b := by
  unfold cmpResult
  cases o.relation a b <;> rfl

section
variable {s t f : State} {r : IRec} {e : RobEntry} {o : CmpOp} {next v : Word}

theorem commit_of_branch {rest : List RobEntry} (h : f.rob.entries = e :: rest) (he : e.state = .write)
    (hop : e.instr.op = some (.cmp o)) (hb : o.isBranch = true) (hhalt : e.instr.isHalt = false) :
    commit f = .ok (commitBranch f e) := by
  simp [commit, h, he, commitHead, hop, hb, hhalt]

/-- A right guess neither squashes nor redirects. -/
theorem commitBranch_of_right (h : e.instr.pred = some e.outcome) :
    (commitBranch f e).setClear = false ∧ (commitBranch f e).redirect = none := by
  simp [commitBranch, h]

/-- A wrong guess squashes and redirects to where the outcome leads. -/
theorem commitBranch_of_wrong (h : e.instr.pred ≠ some e.outcome) :
    (commitBranch f e).setClear = true ∧ (commitBranch f e).redirect = some (branchTarget e.instr e.outcome) := by
  simp [commitBranch, h]

/-- The head with its result absorbed (R383). -/
def completedEntry (r : IRec) (v : Word) : RobEntry := { issuedEntry r with state := .write, value := v }

/-- The state after the commit of a branch with record `r` and outcome `taken`, the sentinel at `next` fetched behind it:
the predictor knows the outcome, and only a wrong guess has raised the squash and moved `pc`. -/
structure BranchCommitted (s : State) (r : IRec) (taken : Bool) (next : Word) (t : State) : Prop where
  status : t.status = .running
  regs : ∀ q, t.reg q = s.reg q
  mem : t.mem = s.mem
  pred : t.pred = feedback s.cfg.predictor s.pred r.pc taken
  cfg : t.cfg = s.cfg
  cycle : t.cycle = s.cycle + 5
  halt : t.halt = false
  lq : t.lq = []
  sq : t.sq = []
  ldst : t.ldst = .idle
  stst : t.stst = .idle
  tags : ∀ q, q ≠ 10 → t.tagOf q = none
  right : r.pred = some taken → t.clear = false ∧ t.pc = next + 4
  wrong : r.pred ≠ some taken → t.clear = true ∧ t.pc = branchTarget r taken

/-- The complete branch commits: it has no destination, so registers and tags stay. -/
theorem ArithComputed.branches (h : ArithComputed s r v next t) (hc : s.cfg.wf) (hhead : s.rob.head < s.cfg.robCap)
    (hop : r.op = some (.cmp o)) (hb : o.isBranch = true) (hhalt : r.isHalt = false) (hrd : r.rd = none) :
    ∃ u, step t = .next u ∧ BranchCommitted s r (v != 0) next u := by
  obtain ⟨f, e, hflush, hrob, hlq, hsq⟩ := h.flush hhead
  have hu := h.run.undisturbed.flush hflush
  have hframe := flush_frame h.run.undisturbed.clear hflush
  have hcommit := commit_of_branch (e := completedEntry r v) (congrArg Rob.entries hrob) rfl hop hb hhalt
  have hstep := h.run.step_eq_merge hc hflush hlq hsq hcommit (issue_of_nil (hframe.iq.trans h.iq))
  refine ⟨_, hstep, {
    status := hu.status
    regs := State.reg_congr hu.x
    mem := hu.mem
    pred := ?_
    cfg := hu.cfg
    cycle := congrArg (· + 1) hu.cycle
    halt := (Bool.or_false _).trans hu.halt
    lq := rfl
    sq := rfl
    ldst := rfl
    stst := rfl
    tags := fun q hq => ?_
    right := fun hp => ?_
    wrong := fun hp => ?_ }⟩
  · show feedback f.cfg.predictor f.pred r.pc (v != 0) = _
    rw [hu.cfg, hu.pred]
  · by_contra hne
    obtain ⟨m, hm⟩ := Option.ne_none_iff_exists'.mp hne
    obtain ⟨hsome, -⟩ := h.run.tags q m hq ((State.tagOf_congr hframe.tag q).symm.trans hm)
    exact nomatch hrd.symm.trans hsome
  · obtain ⟨hclear, hredirect⟩ := commitBranch_of_right (f := f) (e := completedEntry r v) hp
    refine ⟨?_, ?_⟩
    · rw [merge_clear, hclear, hu.clear]
      rfl
    · rw [merge_pc, nextPc_eq, hredirect]
      exact hframe.pc.trans h.run.pc
  · obtain ⟨hclear, hredirect⟩ := commitBranch_of_wrong (f := f) (e := completedEntry r v) hp
    refine ⟨?_, ?_⟩
    · rw [merge_clear, hclear, Bool.or_true]
    · rw [merge_pc, nextPc_eq, hredirect]
      rfl

end

/-! ## The branches from a drained machine (R266 to R272) -/

section
variable {s : State}

/-- Where fetch goes on behind a branch: by the predictor's guess (41_issue_unit.md R162, R164). -/
theorem Drained.branchRecord (hd : Drained s) (i : Instr) {mn : Mnemonic} (hmn : mn ≠ .jal) (o : CmpOp)
    (rs1 rs2 : RegIdx) (off : Word) :
    ArithRecord s (branchRecord i mn o rs1 rs2 off (setFull s)) (.cmp o) (s.reg rs1) (s.reg rs2)
      (if predict s.cfg.predictor s.pred s.pc then s.pc + off else s.pc + 4) where
  classified := rfl
  bank := nofun
  src1 := hd.readSource_reg rs1
  src2 := hd.readSource_reg rs2
  next := by simp [fetchNextPc, Machine.branchRecord, hmn]
  stall := rfl

/-- A conditional branch from its entry to its commit four ticks later; its outcome is its relation. -/
theorem Drained.branch_commits {i : Instr} {mn : Mnemonic} {o : CmpOp} {rs1 rs2 : RegIdx} {off : Word} {taken : Bool}
    (hd : Drained s) (ht : RefTiming s)
    (hsent : SentinelAt s (if predict s.cfg.predictor s.pred s.pc then s.pc + off else s.pc + 4))
    (hmn : mn ≠ .jal) (hb : o.isBranch = true) (hi : exec i s = enter (Machine.branchRecord i mn o rs1 rs2 off) s)
    (htaken : o.relation (s.reg rs1) (s.reg rs2) = taken) : Branches i s off taken := by
  obtain ⟨hc, -⟩ := ht.sizes
  obtain ⟨t1, t4, hexec, hpc, hreach, h4⟩ := hd.arithComputed ht hsent hi (hd.branchRecord i hmn o rs1 rs2 off)
  obtain ⟨t5, hstep4, h5⟩ := h4.branches hc hd.head rfl hb rfl rfl
  have houtcome : (Op.result (.cmp o) (s.reg rs1) (s.reg rs2) != 0) = taken :=
    (cmpResult_ne_zero o _ _).trans htaken
  rw [houtcome] at h5
  refine ⟨t1, t5, hexec, hpc, reaches_add hreach (reaches_one hstep4), h5.status, h5.regs, h5.mem, h5.pred, h5.cfg,
    h5.cycle, h5.halt, h5.lq, h5.sq, h5.ldst, h5.stst, h5.tags, fun hright => ?_, fun hwrong => ?_⟩
  · rw [hpc]
    exact h5.right (congrArg some hright)
  · exact h5.wrong fun hp => hwrong (Option.some.inj hp)

end

/-- Settles O21: each branch enters with its operation and the two registers, and its relation is the stated one. -/
theorem branchesFollowTheirRelations : Obligations.BranchesFollowTheirRelations := by
  intro s rs1 rs2 off hd ht _ hsent a b
  refine ⟨?_, ?_, ?_, ?_, ?_, ?_⟩
  · exact hd.branch_commits ht hsent (mn := .beq) (by decide) rfl rfl (relation_beq a b)
  · exact hd.branch_commits ht hsent (mn := .bne) (by decide) rfl rfl (relation_bne a b)
  · exact hd.branch_commits ht hsent (mn := .blt) (by decide) rfl rfl (relation_blt a b)
  · exact hd.branch_commits ht hsent (mn := .bge) (by decide) rfl rfl (relation_bge a b)
  · exact hd.branch_commits ht hsent (mn := .bltu) (by decide) rfl rfl (relation_bltu a b)
  · exact hd.branch_commits ht hsent (mn := .bgeu) (by decide) rfl rfl (relation_bgeu a b)

end Sys2Proof.Machine
end

section
/-! SUPPORT. The shift stage in unbounded integers (46_shift.md R311). -/

namespace Sys2Proof.Machine

/-! ## One shift by its amount (R311) -/

theorem toNat_shfResult_sll (a b : Word) :
    (shfResult .sll a b).toNat = a.toNat * 2 ^ shiftAmount b % 2 ^ 32 := by
  rw [shfResult, BitVec.toNat_shiftLeft, Nat.shiftLeft_eq]

theorem toNat_shfResult_srl (a b : Word) : (shfResult .srl a b).toNat = a.toNat / 2 ^ shiftAmount b := by
  rw [shfResult, BitVec.toNat_ushiftRight, Nat.shiftRight_eq_div_pow]

/-- The quotient is rounded towards minus infinity, as `Int`'s division by a positive number is. -/
theorem toInt_shfResult_sra (a b : Word) : (shfResult .sra a b).toInt = a.toInt / 2 ^ shiftAmount b := by
  rw [shfResult, BitVec.toInt_sshiftRight, Int.shiftRight_eq_div_pow, Nat.cast_pow, Nat.cast_ofNat]

/-- Settles O31: each shift is arithmetic in its amount, and the amount is the remainder by 32. -/
theorem shiftResultFunction : Obligations.ShiftResultFunction := by
  intro a b
  rw [← shiftAmount_eq_mod b]
  exact ⟨toNat_shfResult_sll a b, toNat_shfResult_srl a b, toInt_shfResult_sra a b⟩

end Sys2Proof.Machine
end

section
/-! SUPPORT. What the five loads make of the bytes they read: the extension as arithmetic on the value read, and the
value as the bytes of memory put together (47_load_store.md R341; 20_memory.md R73, R76). -/

namespace Sys2Proof.Machine

/-! ## The extensions (R341) -/

/-- Sign extension of a value of `w` bits adds the upper ones where its top bit is set. -/
theorem signExtend_setWidth_eq_ite {w : Nat} (hle : w ≤ 32) {v : Word} (hv : v.toNat < 2 ^ w) :
    (v.setWidth w).signExtend 32 =
      if v.toNat < 2 ^ (w - 1) then v else v + BitVec.ofNat 32 (2 ^ 32 - 2 ^ w) := by
  have hlow : (v.setWidth w).toNat = v.toNat := by rw [BitVec.toNat_setWidth, Nat.mod_eq_of_lt hv]
  have hback : (v.setWidth w).setWidth 32 = v := by
    refine BitVec.eq_of_toNat_eq ?_
    rw [BitVec.toNat_setWidth, hlow, Nat.mod_eq_of_lt v.isLt]
  have hmsb : (v.setWidth w).msb = !decide (v.toNat < 2 ^ (w - 1)) := by
    rw [BitVec.msb_eq_decide, hlow, ← decide_not]
    exact decide_eq_decide.mpr Nat.not_lt.symm
  have hpow : 2 ^ w ≤ 2 ^ 32 := Nat.pow_le_pow_right (by decide) hle
  refine BitVec.eq_of_toNat_eq ?_
  rw [BitVec.toNat_signExtend, hback, hmsb]
  by_cases hsmall : v.toNat < 2 ^ (w - 1)
  · simp [hsmall]
  · have hlt : v.toNat + (2 ^ 32 - 2 ^ w) < 2 ^ 32 := by omega
    rw [if_neg hsmall, BitVec.toNat_add, BitVec.toNat_ofNat, Nat.add_mod_mod, Nat.mod_eq_of_lt hlt]
    simp [hsmall]

theorem loadValue_of_memRead {m : Memory} {size : Nat} {o : LoadOp} {a v : Word}
    (h : memRead m size a o.width = some v) : loadValue m size o a = some (o.extend v) := by
  rw [loadValue, h]
  rfl

/-- A value read of `n` bytes has `8 * n` bits. -/
theorem memRead_lt {m : Memory} {size n : Nat} {a v : Word} (h : memRead m size a n = some v) : v.toNat < 256 ^ n := by
  obtain ⟨-, rfl⟩ := memRead_eq_some_iff.mp h
  exact (Nat.mod_le _ _).trans_lt (m.readNat_lt _ _)

/-- Settles O32: a load answers the extension of what it reads, and a signed one's is the arithmetic stated. -/
theorem loadValueExtends : Obligations.LoadValueExtends := by
  intro m size a
  refine ⟨fun v hv => ⟨loadValue_of_memRead hv, ?_⟩, fun v hv => ⟨loadValue_of_memRead hv, ?_⟩, Option.map_id' ..⟩
  · exact (loadValue_of_memRead (o := .lb) hv).trans
      (congrArg some (signExtend_setWidth_eq_ite (by decide) (memRead_lt hv)))
  · exact (loadValue_of_memRead (o := .lh) hv).trans
      (congrArg some (signExtend_setWidth_eq_ite (by decide) (memRead_lt hv)))

/-! ## The bytes of a value (20_memory.md R73, R76) -/

/-- Bytes in front of others weigh as much as the others are long. -/
theorem toNat_append_eq_add {n k : Nat} (x : BitVec n) (y : BitVec k) :
    (x ++ y).toNat = y.toNat + 2 ^ k * x.toNat := by
  rw [BitVec.toNat_append, ← Nat.shiftLeft_add_eq_or_of_lt y.isLt, Nat.shiftLeft_eq]
  ring

section
variable {m : Memory} {size : Nat} {a : Word}

/-- The value read is the bit vector of the bytes, where that has their value. -/
theorem memRead_of_bytes {n k : Nat} {b : BitVec k} (h : a.toNat + n ≤ size) (hb : b.toNat = m.readNat a.toNat n) :
    memRead m size a n = some (b.setWidth 32) :=
  memRead_eq_some_iff.mpr ⟨h, by rw [← hb, BitVec.ofNat_toNat]⟩

theorem memRead_one (h : a.toNat + 1 ≤ size) : memRead m size a 1 = some ((m.read a.toNat).setWidth 32) :=
  memRead_of_bytes h (by simp [Memory.readNat])

theorem memRead_two (h : a.toNat + 2 ≤ size) :
    memRead m size a 2 = some ((m.read (a.toNat + 1) ++ m.read a.toNat).setWidth 32) :=
  memRead_of_bytes h (toNat_append_eq_add _ _)

theorem memRead_four (h : a.toNat + 4 ≤ size) :
    memRead m size a 4 =
      some (m.read (a.toNat + 3) ++ m.read (a.toNat + 2) ++ m.read (a.toNat + 1) ++ m.read a.toNat) := by
  rw [← BitVec.setWidth_eq (m.read (a.toNat + 3) ++ _ ++ _ ++ _)]
  refine memRead_of_bytes h ?_
  rw [toNat_append_eq_add, toNat_append_eq_add, toNat_append_eq_add]
  simp only [Memory.readNat, Nat.add_assoc, Nat.reduceAdd]
  omega

/-! ## The five loads inside memory (R350 to R354) -/

theorem loadValue_lb (h : a.toNat + 1 ≤ size) : loadValue m size .lb a = some ((m.read a.toNat).signExtend 32) :=
  (loadValue_of_memRead (memRead_one h)).trans (by simp [LoadOp.extend])

theorem loadValue_lbu (h : a.toNat + 1 ≤ size) : loadValue m size .lbu a = some ((m.read a.toNat).setWidth 32) :=
  loadValue_of_memRead (memRead_one h)

theorem loadValue_lh (h : a.toNat + 2 ≤ size) :
    loadValue m size .lh a = some ((m.read (a.toNat + 1) ++ m.read a.toNat).signExtend 32) :=
  (loadValue_of_memRead (memRead_two h)).trans (by simp [LoadOp.extend])

theorem loadValue_lhu (h : a.toNat + 2 ≤ size) :
    loadValue m size .lhu a = some ((m.read (a.toNat + 1) ++ m.read a.toNat).setWidth 32) :=
  loadValue_of_memRead (memRead_two h)

theorem loadValue_lw (h : a.toNat + 4 ≤ size) :
    loadValue m size .lw a =
      some (m.read (a.toNat + 3) ++ m.read (a.toNat + 2) ++ m.read (a.toNat + 1) ++ m.read a.toNat) :=
  loadValue_of_memRead (memRead_four h)

end

end Sys2Proof.Machine
end

section
/-! SUPPORT. The messages of the store stage, of commit and of the LS bank where they are absorbed: what each does where
it matches, and the two queues through a whole Flush (48_reorder_commit.md R384; 47_load_store.md R332 to R335). -/

namespace Sys2Proof.Machine

/-! ## One message where it matches, and where it does not -/

section
variable {s : State} {i : Nat} {v : Word}

theorem headAwaitsStore_iff : headAwaitsStore s i = true ↔ HeadWaits s i := by
  refine ⟨fun h => ?_, headAwaitsStore_of_headWaits⟩
  unfold headAwaitsStore at h
  split at h
  · cases h
  · rename_i e rest he
    obtain ⟨hi, hw⟩ := (Bool.and_eq_true ..).mp h
    exact ⟨e, rest, he, beq_iff_eq.mp hi, beq_iff_eq.mp hw⟩

theorem onStoreSuccess_of_headWaits (h : HeadWaits s i) :
    onStoreSuccess s ⟨.storeSuccess, i, v⟩ = .ok { s with rob := s.rob.retire s.cfg.robCap } :=
  if_pos (headAwaitsStore_iff.mpr h)

theorem onStoreSuccess_of_not_headWaits (h : ¬ HeadWaits s i) :
    onStoreSuccess s ⟨.storeSuccess, i, v⟩ = .error (.protocolViolation (.storeSuccessMismatch i) s.cycle) :=
  if_neg fun hw => h (headAwaitsStore_iff.mp hw)

theorem onCommitMem_of_head {e : StoreEntry} {rest : List StoreEntry} (hq : s.sq = e :: rest) (hd : e.dest = i)
    (hr : e.ready = true) :
    onCommitMem s ⟨.commitMem, i, v⟩ = .ok { s with sq := { e with committed := true, data := v } :: rest } := by
  simp [onCommitMem, hq, hd, hr]

theorem onCommitMem_of_not_head (h : ¬ HeadStoreReady s.sq i) :
    onCommitMem s ⟨.commitMem, i, v⟩ = .error (.protocolViolation (.commitMemMismatch i v) s.cycle) := by
  rcases hq : s.sq with _ | ⟨e, rest⟩
  · simp [onCommitMem, hq]
  · have hno : ¬ (e.dest = i ∧ e.ready = true) := fun ⟨hd, hr⟩ => h ⟨e, rest, hq, hd, hr⟩
    simp [onCommitMem, hq, hno]

theorem lsbMatches_eq_queuedUnder (s : State) (i : Nat) : lsbMatches s i = queuedUnder s.lq s.sq i :=
  lsbMatches_eq_count s i

theorem onGetAddr_of_match (h : queuedUnder s.lq s.sq i = 1) :
    onGetAddr s ⟨.getAddr, i, v⟩ =
      .ok { s with lq := s.lq.map (LoadEntry.resolve i v), sq := s.sq.map (StoreEntry.resolve i v) } :=
  if_pos ((lsbMatches_eq_queuedUnder s i).trans h)

theorem onGetAddr_of_mismatch (h : queuedUnder s.lq s.sq i ≠ 1) :
    onGetAddr s ⟨.getAddr, i, v⟩ = .error (.protocolViolation (.getAddrWithoutEntry i v) s.cycle) :=
  if_neg fun hm => h ((lsbMatches_eq_queuedUnder s i).symm.trans hm)

end

/-- Settles O36: each message is absorbed where its check holds, and aborts the Flush where it does not. -/
theorem loadStoreMessagesAbsorbed : Obligations.LoadStoreMessagesAbsorbed := by
  intro s i v
  refine ⟨fun e rest he hi hw => ?_, fun hno => ?_, fun e rest hq hd hr => onCommitMem_of_head hq hd hr, fun hno => ?_,
    onGetAddr_of_match, onGetAddr_of_mismatch⟩
  · rw [onStoreSuccess_of_headWaits ⟨e, rest, he, hi, hw⟩, Rob.retire, he]
    rfl
  · refine onStoreSuccess_of_not_headWaits ?_
    rintro ⟨e, rest, he, hi, hw⟩
    exact hno e rest he hi hw
  · refine onCommitMem_of_not_head ?_
    rintro ⟨e, rest, hq, hd, hr⟩
    exact nomatch (hno e rest hq hd).symm.trans hr

/-! ## Insertion, whatever the queues hold (R332, R333) -/

theorem insertLsb_eq_inserted {s s' : State} (h : insertLsb s = .ok s') :
    s' = { s with lq := loadsInserted s, sq := storesInserted s } := by
  rcases insertLsb_eq_ok h with ⟨hn, rfl⟩ | ⟨l, e, hl, he, -, rfl⟩ | ⟨l, e, hl, he, -, rfl⟩
  · have hno : ∀ l, s'.latch = some l → l.lsbEntry = none := fun l hl => by
      rcases hn with hn | ⟨l', hl', he⟩
      · exact nomatch hn.symm.trans hl
      · obtain rfl := Option.some.inj (hl'.symm.trans hl)
        exact he
    rw [loadsInserted_of_not_load fun l e hl => by simp [hno l hl],
      storesInserted_of_not_store fun l e hl => by simp [hno l hl]]
  · rw [loadsInserted_of_load hl he, storesInserted_of_not_store fun l' e' hl' => ?_]
    obtain rfl := Option.some.inj (hl.symm.trans hl')
    simp [he]
  · rw [storesInserted_of_store hl he, loadsInserted_of_not_load fun l' e' hl' => ?_]
    obtain rfl := Option.some.inj (hl.symm.trans hl')
    simp [he]

/-! ## The GetAddr messages of a bus (R334) -/

section
variable {ms : List Msg} {m : Msg} {d : Nat} {a a' : Word} {known known' : Bool}

theorem AddressFrom.nil (d : Nat) (a : Word) (known : Bool) : AddressFrom [] d a known a known :=
  ⟨fun _ => ⟨rfl, rfl⟩, fun _ h => nomatch h⟩

/-- A message for another entry, or of another kind, changes nothing. -/
theorem AddressFrom.skip (h : AddressFrom ms d a known a' known') (hm : m.kind = .getAddr → m.idx ≠ d) :
    AddressFrom (m :: ms) d a known a' known' where
  untouched hno := h.untouched fun n hn => hno n (List.mem_cons_of_mem _ hn)
  resolved v hv hone := by
    rcases List.mem_cons.mp hv with rfl | hv
    · exact absurd rfl (hm rfl)
    · exact h.resolved v hv fun w hw => hone w (List.mem_cons_of_mem _ hw)

/-- A message for the entry gives it its address, which stands unless a later message gives another. -/
theorem AddressFrom.resolve {v : Word} (h : AddressFrom ms d v true a' known') :
    AddressFrom (⟨.getAddr, d, v⟩ :: ms) d a known a' known' where
  untouched hno := absurd rfl (hno _ List.mem_cons_self rfl)
  resolved w _ hone := by
    obtain rfl : v = w := hone v List.mem_cons_self
    by_cases hlater : (⟨.getAddr, d, v⟩ : Msg) ∈ ms
    · exact h.resolved v hlater fun w hw => hone w (List.mem_cons_of_mem _ hw)
    · refine h.untouched fun n hn hk hd => hlater ?_
      obtain ⟨k, i, w⟩ := n
      obtain rfl : k = .getAddr := hk
      obtain rfl : i = d := hd
      obtain rfl : w = v := hone w (List.mem_cons_of_mem _ hn)
      exact hn

end

/-- A queued load before and after the GetAddr messages of a bus, field by field. -/
structure LoadResolved (ms : List Msg) (e e' : LoadEntry) : Prop where
  op : e'.op = e.op
  dest : e'.dest = e.dest
  ts : e'.ts = e.ts
  address : AddressFrom ms e.dest e.addr e.ready e'.addr e'.ready

/-- A queued store before and after the GetAddr messages of a bus, field by field. -/
structure StoreResolved (ms : List Msg) (e e' : StoreEntry) : Prop where
  op : e'.op = e.op
  dest : e'.dest = e.dest
  ts : e'.ts = e.ts
  committed : e'.committed = e.committed
  data : e'.data = e.data
  address : AddressFrom ms e.dest e.addr e.ready e'.addr e'.ready

section
variable {ms : List Msg} {i : Nat} {v : Word}

theorem LoadResolved.skip {e e' : LoadEntry} {m : Msg} (h : LoadResolved ms e e') (hm : m.kind ≠ .getAddr) :
    LoadResolved (m :: ms) e e' :=
  ⟨h.op, h.dest, h.ts, h.address.skip fun hk => absurd hk hm⟩

theorem StoreResolved.skip {e e' : StoreEntry} {m : Msg} (h : StoreResolved ms e e') (hm : m.kind ≠ .getAddr) :
    StoreResolved (m :: ms) e e' :=
  ⟨h.op, h.dest, h.ts, h.committed, h.data, h.address.skip fun hk => absurd hk hm⟩

theorem LoadResolved.resolve {e e' : LoadEntry} (h : LoadResolved ms (e.resolve i v) e') :
    LoadResolved (⟨.getAddr, i, v⟩ :: ms) e e' := by
  unfold LoadEntry.resolve at h
  split at h
  · subst i
    exact ⟨h.op, h.dest, h.ts, h.address.resolve⟩
  · rename_i hne
    exact ⟨h.op, h.dest, h.ts, h.address.skip fun _ hi => hne hi.symm⟩

theorem StoreResolved.resolve {e e' : StoreEntry} (h : StoreResolved ms (e.resolve i v) e') :
    StoreResolved (⟨.getAddr, i, v⟩ :: ms) e e' := by
  unfold StoreEntry.resolve at h
  split at h
  · subst i
    exact ⟨h.op, h.dest, h.ts, h.committed, h.data, h.address.resolve⟩
  · rename_i hne
    exact ⟨h.op, h.dest, h.ts, h.committed, h.data, h.address.skip fun _ hi => hne hi.symm⟩

end

/-- Addresses do not change which entries an index names. -/
theorem queuedUnder_resolve (lq : List LoadEntry) (sq : List StoreEntry) (i j : Nat) (v : Word) :
    queuedUnder (lq.map (LoadEntry.resolve i v)) (sq.map (StoreEntry.resolve i v)) j = queuedUnder lq sq j := by
  have hload : LoadEntry.dest ∘ LoadEntry.resolve i v = LoadEntry.dest :=
    funext fun e => And.left (LoadEntry.resolve_ready i v e)
  have hstore : StoreEntry.dest ∘ StoreEntry.resolve i v = StoreEntry.dest :=
    funext fun e => And.left (StoreEntry.resolve_ready i v e)
  rw [queuedUnder, queuedUnder, List.map_map, List.map_map, hload, hstore]

/-- Absorbing the GetAddr messages of a bus, each of which names one entry, resolves the entries they name. -/
theorem absorb_onGetAddr_resolved {s s' : State} {ms : List Msg} (h : absorbAll onGetAddr s ms = .ok s') :
    (∀ m ∈ ms, m.kind = .getAddr → queuedUnder s.lq s.sq m.idx = 1) ∧
      ∃ (f : LoadEntry → LoadEntry) (g : StoreEntry → StoreEntry),
        s' = { s with lq := s.lq.map f, sq := s.sq.map g } ∧
        (∀ e, LoadResolved ms e (f e)) ∧ ∀ e, StoreResolved ms e (g e) := by
  induction ms generalizing s with
  | nil =>
    cases h
    exact ⟨nofun, id, id, by simp, fun e => ⟨rfl, rfl, rfl, .nil ..⟩, fun e => ⟨rfl, rfl, rfl, rfl, rfl, .nil ..⟩⟩
  | cons m ms ih =>
    rw [absorbAll] at h
    split at h
    · rename_i s₁ hm
      obtain ⟨hone, f, g, rfl, hf, hg⟩ := ih h
      rcases onGetAddr_eq_ok hm with ⟨hk, rfl⟩ | ⟨hk, hmatch, rfl⟩
      · refine ⟨fun n hn hnk => ?_, f, g, rfl, fun e => (hf e).skip hk, fun e => (hg e).skip hk⟩
        rcases List.mem_cons.mp hn with rfl | hn
        · exact absurd hnk hk
        · exact hone n hn hnk
      · obtain ⟨k, i, v⟩ := m
        obtain rfl : k = .getAddr := hk
        refine ⟨fun n hn hnk => ?_, f ∘ LoadEntry.resolve i v, g ∘ StoreEntry.resolve i v, by simp,
          fun e => (hf _).resolve, fun e => (hg _).resolve⟩
        rcases List.mem_cons.mp hn with rfl | hn
        · exact (lsbMatches_eq_queuedUnder s i).symm.trans hmatch
        · exact (queuedUnder_resolve ..).symm.trans (hone n hn hnk)
    · cases h

/-! ## The CommitMem messages of a bus (R335) -/

/-- What the CommitMem messages of a bus make of the store queue: nothing where there are none, and else they all name its
head, whose address is known, and release it with the data of one of them. -/
def HeadReleased (ms : List Msg) (q q' : List StoreEntry) : Prop :=
  ((∀ m ∈ ms, m.kind ≠ .commitMem) ∧ q' = q) ∨
    ∃ e rest v, q = e :: rest ∧ q' = { e with committed := true, data := v } :: rest ∧ e.ready = true ∧
      (⟨.commitMem, e.dest, v⟩ : Msg) ∈ ms ∧ ∀ m ∈ ms, m.kind = .commitMem → m.idx = e.dest

theorem HeadReleased.skip {ms : List Msg} {q q' : List StoreEntry} {m : Msg} (h : HeadReleased ms q q')
    (hm : m.kind ≠ .commitMem) : HeadReleased (m :: ms) q q' := by
  rcases h with ⟨hnone, rfl⟩ | ⟨e, rest, v, hq, hq', hr, hv, hidx⟩
  · refine .inl ⟨fun n hn => ?_, rfl⟩
    rcases List.mem_cons.mp hn with rfl | hn
    · exact hm
    · exact hnone n hn
  · refine .inr ⟨e, rest, v, hq, hq', hr, List.mem_cons_of_mem _ hv, fun n hn hk => ?_⟩
    rcases List.mem_cons.mp hn with rfl | hn
    · exact absurd hk hm
    · exact hidx n hn hk

theorem HeadReleased.release {ms : List Msg} {e : StoreEntry} {rest q' : List StoreEntry} {v : Word}
    (hr : e.ready = true) (h : HeadReleased ms ({ e with committed := true, data := v } :: rest) q') :
    HeadReleased (⟨.commitMem, e.dest, v⟩ :: ms) (e :: rest) q' := by
  rcases h with ⟨hnone, rfl⟩ | ⟨e₁, rest₁, w, hq, rfl, -, hw, hidx⟩
  · refine .inr ⟨e, rest, v, rfl, rfl, hr, List.mem_cons_self, fun n hn hk => ?_⟩
    rcases List.mem_cons.mp hn with rfl | hn
    · rfl
    · exact absurd hk (hnone n hn)
  · obtain ⟨rfl, rfl⟩ := List.cons.inj hq
    refine .inr ⟨e, rest, w, rfl, rfl, hr, List.mem_cons_of_mem _ hw, fun n hn hk => ?_⟩
    rcases List.mem_cons.mp hn with rfl | hn
    · rfl
    · exact hidx n hn hk

theorem absorb_onCommitMem_released {s s' : State} {ms : List Msg} (h : absorbAll onCommitMem s ms = .ok s') :
    ∃ q, s' = { s with sq := q } ∧ HeadReleased ms s.sq q := by
  induction ms generalizing s with
  | nil =>
    cases h
    exact ⟨_, rfl, .inl ⟨nofun, rfl⟩⟩
  | cons m ms ih =>
    rw [absorbAll] at h
    split at h
    · rename_i s₁ hm
      obtain ⟨q, rfl, hq⟩ := ih h
      rcases onCommitMem_eq_ok hm with ⟨hk, rfl⟩ | ⟨hk, e, rest, he, hd, hr, rfl⟩
      · exact ⟨q, rfl, hq.skip hk⟩
      · obtain ⟨k, i, v⟩ := m
        obtain rfl : k = .commitMem := hk
        obtain rfl : e.dest = i := hd
        exact ⟨q, rfl, he ▸ hq.release hr⟩
    · cases h

/-! ## The queues of the flushed state -/

/-- The queues through a Flush without a squash: the latch's entry joins, the addresses arrive, the head is released. -/
theorem flush_queues {s f : State} (hc : s.clear = false) (h : flush s = .ok f) :
    (∀ m ∈ s.bus, m.kind = .getAddr → queuedUnder (loadsInserted s) (storesInserted s) m.idx = 1) ∧
      ∃ (g : LoadEntry → LoadEntry) (k : StoreEntry → StoreEntry), f.lq = (loadsInserted s).map g ∧
        HeadReleased s.bus ((storesInserted s).map k) f.sq ∧ (∀ e, LoadResolved s.bus e (g e)) ∧
        ∀ e, StoreResolved s.bus e (k e) := by
  rcases flush_eq_ok h with ⟨hclear, -⟩ | ⟨-, s', hu, rfl⟩
  · exact nomatch hc.symm.trans hclear
  · obtain ⟨s₁, s₂, s₃, s₄, s₅, s₆, s₇, h₁, h₂, h₃, h₄, h₅, h₆, h₇, rfl⟩ := flushUnits_eq_ok hu
    obtain ⟨es, rfl, -⟩ := absorb_onWriteBack_frame h₁
    obtain ⟨r₂, rfl⟩ := absorb_onStoreSuccess_frame h₂
    obtain ⟨r₃, rfl⟩ := insertRob_frame h₃
    obtain rfl := insertLsb_eq_inserted h₄
    obtain ⟨hone, g, k, rfl, hg, hk⟩ := absorb_onGetAddr_resolved h₅
    obtain ⟨q, rfl, hq⟩ := absorb_onCommitMem_released h₆
    obtain ⟨b, rfl⟩ := insertRs_frame h₇
    exact ⟨hone, g, k, rfl, hq, hg, hk⟩

/-- A store of the flushed queue against the one before it: its address by the GetAddr messages, its commitment and data
by the CommitMem messages, which concern the head alone. -/
structure StoreFlushed (ms : List Msg) (k : Nat) (e e' : StoreEntry) : Prop where
  op : e'.op = e.op
  dest : e'.dest = e.dest
  ts : e'.ts = e.ts
  address : AddressFrom ms e.dest e.addr e.ready e'.addr e'.ready
  kept : (k ≠ 0 ∨ ∀ m ∈ ms, m.kind ≠ .commitMem) → e'.committed = e.committed ∧ e'.data = e.data
  released : ∀ v, k = 0 → (⟨.commitMem, e.dest, v⟩ : Msg) ∈ ms →
    (∀ w, (⟨.commitMem, e.dest, w⟩ : Msg) ∈ ms → w = v) → e'.ready = true ∧ e'.committed = true ∧ e'.data = v

section
variable {ms : List Msg} {k : Nat} {e e' : StoreEntry}

/-- An entry that the CommitMem messages, if there are any, do not concern. -/
theorem StoreResolved.flushed (h : StoreResolved ms e e') (hno : k = 0 → ∀ m ∈ ms, m.kind ≠ .commitMem) :
    StoreFlushed ms k e e' :=
  ⟨h.op, h.dest, h.ts, h.address, fun _ => ⟨h.committed, h.data⟩, fun _ hk hv => absurd rfl (hno hk _ hv)⟩

/-- The released head. -/
theorem StoreResolved.flushed_head {v : Word} (h : StoreResolved ms e e') (hr : e'.ready = true)
    (hv : (⟨.commitMem, e.dest, v⟩ : Msg) ∈ ms) :
    StoreFlushed ms 0 e { e' with committed := true, data := v } where
  op := h.op
  dest := h.dest
  ts := h.ts
  address := h.address
  kept hno := absurd rfl (hno.resolve_left (· rfl) _ hv)
  released _ _ _ hone := ⟨hr, rfl, hone v hv⟩

end

theorem HeadReleased.flushed {ms : List Msg} {q q' : List StoreEntry} {g : StoreEntry → StoreEntry}
    (h : HeadReleased ms (q.map g) q') (hg : ∀ e, StoreResolved ms e (g e)) {k : Nat} {e : StoreEntry}
    (he : q[k]? = some e) : ∃ e', q'[k]? = some e' ∧ StoreFlushed ms k e e' := by
  have hge : (q.map g)[k]? = some (g e) := by rw [List.getElem?_map, he, Option.map_some]
  rcases h with ⟨hnone, rfl⟩ | ⟨e₀, rest, v, hq, rfl, hr, hv, -⟩
  · exact ⟨g e, hge, (hg e).flushed fun _ => hnone⟩
  · rw [hq] at hge
    cases k with
    | zero =>
      obtain rfl : e₀ = g e := Option.some.inj hge
      exact ⟨_, rfl, (hg e).flushed_head hr ((hg e).dest ▸ hv)⟩
    | succ k => exact ⟨g e, hge, (hg e).flushed nofun⟩

theorem HeadReleased.length_eq {ms : List Msg} {q q' : List StoreEntry} (h : HeadReleased ms q q') :
    q'.length = q.length := by
  rcases h with ⟨-, rfl⟩ | ⟨e, rest, v, rfl, rfl, -⟩ <;> rfl

/-- Every CommitMem is for the head. -/
theorem HeadReleased.names_head {ms : List Msg} {q q' : List StoreEntry} {m : Msg} (h : HeadReleased ms q q')
    (hm : m ∈ ms) (hk : m.kind = .commitMem) : ∃ e rest, q = e :: rest ∧ e.dest = m.idx := by
  rcases h with ⟨hnone, -⟩ | ⟨e, rest, v, hq, -, -, -, hidx⟩
  · exact absurd hk (hnone m hm)
  · exact ⟨e, rest, hq, (hidx m hm hk).symm⟩

/-- Settles O38: the two queues are followed entry by entry through the three steps of F4. -/
theorem loadStoreQueuesThroughFlush : Obligations.LoadStoreQueuesThroughFlush := by
  intro s f hc h
  obtain ⟨hone, g, k, hlq, hsq, hg, hk⟩ := flush_queues hc h
  refine ⟨by rw [hlq, List.length_map], by rw [hsq.length_eq, List.length_map], hone, fun m hm hkind => ?_,
    fun n e he => ?_, fun n e he => ?_⟩
  · obtain ⟨e', rest', hq, hd⟩ := hsq.names_head hm hkind
    obtain ⟨e, rest, hcons, rfl, -⟩ := List.map_eq_cons_iff.mp hq
    exact ⟨e, rest, hcons, (hk e).dest.symm.trans hd⟩
  · exact ⟨g e, by rw [hlq, List.getElem?_map, he, Option.map_some], (hg e).op, (hg e).dest, (hg e).ts, (hg e).address⟩
  · obtain ⟨e', he', hflushed⟩ := hsq.flushed hk he
    exact ⟨e', he', hflushed.op, hflushed.dest, hflushed.ts, hflushed.address, hflushed.kept, hflushed.released⟩

end Sys2Proof.Machine
end

section
/-! SUPPORT. The tags and the front end behind a memory instruction: no register but its destination and the sentinel's
x10 is renamed, and fetch stays stalled (41_issue_unit.md R165, R176; 40_clock_and_bus.md R133, R139). -/

namespace Sys2Proof.Machine

section
variable {s t u : State} {r : IRec} {m : LsOp} {a b : Word}

/-- A tag after a step without a squash was there before, or is the rename of the issued head of the queue. -/
theorem tagOf_of_step {q : RegIdx} {n : Nat} (hc : t.clear = false) (hstep : step t = .next u)
    (hu : u.status = .running) (h : u.tagOf q = some n) :
    t.tagOf q = some n ∨ ∃ i rest l, t.iq = i :: rest ∧ i.rd = some q ∧ u.latch = some l ∧ l.idx = n := by
  obtain ⟨-, -, f, port, hflush, -, hexec⟩ := TickTo.phases (.inl hstep) hu
  obtain ⟨c, l, st, o, x, -, hx⟩ := execute_executed hexec
  have hframe := flush_frame hc hflush
  obtain rfl := hx.merged
  rcases tagOf_nextTags_eq_some (merge_tag ..) h with hnew | hold
  · rcases issue_effect hx.issue with ⟨-, -, hnone⟩ | ⟨i, rest, op, hq, -, -, rfl⟩
    · exact nomatch hnone.symm.trans hnew
    · obtain ⟨d, hrd, hdn⟩ := Option.map_eq_some_iff.mp hnew
      obtain ⟨rfl, rfl⟩ := Prod.mk.inj hdn
      exact .inr ⟨i, rest, latchOf f i op, hframe.iq.symm.trans hq, hrd, rfl, rfl⟩
  · obtain ⟨hf, -⟩ := clearedTagOf_eq_some hold
    exact .inl ((State.tagOf_congr hframe.tag q).symm.trans hf)

/-- No register but x10 and the destination of the record `r` carries a tag, and that one's is the head's index. -/
def OnlyTagged (s : State) (r : IRec) (t : State) : Prop :=
  ∀ q n, q ≠ 10 → t.tagOf q = some n → r.rd = some q ∧ n = s.rob.head

theorem Fetched.onlyTagged (h : Fetched s r t) (hd : Drained s) : OnlyTagged s r t := fun q _ _ hq =>
  nomatch (State.tagOf_of_replicate (h.tag.trans hd.tag) q).symm.trans hq

theorem OnlyTagged.issued (h : OnlyTagged s r t) (ht : Fetched s r t) (hstep : step t = .next u)
    (hi : Issued s r m a b u) : OnlyTagged s r u := fun q n hq htag => by
  rcases tagOf_of_step ht.undisturbed.clear hstep hi.undisturbed.status htag with hold | ⟨i, rest, l, hiq, hrd, hl, rfl⟩
  · exact h q n hq hold
  · obtain ⟨rfl, -⟩ := List.cons.inj (ht.iq.symm.trans hiq)
    obtain rfl := Option.some.inj (hi.latch.symm.trans hl)
    exact ⟨hrd, rfl⟩

/-- The sentinel renames x10. -/
theorem OnlyTagged.dispatched (h : OnlyTagged s r t) (ht : Issued s r m a b t) (hstep : step t = .next u)
    (hu : u.status = .running) : OnlyTagged s r u := fun q n hq htag => by
  rcases tagOf_of_step ht.undisturbed.clear hstep hu htag with hold | ⟨i, rest, l, hiq, hrd, -⟩
  · exact h q n hq hold
  · obtain ⟨f, hf⟩ := ht.iq
    obtain ⟨rfl, -⟩ := List.cons.inj (hf.symm.trans hiq)
    exact absurd (Option.some.inj hrd).symm hq

/-- With nothing left to issue no register is renamed. -/
theorem OnlyTagged.step (h : OnlyTagged s r t) (hc : t.clear = false) (hiq : t.iq = []) (hstep : step t = .next u)
    (hu : u.status = .running) : OnlyTagged s r u := fun q n hq htag => by
  rcases tagOf_of_step hc hstep hu htag with hold | ⟨i, rest, l, hcons, -⟩
  · exact h q n hq hold
  · exact nomatch hiq.symm.trans hcons

/-- As `Drained.dispatched`, with the address of the next fetch and the tags. -/
theorem Drained.dispatched_onlyTagged {i : Instr} {record : State → IRec} (hd : Drained s) (ht : RefTiming s)
    (hsent : SentinelAt s (s.pc + 4)) (hi : exec i s = enter record s)
    (hr : MemoryRecord s (record (setFull s)) m a b) :
    ∃ t1 t, exec i s = .next t1 ∧ t1.pc = s.pc + 4 ∧ Reaches 2 t1 t ∧ Dispatched s (record (setFull s)) m a b t ∧
      OnlyTagged s (record (setFull s)) t := by
  obtain ⟨hc, hiq, hrob, -⟩ := ht.sizes
  have h1 := hd.fetched hr
  obtain ⟨t2, hstep1, h2⟩ := h1.step hd hr hc hiq hsent
  obtain ⟨t3, hstep2, h3⟩ := h2.step hc hrob
  have htags := ((h1.onlyTagged hd).issued h1 hstep1 h2).dispatched h2 hstep2 h3.undisturbed.status
  exact ⟨_, t3, hi.trans (hd.enter_eq hc record), h1.pc, reaches_step hstep1 (reaches_one hstep2), h3, htags⟩

/-- With an empty queue and a stalled fetch, a step that commits nothing leaves both so. -/
theorem front_of_step {f : State} (hiq : t.iq = []) (hstall : t.stall = true) (hc : t.clear = false)
    (hflush : flush t = .ok f) (hcommit : commit f = .ok (Commit.nothing f)) (hstep : step t = .next u)
    (hu : u.status = .running) : u.iq = [] ∧ u.stall = true := by
  obtain ⟨-, -, f', port, hf, -, hexec⟩ := TickTo.phases (.inl hstep) hu
  obtain rfl := Except.ok.inj (hf.symm.trans hflush)
  obtain ⟨c, l, st, o, x, hfetch, hx⟩ := execute_executed hexec
  have hframe := flush_frame hc hflush
  obtain rfl := Except.ok.inj (hx.commit.symm.trans hcommit)
  obtain rfl := Except.ok.inj (hx.issue.symm.trans (issue_of_nil (hframe.iq.trans hiq)))
  obtain rfl := Except.ok.inj (hfetch.symm.trans (fetch_of_stall (hframe.stall.trans hstall)))
  obtain rfl := hx.merged
  refine ⟨rfl, ?_⟩
  rw [merge_stall, nextStall, hframe.stall, hstall]
  rfl

end

end Sys2Proof.Machine
end

section
/-! SUPPORT. A load inside memory from a drained machine, from its start in the load stage to its commit
(47_load_store.md R338 to R341, R350 to R354; 48_reorder_commit.md R383, R387, R391). -/

namespace Sys2Proof.Machine

/-! ## The load stage reads -/

/-- The load stage holds the instruction for one more tick, and the add stage the sentinel. -/
structure LoadStarted (s : State) (r : IRec) (o : LoadOp) (ea : Word) (t : State) : Prop where
  undisturbed : Undisturbed s 4 t
  rob : ∃ e, t.rob = ⟨s.rob.head, [issuedEntry r, e]⟩
  rs : t.rs = Banks.empty t.cfg
  fu : t.fu = { Stages.allIdle with add := .busy 1 .add 0 255 (nextIndex s) }
  lq : t.lq = []
  sq : t.sq = []
  ldst : ∃ ts, t.ldst = .busy 1 ⟨o, s.rob.head, ea, true, ts⟩
  stst : t.stst = .idle
  bus : t.bus = []
  latch : t.latch = none
  iq : t.iq = []
  stall : t.stall = true

/-- The value read is on the bus, behind the sentinel's result. -/
structure LoadRead (s : State) (r : IRec) (v : Word) (t : State) : Prop where
  undisturbed : Undisturbed s 5 t
  rob : ∃ e, t.rob = ⟨s.rob.head, [issuedEntry r, e]⟩
  lq : t.lq = []
  sq : t.sq = []
  ldst : t.ldst = .idle
  stst : t.stst = .idle
  bus : t.bus = [⟨.writeBack, nextIndex s, 255⟩, ⟨.writeBack, s.rob.head, v⟩]
  latch : t.latch = none
  iq : t.iq = []
  stall : t.stall = true

section
variable {s t f : State} {r : IRec} {o : LoadOp} {a b ea v : Word}

/-- A load whose address is known starts, and the sentinel is dispatched. -/
theorem Dispatched.step_loadStarted (hi : Dispatched s r (.load o) a b t) (hd : s.rob.head < s.cfg.robCap)
    (hc : s.cfg.wf) (hcap : 1 < s.cfg.robCap) (hadd : s.cfg.latAdd = 1) (hload : s.cfg.latLoad = 1) :
    ∃ u, step t = .next u ∧ LoadStarted s r o (a + b) u := by
  obtain ⟨e, hflush⟩ := hi.flush hd hc hcap
  obtain ⟨hu, hrob, hrs, hfu, hlq, hsq, hldst, hstst, hbus, hlatch, hiq, hstall⟩ := hi
  rw [← hu.cfg] at hc hadd hload
  have hdisp : Dispatches (announced s r (.load o) a b e t) (.busy t.cfg.latAdd .add 0 255 (nextIndex s)) [] [] :=
    dispatches_of_sentinel hc (by simp [announced, hrs]) hfu
  have hstep := step_of_units hu.status hu.halt hflush hstall (commit_of_issue rfl rfl)
    (loadStage_starts (f := announced s r (.load o) a b e t) hldst rfl rfl rfl)
    (storeStage_holds (f := announced s r (.load o) a b e t) hstst nofun)
    (issue_of_nil hiq) (hdisp.emitted ..) (Nat.zero_le _)
  refine ⟨_, hstep, {
    undisturbed := (hu.flush hflush).merge (Commit.quiet_nothing _) rfl
    rob := ⟨e, rfl⟩
    rs := hdisp.rs ..
    fu := ?_
    lq := rfl
    sq := rfl
    ldst := ⟨s.cycle + 2, ?_⟩
    stst := rfl
    bus := rfl
    latch := rfl
    iq := rfl
    stall := ?_ }⟩
  · rw [hdisp.fu, hadd]
  · show LoadStage.busy t.cfg.latLoad _ = _
    rw [hload]
    rfl
  · show (t.stall && true) = true
    rw [hstall]
    rfl

/-- The load stage reads, and the sentinel's addition completes. -/
theorem LoadStarted.step (hi : LoadStarted s r o ea t) (hc : s.cfg.wf)
    (hv : loadValue s.mem s.cfg.memSize o ea = some v) : ∃ u, step t = .next u ∧ LoadRead s r v u := by
  obtain ⟨hu, ⟨e, hrob⟩, hrs, hfu, hlq, hsq, ⟨ts, hldst⟩, hstst, hbus, hlatch, hiq, hstall⟩ := hi
  have hflush := flush_of_quiet hu.clear hlatch hbus
  have hdisp : Dispatches (setFull t) .idle [⟨.writeBack, nextIndex s, 255⟩] [] := dispatches_of_result hrs hfu
  rw [← hu.mem, ← hu.cfg] at hv
  rw [← hu.cfg] at hc
  obtain ⟨-, -, -, -, -, hbusCap, -⟩ := hc
  have hstore : storeStage (setFull t) = .ok ⟨.idle, [], t.mem, []⟩ := by
    rw [storeStage_holds (f := setFull t) hstst (by simp [hsq]), setFull_sq, hsq, setFull_mem]
  have hstep := step_of_units hu.status hu.halt hflush hstall
    (commit_of_issue (f := setFull t) (congrArg Rob.entries hrob) rfl) (loadStage_completes (f := setFull t) hldst hv)
    hstore (issue_of_nil hiq) (hdisp.emitted ..) (by show 2 ≤ t.cfg.busCap; omega)
  refine ⟨_, hstep, {
    undisturbed := (hu.flush hflush).merge (Commit.quiet_nothing _) rfl
    rob := ⟨e, hrob⟩
    lq := hlq
    sq := rfl
    ldst := rfl
    stst := rfl
    bus := rfl
    latch := rfl
    iq := rfl
    stall := ?_ }⟩
  show (t.stall && true) = true
  rw [hstall]
  rfl

/-! ## The two entries in flight, by their indices (R383) -/

theorem onWriteBack_of_live {e : RobEntry} {i : Nat} (h : t.robAt i = some e) :
    onWriteBack t ⟨.writeBack, i, v⟩ = .ok (t.robModify i fun e => { e with state := .write, value := v }) := by
  simp [onWriteBack, h]

/-- The head by its index. -/
theorem State.robModify_head {n : Nat} {e : RobEntry} {rest : List RobEntry} (hrob : t.rob = ⟨n, e :: rest⟩)
    (hn : n < t.cfg.robCap) (g : RobEntry → RobEntry) :
    t.robAt n = some e ∧ t.robModify n g = { t with rob := ⟨n, g e :: rest⟩ } := by
  obtain rfl : t.rob.head = n := by rw [hrob]
  have hoff : t.robOffset t.rob.head = 0 := by simp [State.robOffset_eq t hn hn]
  refine ⟨State.robAt_head (by rw [hrob]) hn, ?_⟩
  rw [State.robModify, hoff, hrob]
  rfl

/-- The entry behind the head by its index. -/
theorem State.robModify_nextIndex {e e' : RobEntry} {rest : List RobEntry} (hd : s.rob.head < s.cfg.robCap)
    (hcap : 1 < s.cfg.robCap) (hcfg : t.cfg = s.cfg) (hrob : t.rob = ⟨s.rob.head, e :: e' :: rest⟩)
    (g : RobEntry → RobEntry) :
    t.robAt (nextIndex s) = some e' ∧
      t.robModify (nextIndex s) g = { t with rob := ⟨s.rob.head, e :: g e' :: rest⟩ } := by
  obtain ⟨hlt, hoff⟩ := robOffset_nextIndex hd hcap hcfg (by rw [hrob])
  rw [State.robAt_of_lt t hlt, State.robModify, hoff, hrob]
  exact ⟨rfl, rfl⟩

/-- The entry with its result (R383). -/
def RobEntry.written (e : RobEntry) (v : Word) : RobEntry := { e with state := .write, value := v }

/-- The results of the two entries in flight are written to them. -/
theorem absorb_two_results {e e' : RobEntry} {w : Word} (hd : s.rob.head < s.cfg.robCap) (hcap : 1 < s.cfg.robCap)
    (hcfg : t.cfg = s.cfg) (hrob : t.rob = ⟨s.rob.head, [e, e']⟩) :
    absorbAll onWriteBack t [⟨.writeBack, nextIndex s, w⟩, ⟨.writeBack, s.rob.head, v⟩] =
      .ok { t with rob := ⟨s.rob.head, [e.written v, e'.written w]⟩ } := by
  obtain ⟨hnext, hmodNext⟩ := State.robModify_nextIndex hd hcap hcfg hrob (·.written w)
  obtain ⟨hhead, hmodHead⟩ := State.robModify_head (t := { t with rob := ⟨s.rob.head, [e, e'.written w]⟩ }) rfl
    (hcfg ▸ hd) (·.written v)
  have hfirst := (onWriteBack_of_live (v := w) hnext).trans (congrArg Except.ok hmodNext)
  have hsecond := (onWriteBack_of_live (v := v) hhead).trans (congrArg Except.ok hmodHead)
  simp only [absorbAll, hfirst, hsecond]

/-! ## The load commits -/

/-- The Flush that absorbs the value read: the load is complete at the head. -/
theorem LoadRead.flush (hi : LoadRead s r v t) (hd : s.rob.head < s.cfg.robCap) (hcap : 1 < s.cfg.robCap) :
    ∃ f rest, flush t = .ok f ∧ f.rob = ⟨s.rob.head, completedEntry r v :: rest⟩ ∧ f.lq = [] ∧ f.sq = [] := by
  obtain ⟨hu, ⟨e, hrob⟩, hlq, hsq, -, -, hbus, hlatch, -, -⟩ := hi
  have hwrite := absorb_two_results (v := v) (w := 255) hd hcap hu.cfg hrob
  obtain ⟨hinsRob, hinsLsb, hinsRs⟩ := inserts_of_none
    (s := { t with rob := ⟨s.rob.head, [(issuedEntry r).written v, e.written 255]⟩ }) hlatch
  refine ⟨_, [e.written 255], flush_of_steps hu.clear hbus hwrite rfl hinsRob hinsLsb rfl rfl hinsRs, rfl, ?_, ?_⟩
  · simp [hlq]
  · simp [hsq]

/-- From here on the run is one of a result with the sentinel behind it, which stood in front of the next fetch. -/
theorem LoadRead.sentinelBehind (hi : LoadRead s r v t) (htags : OnlyTagged s r t) :
    SentinelBehind s r (t.pc - 4) 5 t :=
  ⟨hi.undisturbed, hi.lq, hi.sq, hi.ldst, hi.stst, (BitVec.sub_add_cancel ..).symm, hi.stall, htags⟩

/-- The commit of a result at the head, with the sentinel behind it and nothing else in flight (R387, R391). -/
theorem SentinelBehind.retires {i : Instr} {t1 : State} {next : Word} {k : Nat} {op : Op} {rd : RegIdx}
    {rest : List RobEntry} (h : SentinelBehind s r next (k + 1) t) (hexec : exec i s = .next t1)
    (hreach : Reaches k t1 t) (hc : s.cfg.wf) (hflush : flush t = .ok f)
    (hrob : f.rob = ⟨s.rob.head, completedEntry r v :: rest⟩) (hlq : f.lq = []) (hsq : f.sq = []) (hiq : t.iq = [])
    (hop : r.op = some op) (hres : op.isResult = true) (hhalt : r.isHalt = false) (hrd : r.rd = destOf rd) :
    RetiresWith i s (k + 1) t1.pc rd v := by
  have hu := h.undisturbed.flush hflush
  have hframe := flush_frame h.undisturbed.clear hflush
  have hcommit := commit_of_result (e := completedEntry r v) (congrArg Rob.entries hrob) rfl hop hres hhalt
  have hstep := h.step_eq_merge hc hflush hlq hsq hcommit (issue_of_nil (hframe.iq.trans hiq))
  have hreach' := reaches_add hreach (reaches_one hstep)
  rw [Nat.add_comm] at hreach'
  refine ⟨t1, _, hexec, rfl, hreach', hu.status, fun q => ?_, hu.mem, hu.pred, hu.cfg, congrArg (· + 1) hu.cycle,
    (Bool.or_false _).trans hu.clear, (Bool.or_false _).trans hu.halt, rfl, rfl, rfl, rfl, fun q hq => ?_⟩
  · rw [reg_of_commitWrite (f := f) rfl (merge_x ..), State.reg_congr hu.x]
    show (if r.rd = some q ∧ q ≠ 0 then v else s.reg q) = _
    rw [hrd]
    exact if_congr (and_congr_left destOf_eq_some_iff) rfl rfl
  · by_contra hne
    obtain ⟨m, hm⟩ := Option.ne_none_iff_exists'.mp hne
    rcases tagOf_nextTags_eq_some (merge_tag ..) hm with hnew | hold
    · exact nomatch hnew
    · obtain ⟨hfq, hother⟩ := clearedTagOf_eq_some hold
      obtain ⟨hsome, rfl⟩ := h.tags q m hq ((State.tagOf_congr hframe.tag q).symm.trans hfq)
      refine hother v ?_
      simp [commitResult, commitWrite, completedEntry, issuedEntry, hsome, hrob]

end

/-! ## The run of a load inside memory -/

section
variable {s : State} {rd rs1 : RegIdx} {imm : Word}

/-- A load inside memory from its entry to its commit five ticks later. -/
theorem Drained.load_retires {i : Instr} {mn : Mnemonic} {o : LoadOp} {v : Word} (hd : Drained s) (ht : RefTiming s)
    (hsent : SentinelAt s (s.pc + 4)) (hmn : mn ≠ .jal)
    (hi : exec i s = enter (Machine.immediateRecord i mn .load (.ls (.load o)) rd rs1 imm) s)
    (hv : loadValue s.mem s.cfg.memSize o (s.reg rs1 + imm) = some v) : RetiresWith i s 5 (s.pc + 4) rd v := by
  obtain ⟨hc, -, hrob, hadd, hload, -⟩ := ht.sizes
  obtain ⟨t1, t3, hexec, hpc, hreach, h3, htags3⟩ :=
    hd.dispatched_onlyTagged ht hsent hi (hd.loadRecord i hmn o rd rs1 imm)
  obtain ⟨t4, hstep3, h4⟩ := h3.step_loadStarted hd.head hc hrob hadd hload
  obtain ⟨t5, hstep4, h5⟩ := h4.step hc hv
  have htags4 := htags3.step h3.undisturbed.clear h3.iq hstep3 h4.undisturbed.status
  have htags5 := htags4.step h4.undisturbed.clear h4.iq hstep4 h5.undisturbed.status
  obtain ⟨f, rest, hflush, hfrob, hlq, hsq⟩ := h5.flush hd.head hrob
  have hreach5 := reaches_add hreach (reaches_step hstep3 (reaches_one hstep4))
  exact hpc ▸ (h5.sentinelBehind htags5).retires hexec hreach5 hc hflush hfrob hlq hsq h5.iq rfl rfl rfl rfl

end

/-- Settles O22: each load is performed and commits; what it reads is made of the bytes at its address. -/
theorem loadResults : Obligations.LoadResults := by
  intro s rd rs1 imm hd ht hsent ea m
  refine ⟨fun hin => ⟨?_, ?_⟩, fun hin => ⟨?_, ?_⟩, fun hin => ?_⟩
  · exact hd.load_retires ht hsent (mn := .lb) (by decide) rfl (loadValue_lb hin)
  · exact hd.load_retires ht hsent (mn := .lbu) (by decide) rfl (loadValue_lbu hin)
  · exact hd.load_retires ht hsent (mn := .lh) (by decide) rfl (loadValue_lh hin)
  · exact hd.load_retires ht hsent (mn := .lhu) (by decide) rfl (loadValue_lhu hin)
  · exact hd.load_retires ht hsent (mn := .lw) (by decide) rfl (loadValue_lw hin)

end Sys2Proof.Machine
end

section
/-! SUPPORT. A store inside memory from a drained machine, from its release to the write (47_load_store.md R344, R345,
R355 to R357; 20_memory.md R74). -/

namespace Sys2Proof.Machine

section
variable {s t u : State} {r : IRec} {o : StoreOp} {ea b : Word}

/-- While the released store starts, fetch stays stalled and nothing is left to issue: the head waits and commits
nothing. -/
theorem StoreCommitted.front (hi : StoreCommitted s r o ea b t) (ho : r.op = some (.ls (.store o)))
    (hstep : Machine.step t = .next u) (hu : u.status = .running) : u.iq = [] ∧ u.stall = true := by
  obtain ⟨ht, ⟨e, hrob⟩, -, -, -, ⟨ts, hsq⟩, -, -, hbus, hlatch, hiq, hstall⟩ := hi
  exact front_of_step hiq hstall ht.clear (flush_of_commitMem ht.clear hlatch hbus hsq rfl)
    (commit_of_waitSt (congrArg Rob.entries hrob) rfl (waitingEntry_isStore ho b)) hstep hu

/-- The Flush of the tick in which the store is performed: the sentinel's result is written, the store waits on. -/
theorem StorePerforming.flush (hi : StorePerforming s r o ea b t) (hd : s.rob.head < s.cfg.robCap)
    (hcap : 1 < s.cfg.robCap) :
    ∃ f e ts, Machine.flush t = .ok f ∧ f.rob.entries = [waitingEntry r b, e] ∧ f.lq = [] ∧
      f.sq = [⟨o, s.rob.head, ea, true, ts, true, b⟩] := by
  obtain ⟨hu, ⟨e, hrob⟩, hlq, ⟨ts, hsq⟩, -, -, ⟨v, hbus⟩, hlatch⟩ := hi
  obtain ⟨hat, hmod⟩ := State.robModify_nextIndex hd hcap hu.cfg hrob (·.written v)
  refine ⟨_, e.written v, ts, flush_of_writeBack hu.clear hlatch hbus hat, ?_, ?_, ?_⟩
  · exact congrArg (fun t => t.rob.entries) hmod
  · simp [hlq]
  · simp [hsq]

/-- The state after the write: memory is `m`, and the store has left the load/store buffer. -/
structure StorePerformed (s : State) (m : Memory) (t : State) : Prop where
  status : t.status = .running
  x : t.x = s.x
  mem : t.mem = m
  pred : t.pred = s.pred
  cfg : t.cfg = s.cfg
  cycle : t.cycle = s.cycle + 6
  clear : t.clear = false
  halt : t.halt = false
  lq : t.lq = []
  sq : t.sq = []
  ldst : t.ldst = .idle
  stst : t.stst = .idle

/-- A store inside memory writes its bytes. -/
theorem StorePerforming.step_performed {m : Memory} (hi : StorePerforming s r o ea b t)
    (hop : r.op = some (.ls (.store o))) (hd : s.rob.head < s.cfg.robCap) (hcap : 1 < s.cfg.robCap) (hc : s.cfg.wf)
    (hiq : t.iq = []) (hstall : t.stall = true) (hm : memWrite s.mem s.cfg.memSize ea o.width b = some m) :
    ∃ u, Machine.step t = .next u ∧ StorePerformed s m u := by
  obtain ⟨f, e, ts, hflush, hrob, hlq, hsq⟩ := hi.flush hd hcap
  have hu := hi.undisturbed.flush hflush
  have hframe := flush_frame hi.undisturbed.clear hflush
  have hcommit := commit_of_waitSt hrob rfl (waitingEntry_isStore hop b)
  have hload : loadStage f = .ok ⟨.idle, [], []⟩ := by
    rw [loadStage_holds (hframe.ldst.trans hi.ldst) (by simp [hlq]), hlq]
  have hstore := storeStage_completes (hframe.stst.trans hi.stst) hsq (by rw [hu.mem, hu.cfg]; exact hm)
  obtain ⟨-, -, -, -, -, hbus, -⟩ := hc
  rw [← hu.cfg] at hbus
  have hstep := step_of_units hi.undisturbed.status hi.undisturbed.halt hflush (hframe.stall.trans hstall) hcommit hload
    hstore (issue_of_nil (hframe.iq.trans hiq)) rfl ((emitted_length_le hcommit hload hstore).trans hbus)
  exact ⟨_, hstep, {
    status := hu.status
    x := hu.x
    mem := rfl
    pred := hu.pred
    cfg := hu.cfg
    cycle := congrArg (· + 1) hu.cycle
    clear := (Bool.or_false _).trans hu.clear
    halt := (Bool.or_false _).trans hu.halt
    lq := rfl
    sq := rfl
    ldst := rfl
    stst := rfl }⟩

end

/-! ## The run of a store inside memory -/

section
variable {s : State} {rs2 rs1 : RegIdx} {imm : Word}

/-- A store inside memory from its entry to its write five ticks later. -/
theorem Drained.store_performs {i : Instr} {mn : Mnemonic} {o : StoreOp} (hd : Drained s) (ht : RefTiming s)
    (hm : s.mem.wf) (hsent : SentinelAt s (s.pc + 4)) (hmn : mn ≠ .jal)
    (hi : exec i s = enter (Machine.storeRecord i mn o rs2 rs1 imm) s)
    (hin : (s.reg rs1 + imm).toNat + o.width ≤ s.cfg.memSize) :
    StoresOnly i s (s.reg rs1 + imm) o.width (s.reg rs2) := by
  obtain ⟨hc, -, hrob, hadd, -, hstore⟩ := ht.sizes
  have hw : memWrite s.mem s.cfg.memSize (s.reg rs1 + imm) o.width (s.reg rs2) = some _ :=
    memWrite_eq_some_iff.mpr ⟨hin, rfl⟩
  obtain ⟨t1, t3, hexec, hpc, hreach, h3, htags3⟩ :=
    hd.dispatched_onlyTagged ht hsent hi (hd.storeRecord i hmn o rs2 rs1 imm)
  obtain ⟨t4, hstep3, h4⟩ := h3.step_store rfl rfl hd.head hc hrob hadd
  obtain ⟨t5, hstep4, h5⟩ := h4.step rfl hc hstore
  obtain ⟨hiq5, hstall5⟩ := h4.front rfl hstep4 h5.undisturbed.status
  obtain ⟨t6, hstep5, h6⟩ := h5.step_performed rfl hd.head hrob hc hiq5 hstall5 hw
  have htags4 := htags3.step h3.undisturbed.clear h3.iq hstep3 h4.undisturbed.status
  have htags5 := htags4.step h4.undisturbed.clear h4.iq hstep4 h5.undisturbed.status
  have htags6 := htags5.step h5.undisturbed.clear hiq5 hstep5 h6.status
  refine ⟨t1, t6, hexec, hpc, reaches_add hreach (reaches_step hstep3 (reaches_step hstep4 (reaches_one hstep5))),
    h6.status, fun k hk => ?_, fun c hout => ?_, h6.mem ▸ memWrite_wf hm hw, State.reg_congr h6.x, h6.pred, h6.cfg,
    h6.cycle, h6.clear, h6.halt, h6.lq, h6.sq, h6.ldst, h6.stst, fun q hq => ?_⟩
  · rw [h6.mem, memWrite_read hm hw, if_pos (by omega), Nat.add_sub_cancel_left]
  · have hnot : ¬ ((s.reg rs1 + imm).toNat ≤ c ∧ c < (s.reg rs1 + imm).toNat + o.width) := fun ⟨hle, hlt⟩ =>
      hout (c - (s.reg rs1 + imm).toNat) (by omega) (by omega)
    rw [h6.mem, memWrite_read hm hw, if_neg hnot]
  · by_contra hne
    obtain ⟨n, hn⟩ := Option.ne_none_iff_exists'.mp hne
    obtain ⟨hrd, -⟩ := htags6 q n hq hn
    exact nomatch hrd

end

/-- Settles O23: each store is released by its commit and then writes its bytes, as `MemWrite` does, and nothing
else. -/
theorem storeResults : Obligations.StoreResults := by
  intro s rs2 rs1 imm hd ht hm hsent ea
  refine ⟨fun hin => ?_, fun hin => ?_, fun hin => ?_⟩
  · exact hd.store_performs (o := .sb) (mn := .sb) ht hm hsent (by decide) rfl hin
  · exact hd.store_performs (o := .sh) (mn := .sh) ht hm hsent (by decide) rfl hin
  · exact hd.store_performs (o := .sw) (mn := .sw) ht hm hsent (by decide) rfl hin

end Sys2Proof.Machine
end

section
/-! SUPPORT. What commit leaves in the next state of a completed tick: the reorder buffer, the register file, its message,
the flags and the predictor (48_reorder_commit.md R385 to R393; 40_clock_and_bus.md R133, R139, R144, R145). -/

namespace Sys2Proof.Machine

/-! ## Commit's part of the next state -/

/-- The next state `t` has what the contribution `c` of commit makes of the flushed state `f`. -/
structure CommitPart (f t : State) (c : Commit) : Prop where
  rob : t.rob = c.rob
  registers : RegisterFileNext f t c.write
  msgs : commitMsgs t.bus = c.msgs
  halt : t.halt = c.setHalt
  clear : t.clear = c.setClear
  pred : t.pred = c.pred

/-- In the flushed state of a completed tick neither flag is up (40_clock_and_bus.md R131, R134). -/
theorem Ticks.flags {s f t : State} (h : Ticks s f t) : f.halt = false ∧ f.clear = false := by
  rcases flush_eq_ok h.flushed with ⟨-, rfl⟩ | ⟨hc, -⟩
  · exact ⟨h.noHalt, rfl⟩
  · have hframe := flush_frame hc h.flushed
    exact ⟨hframe.halt.trans h.noHalt, hframe.clear.trans hc⟩

theorem Commit.only_commit_kinds {f : State} {c : Commit} (h : commit f = .ok c) : commitMsgs c.msgs = c.msgs := by
  rcases commit_msgs h with hm | ⟨v, hm⟩ | ⟨v, hm⟩ <;> rw [hm] <;> rfl

/-- Messages of the other three kinds are none of commit's. -/
theorem commitMsgs_of_kinds {ms : List Msg} {ks : List MsgKind} (h : (ms.map Msg.kind).Sublist ks)
    (hk : ∀ k ∈ ks, k ≠ .commitReg ∧ k ≠ .commitMem) : commitMsgs ms = [] := by
  refine List.filter_eq_nil_iff.mpr fun m hm => ?_
  obtain ⟨hreg, hmem⟩ := hk _ (kind_mem_of_sublist h hm)
  simp [hreg, hmem]

/-- Among the messages of one Execute only commit's own are of its kinds (R144, R145). -/
theorem commitMsgs_emitted {f : State} {c : Commit} {l : LoadOut} {st : StoreOut} (hc : commit f = .ok c)
    (hl : loadStage f = .ok l) (hs : storeStage f = .ok st) : commitMsgs (emitted f c l st) = c.msgs := by
  have hstage : ∀ {α : Type} (result : α → Word → Word → Word) (lat : Nat) (sg : Stage α)
      (bank : List (Option (RSEntry α))), commitMsgs (unitStep result lat sg bank).msgs = [] := fun _ _ _ _ =>
    commitMsgs_of_kinds (unitStep_kinds ..) (by decide)
  have hload := commitMsgs_of_kinds (loadStage_kinds hl) (by decide)
  have hstore := commitMsgs_of_kinds (storeStage_kinds hs) (by decide)
  have hls := commitMsgs_of_kinds (dispatchLs_kinds f) (by decide)
  have happend : ∀ a b, commitMsgs (a ++ b) = commitMsgs a ++ commitMsgs b := fun _ _ => List.filter_append ..
  simp only [emitted, happend, stepAdd, stepCmp, stepLog, stepShf, hstage, hload, hstore, hls, List.append_nil]
  exact Commit.only_commit_kinds hc

section
variable {f t : State} {c : Commit} {l : LoadOut} {st : StoreOut} {i : IssueOut} {r : Option IRec}

/-- The register file by R139: commit's write, and the rename of what issue leaves in the latch. -/
theorem Executed.registers (h : Executed f t c l st i r) : RegisterFileNext f t c.write := by
  intro q hq
  constructor
  · have hx : t.x = nextValues f c := by rw [h.merged, merge_x]
    unfold nextValues at hx
    rcases hw : c.write with _ | ⟨rd, v, n⟩ <;> rw [hw] at hx
    · exact State.reg_congr hx q
    · exact (State.reg_of_writeValue hx q).trans (if_congr (and_iff_left hq) rfl rfl)
  · rw [tagOf_nextTags (f := f) (c := c) (i := i) (by rw [h.merged, merge_tag]), h.latch]
    rcases issue_effect h.issue with ⟨-, hl, hr⟩ | ⟨x, rest, op, -, -, -, rfl⟩
    · rw [hl, hr]
    · cases hrd : x.rd with
      | none => simp [latchOf, hrd]
      | some d =>
        refine if_congr ?_ rfl rfl
        rw [and_iff_left hq, latchOf, hrd, Option.some.injEq, eq_comm]

theorem Ticks.commitPart {s : State} (h : Ticks s f t) (hc : commit f = .ok c) : CommitPart f t c := by
  obtain ⟨c', l, st, i, r, hx⟩ := h.executed
  obtain rfl := Except.ok.inj (hc.symm.trans hx.commit)
  obtain ⟨hhalt, hclear⟩ := h.flags
  have hmsgs := commitMsgs_emitted hc hx.load hx.store
  have hregs := hx.registers
  obtain rfl := hx.merged
  exact ⟨rfl, hregs, hmsgs, by rw [merge_halt, hhalt, Bool.false_or], by rw [merge_clear, hclear, Bool.false_or], rfl⟩

end

/-! ## Which commit the head makes (R386 to R390) -/

section
variable {f : State} {e : RobEntry} {rest : List RobEntry}

theorem HeadCommits.commit (h : HeadCommits f e rest) : Machine.commit f = .ok (commitHead f e) := by
  obtain ⟨he, hw⟩ := h
  simp [Machine.commit, he, hw]

theorem HeadCommits.commit_halt (h : HeadCommits f e rest) (hh : e.instr.isHalt = true) :
    Machine.commit f = .ok (commitHalt f) := by
  rw [h.commit, commitHead, if_pos hh]

theorem HeadCommits.commit_storeOp {o : StoreOp} (h : HeadCommits f e rest) (hh : e.instr.isHalt = false)
    (hop : e.instr.op = some (.ls (.store o))) : Machine.commit f = .ok (commitStore f e) := by
  simp [h.commit, commitHead, hh, hop]

/-- Retirement of the head by its parts (R393). -/
theorem HeadCommits.retire (h : HeadCommits f e rest) :
    f.rob.retire f.cfg.robCap = ⟨(f.rob.head + 1) % f.cfg.robCap, rest⟩ := by
  obtain ⟨he, -⟩ := h
  simp [Rob.retire, he]

end

/-- A head for which R392 has no rule aborts every tick, whatever the fetch port would deliver. -/
theorem commit_unreachable {f : State} {e : RobEntry} {rest : List RobEntry} (he : f.rob.entries = e :: rest)
    (h : e.state = .exec ∨ e.state = .waitSt ∧ e.isStore = false) :
    commit f = .error (.unreachable f.rob.head f.cycle) := by
  rcases h with h | ⟨h, hs⟩
  · simp [commit, he, h]
  · simp [commit, he, h, hs]

/-- Where commit aborts, it is first to (60_exceptions.md R428). -/
theorem execute_of_commit_error {port : FetchPort} {f : State} {a : Abort} (h : commit f = .error a) :
    execute port f = .error a := by
  simp [execute, h, bind, Except.bind]

/-! ## The statements -/

/-- Settles O47: what commits nothing contributes nothing, and what R392 leaves over is commit's abort, which is every
tick's. -/
theorem commitGate : Obligations.CommitGate := by
  refine ⟨fun s f t h hhead => ?_, fun s f e rest hs hh hflush he hstate => ?_⟩
  · have hnothing : commit f = .ok (Commit.nothing f) := by
      rcases hhead with he | ⟨e, rest, he, hi | ⟨hw, hst⟩⟩
      · exact commit_of_empty he
      · exact commit_of_issue he hi
      · exact commit_of_waitSt he hw hst
    obtain ⟨hrob, hregs, hmsgs, hhalt, hclear, hpred⟩ := h.commitPart hnothing
    exact ⟨hrob, hregs, hmsgs, hhalt, hclear, hpred⟩
  · have htick : ∀ port, tick port s = f.abort (.unreachable f.rob.head f.cycle) := fun _ =>
      tick_aborts hh hflush (execute_of_commit_error (commit_unreachable he hstate))
    exact (step_and_exec_of_tickOutcome (P := fun o => o = .next (f.abort (.unreachable f.rob.head f.cycle)))
      fun port => by rw [tickOutcome_of_running hs, htick port]).symm

/-- Settles O48: the sentinel's contribution is the halt flag, which every next tick detects; fetch alone could end the
stall, and does not. -/
theorem sentinelCommit : Obligations.SentinelCommit := by
  intro s f t e rest h hhead hh
  have hcommit := hhead.commit_halt hh
  obtain ⟨hrob, hregs, hmsgs, hhalt, hclear, hpred⟩ := h.commitPart hcommit
  refine ⟨hhalt, hrob, hregs, hmsgs, fun hstall => ?_, hclear, hpred, everyTickTo_haltedState h.goes hhalt⟩
  obtain ⟨c, l, st, i, hx⟩ := h.executed_of_closed fun ho => nomatch hstall.symm.trans ho.1
  obtain rfl := Except.ok.inj (hcommit.symm.trans hx.commit)
  rw [hx.merged, merge_stall, nextStall, hstall]
  rfl

/-- Settles O49: the head is neither a JALR, a branch nor a store, so its value commits. -/
theorem resultCommit : Obligations.ResultCommit := by
  intro s f t e rest op h hhead hh hop hres
  obtain ⟨he, hw⟩ := id hhead
  obtain ⟨hrob, hregs, hmsgs, hhalt, hclear, hpred⟩ := h.commitPart (commit_of_result he hw hop hres hh)
  exact ⟨hregs, hmsgs, hrob.trans hhead.retire, hhalt, hclear, hpred⟩

/-- Settles O50: with fetch stalled nothing is fetched that could set the stall again or move `pc`. -/
theorem jalrCommit : Obligations.JalrCommit := by
  intro s f t e rest h hhead hh hop hstall
  obtain ⟨he, hw⟩ := id hhead
  have hcommit := commit_of_jalr he hw hop hh
  obtain ⟨hrob, hregs, hmsgs, hhalt, hclear, hpred⟩ := h.commitPart hcommit
  obtain ⟨c, l, st, i, hx⟩ := h.executed_of_closed fun ho => nomatch hstall.symm.trans ho.1
  obtain rfl := Except.ok.inj (hcommit.symm.trans hx.commit)
  have hpc : t.pc = e.value := by
    rw [hx.merged]
    rfl
  have hgo : t.stall = false := by
    rw [hx.merged]
    exact Bool.and_false _
  exact ⟨hregs, hmsgs, hpc, hgo, hrob.trans hhead.retire, hhalt, hclear, hpred⟩

/-- Settles O51: a wrong guess squashes and redirects, and where there is no redirect fetch decides the next pc. -/
theorem branchCommit : Obligations.BranchCommit := by
  intro s f t e rest o h hhead hh hop hb
  obtain ⟨he, hw⟩ := id hhead
  have hcommit := commit_of_branch he hw hop hb hh
  have hredirect := commit_redirect hcommit
  obtain ⟨hrob, hregs, hmsgs, hhalt, hclear, hpred⟩ := h.commitPart hcommit
  obtain ⟨hcorrected, hfetched⟩ := nextPcByPriority s f t h
  refine ⟨hpred, fun hwrong => ?_, fun hright => ?_, hrob.trans hhead.retire, hregs, hmsgs, hhalt⟩
  · obtain ⟨hset, hto⟩ := commitBranch_of_wrong (f := f) hwrong
    exact ⟨hclear.trans hset, hcorrected _ (hredirect.symm.trans hto)⟩
  · obtain ⟨hset, hto⟩ := commitBranch_of_right (f := f) (not_not.mp hright)
    exact ⟨hclear.trans hset, hfetched (hredirect.symm.trans hto)⟩

/-- Settles O52: the entry stays at the head, waiting, and its data goes out with CommitMem. -/
theorem storeCommit : Obligations.StoreCommit := by
  intro s f t e rest o h hhead hh hop
  obtain ⟨he, -⟩ := id hhead
  obtain ⟨hrob, hregs, hmsgs, hhalt, hclear, hpred⟩ := h.commitPart (hhead.commit_storeOp hh hop)
  exact ⟨hrob.trans (by simp [commitStore, he]), hmsgs, hregs, hhalt, hclear, hpred⟩

end Sys2Proof.Machine
end

section
/-! SUPPORT. The reorder buffer through a Flush without a squash and through an Execute, entry by entry: what a WriteBack
writes, and that entries leave in front and join behind only (48_reorder_commit.md R380, R381, R383, R384, R393). -/

namespace Sys2Proof.Machine

/-! ## The three steps of a Flush that change the reorder buffer -/

/-- Steps F2 and F3 decide the reorder buffer of the flushed state (40_clock_and_bus.md R131). -/
theorem flush_rob {s f : State} (hc : s.clear = false) (h : flush s = .ok f) :
    ∃ s₁ s₂ s₃, absorbAll onWriteBack s s.bus = .ok s₁ ∧ absorbAll onStoreSuccess s₁ s.bus = .ok s₂ ∧
      insertRob s₂ = .ok s₃ ∧ f.rob = s₃.rob ∧ f.cfg = s₃.cfg := by
  rcases flush_eq_ok h with ⟨hclear, -⟩ | ⟨-, f', hu, rfl⟩
  · simp [hc] at hclear
  obtain ⟨s₁, s₂, s₃, s₄, s₅, s₆, s₇, h₁, h₂, h₃, h₄, h₅, h₆, h₇, rfl⟩ := flushUnits_eq_ok hu
  refine ⟨s₁, s₂, s₃, h₁, h₂, h₃, ?_⟩
  obtain ⟨lq, sq, rfl⟩ := insertLsb_frame h₄
  obtain ⟨g, g', rfl, -, -⟩ := absorb_onGetAddr_frame h₅
  obtain ⟨sq', rfl, -⟩ := absorb_onCommitMem_queue h₆
  obtain ⟨rs, rfl⟩ := insertRs_frame h₇
  exact ⟨rfl, rfl⟩

/-! ## WriteBack, by index (R383) -/

/-- What the WriteBack messages of a bus make of the live entry with index `q`. -/
def writtenBy (q : Nat) : List Msg → RobEntry → RobEntry
  | [], e => e
  | m :: ms, e => writtenBy q ms (if m.kind = .writeBack ∧ m.idx = q then e.written m.data else e)

theorem writtenBy_of_unnamed {q : Nat} {ms : List Msg} (h : ∀ m ∈ ms, m.kind = .writeBack → m.idx ≠ q)
    (e : RobEntry) : writtenBy q ms e = e := by
  induction ms generalizing e with
  | nil => rfl
  | cons m ms ih =>
    have hm : ¬ (m.kind = .writeBack ∧ m.idx = q) := fun ⟨hk, hq⟩ => h m List.mem_cons_self hk hq
    rw [writtenBy, if_neg hm, ih fun n hn => h n (List.mem_cons_of_mem _ hn)]

/-- Messages that carry one value leave the entry with it, however often it is sent. -/
theorem writtenBy_of_named {q : Nat} {v : Word} {ms : List Msg} (hmem : (⟨.writeBack, q, v⟩ : Msg) ∈ ms)
    (h : ∀ w, (⟨.writeBack, q, w⟩ : Msg) ∈ ms → w = v) (e : RobEntry) : writtenBy q ms e = e.written v := by
  induction ms generalizing e with
  | nil => cases hmem
  | cons m ms ih =>
    have hrest : ∀ w, (⟨.writeBack, q, w⟩ : Msg) ∈ ms → w = v := fun w hw => h w (List.mem_cons_of_mem _ hw)
    have hhead : (if m.kind = .writeBack ∧ m.idx = q then e.written m.data else e) = e ∨
        (if m.kind = .writeBack ∧ m.idx = q then e.written m.data else e) = e.written v := by
      by_cases hm : m.kind = .writeBack ∧ m.idx = q
      · obtain ⟨hk, hq⟩ := hm
        obtain rfl := h m.data (hk ▸ hq ▸ List.mem_cons_self)
        exact .inr (if_pos ⟨hk, hq⟩)
      · exact .inl (if_neg hm)
    rw [writtenBy]
    by_cases hin : (⟨.writeBack, q, v⟩ : Msg) ∈ ms
    · rw [ih hin hrest]
      rcases hhead with he | he
      · rw [he]
      · rw [he]
        rfl
    · obtain rfl := (List.mem_cons.mp hmem).resolve_right hin
      rw [if_pos ⟨rfl, rfl⟩]
      refine writtenBy_of_unnamed (fun n hn hk hq => hin ?_) _
      obtain ⟨k, j, w⟩ := n
      obtain rfl : k = .writeBack := hk
      obtain rfl : j = q := hq
      exact hrest w hn ▸ hn

theorem absorb_onWriteBack_robAt {s s' : State} {ms : List Msg} (hh : s.rob.head < s.cfg.robCap)
    (h : absorbAll onWriteBack s ms = .ok s') (q : Nat) : s'.robAt q = (s.robAt q).map (writtenBy q ms) := by
  induction ms generalizing s with
  | nil =>
    cases h
    simp [writtenBy]
  | cons m ms ih =>
    rw [absorbAll] at h
    split at h
    · rename_i s₁ hm
      rcases onWriteBack_eq_ok hm with ⟨hk, rfl⟩ | ⟨hk, e, he, rfl⟩
      · simpa [writtenBy, hk] using ih hh h
      · rw [ih (by simpa using hh) h, State.robAt_robModify hh (State.robAt_lt he)]
        by_cases hq : q = m.idx
        · subst hq
          simp [he, writtenBy, hk, RobEntry.written]
        · simp [hq, writtenBy, Ne.symm hq]
    · cases h

/-- A change of one entry that keeps a part of it keeps that part of the whole list. -/
theorem map_modify_of_keeps {α β : Type} {g : α → α} {v : α → β} (h : ∀ a, v (g a) = v a) (l : List α) (i : Nat) :
    (l.modify i g).map v = l.map v := by
  refine List.ext_getElem? fun k => ?_
  rw [List.getElem?_map, List.getElem?_map, List.getElem?_modify]
  by_cases hk : i = k <;> simp [hk, Function.comp_def, h]

/-- Absorbing WriteBacks keeps the head, the number of entries and which instruction each is of. -/
theorem absorb_onWriteBack_keeps {s s' : State} {ms : List Msg} (h : absorbAll onWriteBack s ms = .ok s') :
    s'.cfg = s.cfg ∧ s'.cycle = s.cycle ∧ s'.latch = s.latch ∧ s'.rob.head = s.rob.head ∧
      s'.rob.entries.map RobEntry.instr = s.rob.entries.map RobEntry.instr := by
  refine absorbAll_induct (P := fun t => t.cfg = s.cfg ∧ t.cycle = s.cycle ∧ t.latch = s.latch ∧
    t.rob.head = s.rob.head ∧ t.rob.entries.map RobEntry.instr = s.rob.entries.map RobEntry.instr) ?_
    ⟨rfl, rfl, rfl, rfl, rfl⟩ h
  rintro t m t' ⟨hc, hcy, hl, hh, hes⟩ ht
  rcases onWriteBack_eq_ok ht with ⟨-, rfl⟩ | ⟨-, e, -, rfl⟩
  · exact ⟨hc, hcy, hl, hh, hes⟩
  · exact ⟨hc, hcy, hl, hh, hes ▸ map_modify_of_keeps (fun e : RobEntry => (rfl : (e.written m.data).instr = e.instr)) ..⟩

/-! ## StoreSuccess and insertion, by index (R381, R384) -/

/-- A live entry that no StoreSuccess names stays where it is. -/
theorem absorb_onStoreSuccess_robAt {s s' : State} {ms : List Msg} {q : Nat} {e : RobEntry}
    (hh : s.rob.head < s.cfg.robCap) (h : absorbAll onStoreSuccess s ms = .ok s')
    (hms : ∀ m ∈ ms, m.kind = .storeSuccess → m.idx ≠ q) (he : s.robAt q = some e) : s'.robAt q = some e := by
  have hinv : s'.rob.head < s'.cfg.robCap ∧ s'.robAt q = some e := by
    refine absorbAll_induct_mem (P := fun t => t.rob.head < t.cfg.robCap ∧ t.robAt q = some e) ?_ ⟨hh, he⟩ h
    rintro t m hm t' ⟨hlt, hat⟩ ht
    rcases onStoreSuccess_eq_ok ht with ⟨-, rfl⟩ | ⟨hk, hidx, -, rfl⟩
    · exact ⟨hlt, hat⟩
    · exact ⟨t.rob.retire_head_lt hlt, State.robAt_retire
        (t := { t with rob := t.rob.retire t.cfg.robCap }) hlt rfl rfl (fun hq => hms m hm hk (hidx.trans hq.symm)) hat⟩
  exact hinv.2

theorem insertRob_robAt {s s' : State} {q : Nat} {e : RobEntry} (hh : s.rob.head < s.cfg.robCap)
    (h : insertRob s = .ok s') (he : s.robAt q = some e) : s'.robAt q = some e := by
  rcases insertRob_eq_ok h with ⟨-, rfl⟩ | ⟨l, -, hlt, rfl⟩
  · exact he
  · obtain ⟨-, hkeeps⟩ := State.robAt_append (t := { s with rob := { s.rob with
      entries := s.rob.entries ++ [l.robEntry] } }) hh hlt rfl rfl
    exact hkeeps q e he

/-- A live entry in the flushed state, where no StoreSuccess names it. -/
theorem flush_robAt {s f : State} {q : Nat} {e : RobEntry} (hc : s.clear = false) (hh : s.rob.head < s.cfg.robCap)
    (hf : flush s = .ok f) (he : s.robAt q = some e) (hms : ∀ m ∈ s.bus, m.kind = .storeSuccess → m.idx ≠ q) :
    f.robAt q = some (writtenBy q s.bus e) := by
  obtain ⟨s₁, s₂, s₃, h₁, h₂, h₃, hrob, hcfg⟩ := flush_rob hc hf
  obtain ⟨hcfg₁, -, -, hhead₁, -⟩ := absorb_onWriteBack_keeps h₁
  have hat₁ : s₁.robAt q = some (writtenBy q s.bus e) := by rw [absorb_onWriteBack_robAt hh h₁, he]; rfl
  have hlt₁ : s₁.rob.head < s₁.cfg.robCap := by rwa [hcfg₁, hhead₁]
  obtain ⟨-, -, hlt₂, -⟩ := absorb_onStoreSuccess_live hlt₁ h₂
  obtain ⟨r, rfl⟩ := absorb_onStoreSuccess_frame h₂
  rw [State.robAt_congr hrob hcfg]
  exact insertRob_robAt hlt₂ h₃ (absorb_onStoreSuccess_robAt hlt₁ h₂ hms hat₁)

/-! ## A WriteBack for a dead index -/

/-- The same indices are live in `t` as in `s`, at the same tick. -/
structure SameIndices (s t : State) : Prop where
  cfg : t.cfg = s.cfg
  head : t.rob.head = s.rob.head
  count : t.rob.entries.length = s.rob.entries.length
  cycle : t.cycle = s.cycle

theorem SameIndices.onWriteBack {s t t' : State} {m : Msg} (h : SameIndices s t) (ht : onWriteBack t m = .ok t') :
    SameIndices s t' := by
  rcases onWriteBack_eq_ok ht with ⟨-, rfl⟩ | ⟨-, e, -, rfl⟩
  · exact h
  · exact ⟨h.cfg, h.head, by simpa using h.count, h.cycle⟩

/-- Where a bus is absorbed, each of its messages was, in some state that the earlier ones led to. -/
theorem absorbAll_eq_ok_mem {g : State → Msg → Except Abort State} {P : State → Prop}
    (hg : ∀ s m s', P s → g s m = .ok s' → P s') {s s' : State} {ms : List Msg} (hs : P s)
    (h : absorbAll g s ms = .ok s') {m : Msg} (hm : m ∈ ms) : ∃ t t', P t ∧ g t m = .ok t' := by
  induction ms generalizing s with
  | nil => cases hm
  | cons n ms ih =>
    rw [absorbAll] at h
    split at h
    · rename_i s₁ hn
      rcases List.mem_cons.mp hm with rfl | hm
      · exact ⟨s, s₁, hs, hn⟩
      · exact ih (hg _ _ _ hs hn) h hm
    · cases h

/-- Some such message aborts the Flush, in its first step (R383; 60_exceptions.md R425). -/
theorem flush_of_dead_writeBack {s : State} {q : Nat} {v : Word} (hc : s.clear = false)
    (hm : (⟨.writeBack, q, v⟩ : Msg) ∈ s.bus) (hdead : s.robAt q = none) :
    ∃ q' v', (⟨.writeBack, q', v'⟩ : Msg) ∈ s.bus ∧ s.robAt q' = none ∧
      flush s = .error (.protocolViolation (.writeBackDead q' v') s.cycle) := by
  have hkeeps : ∀ t m t', SameIndices s t → onWriteBack t m = .ok t' → SameIndices s t' := fun _ _ _ h => h.onWriteBack
  have hself : SameIndices s s := ⟨rfl, rfl, rfl, rfl⟩
  rcases hw : absorbAll onWriteBack s s.bus with a | s₁
  · obtain ⟨t, ⟨k, q', v'⟩, hsame, hmem, he⟩ := absorbAll_error hkeeps hself hw
    obtain ⟨hk, hnone, rfl⟩ := onWriteBack_eq_error he
    obtain rfl : k = .writeBack := hk
    refine ⟨q', v', hmem, (State.robAt_eq_none_congr hsame.cfg hsame.head hsame.count q').mp hnone, ?_⟩
    rw [← hsame.cycle]
    simp [flush, flushUnits, hc, hw, bind, Except.bind]
  · obtain ⟨t, t', hsame, ht⟩ := absorbAll_eq_ok_mem hkeeps hself hw hm
    rcases onWriteBack_eq_ok ht with ⟨hk, -⟩ | ⟨-, e, he, -⟩
    · exact absurd rfl hk
    · exact nomatch he.symm.trans ((State.robAt_eq_none_congr hsame.cfg hsame.head hsame.count q).mpr hdead)

/-- Settles O35: the entry is written by the messages that name it, and the later steps of the Flush leave it where it
is; the first message for a dead index ends the Flush. -/
theorem writeBackReachesReorderBuffer : Obligations.WriteBackReachesReorderBuffer := by
  intro s hc hh _
  refine ⟨fun f q e hf he hms => ⟨fun v hmem hone => ?_, fun hnone => ?_⟩, fun q v hmem hdead =>
    flush_of_dead_writeBack hc hmem hdead⟩
  · rw [flush_robAt hc hh hf he hms, writtenBy_of_named hmem hone]
    rfl
  · rw [flush_robAt hc hh hf he hms, writtenBy_of_unnamed hnone]

/-! ## Program order (R380, R393) -/

/-- Absorbing the StoreSuccess messages drops as many entries in front. -/
theorem absorb_onStoreSuccess_instrs {s s' : State} {ms : List Msg} (h : absorbAll onStoreSuccess s ms = .ok s') :
    s'.rob.entries.map RobEntry.instr =
      (s.rob.entries.map RobEntry.instr).drop (ms.filter fun m => m.kind == .storeSuccess).length := by
  induction ms generalizing s with
  | nil =>
    cases h
    rfl
  | cons m ms ih =>
    rw [absorbAll] at h
    split at h
    · rename_i s₁ hm
      rcases onStoreSuccess_eq_ok hm with ⟨hk, rfl⟩ | ⟨hk, -, -, rfl⟩
      · rw [ih h, List.filter_cons_of_neg (by simpa using hk)]
      · rw [ih h, List.filter_cons_of_pos (by simpa using hk), List.length_cons, Rob.retire, ← List.drop_one,
          List.map_drop, List.drop_drop, Nat.add_comm]
    · cases h

theorem insertRob_instrs {s s' : State} (h : insertRob s = .ok s') :
    s'.rob.entries.map RobEntry.instr = s.rob.entries.map RobEntry.instr ++
      (match s.latch with | some l => [l.robEntry.instr] | none => []) := by
  rcases insertRob_eq_ok h with ⟨hl, rfl⟩ | ⟨l, hl, -, rfl⟩
  · simp [hl]
  · simp [hl]

theorem flush_instrs {s f : State} (hc : s.clear = false) (h : flush s = .ok f) :
    f.rob.entries.map RobEntry.instr =
      (s.rob.entries.map RobEntry.instr).drop (s.bus.filter fun m => m.kind == .storeSuccess).length ++
        (match s.latch with | some l => [l.robEntry.instr] | none => []) := by
  obtain ⟨s₁, s₂, s₃, h₁, h₂, h₃, hrob, -⟩ := flush_rob hc h
  obtain ⟨-, -, hlatch, -, hinstrs⟩ := absorb_onWriteBack_keeps h₁
  have hdrop := absorb_onStoreSuccess_instrs h₂
  obtain ⟨r, rfl⟩ := absorb_onStoreSuccess_frame h₂
  rw [hrob, insertRob_instrs h₃, hdrop, hinstrs, hlatch]

/-- Commit drops the head or no entry. -/
theorem commit_instrs {f : State} {c : Commit} (h : commit f = .ok c) :
    ∃ b ≤ 1, c.rob.entries.map RobEntry.instr = (f.rob.entries.map RobEntry.instr).drop b := by
  have hretire : (f.rob.retire f.cfg.robCap).entries.map RobEntry.instr =
      (f.rob.entries.map RobEntry.instr).drop 1 := by
    rw [Rob.retire, ← List.drop_one, List.map_drop]
  rcases commit_cases h with ⟨-, rfl⟩ | ⟨e, -, -, -, rfl⟩ | ⟨e, -, -, -, -, rfl⟩ | ⟨e, rest, he, -, rfl⟩
  · exact ⟨0, Nat.zero_le _, rfl⟩
  · exact ⟨0, Nat.zero_le _, rfl⟩
  · exact ⟨0, Nat.zero_le _, rfl⟩
  · rcases commitHead_cases f e with ⟨-, hc⟩ | ⟨-, -, hc⟩ | ⟨-, -, hc⟩ | ⟨-, -, hc⟩ | ⟨-, -, -, -, hc⟩ <;> rw [hc]
    · exact ⟨0, Nat.zero_le _, rfl⟩
    · exact ⟨1, le_refl _, hretire⟩
    · exact ⟨1, le_refl _, hretire⟩
    · exact ⟨0, Nat.zero_le _, by simp [commitStore, he]⟩
    · exact ⟨1, le_refl _, hretire⟩

/-- Settles O54: the Flush by its steps, the Execute by its commit. -/
theorem reorderBufferIsFifo : Obligations.ReorderBufferIsFifo := by
  intro s f t h hc
  refine ⟨flush_instrs hc h.flushed, ?_⟩
  obtain ⟨c, l, st, i, r, hx⟩ := h.executed
  rw [(h.commitPart hx.commit).rob]
  exact commit_instrs hx.commit

end Sys2Proof.Machine
end

section
/-! SUPPORT. Runs to the halted state with what they retire (48_reorder_commit.md R396; 70_reset_and_hazards.md R458,
R470), built tick by tick from their ends. -/

namespace Sys2Proof.Machine

/-! ## The observation of one tick (R396) -/

section
variable {s t f : State} {os : List Observation} {x : Vector Word 32} {m : Memory}

theorem observe_of_headCommits {e : RobEntry} {rest : List RobEntry} (hh : s.halt = false) (hf : flush s = .ok f)
    (ht : t.status = .running) (he : HeadCommits f e rest) : observe s t = some ⟨e.instr.pc, e.instr.word, t.x⟩ := by
  obtain ⟨hrob, hw⟩ := he
  simp [observe, headInWrite, hh, hf, ht, hrob, hw]

theorem observe_of_no_commit (h : ∀ f e rest, flush s = .ok f → f.rob.entries = e :: rest → e.state ≠ .write) :
    observe s t = none := by
  unfold observe
  split
  · rfl
  · split
    · rename_i f hf _
      have hnone : headInWrite f = none := by
        unfold headInWrite
        split
        · exact if_neg (h f _ _ hf ‹_›)
        · rfl
      rw [hnone]
      rfl
    · rfl

theorem onWriteBack_of_other (s : State) (m : Msg) (h : m.kind ≠ .writeBack) : onWriteBack s m = .ok s := by
  unfold onWriteBack
  split
  · exact absurd ‹_› h
  all_goals rfl

/-- A bus without a message of its kind leaves a unit alone. -/
theorem absorbAll_of_others {g : State → Msg → Except Abort State} {k : MsgKind}
    (hg : ∀ s m, m.kind ≠ k → g s m = .ok s) {ms : List Msg} (h : ∀ m ∈ ms, m.kind ≠ k) : absorbAll g s ms = .ok s := by
  rw [absorbAll_eq_filter hg, List.filter_eq_nil_iff.mpr fun m hm => by simpa using h m hm]
  rfl

/-- Without a message that changes the reorder buffer, a Flush only appends the latched entry (R381). -/
theorem flush_entries (hc : s.clear = false) (hf : flush s = .ok f)
    (hbus : ∀ m ∈ s.bus, m.kind ≠ .writeBack ∧ m.kind ≠ .storeSuccess) :
    f.rob.entries = s.rob.entries ++ s.latched.map Prod.snd := by
  obtain ⟨s₁, s₂, s₃, h₁, h₂, h₃, hrob, -⟩ := flush_rob hc hf
  rw [absorbAll_of_others onWriteBack_of_other fun m hm => (hbus m hm).1] at h₁
  obtain rfl := Except.ok.inj h₁
  rw [absorbAll_of_others onStoreSuccess_of_other fun m hm => (hbus m hm).2] at h₂
  obtain rfl := Except.ok.inj h₂
  rw [hrob]
  rcases insertRob_eq_ok h₃ with ⟨hl, rfl⟩ | ⟨l, hl, -, rfl⟩
  · simp [State.latched_of_none hl]
  · simp [State.latched_of_some hl]

/-! ## Runs that halt -/

/-- The run from `s` halts with the commit trace `os`, the registers `x`, their exit code and the memory `m`. -/
def EndsWith (s : State) (os : List Observation) (x : Vector Word 32) (m : Memory) : Prop :=
  ∃ n t, Reaches n s t ∧ commitTrace n s = os ∧ t.status = .halted t.exitCode ∧ t.x = x ∧ t.mem = m

theorem EndsWith.prepend (h : step s = .next t) (he : EndsWith t os x m) :
    EndsWith s ((observe s t).toList ++ os) x m := by
  obtain ⟨n, u, hreach, htrace, hrest⟩ := he
  refine ⟨n + 1, u, reaches_step h hreach, ?_, hrest⟩
  simp only [commitTrace, h, htrace]

/-- A tick before the run that retires nothing. -/
theorem EndsWith.silent (he : EndsWith t os x m) (h : step s = .next t)
    (hno : ∀ f e rest, flush s = .ok f → f.rob.entries = e :: rest → e.state ≠ .write) : EndsWith s os x m := by
  have hrun := he.prepend h
  rwa [observe_of_no_commit hno] at hrun

/-- A tick before the run that leaves the reorder buffer alone but for the latched entry, with no head to commit. -/
theorem EndsWith.quiet (he : EndsWith t os x m) (h : step s = .next t) (hc : s.clear = false)
    (hbus : ∀ m ∈ s.bus, m.kind ≠ .writeBack ∧ m.kind ≠ .storeSuccess)
    (hhead : ∀ e rest, s.rob.entries ++ s.latched.map Prod.snd = e :: rest → e.state ≠ .write) : EndsWith s os x m :=
  he.silent h fun _ e rest hf hcons => hhead e rest ((flush_entries hc hf hbus).symm.trans hcons)

/-- A tick before the run that commits its head. -/
theorem EndsWith.retires {e : RobEntry} {rest : List RobEntry} (he : EndsWith t os x m) (h : step s = .next t)
    (hh : s.halt = false) (hf : flush s = .ok f) (ht : t.status = .running) (hhead : HeadCommits f e rest) :
    EndsWith s (⟨e.instr.pc, e.instr.word, t.x⟩ :: os) x m := by
  have hrun := he.prepend h
  rwa [observe_of_headCommits hh hf ht hhead] at hrun

/-- With the halt flag up the run is over, and nothing more retires (40_clock_and_bus.md R134). -/
theorem endsWith_of_halt (hs : s.status = .running) (hh : s.halt = true) : EndsWith s [] s.x s.mem := by
  obtain ⟨hstep, -⟩ := everyTickTo_haltedState hs hh
  refine ⟨1, haltedState s, reaches_one hstep, ?_, rfl, rfl, rfl⟩
  have hnone : observe s (haltedState s) = none := by simp [observe, hh]
  simp only [commitTrace, hstep, hnone]
  rfl

end

end Sys2Proof.Machine
end

section
/-! SUPPORT. The end of a run: nothing is left to issue, and the halt sentinel alone is left to commit (43_addsub.md
R231, R243; 48_reorder_commit.md R383, R386). -/

namespace Sys2Proof.Machine

/-! ## A stalled machine -/

/-- A machine of the reference timing with its fetch stalled, nothing left to issue and its memory side idle. -/
structure Stalled (t : State) : Prop where
  ref : RefTiming t
  status : t.status = .running
  clear : t.clear = false
  halt : t.halt = false
  stall : t.stall = true
  iq : t.iq = []
  lq : t.lq = []
  sq : t.sq = []
  ldst : t.ldst = .idle
  stst : t.stst = .idle

/-- The next state of a stalled machine whose flushed state is `f`: commit contributes `c`, the stations go on. -/
def wound (f : State) (c : Commit) : State :=
  merge f c ⟨.idle, [], []⟩ ⟨.idle, [], f.mem, []⟩ ⟨[], none, none⟩ none (c.msgs ++ stationMsgs f)

theorem RefTiming.of_cfg {s t : State} (h : RefTiming s) (hc : t.cfg = s.cfg) : RefTiming t := by
  obtain ⟨k, hk⟩ := h
  exact ⟨k, hc.trans hk⟩

section
variable {t f : State} {c : Commit} {n : Nat} {e : RobEntry}

theorem Stalled.step (h : Stalled t) (hf : flush t = .ok f) (hlq : f.lq = []) (hsq : f.sq = [])
    (hc : commit f = .ok c) : step t = .next (wound f c) := by
  have hframe := flush_frame h.clear hf
  have hload : loadStage f = .ok ⟨.idle, [], []⟩ := by
    rw [loadStage_holds (hframe.ldst.trans h.ldst) (by simp [hlq]), hlq]
  have hstore : storeStage f = .ok ⟨.idle, [], f.mem, []⟩ := by
    rw [storeStage_holds (hframe.stst.trans h.stst) (by simp [hsq]), hsq]
  have hsent := emitted_of_silent_memory (f := f) (c := c) (l := ⟨.idle, [], []⟩) (st := ⟨.idle, [], f.mem, []⟩) rfl rfl
  have hlen := emitted_length_le hc hload hstore
  obtain ⟨⟨-, -, -, -, -, hbus, -⟩, -⟩ := (h.ref.of_cfg hframe.cfg).sizes
  exact step_of_units h.status h.halt hf (hframe.stall.trans h.stall) hc hload hstore
    (issue_of_nil (hframe.iq.trans h.iq)) hsent (hsent ▸ hlen.trans hbus)

/-- A commit that raises no flag and does not end the stall leaves the machine stalled. -/
theorem Stalled.wound (h : Stalled t) (hf : flush t = .ok f) (hset : c.setClear = false) (hhalt : c.setHalt = false)
    (hstall : c.clearStall = false) : Stalled (wound f c) := by
  have hframe := flush_frame h.clear hf
  have hcfg : (Machine.wound f c).cfg = t.cfg := hframe.cfg
  refine ⟨h.ref.of_cfg hcfg, hframe.status.trans h.status, ?_, ?_, ?_, rfl, rfl, rfl, rfl, rfl⟩
  · rw [Machine.wound, merge_clear, hset, hframe.clear, h.clear]
    rfl
  · rw [Machine.wound, merge_halt, hhalt, hframe.halt, h.halt]
    rfl
  · rw [Machine.wound, merge_stall, nextStall, hstall, hframe.stall, h.stall]
    rfl

/-! ## Its Flush -/

theorem onGetAddr_of_other (s : State) (m : Msg) (h : m.kind ≠ .getAddr) : onGetAddr s m = .ok s := by
  unfold onGetAddr
  split
  · exact absurd ‹_› h
  all_goals rfl

theorem onCommitMem_of_other (s : State) (m : Msg) (h : m.kind ≠ .commitMem) : onCommitMem s m = .ok s := by
  unfold onCommitMem
  split
  · exact absurd ‹_› h
  all_goals rfl

/-- The flushed state where the bus made `r` of the reorder buffer, and nothing was latched. -/
def absorbed (t : State) (r : Rob) : State := setFull (clearLatchAndBus (wakeAll { t with rob := r }))

theorem flush_eq_absorbed {t₁ : State} {r : Rob} (hc : t.clear = false) (hl : t.latch = none)
    (hk : ∀ m ∈ t.bus, m.kind ≠ .getAddr ∧ m.kind ≠ .commitMem) (h₁ : absorbAll onWriteBack t t.bus = .ok t₁)
    (h₂ : absorbAll onStoreSuccess t₁ t.bus = .ok { t with rob := r }) : flush t = .ok (absorbed t r) := by
  obtain ⟨hrob, hlsb, hrs⟩ := inserts_of_none (s := { t with rob := r }) hl
  exact flush_of_steps hc rfl h₁ h₂ hrob hlsb (absorbAll_of_others onGetAddr_of_other fun m hm => (hk m hm).1)
    (absorbAll_of_others onCommitMem_of_other fun m hm => (hk m hm).2) hrs

/-- The messages of a bus are all CommitReg. -/
def OnlyCommitReg (ms : List Msg) : Prop := ∀ m ∈ ms, m.kind = .commitReg

theorem onlyCommitReg_nil : OnlyCommitReg [] := fun _ hm => absurd hm List.not_mem_nil

theorem onlyCommitReg_singleton (n : Nat) (v : Word) : OnlyCommitReg [⟨.commitReg, n, v⟩] := fun m hm => by
  rw [List.mem_singleton.mp hm]

/-- CommitReg messages change the stations alone (R394). -/
theorem flush_of_onlyCommitReg (hc : t.clear = false) (hl : t.latch = none) (hb : OnlyCommitReg t.bus) :
    flush t = .ok (absorbed t t.rob) := by
  have hkind : ∀ {k}, k ≠ .commitReg → ∀ m ∈ t.bus, m.kind ≠ k := fun hk m hm he => hk (he.symm.trans (hb m hm))
  exact flush_eq_absorbed hc hl (fun m hm => ⟨hkind (by decide) m hm, hkind (by decide) m hm⟩)
    (absorbAll_of_others onWriteBack_of_other (hkind (by decide)))
    (absorbAll_of_others onStoreSuccess_of_other (hkind (by decide)))

/-- A result for the head, behind CommitReg messages (R383). -/
theorem flush_of_headResult {ms : List Msg} {v : Word} {rest : List RobEntry} (hc : t.clear = false)
    (hl : t.latch = none) (hn : n < t.cfg.robCap) (hr : t.rob = ⟨n, e :: rest⟩) (hms : OnlyCommitReg ms)
    (hb : t.bus = ms ++ [⟨.writeBack, n, v⟩]) : flush t = .ok (absorbed t ⟨n, e.written v :: rest⟩) := by
  obtain ⟨hat, hmod⟩ := State.robModify_head hr hn (·.written v)
  have hkinds : ∀ m ∈ t.bus, m.kind = .commitReg ∨ m.kind = .writeBack := fun m hm => by
    rw [hb, List.mem_append, List.mem_singleton] at hm
    rcases hm with hm | rfl
    · exact .inl (hms m hm)
    · exact .inr rfl
  have hkind : ∀ {k}, k ≠ .commitReg → k ≠ .writeBack → ∀ m ∈ t.bus, m.kind ≠ k := fun hk hk' m hm he =>
    (hkinds m hm).elim (fun h => hk (he.symm.trans h)) fun h => hk' (he.symm.trans h)
  have hfilter : t.bus.filter (fun m => m.kind == .writeBack) = [⟨.writeBack, n, v⟩] := by
    rw [hb, List.filter_append, List.filter_eq_nil_iff.mpr fun m hm => by simp [hms m hm]]
    rfl
  have hwrite : absorbAll onWriteBack t t.bus = .ok { t with rob := ⟨n, e.written v :: rest⟩ } := by
    rw [absorbAll_eq_filter onWriteBack_of_other, hfilter]
    simp only [absorbAll, (onWriteBack_of_live (v := v) hat).trans (congrArg Except.ok hmod)]
  exact flush_eq_absorbed hc hl
    (fun m hm => ⟨hkind (by decide) (by decide) m hm, hkind (by decide) (by decide) m hm⟩) hwrite
    (absorbAll_of_others onStoreSuccess_of_other (hkind (by decide) (by decide)))

/-! ## The sentinel in the add bank and in the add stage -/

theorem holding_sentinel_ls (c : Config) (n : Nat) :
    (Banks.holding c (sentinelEntry (.add .add) n)).ls = (Banks.empty c).ls :=
  Banks.holding_ls c (by show Bank.add ≠ .ls; decide)

/-- The sentinel with index `n` is alone in the banks, and the stages are idle. -/
def SentinelWaits (n : Nat) (t : State) : Prop :=
  t.rs = Banks.holding t.cfg (sentinelEntry (.add .add) n) ∧ t.fu = Stages.allIdle

/-- The sentinel with index `n` is alone in the stages, and the banks are empty. -/
def SentinelWorks (n : Nat) (t : State) : Prop :=
  t.rs = Banks.empty t.cfg ∧ t.fu = Stages.working 1 (.add .add) 0 255 n

theorem SentinelWaits.absorbed {r : Rob} (h : SentinelWaits n t) : SentinelWaits n (absorbed t r) := by
  obtain ⟨hrs, hfu⟩ := h
  refine ⟨?_, hfu⟩
  have hready := wakeBank_of_isReady (e := sentinelEntry AddOp.add n) (sentinelEntry_isReady _ _)
  have hentry : (sentinelEntry (.add .add) n : RSEntry Op).withOp AddOp.add = sentinelEntry AddOp.add n := rfl
  have hop : (sentinelEntry (.add .add) n : RSEntry Op).op = .add .add := rfl
  simp [Machine.absorbed, hrs, Banks.holding, Banks.empty, wakeBank_replicate, hentry, hop, hready]

theorem SentinelWorks.absorbed {r : Rob} (h : SentinelWorks n t) : SentinelWorks n (absorbed t r) := by
  obtain ⟨hrs, hfu⟩ := h
  refine ⟨?_, hfu⟩
  simp [Machine.absorbed, hrs, Banks.empty, wakeBank_replicate]

/-- The bank dispatches the sentinel (R207). -/
theorem SentinelWaits.wound (h : SentinelWaits n f) (hr : RefTiming f) (c : Commit) :
    SentinelWorks n (wound f c) ∧ (wound f c).bus = c.msgs := by
  obtain ⟨hrs, hfu⟩ := h
  obtain ⟨hc, -⟩ := hr.sizes
  obtain ⟨-, hlat⟩ := hr.stations
  have hstations := stations_dispatch (r := haltRecord f) hc hlat (by decide) hrs hfu c ⟨.idle, [], []⟩
    ⟨.idle, [], f.mem, []⟩ ⟨[], none, none⟩ none (c.msgs ++ stationMsgs f)
  have hsilent := stationMsgs_of_idle hfu ((congrArg Banks.ls hrs).trans (holding_sentinel_ls _ n))
  exact ⟨hstations, (congrArg (c.msgs ++ ·) hsilent).trans (List.append_nil _)⟩

/-- The stage delivers its result (R231). -/
theorem SentinelWorks.wound_bus (h : SentinelWorks n f) (c : Commit) :
    (wound f c).bus = c.msgs ++ [⟨.writeBack, n, 255⟩] := by
  obtain ⟨hrs, hfu⟩ := h
  exact congrArg (c.msgs ++ ·) (stationMsgs_of_working (by decide) hfu (congrArg Banks.ls hrs))

/-! ## The end of the run -/

/-- The sentinel, complete at the head, commits, and the run is over (R386). -/
theorem Stalled.ends_of_complete (h : Stalled t) {rest : List RobEntry} (hf : flush t = .ok f) (hlq : f.lq = [])
    (hsq : f.sq = []) (he : HeadCommits f e rest) (hhalt : e.instr.isHalt = true) :
    EndsWith t [⟨e.instr.pc, e.instr.word, t.x⟩] t.x t.mem := by
  have hframe := flush_frame h.clear hf
  have hstep := h.step hf hlq hsq (he.commit_halt hhalt)
  have hrun : (Machine.wound f (commitHalt f)).status = .running := hframe.status.trans h.status
  have hup : (Machine.wound f (commitHalt f)).halt = true := Bool.or_true _
  have hx : (Machine.wound f (commitHalt f)).x = t.x := hframe.x
  have hmem : (Machine.wound f (commitHalt f)).mem = t.mem := hframe.mem
  have hend := (endsWith_of_halt hrun hup).retires hstep h.halt hf hrun he
  rwa [hx, hmem] at hend

/-- The sentinel with index `n` is alone in the reorder buffer of a stalled machine. -/
structure SentinelLast (n : Nat) (e : RobEntry) (t : State) : Prop where
  stalled : Stalled t
  latch : t.latch = none
  index : n < t.cfg.robCap
  rob : t.rob = ⟨n, [e]⟩
  state : e.state = .issue
  isHalt : e.instr.isHalt = true

/-- A tick in which the sentinel does not commit. -/
theorem SentinelLast.wound (h : SentinelLast n e t) (hb : OnlyCommitReg t.bus) :
    step t = .next (wound (absorbed t t.rob) (Commit.nothing (absorbed t t.rob))) ∧
      SentinelLast n e (wound (absorbed t t.rob) (Commit.nothing (absorbed t t.rob))) := by
  obtain ⟨hst, hl, hn, hr, hi, hh⟩ := h
  have hf := flush_of_onlyCommitReg hst.clear hl hb
  exact ⟨hst.step hf hst.lq hst.sq (commit_of_issue (congrArg Rob.entries hr) hi),
    hst.wound hf rfl rfl rfl, rfl, hn, hr, hi, hh⟩

theorem SentinelLast.ends_of_result {ms : List Msg} {v : Word} (h : SentinelLast n e t) (hms : OnlyCommitReg ms)
    (hb : t.bus = ms ++ [⟨.writeBack, n, v⟩]) : EndsWith t [⟨e.instr.pc, e.instr.word, t.x⟩] t.x t.mem :=
  h.stalled.ends_of_complete (e := e.written v)
    (flush_of_headResult h.stalled.clear h.latch h.index h.rob hms hb) h.stalled.lq h.stalled.sq ⟨rfl, rfl⟩ h.isHalt

/-- A tick of the sentinel's run before its result. -/
theorem SentinelLast.ends_of_wound {u : State} (h : SentinelLast n e t) (hb : OnlyCommitReg t.bus)
    (hstep : step t = .next u) (he : EndsWith u [⟨e.instr.pc, e.instr.word, t.x⟩] t.x t.mem) :
    EndsWith t [⟨e.instr.pc, e.instr.word, t.x⟩] t.x t.mem := by
  refine he.quiet hstep h.stalled.clear (fun m hm => ?_) fun e' rest hcons => ?_
  · rw [hb m hm]
    decide
  · rw [h.rob, State.latched_of_none h.latch] at hcons
    obtain ⟨rfl, -⟩ := List.cons.inj hcons
    rw [h.state]
    decide

theorem SentinelLast.ends_of_works (h : SentinelLast n e t) (hb : OnlyCommitReg t.bus) (hw : SentinelWorks n t) :
    EndsWith t [⟨e.instr.pc, e.instr.word, t.x⟩] t.x t.mem := by
  obtain ⟨hstep, hnext⟩ := h.wound hb
  exact h.ends_of_wound hb hstep (hnext.ends_of_result onlyCommitReg_nil (hw.absorbed.wound_bus _))

theorem SentinelLast.ends_of_waits (h : SentinelLast n e t) (hb : OnlyCommitReg t.bus) (hw : SentinelWaits n t) :
    EndsWith t [⟨e.instr.pc, e.instr.word, t.x⟩] t.x t.mem := by
  obtain ⟨hstep, hnext⟩ := h.wound hb
  obtain ⟨hworks, hbus⟩ := (hw.absorbed (r := t.rob)).wound h.stalled.ref (Commit.nothing _)
  exact h.ends_of_wound hb hstep (hnext.ends_of_works (hbus ▸ onlyCommitReg_nil) hworks)

/-- The sentinel is left to commit: it waits, works, or has its result on the bus; commit may have announced what
retired. -/
inductive SentinelPending (n : Nat) (t : State) : Prop
  | waits (hb : OnlyCommitReg t.bus) (h : SentinelWaits n t)
  | works (hb : OnlyCommitReg t.bus) (h : SentinelWorks n t)
  | done (ms : List Msg) (hms : OnlyCommitReg ms) (hb : t.bus = ms ++ [⟨.writeBack, n, 255⟩])

theorem SentinelLast.ends (h : SentinelLast n e t) (hp : SentinelPending n t) :
    EndsWith t [⟨e.instr.pc, e.instr.word, t.x⟩] t.x t.mem := by
  cases hp with
  | waits hb hw => exact h.ends_of_waits hb hw
  | works hb hw => exact h.ends_of_works hb hw
  | done ms hms hb => exact h.ends_of_result hms hb

end

end Sys2Proof.Machine
end

section
/-! SUPPORT. The halt sentinel fetched into a machine with nothing in flight, as a squash or a JALR's commit leaves it,
runs to the halted state (41_issue_unit.md R161, R165, R172 to R177; 48_reorder_commit.md R388, R395). -/

namespace Sys2Proof.Machine

section
variable {t f : State} {n : Nat}

/-- A flushed state of the reference timing with nothing in flight, whose fetch goes on. -/
structure Emptied (n : Nat) (f : State) : Prop where
  ref : RefTiming f
  back : BackEmpty n f
  index : n < f.cfg.robCap
  status : f.status = .running
  clear : f.clear = false
  halt : f.halt = false
  stall : f.stall = false
  iq : f.iq = []

/-- The sentinel is alone in the instruction queue of a stalled machine with nothing else in flight. -/
structure SentinelFetched (n : Nat) (r : IRec) (t : State) : Prop where
  ref : RefTiming t
  back : BackEmpty n t
  index : n < t.cfg.robCap
  status : t.status = .running
  clear : t.clear = false
  halt : t.halt = false
  stall : t.stall = true
  iq : t.iq = [r]
  latch : t.latch = none

theorem Emptied.fetches (h : Emptied n f) (hs : t.status = .running) (hh : t.halt = false) (hf : flush t = .ok f)
    (hw : t.fetchWord = some haltWord) :
    ∃ u, step t = .next u ∧ SentinelFetched n (haltRecord f) u ∧ u.x = f.x ∧ u.mem = f.mem := by
  obtain ⟨⟨hiq, -⟩, -⟩ := h.ref.sizes
  have hgate : fetchGate f = true := fetchGate_iff.mpr ⟨h.stall, by rw [h.iq]; exact hiq⟩
  have hexec := h.back.execute (issue_of_nil h.iq) (fetch_of_open (port := fun f => .ok (haltRecord f)) hgate rfl)
  have hstep := (step_of_fetchWord hw (by decide : decode haltWord = .ok .halt)).trans
    ((tickOutcome_of_running hs).trans (congrArg _ (tick_completes hh hf hexec)))
  exact ⟨_, hstep, ⟨h.ref.of_cfg rfl, h.back.merged _ _, h.index, h.status, (Bool.or_false _).trans h.clear,
    (Bool.or_false _).trans h.halt, rfl, rfl, rfl⟩, rfl, rfl⟩

/-- The latch with the sentinel as the youngest instruction in flight. -/
def sentinelLatched (n : Nat) (r : IRec) : Latch := ⟨n, issuedEntry r, sentinelEntry (.add .add) n, none⟩

/-- The sentinel is in the latch of a stalled machine, with the entries `es` before it. -/
structure SentinelIssued (n : Nat) (r : IRec) (h : Nat) (es : List RobEntry) (t : State) : Prop where
  stalled : Stalled t
  latch : t.latch = some (sentinelLatched n r)
  rob : t.rob = ⟨h, es⟩
  room : es.length < t.cfg.robCap
  rs : t.rs = Banks.empty t.cfg
  bus : t.bus = []

/-- The sentinel joins the reorder buffer and the add bank (R203, R381). -/
theorem SentinelIssued.flush {r : IRec} {h : Nat} {es : List RobEntry} (hi : SentinelIssued n r h es t) :
    ∃ f, flush t = .ok f ∧ f.rob = ⟨h, es ++ [issuedEntry r]⟩ ∧
      f.rs = Banks.holding f.cfg (sentinelEntry (.add .add) n) ∧ f.lq = [] ∧ f.sq = [] := by
  obtain ⟨hst, hl, hrob, hroom, hrs, hb⟩ := hi
  obtain ⟨hc, -⟩ := hst.ref.sizes
  obtain ⟨f, hf, hfrob, hfrs, hlq, hsq⟩ :=
    flush_of_arrival hst.clear hl rfl (sentinelEntry_isReady _ _) hb hrob hroom hrs hc
  exact ⟨f, hf, hfrob, hfrs, hlq.trans hst.lq, hsq.trans hst.sq⟩

/-- No head in state Write: the latched sentinel has not even joined the reorder buffer. -/
theorem SentinelIssued.quiet {r : IRec} {h : Nat} {es : List RobEntry} {u : State} {os : List Observation}
    {x : Vector Word 32} {m : Memory} (hi : SentinelIssued n r h es t) (hes : ∀ e ∈ es, e.state = .issue)
    (hstep : step t = .next u) (he : EndsWith u os x m) : EndsWith t os x m := by
  refine he.quiet hstep hi.stalled.clear (hi.bus ▸ fun _ hm => absurd hm List.not_mem_nil) fun e rest hcons => ?_
  rw [hi.rob, State.latched_of_some hi.latch] at hcons
  have hmem : e ∈ es ++ [issuedEntry r] := hcons ▸ List.mem_cons_self
  rcases List.mem_append.mp hmem with he | he
  · rw [hes e he]
    decide
  · rw [List.mem_singleton.mp he]
    exact nofun

/-- The sentinel issues with both operands read. -/
theorem SentinelFetched.issues (h : SentinelFetched n (haltRecord f) t) :
    ∃ u, step t = .next u ∧ SentinelIssued n (haltRecord f) n [] u ∧ u.fu = Stages.allIdle ∧ u.x = t.x ∧
      u.mem = t.mem := by
  obtain ⟨hc, -, hcap, -⟩ := h.ref.sizes
  have hflush : flush t = .ok (setFull t) := flush_of_quiet h.clear h.latch h.back.bus
  have htail : (setFull t).robTail = n := by simp [State.robTail, h.back.rob, Nat.mod_eq_of_lt h.index]
  have hissue := issue_of_gate (f := setFull t) h.iq rfl (issueGate_of_room (h.back.fullFlags hc) (.add .add))
  have hlatch : latchOf (setFull t) (haltRecord f) (.add .add) = sentinelLatched n (haltRecord f) := by
    rw [latchOf, htail]
    rfl
  rw [hlatch] at hissue
  have hstep := step_of_tick h.status fun port => tick_completes h.halt hflush
    (h.back.setFull.execute hissue (fetch_of_stall (port := port) h.stall))
  have hmerged := h.back.setFull.merged
    ⟨[], some (sentinelLatched n (haltRecord f)), some (10, (setFull t).robTail)⟩ none
  refine ⟨_, hstep, ⟨⟨h.ref.of_cfg rfl, h.status, (Bool.or_false _).trans h.clear, (Bool.or_false _).trans h.halt, ?_,
    rfl, rfl, rfl, rfl, rfl⟩, rfl, h.back.rob, ?_, hmerged.rs, rfl⟩, hmerged.fu, rfl, rfl⟩
  · show (t.stall && true) = true
    rw [h.stall]
    rfl
  · show 0 < t.cfg.robCap
    omega

/-- The latched sentinel with nothing before it is dispatched at once and runs to the end. -/
theorem SentinelIssued.ends {r : IRec} (h : SentinelIssued n r n [] t) (hn : n < t.cfg.robCap)
    (hfu : t.fu = Stages.allIdle) (hr : r.isHalt = true) : EndsWith t [⟨r.pc, r.word, t.x⟩] t.x t.mem := by
  obtain ⟨f, hf, hrob, hrs, hlq, hsq⟩ := h.flush
  have hframe := flush_frame h.stalled.clear hf
  have hstep := h.stalled.step hf hlq hsq (commit_of_issue (congrArg Rob.entries hrob) rfl)
  have hindex : n < f.cfg.robCap := hframe.cfg ▸ hn
  have hlast : SentinelLast n (issuedEntry r) (wound f (Commit.nothing f)) :=
    ⟨h.stalled.wound hf rfl rfl rfl, rfl, hindex, hrob, rfl, hr⟩
  have hwaits : SentinelWaits n f := ⟨hrs, hframe.fu.trans hfu⟩
  obtain ⟨hworks, hbus⟩ := hwaits.wound (h.stalled.ref.of_cfg hframe.cfg) (Commit.nothing f)
  have hend := hlast.ends_of_works (hbus ▸ onlyCommitReg_nil) hworks
  have hx : (wound f (Commit.nothing f)).x = t.x := hframe.x
  have hmem : (wound f (Commit.nothing f)).mem = t.mem := hframe.mem
  rw [hx, hmem] at hend
  exact h.quiet (fun _ hm => absurd hm List.not_mem_nil) hstep hend

/-- The sentinel at the fetch address of a machine with nothing in flight. -/
theorem Emptied.ends (h : Emptied n f) (hs : t.status = .running) (hh : t.halt = false) (hf : flush t = .ok f)
    (hw : t.fetchWord = some haltWord) : EndsWith t [⟨f.pc, haltWord, f.x⟩] f.x f.mem := by
  obtain ⟨u₁, hstep₁, h₁, hx₁, hmem₁⟩ := h.fetches hs hh hf hw
  obtain ⟨u₂, hstep₂, h₂, hfu, hx₂, hmem₂⟩ := h₁.issues
  have hcap : n < u₂.cfg.robCap := by
    obtain ⟨k, hk⟩ := h₂.stalled.ref
    obtain ⟨k', hk'⟩ := h.ref
    have hn := h.index
    rw [hk'] at hn
    rw [hk]
    exact hn
  have hend := h₂.ends hcap hfu rfl
  rw [hx₂, hx₁, hmem₂, hmem₁] at hend
  refine EndsWith.silent (EndsWith.quiet hend hstep₂ h₁.clear ?_ ?_) hstep₁ ?_
  · rw [h₁.back.bus]
    exact fun _ hm => absurd hm List.not_mem_nil
  · rw [h₁.back.rob, State.latched_of_none h₁.latch]
    exact fun _ _ hcons => absurd hcons (List.cons_ne_nil _ _).symm
  · intro f' e rest hf' hcons
    obtain rfl := Except.ok.inj (hf'.symm.trans hf)
    rw [h.back.rob] at hcons
    exact nomatch hcons

end

end Sys2Proof.Machine
end

section
/-! SUPPORT. Which sentinel stands behind the instruction: the one fetched in the tick after its entry, first in the
instruction queue, then in the latch (41_issue_unit.md R161, R172 to R177). -/

namespace Sys2Proof.Machine

/-- The record is the sentinel's, fetched at `p`. -/
structure IsSentinel (p : Word) (r : IRec) : Prop where
  pc : r.pc = p
  word : r.word = haltWord
  isHalt : r.isHalt = true

section
variable {s t u : State} {r i : IRec} {l : Latch} {rest : List IRec} {os : List Observation} {x : Vector Word 32}
  {m : Memory}

/-- What is latched in a step is the head of the instruction queue (R175). -/
theorem latched_of_step (hc : t.clear = false) (hstep : step t = .next u) (hu : u.status = .running)
    (hq : t.iq = i :: rest) (hl : u.latch = some l) : l.robEntry = issuedEntry i ∧ ∃ r, u.iq = rest ++ r := by
  obtain ⟨-, -, f, port, hf, -, hexec⟩ := TickTo.phases (.inl hstep) hu
  obtain ⟨c, lo, st, o, x, -, hx⟩ := execute_executed hexec
  have hfq : f.iq = i :: rest := (flush_frame hc hf).iq.trans hq
  rcases issue_effect hx.issue with ⟨-, hnone, -⟩ | ⟨i', rest', op, hq', -, -, rfl⟩
  · exact nomatch (hl.symm.trans hx.latch).trans hnone
  · obtain ⟨rfl, rfl⟩ := List.cons.inj (hfq.symm.trans hq')
    obtain rfl := Option.some.inj (hl.symm.trans hx.latch)
    refine ⟨rfl, ?_⟩
    rcases hx.iq_behind with hiq | ⟨r, hiq⟩
    · exact ⟨[], hiq.trans (List.append_nil _).symm⟩
    · exact ⟨[r], hiq⟩

/-- Where the sentinel stands at the fetch address, a record that a step adds to the queue is its (R161). -/
theorem fetched_of_step (hc : t.clear = false) (hw : t.fetchWord = some haltWord) (hstep : step t = .next u)
    (hu : u.status = .running) (hr : r ∈ u.iq) : r ∈ t.iq ∨ IsSentinel t.pc r := by
  have hport : tickOutcome (fun f => .ok (haltRecord f)) t = .next u :=
    (step_of_fetchWord hw (by decide : decode haltWord = .ok .halt)).symm.trans hstep
  obtain ⟨hrun, hh, f, -, hf, -⟩ := TickTo.phases (.inl hstep) hu
  have hticks : Ticks t f u := ⟨hrun, hh, hf, .inl hstep, hu⟩
  obtain ⟨c, lo, st, o, x, hfetch, hx⟩ := execute_executed (hticks.execute hport)
  have hframe := flush_frame hc hf
  have hold : r ∈ (if u.latch = none then f.iq else f.iq.tail) → r ∈ t.iq := by
    rw [hframe.iq]
    split
    · exact id
    · exact List.mem_of_mem_tail
  rw [hx.iq] at hr
  rcases List.mem_append.mp hr with hr | hr
  · exact .inl (hold hr)
  · obtain rfl := Option.mem_toList.mp hr
    refine .inr ?_
    unfold fetch at hfetch
    split at hfetch
    · obtain rfl := Option.some.inj (Except.ok.inj hfetch)
      exact ⟨hframe.pc, rfl, rfl⟩
    · cases hfetch

/-- As `fetched_of_step`, where the record is the sentinel's and the one queued before it is not. -/
theorem sentinel_of_step {r' : IRec} (hc : t.clear = false) (hw : t.fetchWord = some haltWord)
    (hstep : step t = .next u) (hu : u.status = .running) (hq : t.iq = [r]) (hr : r.isHalt = false) (hq' : u.iq = [r'])
    (hr' : r'.isHalt = true) : IsSentinel t.pc r' := by
  refine (fetched_of_step hc hw hstep hu (hq' ▸ List.mem_singleton_self r')).resolve_left fun hmem => ?_
  obtain rfl : r' = r := List.mem_singleton.mp (hq ▸ hmem)
  exact nomatch hr.symm.trans hr'

theorem Undisturbed.fetchWord {n : Nat} {p : Word} (h : Undisturbed s n t) (hpc : t.pc = p) (hs : SentinelAt s p) :
    t.fetchWord = some haltWord := by
  rw [State.fetchWord, h.mem, h.cfg, hpc]
  exact hs

/-- The first tick of a drained machine commits nothing. -/
theorem Drained.silent (hd : Drained s) (hstep : step s = .next t) (he : EndsWith t os x m) : EndsWith s os x m := by
  refine he.quiet hstep hd.clear ?_ ?_
  · rw [hd.bus]
    exact fun _ hm => absurd hm List.not_mem_nil
  · rw [hd.rob, State.latched_of_none hd.latch]
    exact fun _ _ hcons => absurd hcons (List.cons_ne_nil _ _).symm

/-- A tick of a machine with nothing behind its latch commits nothing, even where the latched entry joins. -/
theorem BackEmpty.silent {n : Nat} (hb : BackEmpty n t) (hc : t.clear = false)
    (hl : ∀ l, t.latch = some l → l.robEntry.state = .issue) (hstep : step t = .next u) (he : EndsWith u os x m) :
    EndsWith t os x m := by
  refine he.quiet hstep hc ?_ fun e rest hcons => ?_
  · rw [hb.bus]
    exact fun _ hm => absurd hm List.not_mem_nil
  · rw [hb.rob] at hcons
    cases hlatch : t.latch with
    | none =>
      rw [State.latched_of_none hlatch] at hcons
      exact absurd hcons (List.cons_ne_nil _ _).symm
    | some l =>
      rw [State.latched_of_some hlatch] at hcons
      obtain ⟨rfl, -⟩ := List.cons.inj hcons
      show l.robEntry.state ≠ .write
      rw [hl l hlatch]
      decide

end

end Sys2Proof.Machine
end

section
/-! SUPPORT. An arithmetic instruction, a JAL or a conditional branch from a drained machine with the sentinel behind
it, to the halted state (43_addsub.md R232 to R240; 44_compare_branch.md R266 to R272; 48_reorder_commit.md R387, R389,
R396). -/

namespace Sys2Proof.Machine

/-! ## The sentinel issues -/

section
variable {s t u f : State} {r r' : IRec} {op : Op} {a b next v : Word} {c : Commit} {os : List Observation}
  {x : Vector Word 32} {m : Memory} {n : Nat}

theorem ArithRecord.isHalt (h : ArithRecord s r op a b next) : r.isHalt = false := by
  obtain ⟨-, hhalt⟩ := Bool.or_eq_false_iff.mp h.stall
  exact hhalt

theorem ArithIssued.backEmpty (h : ArithIssued s r op a b next t) : BackEmpty s.rob.head t :=
  ⟨h.rs, h.fu, h.run.lq, h.run.sq, h.run.ldst, h.run.stst, h.rob, h.bus⟩

theorem nextIndex_lt (hc : s.cfg.wf) : nextIndex s < s.cfg.robCap := by
  obtain ⟨-, hcap, -⟩ := hc
  exact Nat.mod_lt _ hcap

/-- Three ticks after its fetch an arithmetic instruction is in its stage, with the sentinel at `next` in the latch;
nothing has retired. -/
theorem Drained.sentinelIssued {record : State → IRec} (hd : Drained s) (ht : RefTiming s) (hsent : SentinelAt s next)
    (hi : step s = enter record s) (hr : ArithRecord s (record (setFull s)) op a b next) :
    ∃ t r', IsSentinel next r' ∧ Undisturbed s 3 t ∧
      SentinelIssued (nextIndex s) r' s.rob.head [issuedEntry (record (setFull s))] t ∧
      t.fu = Stages.working 1 op a b s.rob.head ∧ ∀ os x m, EndsWith t os x m → EndsWith s os x m := by
  obtain ⟨hc, hiq, hrob, -⟩ := ht.sizes
  obtain ⟨hslots, hlat⟩ := ht.stations
  have hstep0 := hi.trans (hd.enter_eq hc record)
  have h1 := hd.arithFetched hr
  generalize frontMerged _ _ _ = t1 at hstep0 h1
  obtain ⟨t2, hstep1, h2⟩ := h1.step hd hr hc hiq hsent
  obtain ⟨t3, hstep2, h3⟩ := h2.step hr.bank hc hrob hslots hlat
  obtain ⟨f₀, hq2⟩ := h2.iq
  obtain ⟨e, hl3⟩ := h3.latch
  obtain ⟨he, -⟩ := latched_of_step h2.run.undisturbed.clear hstep2 h3.run.undisturbed.status hq2 hl3
  obtain rfl : e = issuedEntry (haltRecord f₀) := he
  have hsentinel := sentinel_of_step h1.undisturbed.clear (h1.undisturbed.fetchWord h1.pc hsent) hstep1
    h2.run.undisturbed.status h1.iq hr.isHalt hq2 rfl
  rw [h1.pc] at hsentinel
  have hu := h3.run.undisturbed
  refine ⟨t3, haltRecord f₀, hsentinel, hu, ⟨⟨ht.of_cfg hu.cfg, hu.status, hu.clear, hu.halt, h3.run.stall, h3.iq,
    h3.run.lq, h3.run.sq, h3.run.ldst, h3.run.stst⟩, hl3, h3.rob, hu.cfg ▸ hrob, h3.rs, h3.bus⟩, h3.fu,
    fun os x m hend => ?_⟩
  refine hd.silent hstep0 (h1.back.silent h1.undisturbed.clear ?_ hstep1
    (h2.backEmpty.silent h2.run.undisturbed.clear ?_ hstep2 hend))
  · exact fun l hl => nomatch hl.symm.trans h1.latch
  · intro l hl
    obtain rfl := Option.some.inj (hl.symm.trans h2.latch)
    rfl

/-! ## The result, and the sentinel beside it -/

/-- A stage that delivers leaves the sentinel in the add bank, or the free add stage takes it. -/
theorem stations_deliver (hr : RefTiming f) (hop : op.bank ≠ .ls) (m : Nat)
    (hrs : f.rs = Banks.holding f.cfg (sentinelEntry (.add .add) n)) (hfu : f.fu = Stages.working 1 op a b m)
    (c : Commit) : SentinelWaits n (wound f c) ∨ SentinelWorks n (wound f c) := by
  obtain ⟨⟨-, -, ⟨hadd, -⟩, -⟩, -⟩ := hr.sizes
  obtain ⟨-, hlat⟩ := hr.stations
  have rsAdd := congrArg Banks.add hrs
  have rsCmp := congrArg Banks.cmp hrs
  have rsLog := congrArg Banks.log hrs
  have rsShf := congrArg Banks.shf hrs
  have emptyLs := dispatchLs_of_empty (f := f) ((congrArg Banks.ls hrs).trans (holding_sentinel_ls _ _))
  have fuAdd := congrArg Stages.add hfu
  have fuCmp := congrArg Stages.cmp hfu
  have fuLog := congrArg Stages.log hfu
  have fuShf := congrArg Stages.shf hfu
  have htakes : f.fu.add = .idle → stepAdd f = ⟨.busy 1 .add 0 255 n, (Banks.empty f.cfg).add, []⟩ := fun hidle => by
    rw [stepAdd, hidle, hrs, hlat.add]
    exact unitStep_takes addResult (haltRecord f) AddOp.add n 0 255 hadd
  cases op with
  | add o =>
    have hdelivers : stepAdd f = ⟨.idle, (Banks.holding f.cfg (sentinelEntry (.add .add) n)).add,
        [⟨.writeBack, m, addResult o a b⟩]⟩ := by
      rw [stepAdd, hrs, hfu]
      rfl
    exact .inl (stations_of_units hdelivers (stepCmp_of_empty fuCmp rsCmp) (stepLog_of_empty fuLog rsLog)
      (stepShf_of_empty fuShf rsShf) emptyLs ..)
  | cmp o =>
    have hdelivers : stepCmp f = ⟨.idle, (Banks.empty f.cfg).cmp, [⟨.writeBack, m, cmpResult o a b⟩]⟩ := by
      rw [stepCmp, hrs, hfu]
      rfl
    exact .inr (stations_of_units (htakes fuAdd) hdelivers (stepLog_of_empty fuLog rsLog)
      (stepShf_of_empty fuShf rsShf) emptyLs ..)
  | log o =>
    have hdelivers : stepLog f = ⟨.idle, (Banks.empty f.cfg).log, [⟨.writeBack, m, logResult o a b⟩]⟩ := by
      rw [stepLog, hrs, hfu]
      rfl
    exact .inr (stations_of_units (htakes fuAdd) (stepCmp_of_empty fuCmp rsCmp) hdelivers
      (stepShf_of_empty fuShf rsShf) emptyLs ..)
  | shf o =>
    have hdelivers : stepShf f = ⟨.idle, (Banks.empty f.cfg).shf, [⟨.writeBack, m, shfResult o a b⟩]⟩ := by
      rw [stepShf, hrs, hfu]
      rfl
    exact .inr (stations_of_units (htakes fuAdd) (stepCmp_of_empty fuCmp rsCmp) (stepLog_of_empty fuLog rsLog)
      hdelivers emptyLs ..)
  | ls o => exact absurd rfl hop

/-- The result of the instruction with record `r` is on the bus, and the sentinel with record `r'` has joined
behind it. -/
structure ResultReady (s : State) (r r' : IRec) (v : Word) (t : State) : Prop where
  stalled : Stalled t
  undisturbed : Undisturbed s 4 t
  latch : t.latch = none
  rob : t.rob = ⟨s.rob.head, [issuedEntry r, issuedEntry r']⟩
  bus : t.bus = [⟨.writeBack, s.rob.head, v⟩]
  stations : SentinelWaits (nextIndex s) t ∨ SentinelWorks (nextIndex s) t

theorem SentinelIssued.resultReady (h : SentinelIssued (nextIndex s) r' s.rob.head [issuedEntry r] t)
    (hu : Undisturbed s 3 t) (hop : op.bank ≠ .ls) (hfu : t.fu = Stages.working 1 op a b s.rob.head) :
    ∃ u, step t = .next u ∧ ResultReady s r r' (op.result a b) u := by
  obtain ⟨f, hf, hrob, hrs, hlq, hsq⟩ := h.flush
  have hframe := flush_frame h.stalled.clear hf
  have hffu := hframe.fu.trans hfu
  have hstep := h.stalled.step hf hlq hsq (commit_of_issue (congrArg Rob.entries hrob) rfl)
  have hmsgs := stationMsgs_of_working hop hffu ((congrArg Banks.ls hrs).trans (holding_sentinel_ls _ _))
  exact ⟨_, hstep, h.stalled.wound hf rfl rfl rfl, (hu.flush hf).merge (Commit.quiet_nothing f) rfl, rfl, hrob, hmsgs,
    stations_deliver (h.stalled.ref.of_cfg hframe.cfg) hop _ hrs hffu _⟩

/-! ## Its commit -/

/-- The flushed state in which the result has reached the head. -/
def ResultReady.flushed (s : State) (r r' : IRec) (v : Word) (t : State) : State :=
  absorbed t ⟨s.rob.head, [completedEntry r v, issuedEntry r']⟩

theorem ResultReady.flush (h : ResultReady s r r' v t) (hhead : s.rob.head < s.cfg.robCap) :
    flush t = .ok (ResultReady.flushed s r r' v t) :=
  flush_of_headResult (e := issuedEntry r) h.stalled.clear h.latch (h.undisturbed.cfg ▸ hhead) h.rob onlyCommitReg_nil
    h.bus

/-- A commit that retires the head and sends CommitReg messages at most leaves the sentinel pending. -/
theorem ResultReady.pending (h : ResultReady s r r' v t) (hms : OnlyCommitReg c.msgs) :
    SentinelPending (nextIndex s) (wound (ResultReady.flushed s r r' v t) c) := by
  rcases h.stations with hw | hw
  · obtain ⟨hworks, hbus⟩ := (hw.absorbed (r := ⟨s.rob.head, [completedEntry r v, issuedEntry r']⟩)).wound
      (h.stalled.ref.of_cfg rfl) c
    exact .works (hbus ▸ hms) hworks
  · exact .done c.msgs hms
      ((hw.absorbed (r := ⟨s.rob.head, [completedEntry r v, issuedEntry r']⟩)).wound_bus c)

/-- The instruction commits without a squash, and then the sentinel does. -/
theorem ResultReady.ends (h : ResultReady s r r' v t) (hhead : s.rob.head < s.cfg.robCap) (hr' : IsSentinel next r')
    (hc : commit (ResultReady.flushed s r r' v t) = .ok c) (hms : OnlyCommitReg c.msgs)
    (hrob : c.rob = (ResultReady.flushed s r r' v t).rob.retire t.cfg.robCap) (hset : c.setClear = false)
    (hhalt : c.setHalt = false) (hstall : c.clearStall = false)
    (hx : nextValues (ResultReady.flushed s r r' v t) c = x) :
    EndsWith t [⟨r.pc, r.word, x⟩, ⟨next, haltWord, x⟩] x s.mem := by
  have hf := h.flush hhead
  have hlast : SentinelLast (nextIndex s) (issuedEntry r') (wound (ResultReady.flushed s r r' v t) c) := by
    refine ⟨h.stalled.wound hf hset hhalt hstall, rfl, ?_, hrob.trans ?_, rfl, hr'.isHalt⟩
    · obtain ⟨hwf, -⟩ := h.stalled.ref.sizes
      rw [h.undisturbed.cfg] at hwf
      exact h.undisturbed.cfg ▸ nextIndex_lt hwf
    · rw [h.undisturbed.cfg]
      rfl
  have hend := hlast.ends (h.pending hms)
  have hrun : (wound (ResultReady.flushed s r r' v t) c).status = .running := hlast.stalled.status
  have hmem : (wound (ResultReady.flushed s r r' v t) c).mem = s.mem := h.undisturbed.mem
  have hx' : (wound (ResultReady.flushed s r r' v t) c).x = x := hx
  have hstep := h.stalled.step hf h.stalled.lq h.stalled.sq hc
  have hrun2 := hend.retires hstep h.stalled.halt hf hrun (e := completedEntry r v) ⟨rfl, rfl⟩
  rw [hx', hmem] at hrun2
  have hsentinel : (⟨(issuedEntry r').instr.pc, (issuedEntry r').instr.word, x⟩ : Observation) =
      ⟨next, haltWord, x⟩ := by
    rw [← hr'.pc, ← hr'.word]
    rfl
  rwa [hsentinel] at hrun2

end

end Sys2Proof.Machine
end

section
/-! SUPPORT. The first commit of such a run, and the two instructions after which fetch starts afresh: a wrongly guessed
branch and JALR (48_reorder_commit.md R387, R388, R389, R395, R396). -/

namespace Sys2Proof.Machine

section
variable {s t f : State} {r r' : IRec} {op : Op} {a b next v : Word} {c : Commit} {rd : RegIdx} {o : CmpOp}
  {record : State → IRec}

/-! ## Results -/

/-- The registers after a commit that writes to `rd*` (R391). -/
theorem nextValues_of_commitWrite {e : RobEntry} (hw : c.write = commitWrite f e v) (hrd : e.rd = destOf rd) :
    nextValues f c = writeValue f.x rd v := by
  rw [nextValues, hw, commitWrite, hrd, destOf]
  by_cases h : rd = 0
  · simp [h, writeValue]
  · rw [if_neg h]
    rfl

/-- An arithmetic instruction or a JAL, then the sentinel at `next`. -/
theorem Drained.arith_ends (hd : Drained s) (ht : RefTiming s) (hsent : SentinelAt s next)
    (hi : step s = enter record s) (hr : ArithRecord s (record (setFull s)) op a b next) (hres : op.isResult = true)
    (hrd : (record (setFull s)).rd = destOf rd) :
    EndsWith s [⟨(record (setFull s)).pc, (record (setFull s)).word, writeValue s.x rd (op.result a b)⟩,
      ⟨next, haltWord, writeValue s.x rd (op.result a b)⟩] (writeValue s.x rd (op.result a b)) s.mem := by
  have hhalt := hr.isHalt
  obtain ⟨t3, r', hr', hu, h3, hfu, hsilent⟩ := hd.sentinelIssued ht hsent hi hr
  obtain ⟨t4, hstep, h4⟩ := h3.resultReady hu hr.bank hfu
  have hcommit := commit_of_result (f := ResultReady.flushed s (record (setFull s)) r' (op.result a b) t4)
    (e := completedEntry (record (setFull s)) (op.result a b)) rfl rfl hr.classified hres hhalt
  have hx := nextValues_of_commitWrite (f := ResultReady.flushed s (record (setFull s)) r' (op.result a b) t4)
    (c := commitResult _ (completedEntry (record (setFull s)) (op.result a b))) rfl hrd
  have hfx : (ResultReady.flushed s (record (setFull s)) r' (op.result a b) t4).x = s.x := h4.undisturbed.x
  rw [hfx] at hx
  exact hsilent _ _ _ (h3.quiet (fun e he => by rw [List.mem_singleton.mp he]; rfl) hstep
    (h4.ends hd.head hr' hcommit (onlyCommitReg_singleton _ _) rfl rfl rfl rfl hx))

/-! ## Fetch starts afresh -/

/-- After a squash nothing is in flight (R395), and the sentinel at the corrected address ends the run. -/
theorem endsWith_of_squash (hr : RefTiming t) (hs : t.status = .running) (hh : t.halt = false) (hc : t.clear = true)
    (hw : t.fetchWord = some haltWord) : EndsWith t [⟨t.pc, haltWord, t.x⟩] t.x t.mem := by
  obtain ⟨⟨-, hcap, -⟩, -⟩ := hr.sizes
  have hempty : Emptied 0 (setFull (squash t)) :=
    ⟨hr.of_cfg rfl, (squash_backEmpty t).setFull, hcap, hs, rfl, hh, rfl, rfl⟩
  exact hempty.ends hs hh (by simp [flush, hc]) hw

/-- With nothing in flight but a CommitReg that nobody listens to, the sentinel at the fetch address ends the run. -/
theorem endsWith_of_backEmpty {n : Nat} (hr : RefTiming t) (hs : t.status = .running) (hh : t.halt = false)
    (hc : t.clear = false) (hstall : t.stall = false) (hiq : t.iq = []) (hl : t.latch = none)
    (hb : OnlyCommitReg t.bus) (hback : BackEmpty n { t with bus := [] }) (hn : n < t.cfg.robCap)
    (hw : t.fetchWord = some haltWord) : EndsWith t [⟨t.pc, haltWord, t.x⟩] t.x t.mem := by
  obtain ⟨hrs, hfu, hlq, hsq, hldst, hstst, hrob, -⟩ := hback
  have hwoken : (absorbed t t.rob).rs = Banks.empty t.cfg := by
    have hempty : t.rs = Banks.empty t.cfg := hrs
    simp [absorbed, hempty, Banks.empty, wakeBank_replicate]
  have hempty : Emptied n (absorbed t t.rob) :=
    ⟨hr.of_cfg rfl, ⟨hwoken, hfu, hlq, hsq, hldst, hstst, hrob, rfl⟩, hn, hs, hc, hh, hstall, hiq⟩
  exact hempty.ends hs hh (flush_of_onlyCommitReg hc hl hb) hw

theorem wound_pc (f : State) (c : Commit) : (wound f c).pc = c.redirect.getD f.pc := by
  rw [wound, merge_pc, nextPc_eq]
  cases c.redirect <;> rfl

/-- Idle stations stay so. -/
theorem wound_of_idle (hrs : f.rs = Banks.empty f.cfg) (hfu : f.fu = Stages.allIdle) (c : Commit) :
    (wound f c).rs = Banks.empty f.cfg ∧ (wound f c).fu = Stages.allIdle ∧ (wound f c).bus = c.msgs := by
  have hdisp : Dispatches f .idle [] [] :=
    dispatches_of_parts hrs hfu (unitStep_of_empty ..) (dispatchLs_of_empty (by rw [hrs]))
  refine ⟨hdisp.rs .., hdisp.fu .., ?_⟩
  show c.msgs ++ stationMsgs f = c.msgs
  rw [stationMsgs_of_idle hfu (congrArg Banks.ls hrs), List.append_nil]

/-! ## Branches -/

/-- A commit that squashes and redirects fetch to the sentinel at `p`. -/
theorem Stalled.ends_of_squash {p : Word} {e : RobEntry} {rest : List RobEntry} (h : Stalled t) (hf : flush t = .ok f)
    (hlq : f.lq = []) (hsq : f.sq = []) (hc : commit f = .ok c) (hwrite : c.write = none) (hset : c.setClear = true)
    (hhalt : c.setHalt = false) (hto : c.redirect = some p) (hsent : SentinelAt t p) (he : HeadCommits f e rest) :
    EndsWith t [⟨e.instr.pc, e.instr.word, t.x⟩, ⟨p, haltWord, t.x⟩] t.x t.mem := by
  have hframe := flush_frame h.clear hf
  have hstep := h.step hf hlq hsq hc
  have hcfg : (Machine.wound f c).cfg = t.cfg := hframe.cfg
  have hrun : (Machine.wound f c).status = .running := hframe.status.trans h.status
  have hup : (Machine.wound f c).halt = false := by
    rw [Machine.wound, merge_halt, hhalt, hframe.halt, h.halt]
    rfl
  have hclear : (Machine.wound f c).clear = true := by rw [Machine.wound, merge_clear, hset, Bool.or_true]
  have hx : (Machine.wound f c).x = t.x := by rw [Machine.wound, merge_x, nextValues, hwrite, hframe.x]
  have hmem : (Machine.wound f c).mem = t.mem := hframe.mem
  have hpc : (Machine.wound f c).pc = p := by
    rw [wound_pc, hto]
    rfl
  have hword : (Machine.wound f c).fetchWord = some haltWord := by
    rw [State.fetchWord, hmem, hcfg, hpc]
    exact hsent
  have hend := (endsWith_of_squash (h.ref.of_cfg hcfg) hrun hup hclear hword).retires hstep h.halt hf hrun he
  rwa [hpc, hx, hmem] at hend

/-- A branch that was guessed wrong commits, and the sentinel where its outcome leads is fetched after the squash. -/
theorem ResultReady.ends_of_wrong (h : ResultReady s r r' v t) (hhead : s.rob.head < s.cfg.robCap)
    (hop : r.op = some (.cmp o)) (hb : o.isBranch = true) (hhalt : r.isHalt = false) (hwrong : r.pred ≠ some (v != 0))
    (hsent : SentinelAt s (branchTarget r (v != 0))) :
    EndsWith t [⟨r.pc, r.word, s.x⟩, ⟨branchTarget r (v != 0), haltWord, s.x⟩] s.x s.mem := by
  obtain ⟨hset, hto⟩ := commitBranch_of_wrong (f := ResultReady.flushed s r r' v t) (e := completedEntry r v) hwrong
  have hcommit := commit_of_branch (f := ResultReady.flushed s r r' v t) (e := completedEntry r v) rfl rfl hop hb hhalt
  have hsent' : SentinelAt t (branchTarget r (v != 0)) := by
    rw [SentinelAt, h.undisturbed.mem, h.undisturbed.cfg]
    exact hsent
  have hend := h.stalled.ends_of_squash (h.flush hhead) h.stalled.lq h.stalled.sq hcommit rfl hset rfl hto hsent'
    (e := completedEntry r v) ⟨rfl, rfl⟩
  rwa [h.undisturbed.x, h.undisturbed.mem] at hend

/-- A conditional branch, then the sentinel where its outcome leads, guessed right or wrong. -/
theorem Drained.branch_ends (hd : Drained s) (ht : RefTiming s) (hsent : SentinelAt s next)
    (hi : step s = enter record s) (hr : ArithRecord s (record (setFull s)) (.cmp o) a b next) (hb : o.isBranch = true)
    (htarget : SentinelAt s (branchTarget (record (setFull s)) (o.relation a b)))
    (hguess : (record (setFull s)).pred = some (o.relation a b) →
      next = branchTarget (record (setFull s)) (o.relation a b)) :
    EndsWith s [⟨(record (setFull s)).pc, (record (setFull s)).word, s.x⟩,
      ⟨branchTarget (record (setFull s)) (o.relation a b), haltWord, s.x⟩] s.x s.mem := by
  have hhalt := hr.isHalt
  obtain ⟨t3, r', hr', hu, h3, hfu, hsilent⟩ := hd.sentinelIssued ht hsent hi hr
  obtain ⟨t4, hstep, h4⟩ := h3.resultReady hu hr.bank hfu
  generalize record (setFull s) = r at *
  have houtcome : (Op.result (.cmp o) a b != 0) = o.relation a b := cmpResult_ne_zero o a b
  rw [← houtcome] at htarget hguess ⊢
  generalize Op.result (.cmp o) a b = v at *
  refine hsilent _ _ _ (h3.quiet (fun e he => by rw [List.mem_singleton.mp he]; rfl) hstep ?_)
  by_cases hp : r.pred = some (v != 0)
  · rw [← hguess hp]
    obtain ⟨hset, -⟩ := commitBranch_of_right (f := ResultReady.flushed s r r' v t4) (e := completedEntry r v) hp
    exact h4.ends hd.head hr' (commit_of_branch (e := completedEntry r v) rfl rfl hr.classified hb hhalt)
      onlyCommitReg_nil rfl hset rfl rfl h4.undisturbed.x
  · exact h4.ends_of_wrong hd.head hr.classified hb hhalt hp htarget

/-! ## JALR -/

/-- A tick before the result of the JALR is on the bus. -/
theorem JalrRun.silent {n : Nat} {iq : List IRec} {latch : Option Latch} {entries : List RobEntry} {add : Stage AddOp}
    {u : State} {os : List Observation} {x : Vector Word 32} {m : Memory} (h : JalrRun s r n iq latch entries add [] t)
    (hes : ∀ e ∈ entries ++ latch.toList.map Latch.robEntry, e.state = .issue) (hstep : step t = .next u)
    (he : EndsWith u os x m) : EndsWith t os x m := by
  refine he.quiet hstep h.undisturbed.clear ?_ fun e rest hcons => ?_
  · rw [h.bus]
    exact fun _ hm => absurd hm List.not_mem_nil
  · have hlatched : t.latched.map Prod.snd = latch.toList.map Latch.robEntry := by
      rw [← h.latch, State.latched]
      cases t.latch <;> rfl
    rw [h.rob, hlatched] at hcons
    rw [hes e (hcons ▸ List.mem_cons_self)]
    decide

theorem JalrRun.stalled {n : Nat} {entries : List RobEntry} {add : Stage AddOp} {bus : List Msg}
    (h : JalrRun s r n [] none entries add bus t) (ht : RefTiming s) : Stalled t :=
  ⟨ht.of_cfg h.undisturbed.cfg, h.undisturbed.status, h.undisturbed.clear, h.undisturbed.halt, h.stall, h.iq, h.lq,
    h.sq, h.ldst, h.stst⟩

/-- The complete JALR commits, and the sentinel at its target is fetched into the empty machine (R388). -/
theorem JalrRun.ends {n : Nat} (h : JalrRun s r n [] none [issuedEntry r] .idle [⟨.writeBack, s.rob.head, v⟩] t)
    (ht : RefTiming s) (hhead : s.rob.head < s.cfg.robCap) (hop : r.op = some (.add .jalr)) (hhalt : r.isHalt = false)
    (hrd : r.rd = destOf rd) (hsent : SentinelAt s v) :
    EndsWith t [⟨r.pc, r.word, writeValue s.x rd (r.pc + 4)⟩, ⟨v, haltWord, writeValue s.x rd (r.pc + 4)⟩]
      (writeValue s.x rd (r.pc + 4)) s.mem := by
  obtain ⟨hc, -⟩ := ht.sizes
  obtain ⟨f, hf, hrob, hlq, hsq, hrs⟩ := h.flush_result hhead
  have hu := h.undisturbed.flush hf
  have hcommit := commit_of_jalr (e := completedEntry r v) (congrArg Rob.entries hrob) rfl hop hhalt
  have hstep := (h.stalled ht).step hf hlq hsq hcommit
  have hvalues := nextValues_of_commitWrite (f := f) (c := commitJalr f (completedEntry r v)) (v := r.pc + 4) rfl hrd
  have hretired : (commitJalr f (completedEntry r v)).rob = ⟨nextIndex s, []⟩ := by
    show f.rob.retire f.cfg.robCap = _
    rw [hrob, hu.cfg]
    rfl
  obtain ⟨hurs, hufu, hubus⟩ := wound_of_idle hrs ((flush_frame h.undisturbed.clear hf).fu.trans h.fu)
    (commitJalr f (completedEntry r v))
  have hupc : (wound f (commitJalr f (completedEntry r v))).pc = v := wound_pc ..
  have hmsgs : (commitJalr f (completedEntry r v)).msgs = [⟨.commitReg, f.rob.head, r.pc + 4⟩] := rfl
  have hclear : (commitJalr f (completedEntry r v)).setClear = false := rfl
  have hstall : (commitJalr f (completedEntry r v)).clearStall = true := rfl
  have hup : (commitJalr f (completedEntry r v)).setHalt = false := rfl
  generalize commitJalr f (completedEntry r v) = c at *
  have hucfg : (wound f c).cfg = s.cfg := hu.cfg
  have hux : (wound f c).x = writeValue s.x rd (r.pc + 4) := hu.x ▸ hvalues
  have humem : (wound f c).mem = s.mem := hu.mem
  have hword : (wound f c).fetchWord = some haltWord := by
    rw [State.fetchWord, humem, hucfg, hupc]
    exact hsent
  have hback : BackEmpty (nextIndex s) { wound f c with bus := [] } :=
    ⟨hurs, hufu, rfl, rfl, rfl, rfl, hretired, rfl⟩
  have hend := endsWith_of_backEmpty (ht.of_cfg hucfg) hu.status
    (by rw [wound, merge_halt, hup, hu.halt]; rfl) (by rw [wound, merge_clear, hclear, hu.clear]; rfl)
    (by rw [wound, merge_stall, nextStall, hstall, Bool.not_true, Bool.and_false]) rfl rfl
    (hubus.trans hmsgs ▸ onlyCommitReg_singleton _ _) hback (hucfg ▸ nextIndex_lt hc) hword
  have hrun := hend.retires hstep h.undisturbed.halt hf hu.status (e := completedEntry r v)
    ⟨congrArg Rob.entries hrob, rfl⟩
  rwa [hux, humem, hupc] at hrun

/-- JALR, then the sentinel at its target. -/
theorem Drained.jalr_ends (hd : Drained s) (ht : RefTiming s) (rd rs1 : RegIdx) (imm : BitVec 12)
    (hi : step s = exec (.jalr rd rs1 imm) s)
    (hsent : SentinelAt s ((s.reg rs1 + sext12 imm) &&& 0xFFFFFFFE#32)) :
    EndsWith s [⟨s.pc, encode (.jalr rd rs1 imm), writeValue s.x rd (s.pc + 4)⟩,
      ⟨(s.reg rs1 + sext12 imm) &&& 0xFFFFFFFE#32, haltWord, writeValue s.x rd (s.pc + 4)⟩]
      (writeValue s.x rd (s.pc + 4)) s.mem := by
  obtain ⟨hc, -, -, hlat, -⟩ := ht.sizes
  have h1 := hd.jalrRun rd rs1 imm
  obtain ⟨t2, hstep1, h2⟩ := h1.issued hc hd.head rfl rfl (hd.readSource_reg rs1) rfl
  obtain ⟨t3, hstep2, h3⟩ := h2.dispatched hc
  rw [hlat] at h3
  obtain ⟨t4, hstep3, h4⟩ := h3.computed hc
  have hend := h4.ends ht hd.head rfl rfl rfl hsent
  have hissue : ∀ e ∈ [issuedEntry (jalrRecord s rd rs1 imm)], e.state = .issue := fun e he => by
    rw [List.mem_singleton.mp he]
    rfl
  exact hd.silent (hi.trans (hd.exec_jalr hc rd rs1 imm)) (h1.silent (fun _ hm => absurd hm List.not_mem_nil) hstep1
    (h2.silent hissue hstep2 (h3.silent hissue hstep3 hend)))

end

end Sys2Proof.Machine
end

section
/-! SUPPORT. A load or a store inside memory from a drained machine with the sentinel behind it, to the halted state
(47_load_store.md R338 to R345, R350 to R357; 48_reorder_commit.md R380, R384, R387, R390, R396). -/

namespace Sys2Proof.Machine

/-! ## The sentinel behind a memory instruction -/

section
variable {s t u f : State} {r r' : IRec} {o : LoadOp} {m : LsOp} {a b v : Word} {c : Commit} {e₁ e₂ : RobEntry}

/-- The instructions in the reorder buffer, and the latched one behind them. -/
def inOrder (t : State) : List IRec :=
  t.rob.entries.map RobEntry.instr ++ (match t.latch with | some l => [l.robEntry.instr] | none => [])

/-- A tick drops instructions in front only (R380, R393). -/
theorem instrs_suffix (hc : t.clear = false) (hstep : step t = .next u) (hu : u.status = .running) :
    u.rob.entries.map RobEntry.instr <:+ inOrder t := by
  obtain ⟨hrun, hh, f, port, hf, -, -⟩ := TickTo.phases (.inl hstep) hu
  have hticks : Ticks t f u := ⟨hrun, hh, hf, .inl hstep, hu⟩
  obtain ⟨hflush, b, -, hcommit⟩ := reorderBufferIsFifo t f u hticks hc
  have hfront : f.rob.entries.map RobEntry.instr <:+ inOrder t := by
    rw [hflush, inOrder]
    exact List.suffix_append_self_iff.mpr (List.drop_suffix _ _)
  exact hcommit ▸ (List.drop_suffix _ _).trans hfront

/-- Where both are left, the second is still the one that was behind the first. -/
theorem second_of_step {i₁ i₂ : IRec} (hc : t.clear = false) (hstep : step t = .next u) (hu : u.status = .running)
    (hrob : u.rob.entries = [e₁, e₂]) (ht : inOrder t = [i₁, i₂]) : e₂.instr = i₂ := by
  have hsuffix := instrs_suffix hc hstep hu
  rw [hrob, ht] at hsuffix
  have heq : [e₁.instr, e₂.instr] = [i₁, i₂] := hsuffix.eq_of_length rfl
  obtain ⟨-, heq⟩ := List.cons.inj heq
  obtain ⟨heq, -⟩ := List.cons.inj heq
  exact heq

theorem inOrder_of_two (hr : t.rob.entries = [e₁, e₂]) (hl : t.latch = none) :
    inOrder t = [e₁.instr, e₂.instr] := by
  rw [inOrder, hr, hl]
  rfl

/-- The stations after a step, by what they do in the flushed state. -/
theorem stations_of_step {add : Stage AddOp} {done sent : List Msg} (hf : flush t = .ok f)
    (hd : Dispatches f add done sent) (hstep : step t = .next u) (hu : u.status = .running) :
    u.rs = Banks.empty u.cfg ∧ u.fu = { Stages.allIdle with add := add } := by
  obtain ⟨-, -, f', port, hf', -, hexec⟩ := TickTo.phases (.inl hstep) hu
  obtain rfl := Except.ok.inj (hf'.symm.trans hf)
  obtain ⟨c, l, st, i, x, -, hx⟩ := execute_executed hexec
  obtain rfl := hx.merged
  exact ⟨hd.rs .., hd.fu ..⟩

/-- A step whose bus changes nothing in the reorder buffer and whose head waits commits nothing. -/
theorem EndsWith.waiting {os : List Observation} {x : Vector Word 32} {mem : Memory} (he : EndsWith u os x mem)
    (hstep : step t = .next u) (hc : t.clear = false) (hbus : ∀ m ∈ t.bus, m.kind ≠ .writeBack ∧ m.kind ≠ .storeSuccess)
    {rest : List RobEntry} (hrob : t.rob.entries = e₁ :: rest) (hw : e₁.state ≠ .write) : EndsWith t os x mem := by
  refine he.quiet hstep hc hbus fun e es hcons => ?_
  rw [hrob] at hcons
  obtain ⟨rfl, -⟩ := List.cons.inj hcons
  exact hw

theorem MemoryRecord.isHalt (h : MemoryRecord s r m a b) : r.isHalt = false := by
  obtain ⟨-, hhalt⟩ := Bool.or_eq_false_iff.mp h.stall
  exact hhalt

/-- Three ticks after its fetch a memory instruction has announced its address, and the sentinel is latched behind
it. -/
theorem Drained.sentinelLatched {record : State → IRec} (hd : Drained s) (ht : RefTiming s)
    (hsent : SentinelAt s (s.pc + 4)) (hi : step s = enter record s) (hr : MemoryRecord s (record (setFull s)) m a b) :
    ∃ t r', IsSentinel (s.pc + 4) r' ∧ Dispatched s (record (setFull s)) m a b t ∧
      inOrder t = [record (setFull s), r'] ∧ ∀ os x mem, EndsWith t os x mem → EndsWith s os x mem := by
  obtain ⟨hc, hiq, hrob, -⟩ := ht.sizes
  have hstep0 := hi.trans (hd.enter_eq hc record)
  have h1 := hd.fetched hr
  generalize frontMerged _ _ _ = t1 at hstep0 h1
  obtain ⟨t2, hstep1, h2⟩ := h1.step hd hr hc hiq hsent
  obtain ⟨t3, hstep2, h3⟩ := h2.step hc hrob
  obtain ⟨f₀, hq2⟩ := h2.iq
  obtain ⟨e, hl3⟩ := h3.latch
  obtain ⟨he, -⟩ := latched_of_step h2.undisturbed.clear hstep2 h3.undisturbed.status hq2 hl3
  obtain rfl : e = issuedEntry (haltRecord f₀) := he
  have hsentinel := sentinel_of_step h1.undisturbed.clear (h1.undisturbed.fetchWord h1.pc hsent) hstep1
    h2.undisturbed.status h1.iq hr.isHalt hq2 rfl
  rw [h1.pc] at hsentinel
  refine ⟨t3, haltRecord f₀, hsentinel, h3, ?_, fun os x mem hend => ?_⟩
  · rw [inOrder, h3.rob, hl3]
    rfl
  refine hd.silent hstep0 (h1.back.silent h1.undisturbed.clear ?_ hstep1
    (h2.back.silent h2.undisturbed.clear ?_ hstep2 hend))
  · exact fun l hl => nomatch hl.symm.trans h1.latch
  · intro l hl
    obtain rfl := Option.some.inj (hl.symm.trans h2.latch)
    rfl

/-! ## A load -/

/-- A result commits with the complete sentinel behind it and nothing else in flight, and then the sentinel does. -/
theorem Stalled.ends_of_result {n : Nat} {rd : RegIdx} {op : Op} {p : Word} {e : RobEntry} (h : Stalled t)
    (hf : flush t = .ok f) (hlq : f.lq = []) (hsq : f.sq = []) (hrs : f.rs = Banks.empty f.cfg)
    (hfu : f.fu = Stages.allIdle) (hrob : f.rob = ⟨n, [completedEntry r v, e]⟩) (hop : r.op = some op)
    (hres : op.isResult = true) (hhalt : r.isHalt = false) (hrd : r.rd = destOf rd) (hw : e.state = .write)
    (he : IsSentinel p e.instr) :
    EndsWith t [⟨r.pc, r.word, writeValue t.x rd v⟩, ⟨p, haltWord, writeValue t.x rd v⟩]
      (writeValue t.x rd v) t.mem := by
  have hframe := flush_frame h.clear hf
  have hcommit := commit_of_result (e := completedEntry r v) (congrArg Rob.entries hrob) rfl hop hres hhalt
  have hstep := h.step hf hlq hsq hcommit
  have hnext := h.wound (c := commitResult f (completedEntry r v)) hf rfl rfl rfl
  obtain ⟨-, -, hubus⟩ := wound_of_idle hrs hfu (commitResult f (completedEntry r v))
  have hux : (Machine.wound f (commitResult f (completedEntry r v))).x = writeValue t.x rd v :=
    hframe.x ▸ nextValues_of_commitWrite (c := commitResult f (completedEntry r v)) rfl hrd
  have humem : (Machine.wound f (commitResult f (completedEntry r v))).mem = t.mem := hframe.mem
  have hlast : HeadCommits (absorbed (Machine.wound f (commitResult f (completedEntry r v)))
      (Machine.wound f (commitResult f (completedEntry r v))).rob) e [] := by
    refine ⟨?_, hw⟩
    show (f.rob.retire f.cfg.robCap).entries = _
    rw [hrob]
    rfl
  have hend := hnext.ends_of_complete
    (flush_of_onlyCommitReg hnext.clear rfl (hubus ▸ onlyCommitReg_singleton _ _)) hnext.lq hnext.sq hlast he.isHalt
  have hrun := hend.retires hstep h.halt hf hnext.status (e := completedEntry r v) ⟨congrArg Rob.entries hrob, rfl⟩
  rwa [hux, humem, he.pc, he.word] at hrun

/-- The load's value and the sentinel's result are absorbed together. -/
theorem LoadRead.ends {rd : RegIdx} {op : Op} {p : Word} {e : RobEntry} (h : LoadRead s r v t) (ht : RefTiming s)
    (hhead : s.rob.head < s.cfg.robCap) (hrob : t.rob = ⟨s.rob.head, [issuedEntry r, e]⟩)
    (hrs : t.rs = Banks.empty t.cfg) (hfu : t.fu = Stages.allIdle) (hop : r.op = some op) (hres : op.isResult = true)
    (hhalt : r.isHalt = false) (hrd : r.rd = destOf rd) (he : IsSentinel p e.instr) :
    EndsWith t [⟨r.pc, r.word, writeValue s.x rd v⟩, ⟨p, haltWord, writeValue s.x rd v⟩]
      (writeValue s.x rd v) s.mem := by
  obtain ⟨hc, -, hcap, -⟩ := ht.sizes
  obtain ⟨hu, -, hlq, hsq, hldst, hstst, hbus, hlatch, hiq, hstall⟩ := h
  have hst : Stalled t :=
    ⟨ht.of_cfg hu.cfg, hu.status, hu.clear, hu.halt, hstall, hiq, hlq, hsq, hldst, hstst⟩
  have hkinds : ∀ m ∈ t.bus, m.kind = .writeBack := by
    rw [hbus]
    simp
  have hwrite := absorb_two_results (v := v) (w := 255) hhead hcap hu.cfg hrob
  rw [← hbus] at hwrite
  have hflush := flush_eq_absorbed hu.clear hlatch (fun m hm => by simp [hkinds m hm]) hwrite
    (absorbAll_of_others onStoreSuccess_of_other fun m hm => by simp [hkinds m hm])
  have hwoken : (absorbed t ⟨s.rob.head, [(issuedEntry r).written v, e.written 255]⟩).rs = Banks.empty t.cfg := by
    simp [absorbed, hrs, Banks.empty, wakeBank_replicate]
  have hend := hst.ends_of_result hflush hlq hsq hwoken hfu rfl hop hres hhalt hrd rfl (e := e.written 255) he
  rwa [hu.x, hu.mem] at hend

/-- A load inside memory, then the sentinel behind it. -/
theorem Drained.load_ends {record : State → IRec} {rd : RegIdx} (hd : Drained s) (ht : RefTiming s)
    (hsent : SentinelAt s (s.pc + 4)) (hi : step s = enter record s)
    (hr : MemoryRecord s (record (setFull s)) (.load o) a b) (hrd : (record (setFull s)).rd = destOf rd)
    (hv : loadValue s.mem s.cfg.memSize o (a + b) = some v) :
    EndsWith s [⟨(record (setFull s)).pc, (record (setFull s)).word, writeValue s.x rd v⟩,
      ⟨s.pc + 4, haltWord, writeValue s.x rd v⟩] (writeValue s.x rd v) s.mem := by
  obtain ⟨hc, -, hcap, hadd, hload, -⟩ := ht.sizes
  obtain ⟨t3, r', hr', h3, horder, hsilent⟩ := hd.sentinelLatched ht hsent hi hr
  obtain ⟨t4, hstep3, h4⟩ := h3.step_loadStarted hd.head hc hcap hadd hload
  obtain ⟨t5, hstep4, h5⟩ := h4.step hc hv
  obtain ⟨e₄, hrob4⟩ := h4.rob
  obtain ⟨e₅, hrob5⟩ := h5.rob
  have hsecond4 := second_of_step h3.undisturbed.clear hstep3 h4.undisturbed.status (congrArg Rob.entries hrob4) horder
  have hsecond5 := second_of_step h4.undisturbed.clear hstep4 h5.undisturbed.status (congrArg Rob.entries hrob5)
    (inOrder_of_two (congrArg Rob.entries hrob4) h4.latch)
  obtain ⟨hrs, hfu⟩ := stations_of_step (flush_of_quiet h4.undisturbed.clear h4.latch h4.bus)
    (dispatches_of_result (f := setFull t4) h4.rs h4.fu) hstep4 h5.undisturbed.status
  have hend := h5.ends ht hd.head hrob5 hrs hfu hr.op rfl hr.isHalt hrd (hsecond5.trans hsecond4 ▸ hr')
  refine hsilent _ _ _ (EndsWith.waiting ?_ hstep3 h3.undisturbed.clear ?_ (congrArg Rob.entries h3.rob) nofun)
  · refine hend.waiting hstep4 h4.undisturbed.clear ?_ (congrArg Rob.entries hrob4) nofun
    rw [h4.bus]
    exact fun _ hm => absurd hm List.not_mem_nil
  · rw [h3.bus]
    simp [dispatchMsgs]

end

/-! ## A store -/

section
variable {s t u : State} {r : IRec} {o : StoreOp} {a b ea : Word} {mem : Memory} {p : Word} {e : RobEntry}

/-- The performed store retires (R384), and the complete sentinel behind it commits. -/
theorem Stalled.ends_of_storeSuccess {n : Nat} (h : Stalled t) (hl : t.latch = none)
    (hrob : t.rob = ⟨n, [waitingEntry r b, e]⟩) (hbus : t.bus = [⟨.storeSuccess, n, 0⟩]) (hw : e.state = .write)
    (he : IsSentinel p e.instr) : EndsWith t [⟨p, haltWord, t.x⟩] t.x t.mem := by
  have hkinds : ∀ m ∈ t.bus, m.kind = .storeSuccess := by
    rw [hbus]
    simp
  have hawaits : headAwaitsStore t n = true := by simp [headAwaitsStore, hrob, waitingEntry]
  have hsuccess : absorbAll onStoreSuccess t [⟨.storeSuccess, n, 0⟩] =
      .ok { t with rob := t.rob.retire t.cfg.robCap } := by
    simp [absorbAll, onStoreSuccess, hawaits]
  rw [← hbus] at hsuccess
  have hflush := flush_eq_absorbed h.clear hl (fun m hm => by simp [hkinds m hm])
    (absorbAll_of_others onWriteBack_of_other fun m hm => by simp [hkinds m hm]) hsuccess
  have hhead : HeadCommits (absorbed t (t.rob.retire t.cfg.robCap)) e [] := by
    refine ⟨?_, hw⟩
    show (t.rob.retire t.cfg.robCap).entries = _
    rw [hrob]
    rfl
  have hend := h.ends_of_complete hflush h.lq h.sq hhead he.isHalt
  rwa [he.pc, he.word] at hend

/-- The Flush in which the sentinel's result reaches its entry, behind the waiting store. -/
theorem StorePerforming.flush_eq (h : StorePerforming s r o ea b t) (hhead : s.rob.head < s.cfg.robCap)
    (hcap : 1 < s.cfg.robCap) (hrob : t.rob = ⟨s.rob.head, [waitingEntry r b, e]⟩) :
    ∃ v, Machine.flush t = .ok (absorbed t ⟨s.rob.head, [waitingEntry r b, e.written v]⟩) := by
  obtain ⟨hu, -, -, -, -, -, ⟨v, hbus⟩, hlatch⟩ := h
  obtain ⟨hat, hmod⟩ := State.robModify_nextIndex hhead hcap hu.cfg hrob (·.written v)
  have hkinds : ∀ m ∈ t.bus, m.kind = .writeBack := by
    rw [hbus]
    simp
  have hwrite : absorbAll onWriteBack t [⟨.writeBack, nextIndex s, v⟩] =
      .ok { t with rob := ⟨s.rob.head, [waitingEntry r b, e.written v]⟩ } := by
    simp only [absorbAll, (onWriteBack_of_live (v := v) hat).trans (congrArg Except.ok hmod)]
  rw [← hbus] at hwrite
  exact ⟨v, flush_eq_absorbed hu.clear hlatch (fun m hm => by simp [hkinds m hm]) hwrite
    (absorbAll_of_others onStoreSuccess_of_other fun m hm => by simp [hkinds m hm])⟩

/-- The store writes memory, and only the complete sentinel is left behind it. -/
structure StoreWritten (s : State) (r : IRec) (b : Word) (e : RobEntry) (mem : Memory) (t : State) : Prop where
  stalled : Stalled t
  latch : t.latch = none
  rob : ∃ v, t.rob = ⟨s.rob.head, [waitingEntry r b, e.written v]⟩
  bus : t.bus = [⟨.storeSuccess, s.rob.head, 0⟩]
  x : t.x = s.x
  mem : t.mem = mem

theorem StorePerforming.writes (h : StorePerforming s r o ea b t) (ht : RefTiming s)
    (hhead : s.rob.head < s.cfg.robCap) (hrob : t.rob = ⟨s.rob.head, [waitingEntry r b, e]⟩)
    (hrs : t.rs = Banks.empty t.cfg) (hfu : t.fu = Stages.allIdle) (hiq : t.iq = []) (hstall : t.stall = true)
    (hop : r.op = some (.ls (.store o))) (hm : memWrite s.mem s.cfg.memSize ea o.width b = some mem) :
    ∃ u, Machine.step t = .next u ∧ StoreWritten s r b e mem u := by
  obtain ⟨hc, -, hcap, -⟩ := ht.sizes
  obtain ⟨v, hflush⟩ := h.flush_eq hhead hcap hrob
  obtain ⟨hu, -, hlq, ⟨ts, hsq⟩, hldst, hstst, -, -⟩ := h
  have hfrs : (absorbed t ⟨s.rob.head, [waitingEntry r b, e.written v]⟩).rs = Banks.empty t.cfg := by
    simp [absorbed, hrs, Banks.empty, wakeBank_replicate]
  have hdisp : Dispatches (absorbed t ⟨s.rob.head, [waitingEntry r b, e.written v]⟩) .idle [] [] :=
    dispatches_of_parts hfrs hfu (unitStep_of_empty ..) (dispatchLs_of_empty (by rw [hfrs]; rfl))
  have hload := loadStage_holds (f := absorbed t ⟨s.rob.head, [waitingEntry r b, e.written v]⟩) hldst
    fun _ _ hcons => nomatch hlq.symm.trans hcons
  have hstore := storeStage_completes (f := absorbed t ⟨s.rob.head, [waitingEntry r b, e.written v]⟩) hstst hsq
    (m := mem) (by rw [← hm, ← hu.mem, ← hu.cfg]; rfl)
  obtain ⟨-, -, -, -, -, hbus, -⟩ := hc
  rw [← hu.cfg] at hbus
  have hstep := step_of_units hu.status hu.halt hflush hstall
    (commit_of_waitSt rfl rfl (waitingEntry_isStore hop b)) hload hstore (issue_of_nil hiq) (hdisp.emitted ..)
    (by show 1 ≤ t.cfg.busCap; omega)
  refine ⟨_, hstep, ⟨ht.of_cfg hu.cfg, hu.status, (Bool.or_false _).trans hu.clear, (Bool.or_false _).trans hu.halt, ?_,
    rfl, hlq, rfl, rfl, rfl⟩, rfl, ⟨v, rfl⟩, rfl, hu.x, rfl⟩
  show (t.stall && true) = true
  rw [hstall]
  rfl

theorem StorePerforming.ends (h : StorePerforming s r o ea b t) (ht : RefTiming s) (hhead : s.rob.head < s.cfg.robCap)
    (hrob : t.rob = ⟨s.rob.head, [waitingEntry r b, e]⟩) (hrs : t.rs = Banks.empty t.cfg)
    (hfu : t.fu = Stages.allIdle) (hiq : t.iq = []) (hstall : t.stall = true) (hop : r.op = some (.ls (.store o)))
    (hm : memWrite s.mem s.cfg.memSize ea o.width b = some mem) (he : IsSentinel p e.instr) :
    EndsWith t [⟨p, haltWord, s.x⟩] s.x mem := by
  obtain ⟨-, -, hcap, -⟩ := ht.sizes
  obtain ⟨v, hflush⟩ := h.flush_eq hhead hcap hrob
  obtain ⟨u, hstep, hstalled, hlatch, ⟨w, hurob⟩, hubus, hux, humem⟩ :=
    h.writes ht hhead hrob hrs hfu hiq hstall hop hm
  have hend := hstalled.ends_of_storeSuccess hlatch hurob hubus rfl he
  rw [hux, humem] at hend
  refine hend.silent hstep fun f e' rest hf hcons => ?_
  obtain rfl := Except.ok.inj (hf.symm.trans hflush)
  obtain ⟨rfl, -⟩ := List.cons.inj hcons
  exact nofun

/-- A store inside memory, then the sentinel behind it. -/
theorem Drained.store_ends {record : State → IRec} (hd : Drained s) (ht : RefTiming s)
    (hsent : SentinelAt s (s.pc + 4)) (hi : step s = enter record s)
    (hr : MemoryRecord s (record (setFull s)) (.store o) a b)
    (hm : memWrite s.mem s.cfg.memSize (a + (record (setFull s)).imm) o.width b = some mem) :
    EndsWith s [⟨(record (setFull s)).pc, (record (setFull s)).word, s.x⟩, ⟨s.pc + 4, haltWord, s.x⟩] s.x mem := by
  obtain ⟨hc, -, hcap, hadd, -, hstore⟩ := ht.sizes
  obtain ⟨t3, r', hr', h3, horder, hsilent⟩ := hd.sentinelLatched ht hsent hi hr
  obtain ⟨t4, hstep3, h4⟩ := h3.step_store hr.op hr.isHalt hd.head hc hcap hadd
  obtain ⟨t5, hstep4, h5⟩ := h4.step hr.op hc hstore
  obtain ⟨hiq, hstall⟩ := h4.front hr.op hstep4 h5.undisturbed.status
  obtain ⟨e₄, hrob4⟩ := h4.rob
  obtain ⟨e₅, hrob5⟩ := h5.rob
  have hsecond4 := second_of_step h3.undisturbed.clear hstep3 h4.undisturbed.status (congrArg Rob.entries hrob4) horder
  have hsecond5 := second_of_step h4.undisturbed.clear hstep4 h5.undisturbed.status (congrArg Rob.entries hrob5)
    (inOrder_of_two (congrArg Rob.entries hrob4) h4.latch)
  obtain ⟨ts, hsq4⟩ := h4.sq
  have hflush4 := flush_of_commitMem h4.undisturbed.clear h4.latch h4.bus hsq4 rfl
  obtain ⟨hrs, hfu⟩ := stations_of_step hflush4
    (dispatches_of_result (by simp [h4.rs, Banks.empty, wakeBank_replicate])
      ((flush_frame h4.undisturbed.clear hflush4).fu.trans h4.fu)) hstep4 h5.undisturbed.status
  have hend := h5.ends ht hd.head hrob5 hrs hfu hiq hstall hr.op hm (hsecond5.trans hsecond4 ▸ hr')
  obtain ⟨e, hflush3⟩ := h3.flush hd.head hc hcap
  have hwaits : EndsWith t4 [⟨s.pc + 4, haltWord, s.x⟩] s.x mem := by
    refine hend.waiting hstep4 h4.undisturbed.clear ?_ (congrArg Rob.entries hrob4) nofun
    rw [h4.bus]
    simp
  have hrun := hwaits.retires hstep3 h3.undisturbed.halt hflush3 h4.undisturbed.status
    (e := announcedEntry (record (setFull s)) b (.store o)) ⟨rfl, rfl⟩
  rw [h4.undisturbed.x] at hrun
  exact hsilent _ _ _ hrun

end

end Sys2Proof.Machine
end

section
/-! SUPPORT. One instruction and the sentinel in the pipeline and in the sequential interpreter (70_reset_and_hazards.md
R470; 48_reorder_commit.md R396). -/

namespace Sys2Proof.Machine

/-! ## The interpreter -/

section
variable {size : Nat} {a a' : ArchState} {i : Instr} {o : Observation}

/-- An interpreter step that goes on has the effect of the instruction at its pc, and observes that. -/
theorem seqStep_eq_next (hi : i.wellFormed = true) (hw : memRead a.mem size a.pc 4 = some (encode i))
    (h : seqStep size a = .next a' o) : seqExec size i a = some a' ∧ o = ⟨a.pc, encode i, a'.x⟩ := by
  unfold seqStep at h
  simp only [hw, decode_encode hi] at h
  split at h
  · cases h
  · split at h
    · cases h
    · rename_i b hb
      cases h
      exact ⟨hb, rfl⟩

/-- Where the sentinel follows, the interpreter halts at its second step. -/
theorem seqRun_two (h : seqStep size a = .next a' o) (hw : memRead a'.mem size a'.pc 4 = some haltWord) :
    seqRun size 2 a = ([o, ⟨a'.pc, haltWord, a'.x⟩], some ((a'.reg 10).setWidth 8)) := by
  have hhalt : seqStep size a' = .halted ((a'.reg 10).setWidth 8) ⟨a'.pc, haltWord, a'.x⟩ := by
    unfold seqStep
    rw [hw]
    exact if_pos rfl
  simp only [seqRun, h, hhalt]

end

/-! ## The effect of one instruction, class by class -/

/-- R162 for the conditional branches. -/
theorem tableNextPc_of_branch {d : DRec} (hmn : d.mn ≠ .jal) (hc : d.cls = .branch) (pc : Word) (g : Bool) :
    tableNextPc d pc g = if g then pc + d.imm else pc + 4 := by
  simp [tableNextPc, hmn, hc]

/-- The run retires the instruction `i` and then the sentinel, with the registers and the memory of `a'` after each. -/
def RunsAs (s : State) (i : Instr) (a' : ArchState) : Prop :=
  EndsWith s [⟨s.pc, encode i, a'.x⟩, ⟨a'.pc, haltWord, a'.x⟩] a'.x a'.mem

section
variable {s : State} {i : Instr} {a' : ArchState} {rd rs1 rs2 : RegIdx} {imm off v : Word} {taken : Bool}

theorem Drained.register_runsAs (hd : Drained s) (ht : RefTiming s) (hsent : SentinelAt s a'.pc) (mn : Mnemonic)
    (op : Op) (hmn : mn ≠ .jal) (hop : op.bank ≠ .ls) (hres : op.isResult = true)
    (hi : step s = enter (Machine.registerRecord i mn op rd rs1 rs2) s) (ha : some (s.arch.result rd v) = some a')
    (hv : op.result (s.reg rs1) (s.reg rs2) = v) : RunsAs s i a' := by
  subst hv
  obtain rfl := Option.some.inj ha
  exact hd.arith_ends ht hsent hi (hd.registerRecord i hmn hop (Op.ne_jalr_of_isResult hres) rd rs1 rs2) hres rfl

theorem Drained.immediate_runsAs (hd : Drained s) (ht : RefTiming s) (hsent : SentinelAt s a'.pc) (mn : Mnemonic)
    (op : Op) (hmn : mn ≠ .jal) (hop : op.bank ≠ .ls) (hres : op.isResult = true)
    (hi : step s = enter (Machine.immediateRecord i mn .arithImm op rd rs1 imm) s)
    (ha : some (s.arch.result rd v) = some a') (hv : op.result (s.reg rs1) imm = v) : RunsAs s i a' := by
  subst hv
  obtain rfl := Option.some.inj ha
  exact hd.arith_ends ht hsent hi (hd.immediateRecord i hmn _ hop (Op.ne_jalr_of_isResult hres) rd rs1 imm) hres rfl

/-- LUI, AUIPC and JAL: the sum of two operands known at fetch or of x0. -/
theorem Drained.adder_runsAs {a src2 : Word} (hd : Drained s) (ht : RefTiming s) (mn : Mnemonic) (src1 : State → Source)
    (hsent : SentinelAt s (if mn = .jal then s.pc + imm else s.pc + 4))
    (hsrc : readSource s (src1 (setFull s)) = .value a)
    (hi : step s = enter (fun f => adderRecord i mn rd (src1 f) src2 imm f) s) :
    RunsAs s i { s.arch with
      x := writeValue s.x rd (a + src2), pc := if mn = .jal then s.pc + imm else s.pc + 4 } :=
  hd.arith_ends ht hsent hi (adderRecord_arith i mn rd src2 imm hsrc) rfl rfl

/-- A conditional branch, by its relation and the next pc that was guessed. -/
theorem Drained.branch_runsAs (hd : Drained s) (ht : RefTiming s) (hsent : SentinelAt s a'.pc) (mn : Mnemonic)
    (o : CmpOp) (hguess : SentinelAt s (tableNextPc i.drec s.pc (predict s.cfg.predictor s.pred s.pc)))
    (hmn : mn ≠ .jal) (hdrec : i.drec.mn = mn ∧ i.drec.cls = .branch ∧ i.drec.imm = off) (hb : o.isBranch = true)
    (hi : step s = enter (Machine.branchRecord i mn o rs1 rs2 off) s)
    (ha : some (s.arch.branch taken off) = some a') (htaken : o.relation (s.reg rs1) (s.reg rs2) = taken) :
    RunsAs s i a' := by
  subst htaken
  obtain rfl := Option.some.inj ha
  obtain ⟨hdmn, hcls, himm⟩ := hdrec
  rw [tableNextPc_of_branch (hdmn ▸ hmn) hcls, himm] at hguess
  refine hd.branch_ends ht hguess hi (hd.branchRecord i hmn o rs1 rs2 off) hb hsent fun hp => ?_
  rw [← Option.some.inj hp]
  rfl

theorem Drained.load_runsAs (hd : Drained s) (ht : RefTiming s) (hsent : SentinelAt s a'.pc) (mn : Mnemonic)
    (o : LoadOp) (hmn : mn ≠ .jal)
    (hi : step s = enter (Machine.immediateRecord i mn .load (.ls (.load o)) rd rs1 imm) s)
    (ha : s.arch.load s.cfg.memSize o rd rs1 imm = some a') : RunsAs s i a' := by
  obtain ⟨v, hv, rfl⟩ := Option.map_eq_some_iff.mp ha
  exact hd.load_ends ht hsent hi (hd.loadRecord i hmn o rd rs1 imm) rfl hv

theorem Drained.store_runsAs (hd : Drained s) (ht : RefTiming s) (hsent : SentinelAt s a'.pc) (mn : Mnemonic)
    (o : StoreOp) (hmn : mn ≠ .jal) (hi : step s = enter (Machine.storeRecord i mn o rs2 rs1 imm) s)
    (ha : s.arch.store s.cfg.memSize o rs2 rs1 imm = some a') : RunsAs s i a' := by
  obtain ⟨m, hm, rfl⟩ := Option.map_eq_some_iff.mp ha
  exact hd.store_ends ht hsent hi (hd.storeRecord i hmn o rs2 rs1 imm) hm

end

/-- Every instruction but the sentinel has its effect in the pipeline, with the sentinel behind it, where it leads and
where fetch goes on by the guess. -/
theorem Drained.runsAs {s : State} {i : Instr} {a' : ArchState} (hd : Drained s) (ht : RefTiming s) (hne : i ≠ .halt)
    (hi : step s = exec i s) (ha : seqExec s.cfg.memSize i s.arch = some a') (hsent : SentinelAt s a'.pc)
    (hguess : SentinelAt s (tableNextPc i.drec s.pc (predict s.cfg.predictor s.pred s.pc))) : RunsAs s i a' := by
  have hamount := fun r => shiftAmount_eq_mod (s.reg r)
  cases i with
  | halt => exact absurd rfl hne
  | lui rd imm =>
    obtain rfl := Option.some.inj ha
    have hlui := hd.adder_runsAs ht .lui (fun _ => .reg 0) hsent (hd.readSource_reg 0) hi
    rwa [State.reg_zero, zero_add] at hlui
  | auipc rd imm =>
    obtain rfl := Option.some.inj ha
    exact hd.adder_runsAs ht .auipc (fun f => .val f.pc) hsent rfl hi
  | jal rd off =>
    obtain rfl := Option.some.inj ha
    exact hd.adder_runsAs ht .jal (fun f => .val f.pc) hsent rfl hi
  | jalr rd rs1 imm =>
    obtain rfl := Option.some.inj ha
    exact hd.jalr_ends ht rd rs1 imm hi hsent
  | beq => exact hd.branch_runsAs ht hsent .beq .beq hguess (by decide) ⟨rfl, rfl, rfl⟩ rfl hi ha rfl
  | bne => exact hd.branch_runsAs ht hsent .bne .bne hguess (by decide) ⟨rfl, rfl, rfl⟩ rfl hi ha rfl
  | blt => exact hd.branch_runsAs ht hsent .blt .blt hguess (by decide) ⟨rfl, rfl, rfl⟩ rfl hi ha rfl
  | bge => exact hd.branch_runsAs ht hsent .bge .bge hguess (by decide) ⟨rfl, rfl, rfl⟩ rfl hi ha (relation_bge _ _)
  | bltu => exact hd.branch_runsAs ht hsent .bltu .bltu hguess (by decide) ⟨rfl, rfl, rfl⟩ rfl hi ha rfl
  | bgeu => exact hd.branch_runsAs ht hsent .bgeu .bgeu hguess (by decide) ⟨rfl, rfl, rfl⟩ rfl hi ha (relation_bgeu _ _)
  | lb => exact hd.load_runsAs ht hsent .lb .lb (by decide) hi ha
  | lh => exact hd.load_runsAs ht hsent .lh .lh (by decide) hi ha
  | lw => exact hd.load_runsAs ht hsent .lw .lw (by decide) hi ha
  | lbu => exact hd.load_runsAs ht hsent .lbu .lbu (by decide) hi ha
  | lhu => exact hd.load_runsAs ht hsent .lhu .lhu (by decide) hi ha
  | sb => exact hd.store_runsAs ht hsent .sb .sb (by decide) hi ha
  | sh => exact hd.store_runsAs ht hsent .sh .sh (by decide) hi ha
  | sw => exact hd.store_runsAs ht hsent .sw .sw (by decide) hi ha
  | addi => exact hd.immediate_runsAs ht hsent .addi (.add .add) (by decide) (by decide) rfl hi ha rfl
  | slti => exact hd.immediate_runsAs ht hsent .slti (.cmp .slt) (by decide) (by decide) rfl hi ha rfl
  | sltiu => exact hd.immediate_runsAs ht hsent .sltiu (.cmp .sltu) (by decide) (by decide) rfl hi ha rfl
  | xori => exact hd.immediate_runsAs ht hsent .xori (.log .xor) (by decide) (by decide) rfl hi ha rfl
  | ori => exact hd.immediate_runsAs ht hsent .ori (.log .or) (by decide) (by decide) rfl hi ha rfl
  | andi => exact hd.immediate_runsAs ht hsent .andi (.log .and) (by decide) (by decide) rfl hi ha rfl
  | slli rd rs1 shamt =>
    exact hd.immediate_runsAs ht hsent .slli (.shf .sll) (by decide) (by decide) rfl hi ha
      (congrArg (s.reg rs1 <<< ·) (shiftAmount_zext5 shamt))
  | srli rd rs1 shamt =>
    exact hd.immediate_runsAs ht hsent .srli (.shf .srl) (by decide) (by decide) rfl hi ha
      (congrArg (s.reg rs1 >>> ·) (shiftAmount_zext5 shamt))
  | srai rd rs1 shamt =>
    exact hd.immediate_runsAs ht hsent .srai (.shf .sra) (by decide) (by decide) rfl hi ha
      (congrArg (s.reg rs1).sshiftRight (shiftAmount_zext5 shamt))
  | add => exact hd.register_runsAs ht hsent .add (.add .add) (by decide) (by decide) rfl hi ha rfl
  | sub => exact hd.register_runsAs ht hsent .sub (.add .sub) (by decide) (by decide) rfl hi ha rfl
  | sll rd rs1 rs2 =>
    exact hd.register_runsAs ht hsent .sll (.shf .sll) (by decide) (by decide) rfl hi ha
      (congrArg (s.reg rs1 <<< ·) (hamount rs2))
  | slt => exact hd.register_runsAs ht hsent .slt (.cmp .slt) (by decide) (by decide) rfl hi ha rfl
  | sltu => exact hd.register_runsAs ht hsent .sltu (.cmp .sltu) (by decide) (by decide) rfl hi ha rfl
  | xor => exact hd.register_runsAs ht hsent .xor (.log .xor) (by decide) (by decide) rfl hi ha rfl
  | srl rd rs1 rs2 =>
    exact hd.register_runsAs ht hsent .srl (.shf .srl) (by decide) (by decide) rfl hi ha
      (congrArg (s.reg rs1 >>> ·) (hamount rs2))
  | sra rd rs1 rs2 =>
    exact hd.register_runsAs ht hsent .sra (.shf .sra) (by decide) (by decide) rfl hi ha
      (congrArg (s.reg rs1).sshiftRight (hamount rs2))
  | or => exact hd.register_runsAs ht hsent .or (.log .or) (by decide) (by decide) rfl hi ha rfl
  | and => exact hd.register_runsAs ht hsent .and (.log .and) (by decide) (by decide) rfl hi ha rfl

/-- Settles O26: the run of the instruction and the sentinel behind it retires what the interpreter observes. -/
theorem oneInstructionMatchesInterpreter : Obligations.OneInstructionMatchesInterpreter := by
  intro s i a' o hd ht hwf hne hw hseq hhalt hsent hguess
  obtain ⟨ha, rfl⟩ := seqStep_eq_next (a := s.arch) hwf hw hseq
  have hruns := hd.runsAs ht hne (step_of_fetchWord hw (decode_encode hwf)) ha hsent hguess
  obtain ⟨n, t, hreach, htrace, hstatus, hx, hmem⟩ := hruns
  have hregs : ∀ r, t.reg r = a'.reg r := fun r => by
    rw [State.reg, ArchState.reg, hx]
  have hexit : t.exitStatus = some ((a'.reg 10).setWidth 8) := by
    rw [State.exitStatus, hstatus, State.exitCode, hregs]
  rw [seqRun_two hseq hhalt]
  exact ⟨n, t, hreach, hexit, by simp [hexit], htrace, hmem, hregs⟩

end Sys2Proof.Machine
end

section
/-! SUPPORT. What an abort leaves: the kinds a Flush raises, with the cycle it records, and the start of the phase that an
aborted tick goes back to (60_exceptions.md R420, R427). -/

namespace Sys2Proof.Machine

/-! ## The kinds of a Flush (R427) -/

/-- A kind of abort that a Flush raises, with the cycle it records. -/
def FlushAbort (cycle : Nat) (a : Abort) : Prop :=
  (∃ o, a = .structuralOverflow o cycle) ∨ ∃ p, a = .protocolViolation p cycle

/-- A step of the Flush: where it answers it keeps the cycle, and otherwise its abort is one of the Flush. -/
structure FlushUnit (u : State → Except Abort State) : Prop where
  cycle : ∀ s t, u s = .ok t → t.cycle = s.cycle
  aborts : ∀ s a, u s = .error a → FlushAbort s.cycle a

theorem onWriteBack_flushUnit (m : Msg) : FlushUnit (onWriteBack · m) where
  cycle s t h := by rcases onWriteBack_eq_ok h with ⟨-, rfl⟩ | ⟨-, _, -, rfl⟩ <;> rfl
  aborts s a h := by
    obtain ⟨-, -, ha⟩ := onWriteBack_eq_error h
    exact .inr ⟨_, ha⟩

theorem onStoreSuccess_flushUnit (m : Msg) : FlushUnit (onStoreSuccess · m) where
  cycle s t h := by rcases onStoreSuccess_eq_ok h with ⟨-, rfl⟩ | ⟨-, -, -, rfl⟩ <;> rfl
  aborts s a h := by
    obtain ⟨-, -, ha⟩ := onStoreSuccess_eq_error h
    exact .inr ⟨_, ha⟩

theorem onGetAddr_flushUnit (m : Msg) : FlushUnit (onGetAddr · m) where
  cycle s t h := by rcases onGetAddr_eq_ok h with ⟨-, rfl⟩ | ⟨-, -, rfl⟩ <;> rfl
  aborts s a h := by
    obtain ⟨-, -, ha⟩ := onGetAddr_eq_error h
    exact .inr ⟨_, ha⟩

theorem onCommitMem_flushUnit (m : Msg) : FlushUnit (onCommitMem · m) where
  cycle s t h := by rcases onCommitMem_eq_ok h with ⟨-, rfl⟩ | ⟨-, _, _, -, -, -, rfl⟩ <;> rfl
  aborts s a h := by
    obtain ⟨-, -, ha⟩ := onCommitMem_eq_error h
    exact .inr ⟨_, ha⟩

theorem insertRob_flushUnit : FlushUnit insertRob where
  cycle s t h := by
    obtain ⟨_, rfl⟩ := insertRob_frame h
    rfl
  aborts s a h := by
    obtain ⟨_, -, -, ha⟩ := insertRob_eq_error h
    exact .inl ⟨_, ha⟩

theorem insertLsb_flushUnit : FlushUnit insertLsb where
  cycle s t h := by
    obtain ⟨_, _, rfl⟩ := insertLsb_frame h
    rfl
  aborts s a h := by
    obtain ⟨_, _, -, -, ha⟩ := insertLsb_eq_error h
    exact .inl ⟨_, ha⟩

theorem insertRs_flushUnit : FlushUnit insertRs where
  cycle s t h := by
    obtain ⟨_, rfl⟩ := insertRs_frame h
    rfl
  aborts s a h := by
    obtain ⟨_, -, -, ha⟩ := insertRs_eq_error h
    exact .inl ⟨_, ha⟩

/-- A reaction to each message is a step of the Flush over the whole bus. -/
theorem absorbAll_flushUnit {g : State → Msg → Except Abort State} (hg : ∀ m, FlushUnit (g · m)) (ms : List Msg) :
    FlushUnit (absorbAll g · ms) where
  cycle s _ h := absorbAll_induct (P := fun t => t.cycle = s.cycle)
    (fun t m t' ht h => ((hg m).cycle t t' h).trans ht) rfl h
  aborts s a h := by
    obtain ⟨t, m, ht, -, he⟩ := absorbAll_error (P := fun t => t.cycle = s.cycle)
      (fun t m t' ht h => ((hg m).cycle t t' h).trans ht) rfl h
    exact ht ▸ (hg m).aborts t a he

/-- A step, and behind it whatever in the state it leaves aborts only with a kind of the Flush. -/
theorem FlushUnit.aborts_then {u : State → Except Abort State} (hu : FlushUnit u) {s : State} {a : Abort}
    {rest : State → Prop} (hrest : ∀ t, rest t → FlushAbort t.cycle a)
    (h : u s = .error a ∨ ∃ t, u s = .ok t ∧ rest t) : FlushAbort s.cycle a := by
  rcases h with h | ⟨t, ht, hr⟩
  · exact hu.aborts s a h
  · exact hu.cycle s t ht ▸ hrest t hr

theorem flushUnits_aborts {s : State} {a : Abort} (h : flushUnits s = .error a) : FlushAbort s.cycle a :=
  (absorbAll_flushUnit onWriteBack_flushUnit s.bus).aborts_then
    (fun _ => (absorbAll_flushUnit onStoreSuccess_flushUnit s.bus).aborts_then
      fun _ => insertRob_flushUnit.aborts_then
        fun _ => insertLsb_flushUnit.aborts_then
          fun _ => (absorbAll_flushUnit onGetAddr_flushUnit s.bus).aborts_then
            fun _ => (absorbAll_flushUnit onCommitMem_flushUnit s.bus).aborts_then
              fun t => insertRs_flushUnit.aborts t a)
    (flushUnits_eq_error h)

/-! ## The start of the phase (R420) -/

/-- Registers, pc, memory and the cycle stay in every Flush, with or without a squash. -/
theorem flush_keeps {s f : State} (h : flush s = .ok f) :
    f.x = s.x ∧ f.pc = s.pc ∧ f.mem = s.mem ∧ f.cycle = s.cycle := by
  rcases flush_eq_ok h with ⟨-, rfl⟩ | ⟨hc, -⟩
  · exact ⟨rfl, rfl, rfl, rfl⟩
  · have hframe := flush_frame hc h
    exact ⟨hframe.x, hframe.pc, hframe.mem, hframe.cycle⟩

/-- A completed Execute does not change the status. -/
theorem execute_status {port : FetchPort} {f t : State} (h : execute port f = .ok t) : t.status = f.status := by
  obtain ⟨c, l, st, i, r, -, hx⟩ := execute_executed h
  rw [hx.merged, merge_status]

/-- A tick that aborts does so in its Flush, and leaves the state before the tick plus the status, or in its Execute, and
leaves the flushed state plus the status. -/
theorem TickTo.abort_leaves {s t : State} {a : Abort} (h : TickTo s t) (ha : t.status = .aborted a) :
    s.halt = false ∧ ((flush s = .error a ∧ t = s.abort a) ∨ ∃ f, flush s = .ok f ∧ t = f.abort a) := by
  obtain ⟨port, -, ho⟩ := h.port
  obtain ⟨hrun, rfl⟩ := tickOutcome_eq_next ho
  rcases tick_cases port s with ⟨-, ht⟩ | ⟨hh, b, hf, ht⟩ | ⟨hh, f, b, hf, -, ht⟩ | ⟨-, f, t, hf, he, ht⟩ <;>
    rw [ht] at ha ⊢
  · cases ha
  · cases ha
    exact ⟨hh, .inl ⟨hf, rfl⟩⟩
  · cases ha
    exact ⟨hh, .inr ⟨f, hf, rfl⟩⟩
  · rw [execute_status he, flush_status hf, hrun] at ha
    cases ha

/-- Settles O10, by the phase in which the tick aborts. -/
theorem abortLeavesPhaseStart : Obligations.AbortLeavesPhaseStart := by
  intro s t a _ h ha
  obtain ⟨hh, ⟨hf, rfl⟩ | ⟨f, hf, rfl⟩⟩ := h.abort_leaves ha
  · exact ⟨hh, .inl ⟨hf, rfl, flushUnits_aborts (flush_eq_error hf)⟩⟩
  · exact ⟨hh, .inr ⟨f, hf, rfl, flush_keeps hf⟩⟩

end Sys2Proof.Machine
end

section
/-! SUPPORT. The image loader: its digits and tokens are those of 70_reset_and_hazards.md R455, and a run of byte tokens
fills consecutive addresses (R456). -/

namespace Sys2Proof.Machine

/-! ## Digits -/

theorem hexDigit_of_mem {c : Char} {d : Nat} (h : (c, d) ∈ hexDigits) : hexDigit c = some d := by
  have hall : ∀ p ∈ hexDigits, hexDigit p.1 = some p.2 := by decide
  exact hall (c, d) h

/-- A digit's code lies in one of the three ranges, so the table needs to be looked at for 7-bit characters only. -/
theorem mem_of_hexDigit {c : Char} {d : Nat} (h : hexDigit c = some d) : (c, d) ∈ hexDigits := by
  have hall : ∀ n < 128, ∀ d ∈ hexDigit (Char.ofNat n), (Char.ofNat n, d) ∈ hexDigits := by decide
  have hlt : c.toNat < 128 := by
    have h9 : '9'.toNat = 57 := rfl
    have hF : 'F'.toNat = 70 := rfl
    have hf : 'f'.toNat = 102 := rfl
    unfold hexDigit at h
    split at h
    · omega
    · split at h
      · omega
      · split at h
        · omega
        · cases h
  have hc := hall c.toNat hlt
  rw [Char.ofNat_toNat] at hc
  exact hc d h

/-- The value of digits, most significant first, behind the value read before them. -/
theorem hexValue_eq_some_iff {acc v : Nat} {cs : List Char} :
    hexValue acc cs = some v ↔ ∃ ds, Digits cs ds ∧ v = ds.foldl (fun v d => 16 * v + d) acc := by
  induction cs generalizing acc with
  | nil => simp [hexValue, Digits, eq_comm]
  | cons c cs ih =>
    rw [hexValue]
    constructor
    · intro h
      split at h
      · rename_i d hd
        obtain ⟨ds, hds, rfl⟩ := ih.mp h
        exact ⟨d :: ds, .cons (mem_of_hexDigit hd) hds, rfl⟩
      · cases h
    · rintro ⟨ds, hds, rfl⟩
      cases hds with
      | cons hd hds =>
        rw [hexDigit_of_mem hd]
        exact ih.mpr ⟨_, hds, rfl⟩

/-! ## Tokens (R455) -/

/-- `@` is no digit, so that no byte token begins with it. -/
theorem not_digits_at {cs : List Char} {ds : List Nat} : ¬ Digits ('@' :: cs) ds := by
  intro h
  cases h with
  | cons hd _ => simp [hexDigits] at hd

theorem parseToken_of_address {t : List Char} {a : Nat} (h : AddressToken t a) : parseToken t = some (.address a) := by
  obtain ⟨cs, ds, rfl, hds, hlen, rfl⟩ := h
  have height : cs.length = 8 := hds.length_eq.trans hlen
  rw [parseToken, if_pos height, hexValue_eq_some_iff.mpr ⟨ds, hds, rfl⟩]
  rfl

theorem parseToken_of_byte {t : List Char} {b : Byte} (h : ByteToken t b) : parseToken t = some (.byte b) := by
  obtain ⟨hi, lo, hds, rfl⟩ := h
  have htwo : t.length = 2 := hds.length_eq
  unfold parseToken
  split
  · exact absurd hds not_digits_at
  · rw [if_pos htwo, hexValue_eq_some_iff.mpr ⟨_, hds, rfl⟩]
    simp

/-- What the loader reads as a token is one. -/
theorem parseToken_cases {t : List Char} {k : Token} (h : parseToken t = some k) :
    (∃ a, k = .address a ∧ AddressToken t a) ∨ ∃ b, k = .byte b ∧ ByteToken t b := by
  unfold parseToken at h
  split at h <;> split at h
  · rename_i cs hlen
    obtain ⟨v, hv, rfl⟩ := Option.map_eq_some_iff.mp h
    obtain ⟨ds, hds, hval⟩ := hexValue_eq_some_iff.mp hv
    exact .inl ⟨v, rfl, cs, ds, rfl, hds, hds.length_eq.symm.trans hlen, hval⟩
  · cases h
  · rename_i hlen
    obtain ⟨v, hv, rfl⟩ := Option.map_eq_some_iff.mp h
    obtain ⟨ds, hds, rfl⟩ := hexValue_eq_some_iff.mp hv
    obtain ⟨hi, lo, rfl⟩ := List.length_eq_two.mp (hds.length_eq.symm.trans hlen)
    exact .inr ⟨_, rfl, hi, lo, hds, by simp⟩
  · cases h

/-! ## One token (R456) -/

theorem loadWords_byte {t : List Char} {b : Byte} (h : ByteToken t b) (size a : Nat) (m : Memory)
    (rest : List (List Char)) :
    loadWords size a m (t :: rest) = if a < size then loadWords size (a + 1) (m.write a b) rest else none := by
  rw [loadWords, parseToken_of_byte h]

theorem loadWords_address {t : List Char} {p : Nat} (h : AddressToken t p) (size a : Nat) (m : Memory)
    (rest : List (List Char)) : loadWords size a m (t :: rest) = loadWords size p m rest := by
  rw [loadWords, parseToken_of_address h]

/-- What is neither form of token is malformed. -/
theorem loadWords_malformed {t : List Char} (hb : ∀ b, ¬ ByteToken t b) (ha : ∀ p, ¬ AddressToken t p) (size a : Nat)
    (m : Memory) (rest : List (List Char)) : loadWords size a m (t :: rest) = none := by
  have hnone : parseToken t = none := by
    rcases hk : parseToken t with _ | k
    · rfl
    · rcases parseToken_cases hk with ⟨p, -, hp⟩ | ⟨b, -, hbt⟩
      · exact absurd hp (ha p)
      · exact absurd hbt (hb b)
  rw [loadWords, hnone]

/-! ## Byte after byte -/

/-- Bytes written one after another from an address on. -/
def Memory.fill (m : Memory) : Nat → List Byte → Memory
  | _, [] => m
  | a, b :: bs => Memory.fill (m.write a b) (a + 1) bs

theorem Memory.fill_wf {m : Memory} (h : m.wf) (a : Nat) (bs : List Byte) : (m.fill a bs).wf := by
  induction bs generalizing m a with
  | nil => exact h
  | cons b bs ih => exact ih (write_wf h a b) (a + 1)

/-- What a byte reads as behind a fill: the byte of the list at its distance from the start, and what it was before outside
the list. -/
theorem Memory.read_fill {m : Memory} (h : m.wf) (a : Nat) (bs : List Byte) (k : Nat) :
    (m.fill a bs).read k = if a ≤ k then bs.getD (k - a) (m.read k) else m.read k := by
  induction bs generalizing m a with
  | nil => simp [fill]
  | cons b bs ih =>
    rw [fill, ih (write_wf h a b)]
    rcases Nat.lt_trichotomy k a with hk | rfl | hk
    · rw [if_neg (by omega), if_neg (by omega), read_write_other h b (by omega)]
    · rw [if_neg (by omega), if_pos le_rfl, read_write_same h]
      simp
    · obtain ⟨n, rfl⟩ := Nat.exists_eq_add_of_lt hk
      rw [if_pos (by omega), if_pos (by omega), read_write_other h b (by omega), Nat.add_sub_add_right,
        Nat.add_assoc, Nat.add_sub_cancel_left, Nat.add_sub_cancel_left, List.getD_cons_succ]

/-- Byte tokens that fit fill memory from the load address, and the tokens behind them are read from the address behind the
last byte. -/
theorem loadWords_bytes {ts : List (List Char)} {bs : List Byte} (h : List.Forall₂ ByteToken ts bs) {size a : Nat}
    (hfit : a + bs.length ≤ size) (m : Memory) (rest : List (List Char)) :
    loadWords size a m (ts ++ rest) = loadWords size (a + bs.length) (m.fill a bs) rest := by
  induction h generalizing a m with
  | nil => rfl
  | @cons t b ts bs ht _ ih =>
    rw [List.length_cons] at hfit ⊢
    rw [List.cons_append, loadWords_byte ht, if_pos (by omega), ih (by omega), Memory.fill, Nat.add_assoc,
      Nat.add_comm 1]

/-- Settles O60, clause by clause: bytes, the end of the image, a byte out of range, an address, a malformed token. -/
theorem loaderFillsConsecutiveBytes : Obligations.LoaderFillsConsecutiveBytes := by
  intro size a m hm
  refine ⟨fun ts bs hts hfit => ⟨m.fill a bs, Memory.fill_wf hm a bs, Memory.read_fill hm a bs, fun rest => ?_⟩,
    fun _ => rfl, fun t b rest ht hout => ?_, fun t p rest ht => ?_, fun t rest hb ha => ?_⟩
  · exact loadWords_bytes hts hfit m rest
  · rw [loadWords_byte ht, if_neg (Nat.not_lt.mpr hout)]
  · exact loadWords_address ht size a m rest
  · exact loadWords_malformed hb ha size a m rest

end Sys2Proof.Machine
end
